-- ==== Sys2Proof/Word.lean ====
section
/-! DEFINITION. The word types: what the spec moves as bits (00_scope.md R13, R14). -/

namespace Sys2Proof

/-- An 8-bit unsigned value (R14). -/
abbrev Byte := BitVec 8

/-- A 32-bit word of the host ports: descriptor words (R89) and response words (R93). -/
abbrev Word := BitVec 32

/-- A 24-bit flash address, as a descriptor (R89) and the wire (R82) carry it. -/
abbrev Addr := BitVec 24

end Sys2Proof
end

