-- ==== Sys2Proof/Config.lean ====
section
/-! DEFINITION. What an implementation fixes (00_scope.md R9 to R12) and the free values the spec leaves open. -/

namespace Sys2Proof.Config

/-- `S`, the sector size in bytes (R9). -/
abbrev sectorSize : Nat := 4096

/-- `P`, the page size in bytes (R9). -/
abbrev pageSize : Nat := 256

/-- `PPS`, the pages of a sector (R9: `S / P`). -/
abbrev pagesPerSector : Nat := sectorSize / pageSize

/-- `ABITS`, the address bits on the wire (R9). -/
abbrev addressBits : Nat := 24

/-- The seven command opcodes (R11). -/
structure Opcodes where
  wren : Byte
  rdsr : Byte
  rdid : Byte
  read : Byte
  pp   : Byte
  se   : Byte
  ce   : Byte
  deriving DecidableEq, Repr

/-- The seven opcodes in the order of R11. -/
def Opcodes.all (o : Opcodes) : List Byte := [o.wren, o.rdsr, o.rdid, o.read, o.pp, o.se, o.ce]

/-- "The seven values must be pairwise distinct" (R11). -/
def Opcodes.distinct (o : Opcodes) : Bool := decide o.all.Nodup

/-- The default opcode values of 30_encoding.md R86. PRESUMED, unsafe (log entry 2): the spec marks them as general
knowledge (the Winbond W25Q family's numbering), and no rule depends on them beyond their being distinct. -/
def Opcodes.usual : Opcodes :=
  { wren := 0x06, rdsr := 0x05, rdid := 0x90, read := 0x03, pp := 0x02, se := 0x20, ce := 0xC7 }

/-- The implementation parameters (R9 to R12), one value of each for a machine. They stand in State, where no step
writes them, so that a statement about every state holds for every value of them (log entry 1). -/
structure Params where
  /-- `CAPACITY`, the bytes of the flash (R9). -/
  capacity : Nat
  /-- `T_PP`, the wait-ready timeout after a page program, in milliseconds (R10). -/
  tPP : Nat
  /-- `T_SE`, the wait-ready timeout after a sector erase (R10). -/
  tSE : Nat
  /-- `T_CE`, the wait-ready timeout after a chip erase (R10). -/
  tCE : Nat
  /-- `XFER_TIMEOUT`, passed to each blocking transport call (R10); its expiry is one cause of an `Err` (R111), and no
  rule reads it (D4). -/
  xferTimeout : Nat
  /-- The command opcodes (R11). -/
  ops : Opcodes
  /-- `DEVICE_ID`, what the device answers to the read-unique-ID command (R12). -/
  deviceId : BitVec 16
  deriving DecidableEq, Repr

/-- The constraints the spec puts on the parameters: R9 on the capacity, R10 on the erase timeouts, R11 on the
opcodes. -/
def Params.wf (p : Params) : Bool :=
  decide (p.capacity % sectorSize = 0) && decide (sectorSize ≤ p.capacity) && decide (p.capacity ≤ 2 ^ addressBits)
    && decide (p.tSE < p.tCE) && p.ops.distinct

/-- The parameters of `State.reset`. DESIGN CHOICE, unsafe (log entry 1): the spec leaves them open; these are the
conventions of its own test vectors (95_test_vectors.md), which give no transport timeout. -/
def Params.launch : Params :=
  { capacity := 0x100000, tPP := 5, tSE := 400, tCE := 20000, xferTimeout := 1000, ops := Opcodes.usual,
    deviceId := 0xEF13 }

/-- The agents that take steps (10_state.md R20). -/
inductive Agent where
  | engine
  | dma
  | device
  | clock
  | host
  deriving DecidableEq, Repr, Inhabited

/-- The free value behind every draw of the spec (transport results, status bits 7:1, the latch and the bytes a failed
transaction leaves: R36, R111, R122, R123, R202), applied to a counter. No body, so no proof can see a value
(log entry 7). -/
opaque freeByte : Nat → Byte

/-- The free value behind "any enabled step of any agent may be taken next" (R20), applied to a counter
(log entry 8). -/
opaque freeAgent : Nat → Agent

/-- The weakly fair agents: the Clock (R37), the DMA agent (46_read_path.md R202) and the Engine, without whose steps no
`WaitReady` ends (DEDUCED from 41_status_poller.md R146; log entry 29). The Device is not fair (40_sequencer.md R122). -/
def fairAgents : List Agent := [.engine, .dma, .clock]

/-- The free value behind "nothing else bounds the number of Engine steps between two clock steps" (R37): how many turns of
a round are free choices before the fair agents that have had none in it get theirs. Applied to the number of the round
(log entry 9). -/
opaque freeGap : Nat → Nat

end Sys2Proof.Config
end

