-- ==== Sys2Proof/Syntax.lean ====
section
/-! DEFINITION. The instructions: the nine request ops and the seven wire commands of spec/opcode_table.json. -/

namespace Sys2Proof

/-- One constructor per row of the opcode table. A request carries the descriptor fields its op uses (30_encoding.md
R90); a wire command carries what its frame carries (R81). -/
inductive Instr where
  /-- `MWRITE a, d` with `LEN = n`: the managed write (R180). -/
  | mwrite (a : Addr) (n : Word) (d : List Byte)
  /-- `WNOCHK a, d` with `LEN = n`: the write without erase (R170). -/
  | wnochk (a : Addr) (n : Word) (d : List Byte)
  /-- `PPROG a, d` with `LEN = n`: the single-page program (R160). -/
  | pprog (a : Addr) (n : Word) (d : List Byte)
  /-- `SERASE a`: the sector erase (R150). -/
  | serase (a : Addr)
  /-- `CERASE`: the chip erase (R152). -/
  | cerase
  /-- `WREADY t`: wait for the device to be ready, `t` milliseconds at most (R140). -/
  | wready (t : Word)
  /-- `READ a, n`: the synchronous read (R200). -/
  | read (a : Addr) (n : Word)
  /-- `READA a, n`: the asynchronous read (R201). -/
  | reada (a : Addr) (n : Word)
  /-- `RDID`: the device ID request (R204). -/
  | rdid
  /-- The write-enable command, format W0 (R115). -/
  | wireWren
  /-- The read-status command, format W1 (R116). -/
  | wireRdsr
  /-- The read-unique-ID command, format W2 (R117). -/
  | wireRdid
  /-- The read-data command at `a` with an `n`-byte reply, format W3 (R118). -/
  | wireRead (a : Addr) (n : Nat)
  /-- The page-program command at `a` with payload `d`, format W4 (R119). -/
  | wirePp (a : Addr) (d : List Byte)
  /-- The sector-erase command at `a`, format W5 (R120). -/
  | wireSe (a : Addr)
  /-- The chip-erase command, format W0 (R121). -/
  | wireCe
  deriving DecidableEq, Repr

end Sys2Proof
end

