-- ==== Sys2Proof/Decode.lean ====
section
/-! DEFINITION. The two encodings of 30_encoding.md, read (decode) and written (encode): request descriptors (R89 to
R92) and wire frames (R80 to R88). -/

namespace Sys2Proof

/-- The request descriptor of R89: three 32-bit words and a byte sequence. -/
structure Descriptor where
  w0 : Word
  w1 : Word
  w2 : Word
  data : List Byte
  deriving DecidableEq, Repr

/-- One chip-select-framed transaction of R80: the command-phase bytes and the payload bytes the engine sends, and how
many reply bytes it receives. -/
structure WireFrame where
  cmd : List Byte
  tx : List Byte
  rxlen : Nat
  deriving DecidableEq, Repr

/-- An encoded instruction: what stands at the request port, or what goes over the wire. -/
inductive Encoded where
  | request (d : Descriptor)
  | wire (f : WireFrame)
  deriving DecidableEq, Repr

/-- Why bytes are no instruction. -/
inductive DecodeError where
  /-- The op code selects no operation (R91). -/
  | reservedOp (op : Byte)
  /-- The opcode byte is none of the seven (R88). -/
  | unknownOpcode (op : Byte)
  /-- The frame has not the length its opcode's format has (R87: "No other length ... exists"). -/
  | badLength (op : Byte)
  /-- A frame without an opcode byte (R80). -/
  | emptyFrame
  deriving DecidableEq, Repr

/-! ### Addresses and identifiers -/

/-- `addr24(A)`, most significant byte first (R82). -/
def addr24 (a : Addr) : List Byte := [a.extractLsb' 16 8, a.extractLsb' 8 8, a.extractLsb' 0 8]

/-- The address that three wire bytes carry, the first the most significant (R60, R82). -/
def addrOfBytes (b2 b1 b0 : Byte) : Addr := b2 ++ b1 ++ b0

/-! ### Request descriptors -/

/-- `op = w0[31:24]` (R92). -/
def Descriptor.op (d : Descriptor) : Byte := d.w0.extractLsb' 24 8

/-- `a = w0[23:0]` (R92). -/
def Descriptor.addr (d : Descriptor) : Addr := d.w0.extractLsb' 0 24

/-- The op codes of R90. -/
abbrev opMwrite : Byte := 0x01
abbrev opWnochk : Byte := 0x02
abbrev opPprog : Byte := 0x03
abbrev opSerase : Byte := 0x04
abbrev opCerase : Byte := 0x05
abbrev opWready : Byte := 0x06
abbrev opRead : Byte := 0x07
abbrev opReada : Byte := 0x08
abbrev opRdid : Byte := 0x09

/-- Operand decoding at the request port (R90 to R92): each op takes the fields it uses and ignores the rest. -/
def decodeRequest (d : Descriptor) : Except DecodeError Instr :=
  if d.op = opMwrite then .ok (.mwrite d.addr d.w1 d.data)
  else if d.op = opWnochk then .ok (.wnochk d.addr d.w1 d.data)
  else if d.op = opPprog then .ok (.pprog d.addr d.w1 d.data)
  else if d.op = opSerase then .ok (.serase d.addr)
  else if d.op = opCerase then .ok .cerase
  else if d.op = opWready then .ok (.wready d.w2)
  else if d.op = opRead then .ok (.read d.addr d.w1)
  else if d.op = opReada then .ok (.reada d.addr d.w1)
  else if d.op = opRdid then .ok .rdid
  else .error (.reservedOp d.op)

/-- The assembled descriptor of R95, unused fields 0. -/
def assemble (op : Byte) (a : Addr) (len tmo : Word) (d : List Byte) : Descriptor :=
  { w0 := op ++ a, w1 := len, w2 := tmo, data := d }

/-! ### Wire frames -/

/-- The wire formats of R81, told apart by the opcode byte and the frame's length (R87). The three dummy bytes of W2 are
ignored (R117). A W4 payload of any length is read: its length is the device's check (R119). -/
def decodeWire (o : Config.Opcodes) (f : WireFrame) : Except DecodeError Instr :=
  match f.cmd ++ f.tx with
  | [] => .error .emptyFrame
  | op :: rest =>
    if op = o.wren then
      if rest = [] ∧ f.rxlen = 0 then .ok .wireWren else .error (.badLength op)
    else if op = o.rdsr then
      if rest = [] ∧ f.rxlen = 1 then .ok .wireRdsr else .error (.badLength op)
    else if op = o.rdid then
      if rest.length = 3 ∧ f.rxlen = 2 then .ok .wireRdid else .error (.badLength op)
    else if op = o.read then
      match rest with
      | [b2, b1, b0] => if 1 ≤ f.rxlen then .ok (.wireRead (addrOfBytes b2 b1 b0) f.rxlen) else .error (.badLength op)
      | _ => .error (.badLength op)
    else if op = o.pp then
      match rest with
      | b2 :: b1 :: b0 :: d => if f.rxlen = 0 then .ok (.wirePp (addrOfBytes b2 b1 b0) d) else .error (.badLength op)
      | _ => .error (.badLength op)
    else if op = o.se then
      match rest with
      | [b2, b1, b0] => if f.rxlen = 0 then .ok (.wireSe (addrOfBytes b2 b1 b0)) else .error (.badLength op)
      | _ => .error (.badLength op)
    else if op = o.ce then
      if rest = [] ∧ f.rxlen = 0 then .ok .wireCe else .error (.badLength op)
    else .error (.unknownOpcode op)

/-- The instruction of an encoded form. -/
def decode (o : Config.Opcodes) : Encoded → Except DecodeError Instr
  | .request d => decodeRequest d
  | .wire f => decodeWire o f

/-- The encoding of an instruction: the descriptor of R89 with unused fields 0 (R95), or the frame of R81 with the
command bytes of 40_sequencer.md R125 (dummy bytes `0x00`, R85). -/
def encode (o : Config.Opcodes) : Instr → Encoded
  | .mwrite a n d => .request (assemble opMwrite a n 0 d)
  | .wnochk a n d => .request (assemble opWnochk a n 0 d)
  | .pprog a n d  => .request (assemble opPprog a n 0 d)
  | .serase a     => .request (assemble opSerase a 0 0 [])
  | .cerase       => .request (assemble opCerase 0 0 0 [])
  | .wready t     => .request (assemble opWready 0 0 t [])
  | .read a n     => .request (assemble opRead a n 0 [])
  | .reada a n    => .request (assemble opReada a n 0 [])
  | .rdid         => .request (assemble opRdid 0 0 0 [])
  | .wireWren     => .wire { cmd := [o.wren], tx := [], rxlen := 0 }
  | .wireRdsr     => .wire { cmd := [o.rdsr], tx := [], rxlen := 1 }
  | .wireRdid     => .wire { cmd := [o.rdid, 0x00, 0x00, 0x00], tx := [], rxlen := 2 }
  | .wireRead a n => .wire { cmd := o.read :: addr24 a, tx := [], rxlen := n }
  | .wirePp a d   => .wire { cmd := o.pp :: addr24 a, tx := d, rxlen := 0 }
  | .wireSe a     => .wire { cmd := o.se :: addr24 a, tx := [], rxlen := 0 }
  | .wireCe       => .wire { cmd := [o.ce], tx := [], rxlen := 0 }

/-- What the engine sends on the wire while the frame lasts: its own bytes, then one filler byte `0xFF` for each byte it
receives (R85). -/
def WireFrame.sent (f : WireFrame) : List Byte := f.cmd ++ f.tx ++ List.replicate f.rxlen 0xFF

/-- The length of a transaction on the wire (R87): bytes sent and bytes received. -/
def WireFrame.length (f : WireFrame) : Nat := f.cmd.length + f.tx.length + f.rxlen

/-! ### The opcode table's numbering -/

/-- The shortest frame of R81 that starts with the opcode byte `op`, every other byte 0: address 0, one reply byte, one
payload byte. DESIGN CHOICE, safe (log entry 20): the table gives a wire row its opcode byte alone. -/
def shortestFrame (o : Config.Opcodes) (op : Byte) : WireFrame :=
  if op = o.rdsr then { cmd := [op], tx := [], rxlen := 1 }
  else if op = o.rdid then { cmd := [op, 0, 0, 0], tx := [], rxlen := 2 }
  else if op = o.read then { cmd := [op, 0, 0, 0], tx := [], rxlen := 1 }
  else if op = o.pp then { cmd := [op, 0, 0, 0], tx := [0], rxlen := 0 }
  else if op = o.se then { cmd := [op, 0, 0, 0], tx := [], rxlen := 0 }
  else { cmd := [op], tx := [], rxlen := 0 }

/-- The encoded form of a table row's bits: a row of at most 8 bits is a wire command, whose opcode byte is `w`; any
other row is a request descriptor whose words are `w`'s 32-bit words, the first the least significant. -/
def tableEncoded (o : Config.Opcodes) (nbits w : Nat) : Encoded :=
  if nbits ≤ 8 then .wire (shortestFrame o (BitVec.ofNat 8 w))
  else .request { w0 := BitVec.ofNat 32 w, w1 := BitVec.ofNat 32 (w / 2 ^ 32), w2 := BitVec.ofNat 32 (w / 2 ^ 64), data := [] }

/-- The instruction this decoder reads from a word of the opcode table, under the default opcodes of R86. -/
def decodeTableWord (nbits w : Nat) : Option Instr :=
  match decode Config.Opcodes.usual (tableEncoded Config.Opcodes.usual nbits w) with
  | .ok i => some i
  | .error _ => none

end Sys2Proof
end

