-- ==== Sys2Proof/Machine/State.lean ====
section
/-! DEFINITION. The state of the machine (10_state.md): the engine, the device, the DMA agent, the clock and the host's
ports, as plain data; the reasons a step can stop; and the state after reset. -/

namespace Sys2Proof.Machine

/-- The model faults of 60_exceptions.md R224. The step that raises one is a next state whose fault mark holds it; every
later step ends in `Host.Outcome.fault` with it (log entry 11). Stopping is safe. -/
inductive Fault where
  /-- Raised at acceptance by a request that breaks its precondition (R223). Safe. -/
  | contractViolation
  /-- Raised at acceptance by a request whose op code selects no operation (R91). Safe. -/
  | reservedOp
  /-- Raised by a wire command other than RDSR, or by the start of an asynchronous read, while the device is busy
  (R124). Safe. -/
  | deviceBusyAccess
  /-- Raised by PP, SE or CE without the write-enable latch (R119 to R121). Safe. -/
  | noWriteEnable
  /-- Raised by a command whose effect the source leaves to the device: an unaligned SE, an empty or oversized PP, an
  address past the capacity (R118 to R120). Safe. -/
  | deviceDefined
  /-- Raised by a read of a Scratch Buffer cell that nothing has written (R27). Safe. -/
  | unwrittenScratch
  deriving DecidableEq, Repr

/-- The reasons a step gives no meaning. -/
inductive Refusal where
  /-- An arm of `exec` that has no meaning yet. Safe. -/
  | notModelled (mnemonic : String)
  /-- Raised by `step` when the frame the engine built is none of the seven commands' (R88). With pairwise distinct
  opcodes (R11) no step raises it. Safe. -/
  | unknownCommand (e : DecodeError)
  deriving DecidableEq, Repr

/-- The kinds of transaction (40_sequencer.md R110). -/
inductive Kind where
  | wren | rdsr | rdid | read | pp | se | ce
  deriving DecidableEq, Repr

/-- A transaction with its operands: what `Xact` is called with (R110). -/
inductive Wire where
  | wren
  | rdsr
  | rdid
  | read (a : Addr) (n : Nat)
  | pp (a : Addr) (d : List Byte)
  | se (a : Addr)
  | ce
  deriving DecidableEq, Repr

/-- The outcomes a request posts (R220). -/
inductive OpOutcome where
  | ok | timeout | transportError
  deriving DecidableEq, Repr

/-- Where a write takes its bytes from (10_state.md R24 `src`). -/
inductive Source where
  | req | scratch
  deriving DecidableEq, Repr

/-- The control points of `ManagedWrite` (R22). -/
inductive MwPoint where
  | chunk | read | scan | erase | merge | prog | adv
  deriving DecidableEq, Repr

/-- The control points of `WriteNoCheck` (R22). -/
inductive WnPoint where
  | loop | page | adv
  deriving DecidableEq, Repr

/-- The control points that `ProgramPage`, `EraseSector` and `EraseChip` share: write-enable, command, wait (R22). -/
inductive CmdPoint where
  | wren | cmd | wait
  deriving DecidableEq, Repr

/-- The control points of `WaitReady` (R22). -/
inductive WrPoint where
  | t0 | poll | clk
  deriving DecidableEq, Repr

/-- The local registers of `ManagedWrite` (R22, R24, R25), naturals as R14 and R24 say. -/
structure MwLocals where
  a : Nat
  di : Nat
  n : Nat
  sec : Nat
  off : Nat
  chunk : Nat
  need : Bool
  deriving DecidableEq, Repr

/-- The local registers of `WriteNoCheck` (R22, R24). -/
structure WnLocals where
  src : Source
  a : Nat
  si : Nat
  n : Nat
  chunk : Nat
  deriving DecidableEq, Repr

/-- A frame of the control stack: a procedure, its control point and its local registers (R22). -/
inductive Frame where
  | managedWrite (pt : MwPoint) (l : MwLocals)
  | writeNoCheck (pt : WnPoint) (l : WnLocals)
  | programPage (pt : CmdPoint) (src : Source) (si a n : Nat)
  | eraseSector (pt : CmdPoint) (a : Nat)
  | eraseChip (pt : CmdPoint)
  | waitReady (pt : WrPoint) (timeout t0 : Nat) (kind : Kind) (addr : Nat)
  | read (a n : Nat)
  | readAsync (a n : Nat)
  | readId
  deriving DecidableEq, Repr

/-- How a request ended, while its response waits for the next Engine step (R226). -/
inductive Exit where
  /-- The outermost frame returned `Ok`, with what a READ or an RDID hands over. -/
  | ok (rdata : List Byte) (id : BitVec 16)
  /-- `fail(outcome, kind, addr)`. -/
  | failed (outcome : OpOutcome) (kind : Kind) (addr : Nat)
  deriving DecidableEq, Repr

/-- The control state `ctl` (R22). `ending` is the moment between the end of a request and its posted response, which
R226 puts in the next Engine step (DEDUCED, log entry 13). The head of `busy` is the innermost frame. -/
inductive Ctl where
  | idle
  | busy (stack : List Frame)
  | ending (x : Exit)
  deriving DecidableEq, Repr

/-- The request latch (R23), and a descriptor's fields (R92). -/
structure Request where
  op : Byte
  addr : Addr
  len : Word
  tmo : Word
  data : List Byte
  deriving DecidableEq, Repr

/-- The response record (30_encoding.md R93). -/
structure Response where
  outcome : OpOutcome
  failKind : Option Kind
  failAddr : Addr
  committed : Word
  rdata : List Byte
  id : BitVec 16
  deriving DecidableEq, Repr

/-- The completion record of an asynchronous read (R94). -/
structure Completion where
  outcome : OpOutcome
  data : List Byte
  deriving DecidableEq, Repr

/-- The response register `resp` (R31). -/
structure RespReg where
  valid : Bool
  record : Response
  deriving DecidableEq, Repr

/-- The completion register `cmpl` (R32). -/
structure CmplReg where
  valid : Bool
  record : Completion
  deriving DecidableEq, Repr

/-- An entry of the event trace (R34, R114). -/
inductive Event where
  | accept (r : Request)
  /-- `XACT(kind, cmd, tx, rxlen, result)`, the result being the reply bytes, or `none` for `Err`. -/
  | xact (kind : Kind) (cmd tx : List Byte) (rxlen : Nat) (result : Option (List Byte))
  | astart (a n : Nat) (ok : Bool)
  | adone (r : Completion)
  | clk (t : Nat)
  | resp (r : Response)
  deriving DecidableEq, Repr

/-- `Dev.pending` (R39). -/
inductive Pending where
  | none
  | pp (a : Nat) (d : List Byte)
  | se (a : Nat)
  | ce
  | havoc (lo hi : Nat)
  deriving DecidableEq, Repr

/-- The flash array as its bytes other than `0xFF`, addresses strictly rising (R38; log entry 3). -/
abbrev Memory := List Host.Cell

/-- The device (R38 to R40). Its status register has no field: bit 0 is `pending`, the other bits are draws (R36). -/
structure Device where
  array : Memory
  pending : Pending
  wel : Bool
  deriving DecidableEq, Repr

/-- `Dma.job` (R41). -/
inductive DmaJob where
  | none
  | rx (a n : Nat)
  deriving DecidableEq, Repr

/-- What the host can do (R42, R242). -/
inductive HostMove where
  /-- Put a descriptor on the request port. -/
  | issue (d : Descriptor)
  /-- Consume the response. -/
  | takeResp
  /-- Consume the completion record. -/
  | takeCmpl
  deriving DecidableEq, Repr

/-- The model's own state for what the spec leaves free: whose step comes next (R20) and what the next draws are. Listed
values come first; where none is listed, `Config.freeAgent` and `Config.freeByte` of `tick` (log entries 7, 8). The turns
that are not listed come in rounds, and no round ends before every fair agent has had a turn in it (R37; log entry 9). -/
structure Env where
  /-- The coming turns. -/
  turns : List Config.Agent
  /-- The coming draws. -/
  draws : List Byte
  /-- How many free values have been taken. -/
  tick : Nat
  /-- The fair agents that have had no turn in this round. -/
  owed : List Config.Agent
  /-- The turns taken in this round. -/
  waited : Nat
  /-- The rounds before this one. -/
  round : Nat
  deriving DecidableEq, Repr

/-- The state of the machine. -/
structure State where
  /-- The implementation parameters (R9 to R12); no step writes them. -/
  params : Config.Params
  /-- The request port (R4, R42): the descriptor the host has put there. -/
  port : Option Descriptor
  /-- The control state (R22). -/
  ctl : Ctl
  /-- The request latch (R23). -/
  req : Option Request
  /-- The Scratch Buffer (R27): `S` cells, `none` for `unwritten`. -/
  scratch : List (Option Byte)
  /-- The in-flight flag (R28). -/
  inflight : Bool
  /-- `async_a` (R28). -/
  asyncA : Nat
  /-- `async_n` (R28). -/
  asyncN : Nat
  /-- The chip-select output (R29). -/
  cs : Bool
  /-- The committed-length register (R30). -/
  committed : Nat
  /-- The response register (R31). -/
  resp : RespReg
  /-- The completion register (R32). -/
  cmpl : CmplReg
  /-- The fault mark (R33). -/
  fault : Option Fault
  /-- The event trace (R34), oldest first. -/
  trace : List Event
  /-- The flash device (R36, R38 to R40). -/
  dev : Device
  /-- The DMA agent's job (R41). -/
  dma : DmaJob
  /-- The millisecond clock (R37). -/
  now : Nat
  /-- The host's coming moves (the model's own field, log entry 10). -/
  host : List HostMove
  /-- The open choices (the model's own field, log entries 7 to 9). -/
  env : Env
  deriving DecidableEq, Repr

/-- The response fields before a response is posted: R44 gives them no value. DESIGN CHOICE, unsafe (log entry 5). -/
def Response.blank : Response :=
  { outcome := .ok, failKind := none, failAddr := 0, committed := 0, rdata := [], id := 0 }

/-- The completion fields before a completion is posted: R44 gives them no value. DESIGN CHOICE, unsafe (log
entry 5). -/
def Completion.blank : Completion := { outcome := .ok, data := [] }

/-- The machine after reset: the engine as R44 says, the device, DMA agent and clock as R45 says. Where the spec makes a
value a model argument or gives none, DESIGN CHOICE (log entries 1 to 10). -/
def State.reset : State :=
  { params := Config.Params.launch
    port := none
    ctl := .idle
    req := none
    scratch := List.replicate Config.sectorSize none
    inflight := false
    asyncA := 0
    asyncN := 0
    cs := false
    committed := 0
    resp := { valid := false, record := Response.blank }
    cmpl := { valid := false, record := Completion.blank }
    fault := none
    trace := []
    dev := { array := [], pending := .none, wel := false }
    dma := .none
    now := 0
    host := []
    env := { turns := [], draws := [], tick := 0, owed := Config.fairAgents, waited := 0, round := 0 } }

end Sys2Proof.Machine
end

