-- ==== Sys2Proof/Machine/Memory.lean ====
section
/-! DEFINITION. The flash array's operations (20_memory.md): one byte read and written, ranges, programming and
erasing. An address that is not listed reads as the erased byte (log entry 3). -/

namespace Sys2Proof.Machine

/-- What an unlisted address reads as: the erased byte (20_memory.md R57). DESIGN CHOICE, unsafe, as a reset value
(log entry 3). -/
abbrev erased : Byte := 0xFF

/-- `Dev.array[a]` (R38). -/
def Memory.read : Memory → Nat → Byte
  | [], _ => erased
  | (b, v) :: t, a => if b = a then v else Memory.read t a

/-- The array without an entry for `a`. -/
def Memory.remove : Memory → Nat → Memory
  | [], _ => []
  | (b, v) :: t, a => if b = a then t else if a < b then (b, v) :: t else (b, v) :: Memory.remove t a

/-- The array with an entry for `a`, in its place. -/
def Memory.put : Memory → Nat → Byte → Memory
  | [], a, v => [(a, v)]
  | (b, w) :: t, a, v =>
    if b = a then (a, v) :: t else if a < b then (a, v) :: (b, w) :: t else (b, w) :: Memory.put t a v

/-- `Dev.array[a] <- v`, in canonical form: the erased byte is not listed. -/
def Memory.write (m : Memory) (a : Nat) (v : Byte) : Memory := if v = erased then m.remove a else m.put a v

/-- `MemRead(a, n)`, lowest address first (20_memory.md R55, R61). -/
def Memory.readRange (m : Memory) (a : Nat) : Nat → List Byte
  | 0 => []
  | n + 1 => m.read a :: Memory.readRange m (a + 1) n

/-- The bytes `bs` at `a` and the addresses after it. -/
def Memory.writeRange (m : Memory) (a : Nat) : List Byte → Memory
  | [] => m
  | v :: vs => Memory.writeRange (m.write a v) (a + 1) vs

/-- The target address of payload byte `i` of a program at `a`: it wraps within the page (40_sequencer.md R119). -/
def pageTarget (a i : Nat) : Nat := (a - a % Config.pageSize) + (a % Config.pageSize + i) % Config.pageSize

/-- The payload bytes from index `i` on, each ANDed into its target (20_memory.md R56, 40_sequencer.md R122). -/
def Memory.program (m : Memory) (a : Nat) : Nat → List Byte → Memory
  | _, [] => m
  | i, v :: vs => Memory.program (m.write (pageTarget a i) (m.read (pageTarget a i) &&& v)) a (i + 1) vs

/-- Every byte of `[lo, hi)` erased (20_memory.md R57, R58). -/
def Memory.erase (m : Memory) (lo hi : Nat) : Memory := m.filter fun c => decide (c.1 < lo) || decide (hi ≤ c.1)

/-- Addresses strictly rising, each past `lo` (`lo ≤`), no erased byte listed, from an address on. -/
def Memory.wfFrom : Nat → Memory → Bool
  | _, [] => true
  | lo, (b, v) :: t => decide (lo ≤ b) && (v != erased) && Memory.wfFrom (b + 1) t

/-- The canonical form: addresses strictly rising and no entry equal to what an unlisted address reads as. -/
def Memory.wf (m : Memory) : Bool := m.wfFrom 0

/-- Every listed address exists (20_memory.md R50: `[0, CAPACITY)`). -/
def Memory.within (m : Memory) (cap : Nat) : Bool := m.all fun c => decide (c.1 < cap)

end Sys2Proof.Machine
end

