-- ==== Sys2Proof/Machine/Ops.lean ====
section
/-! DEFINITION. The named operations on the state: field updates, draws, request latching, the model fault, the error
exit and the posting of a response (60_exceptions.md R224, R226). -/

namespace Sys2Proof.Machine

/-! ### Field updates -/

/-- `ctl <- c`. -/
def State.withCtl (s : State) (c : Ctl) : State := { s with ctl := c }

/-- The device replaced. -/
def State.withDev (s : State) (d : Device) : State := { s with dev := d }

/-- The Scratch Buffer replaced. -/
def State.withScratch (s : State) (c : List (Option Byte)) : State := { s with scratch := c }

/-- The open choices replaced. -/
def State.withEnv (s : State) (e : Env) : State := { s with env := e }

/-- The completion record posted, valid bit set (R32, R202). -/
def State.withCmpl (s : State) (c : Completion) : State := { s with cmpl := { valid := true, record := c } }

/-- `trace.append(e)` (40_sequencer.md R114). -/
def State.log (s : State) (e : Event) : State := { s with trace := s.trace ++ [e] }

/-- `committed <- committed + k` (R30). -/
def State.addCommitted (s : State) (k : Nat) : State := { s with committed := s.committed + k }

/-! ### Draws and turns -/

/-- One draw: the next listed byte, else the next free value (log entry 7). -/
def State.drawByte (s : State) : Byte × State :=
  match s.env.draws with
  | b :: t => (b, s.withEnv { s.env with draws := t })
  | [] => (Config.freeByte s.env.tick, s.withEnv { s.env with tick := s.env.tick + 1 })

/-- A one-bit draw: bit 0 of a drawn byte (log entry 7). -/
def State.drawBit (s : State) : Bool × State := (s.drawByte.1.getLsbD 0, s.drawByte.2)

/-- `n` draws, the first draw first. -/
def State.drawBytes (s : State) : Nat → List Byte × State
  | 0 => ([], s)
  | n + 1 => (s.drawByte.1 :: (State.drawBytes s.drawByte.2 n).1, (State.drawBytes s.drawByte.2 n).2)

/-- The result of one blocking transport call (R111): `Ok` when bit 0 of the draw is 0 (log entry 7). -/
def State.drawOk (s : State) : Bool × State := (!s.drawBit.1, s.drawBit.2)

/-- Whose turn it is where none is listed: any agent (R20) while the round's free gap lasts, then a fair agent that has had
no turn in the round (R37; log entries 8, 9). -/
def Env.choice (e : Env) : Config.Agent :=
  if Config.freeGap e.round ≤ e.waited then e.owed.headD .clock else Config.freeAgent e.tick

/-- What is left after an unlisted turn of `g`: the next round, once every fair agent has had its turn in this one (log
entry 9). -/
def Env.afterChoice (e : Env) (g : Config.Agent) : Env :=
  let left := e.owed.filter (· ≠ g)
  if left = [] then
    { e with tick := e.tick + 1, owed := Config.fairAgents, waited := 0, round := e.round + 1 }
  else { e with tick := e.tick + 1, owed := left, waited := e.waited + 1 }

/-- Whose step comes next (R20), and what is left: the next listed turn, else the next choice (log entries 8, 9). -/
def Env.nextTurn (e : Env) : Config.Agent × Env :=
  match e.turns with
  | g :: t => (g, { e with turns := t })
  | [] => (e.choice, e.afterChoice e.choice)

/-- The next turn taken from the state's open choices (R20). -/
def State.takeTurn (s : State) : Config.Agent × State := (s.env.nextTurn.1, s.withEnv s.env.nextTurn.2)

/-! ### The model fault -/

/-- `raise Fault(reason)`: the mark holds the first reason raised (R33, R224). -/
def State.raise (s : State) (r : Fault) : State :=
  match s.fault with
  | none => { s with fault := some r }
  | some _ => s

/-! ### Acceptance -/

/-- A descriptor's fields, zero-extended as they stand (30_encoding.md R92). -/
def Descriptor.fields (d : Descriptor) : Request :=
  { op := d.op, addr := d.addr, len := d.w1, tmo := d.w2, data := d.data }

/-- The fields of the descriptor at the request port, all 0 where the port is empty. An instruction writes the fields
it carries over them, so that the latch keeps the fields its op ignores (R89; log entry 19). -/
def State.incoming (s : State) : Request :=
  match s.port with
  | some d => Descriptor.fields d
  | none => { op := 0, addr := 0, len := 0, tmo := 0, data := [] }

/-- When the engine accepts a request with this op (10_state.md R43). -/
def State.canAccept (s : State) (op : Byte) : Bool :=
  s.ctl == .idle && s.fault == none && !s.resp.valid && (op != opReada || !s.cmpl.valid)

/-- The latching of an accepted request: the latch, the committed length, the port it came from and the trace (R43 steps
1 and 2, R114; log entry 12). -/
def State.latch (s : State) (r : Request) : State :=
  { s with req := some r, committed := 0, port := none, trace := s.trace ++ [.accept r] }

/-- The acceptance of request `r` (R43), shared by every request op: where it is not enabled, nothing changes; where the
precondition `ok` of R223 fails, the fault mark; else the frame of the request's procedure. -/
def State.accept (s : State) (r : Request) (ok : Bool) (f : Frame) : State :=
  if s.canAccept r.op then
    if ok then (s.latch r).withCtl (.busy [f]) else (s.latch r).raise .contractViolation
  else s

/-- The acceptance of a request whose op selects no operation (30_encoding.md R91; before any precondition, R228). -/
def State.acceptReserved (s : State) (r : Request) : State :=
  if s.canAccept r.op then (s.latch r).raise .reservedOp else s

/-! ### The end of a request -/

/-- `fail(outcome, kind, addr)` from any frame: it pops every frame (60_exceptions.md R225, R226, R230). Where no request
runs, there is none to end (log entry 22). -/
def State.fail (s : State) (o : OpOutcome) (k : Kind) (addr : Nat) : State :=
  match s.ctl with
  | .busy _ => s.withCtl (.ending (.failed o k addr))
  | _ => s

/-- A frame returns `Ok` to the frames below it: the outermost frame's return ends the request (R226). -/
def State.returnOk (s : State) (below : List Frame) (rdata : List Byte) (id : BitVec 16) : State :=
  match below with
  | [] => s.withCtl (.ending (.ok rdata id))
  | _ => s.withCtl (.busy below)

/-- The response record of an ended request (R226, 30_encoding.md R93). -/
def Exit.response (x : Exit) (committed : Nat) : Response :=
  match x with
  | .ok rdata id =>
    { outcome := .ok, failKind := none, failAddr := 0, committed := BitVec.ofNat 32 committed, rdata := rdata, id := id }
  | .failed o k addr =>
    { outcome := o, failKind := some k, failAddr := BitVec.ofNat 24 addr, committed := BitVec.ofNat 32 committed,
      rdata := [], id := 0 }

/-- The posting of the response, and the engine idle again (R226). The latch holds a request "from acceptance to its
response" (R23), so it is empty afterwards (log entry 18). -/
def State.post (s : State) (x : Exit) : State :=
  { s with
    resp := { valid := true, record := x.response s.committed }
    ctl := .idle
    req := none
    trace := s.trace ++ [.resp (x.response s.committed)] }

/-! ### The asynchronous read -/

/-- The start of the payload phase (46_read_path.md R201): the in-flight registers, the DMA job, chip-select held. -/
def State.beginAsync (s : State) (a n : Nat) : State :=
  { s with inflight := true, asyncA := a, asyncN := n, dma := .rx a n, cs := true }

/-- The completion posted and the hold lifted (R202). -/
def State.endAsync (s : State) (c : Completion) : State :=
  { s with
    cmpl := { valid := true, record := c }
    cs := false
    inflight := false
    dma := .none
    trace := s.trace ++ [.adone c] }

/-! ### Clock and host -/

/-- The Clock agent's step (10_state.md R37). -/
def State.tickClock (s : State) : State := { s with now := s.now + 1 }

/-- The host's next move (R42, R242), taken when it is enabled: an issue waits for an empty port, a take waits for its
record to be valid (log entry 10). -/
def State.hostMove (s : State) : State :=
  match s.host with
  | [] => s
  | .issue d :: t => if s.port = none then { s with port := some d, host := t } else s
  | .takeResp :: t => if s.resp.valid then { s with resp := { s.resp with valid := false }, host := t } else s
  | .takeCmpl :: t => if s.cmpl.valid then { s with cmpl := { s.cmpl with valid := false }, host := t } else s

end Sys2Proof.Machine
end

