-- ==== Sys2Proof/Machine/Operands.lean ====
section
/-! DEFINITION. The operand forms: the preconditions of a request's operands (60_exceptions.md R223), the bytes a
program takes from the request or the Scratch Buffer (43_page_programmer.md R161), and a transaction's frame. -/

namespace Sys2Proof.Machine

/-! ### Preconditions at the request port (R223) -/

/-- `ADDR + LEN <= CAPACITY`. -/
def inCapacity (p : Config.Params) (a : Addr) (n : Word) : Bool := decide (a.toNat + n.toNat ≤ p.capacity)

/-- MWRITE and WNOCHK: `len(DATA) = LEN` and `ADDR + LEN <= CAPACITY`. -/
def writePre (p : Config.Params) (a : Addr) (n : Word) (d : List Byte) : Bool :=
  d.length == n.toNat && inCapacity p a n

/-- PPROG: in addition `LEN <= P` and `(ADDR mod P) + LEN <= P`. -/
def pprogPre (p : Config.Params) (a : Addr) (n : Word) (d : List Byte) : Bool :=
  writePre p a n d && decide (n.toNat ≤ Config.pageSize) && decide (a.toNat % Config.pageSize + n.toNat ≤ Config.pageSize)

/-- SERASE: `ADDR mod S = 0` and `ADDR < CAPACITY`. -/
def serasePre (p : Config.Params) (a : Addr) : Bool :=
  decide (a.toNat % Config.sectorSize = 0) && decide (a.toNat < p.capacity)

/-! ### Source bytes -/

/-- The cells as bytes; none where one of them is `unwritten` (10_state.md R27). -/
def writtenBytes : List (Option Byte) → Option (List Byte)
  | [] => some []
  | none :: _ => none
  | some v :: t => (writtenBytes t).map (v :: ·)

/-- `scratch[lo .. lo+n)`, none where a cell is `unwritten`. -/
def State.scratchSlice (s : State) (lo n : Nat) : Option (List Byte) := writtenBytes ((s.scratch.drop lo).take n)

/-- The cells of a Scratch Buffer with `bs` written from index `lo` on (45_managed_write.md R181). -/
def overwrite (cells : List (Option Byte)) (lo : Nat) (bs : List Byte) : List (Option Byte) :=
  cells.take lo ++ bs.map some ++ cells.drop (lo + bs.length)

/-- `req.data[i .. i+n)` (10_state.md R23). -/
def State.requestSlice (s : State) (i n : Nat) : List Byte :=
  match s.req with
  | some r => (r.data.drop i).take n
  | none => []

/-- `(if src = REQ then req.data else scratch)[si .. si+n)` (43_page_programmer.md R161). -/
def State.sourceBytes (s : State) (src : Source) (si n : Nat) : Option (List Byte) :=
  match src with
  | .req => some (s.requestSlice si n)
  | .scratch => s.scratchSlice si n

/-! ### Transactions -/

/-- The kind of a transaction (40_sequencer.md R110). -/
def Wire.kind : Wire → Kind
  | .wren => .wren
  | .rdsr => .rdsr
  | .rdid => .rdid
  | .read _ _ => .read
  | .pp _ _ => .pp
  | .se _ => .se
  | .ce => .ce

/-- `addr_of(cmd)`: the address of a READ, PP or SE, 0 for the other kinds (R110). -/
def Wire.addr : Wire → Nat
  | .read a _ => a.toNat
  | .pp a _ => a.toNat
  | .se a => a.toNat
  | _ => 0

/-- The wire command of a transaction. -/
def Wire.instr : Wire → Instr
  | .wren => .wireWren
  | .rdsr => .wireRdsr
  | .rdid => .wireRdid
  | .read a n => .wireRead a n
  | .pp a d => .wirePp a d
  | .se a => .wireSe a
  | .ce => .wireCe

/-- The bytes of a transaction: the command builder of R125, the payload and the reply length of R110. -/
def Wire.frame (o : Config.Opcodes) (w : Wire) : WireFrame :=
  match encode o w.instr with
  | .wire f => f
  | .request _ => { cmd := [], tx := [], rxlen := 0 }

end Sys2Proof.Machine
end

