-- ==== Sys2Proof/Machine/Requests.lean ====
section
/-! DEFINITION. The meanings of the nine request ops: the engine's acceptance of the request (10_state.md R43), which
pushes the frame of the request's procedure (30_encoding.md R90). The procedures themselves run in the engine's later
steps (Machine/Engine.lean). -/

namespace Sys2Proof.Machine

/-- MWRITE (45_managed_write.md R180): `ManagedWrite(a, n)` with `di = 0`. -/
def execMwrite (a : Addr) (n : Word) (d : List Byte) (s : State) : Host.Outcome State Fault Refusal :=
  .next (s.accept { s.incoming with op := opMwrite, addr := a, len := n, data := d } (writePre s.params a n d)
    (.managedWrite .chunk { a := a.toNat, di := 0, n := n.toNat, sec := 0, off := 0, chunk := 0, need := false }))

/-- WNOCHK (44_page_split_writer.md R170): `WriteNoCheck(REQ, 0, a, n)`. -/
def execWnochk (a : Addr) (n : Word) (d : List Byte) (s : State) : Host.Outcome State Fault Refusal :=
  .next (s.accept { s.incoming with op := opWnochk, addr := a, len := n, data := d } (writePre s.params a n d)
    (.writeNoCheck .loop { src := .req, a := a.toNat, si := 0, n := n.toNat, chunk := 0 }))

/-- PPROG (43_page_programmer.md R160): `ProgramPage(REQ, 0, a, n)`. -/
def execPprog (a : Addr) (n : Word) (d : List Byte) (s : State) : Host.Outcome State Fault Refusal :=
  .next (s.accept { s.incoming with op := opPprog, addr := a, len := n, data := d } (pprogPre s.params a n d)
    (.programPage .wren .req 0 a.toNat n.toNat))

/-- SERASE (42_erase_controller.md R150): `EraseSector(a)`. -/
def execSerase (a : Addr) (s : State) : Host.Outcome State Fault Refusal :=
  .next (s.accept { s.incoming with op := opSerase, addr := a } (serasePre s.params a) (.eraseSector .wren a.toNat))

/-- CERASE (42_erase_controller.md R152): `EraseChip()`. -/
def execCerase (s : State) : Host.Outcome State Fault Refusal :=
  .next (s.accept { s.incoming with op := opCerase } true (.eraseChip .wren))

/-- WREADY (41_status_poller.md R140): `WaitReady(T, RDSR, 0)`. -/
def execWready (t : Word) (s : State) : Host.Outcome State Fault Refusal :=
  .next (s.accept { s.incoming with op := opWready, tmo := t } true (.waitReady .t0 t.toNat 0 .rdsr 0))

/-- READ (46_read_path.md R200): `Read(a, n)`. -/
def execRead (a : Addr) (n : Word) (s : State) : Host.Outcome State Fault Refusal :=
  .next (s.accept { s.incoming with op := opRead, addr := a, len := n } (inCapacity s.params a n)
    (.read a.toNat n.toNat))

/-- READA (46_read_path.md R201): `ReadAsync(a, n)`. -/
def execReada (a : Addr) (n : Word) (s : State) : Host.Outcome State Fault Refusal :=
  .next (s.accept { s.incoming with op := opReada, addr := a, len := n } (inCapacity s.params a n)
    (.readAsync a.toNat n.toNat))

/-- RDID (46_read_path.md R204): `ReadId()`. -/
def execRdid (s : State) : Host.Outcome State Fault Refusal :=
  .next (s.accept { s.incoming with op := opRdid } true .readId)

end Sys2Proof.Machine
end

