-- ==== Sys2Proof/Machine/Flags.lean ====
section
/-! DEFINITION. The flags: the device's busy bit, the erase-needed flag, the deadline test, and the words of the
response record. -/

namespace Sys2Proof.Machine

/-- `SR.BUSY` (10_state.md R36, R39): a program or erase is in progress. -/
def Device.busy (d : Device) : Bool :=
  match d.pending with
  | .none => false
  | _ => true

/-- The status byte of an RDSR reply (40_sequencer.md R116): bit 0 is the busy bit, bits 7:1 are those of a draw. -/
def statusByte (busy : Bool) (draw : Byte) : Byte := (draw &&& 0xFE) ||| (if busy then 0x01 else 0x00)

/-- `busy(sr) = sr[0]` (30_encoding.md R83). -/
def busyBit (sr : Byte) : Bool := sr.getLsbD 0

/-- The test at `WR_POLL` on an RDSR reply (41_status_poller.md R141): `sr[0] = 0`. -/
def readyReply (rx : List Byte) : Bool :=
  match rx with
  | sr :: _ => !busyBit sr
  | [] => false

/-- The erase-needed flag over the bytes of a chunk: some byte differs from `0xFF` (45_managed_write.md R184). -/
def eraseNeeded (bs : List Byte) : Bool := bs.any (· != 0xFF)

/-- The deadline has passed: `t - t0 >= T`, equality counting as passed (41_status_poller.md R143). -/
def deadlinePassed (t t0 timeout : Nat) : Bool := decide (timeout ≤ t - t0)

/-- `id = b0 * 256 + b1` (30_encoding.md R84). -/
def idOfReply (rx : List Byte) : BitVec 16 :=
  match rx with
  | b0 :: b1 :: _ => b0 ++ b1
  | _ => 0

/-- The outcome codes of 30_encoding.md R93. -/
def OpOutcome.code : OpOutcome → BitVec 2
  | .ok => 0
  | .timeout => 1
  | .transportError => 2

/-- The `fail_kind` codes of R93. -/
def failCode : Option Kind → BitVec 4
  | none => 0
  | some .wren => 1
  | some .rdsr => 2
  | some .rdid => 3
  | some .read => 4
  | some .pp => 5
  | some .se => 6
  | some .ce => 7

/-- Response word `r0` (R93): `fail_addr`, `fail_kind`, two reserved zero bits, `outcome`. -/
def Response.r0 (r : Response) : Word := r.failAddr ++ failCode r.failKind ++ (0 : BitVec 2) ++ r.outcome.code

/-- Response word `r1` (R93). -/
def Response.r1 (r : Response) : Word := r.committed

/-- Response word `r2` (R93): the reserved upper half is 0. -/
def Response.r2 (r : Response) : Word := (0 : BitVec 16) ++ r.id

/-- The `c_outcome` field of a completion record (R94). -/
def Completion.code (c : Completion) : BitVec 2 := c.outcome.code

end Sys2Proof.Machine
end

