-- ==== Sys2Proof/Machine/Device.lean ====
section
/-! DEFINITION. The flash device: what it checks, replies and does for each command, what a failed transaction leaves,
and its completion step (40_sequencer.md R113 to R124). -/

namespace Sys2Proof.Machine

/-- The checks of PP, SE and CE that come before their own: busy, then the write-enable latch (R119 to R121). -/
def Device.writeCheck (d : Device) : Option Fault :=
  if d.busy then some .deviceBusyAccess else if d.wel then none else some .noWriteEnable

/-- `DeviceCheck`: the fault a transaction raises before its transport results are known (R113, R115 to R121, R124). -/
def Device.check (d : Device) (cap : Nat) : Wire → Option Fault
  | .wren => if d.busy then some .deviceBusyAccess else none
  | .rdsr => none
  | .rdid => if d.busy then some .deviceBusyAccess else none
  | .read a n =>
    if d.busy then some .deviceBusyAccess else if cap < a.toNat + n then some .deviceDefined else none
  | .pp a bs =>
    match d.writeCheck with
    | some r => some r
    | none =>
      if bs.length = 0 ∨ Config.pageSize < bs.length then some .deviceDefined
      else if cap ≤ a.toNat then some .deviceDefined
      else none
  | .se a =>
    match d.writeCheck with
    | some r => some r
    | none => if a.toNat % Config.sectorSize ≠ 0 ∨ cap ≤ a.toNat then some .deviceDefined else none
  | .ce => d.writeCheck

/-- `DeviceReply`: the bytes a successful receive returns, and the state after its draw (R116 to R118). -/
def State.reply (s : State) : Wire → List Byte × State
  | .rdsr => ([statusByte s.dev.busy s.drawByte.1], s.drawByte.2)
  | .rdid => ([s.params.deviceId.extractLsb' 8 8, s.params.deviceId.extractLsb' 0 8], s)
  | .read a n => (s.dev.array.readRange a.toNat n, s)
  | _ => ([], s)

/-- `DeviceOnSuccess` (R115, R119 to R121): the latch set, or consumed with the operation pending. -/
def Device.onSuccess (d : Device) : Wire → Device
  | .wren => { d with wel := true }
  | .pp a bs => { d with pending := .pp a.toNat bs, wel := false }
  | .se a => { d with pending := .se a.toNat, wel := false }
  | .ce => { d with pending := .ce, wel := false }
  | _ => d

/-- A failed PP, SE or CE over the `n` bytes at `lo`: the latch, every byte of the range, and whether the device stays
busy with more of the same are draws, in this order (R123; log entry 7). -/
def State.havocRange (s : State) (lo n : Nat) : State :=
  let w := s.drawBit
  let bs := w.2.drawBytes n
  let p := bs.2.drawBit
  p.2.withDev
    { array := s.dev.array.writeRange lo bs.1
      pending := if p.1 then .havoc lo (lo + n) else .none
      wel := w.1 }

/-- `DeviceOnFailure` (R123). -/
def State.onFailure (s : State) : Wire → State
  | .wren => s.drawBit.2.withDev { s.dev with wel := s.drawBit.1 }
  | .pp a _ => s.havocRange (a.toNat - a.toNat % Config.pageSize) Config.pageSize
  | .se a => s.havocRange a.toNat Config.sectorSize
  | .ce => s.havocRange 0 s.params.capacity
  | _ => s

/-- The device with `array` and nothing pending. -/
def Device.settled (d : Device) (m : Memory) : Device := { d with array := m, pending := .none }

/-- The Device agent's step (R122): the pending operation lands whole. Where nothing is pending it is not enabled. -/
def State.deviceStep (s : State) : State :=
  match s.dev.pending with
  | .none => s
  | .pp a bs => s.withDev (s.dev.settled (s.dev.array.program a 0 bs))
  | .se a => s.withDev (s.dev.settled (s.dev.array.erase a (a + Config.sectorSize)))
  | .ce => s.withDev (s.dev.settled (s.dev.array.erase 0 s.params.capacity))
  | .havoc lo hi =>
    (s.drawBytes (hi - lo)).2.withDev (s.dev.settled (s.dev.array.writeRange lo (s.drawBytes (hi - lo)).1))

/-- The DMA agent's step (46_read_path.md R202): the result is a draw, the bytes are read at completion. Where no
transfer is in flight it is not enabled. -/
def State.dmaStep (s : State) : State :=
  match s.dma with
  | .none => s
  | .rx a n =>
    if s.drawOk.1 then s.drawOk.2.endAsync { outcome := .ok, data := s.dev.array.readRange a n }
    else s.drawOk.2.endAsync { outcome := .transportError, data := [] }

end Sys2Proof.Machine
end

