-- ==== Sys2Proof/Machine/Sequencer.lean ====
section
/-! DEFINITION. The command/address sequencer (40_sequencer.md R110): one transaction as one atomic step, and where the
procedure that issued it goes on. -/

namespace Sys2Proof.Machine

/-- The transport calls of one transaction, in order: the command phase, the payload where there is one, the reply where
there is one. The first `Err` ends it (R110, R111). -/
def State.transfer (s : State) (f : WireFrame) : Bool × State :=
  let c := s.drawOk
  if !c.1 then c
  else
    let p := if f.tx.isEmpty then c else c.2.drawOk
    if !p.1 then p else if f.rxlen = 0 then p else p.2.drawOk

/-- `WaitReady` called by a frame that has sent its command: `Xact`'s caller stays at its wait point below it (R151, R153,
R161). -/
def State.callWait (s : State) (timeout : Nat) (k : Kind) (addr : Nat) (caller : Frame) (below : List Frame) : State :=
  s.withCtl (.busy (.waitReady .t0 timeout 0 k addr :: caller :: below))

/-- Where the innermost frame goes on with the reply `rx` of the transaction it waits for. A transaction that no frame
waits for changes no control state (log entry 22). -/
def State.resume (s : State) (w : Wire) (rx : List Byte) : State :=
  match s.ctl with
  | .busy (f :: below) =>
    match f, w.kind with
    | .managedWrite .read l, .read =>
      (s.withScratch (overwrite s.scratch 0 rx)).withCtl (.busy (.managedWrite .scan l :: below))
    | .eraseSector .wren a, .wren => s.withCtl (.busy (.eraseSector .cmd a :: below))
    | .eraseSector .cmd a, .se => s.callWait s.params.tSE .se a (.eraseSector .wait a) below
    | .eraseChip .wren, .wren => s.withCtl (.busy (.eraseChip .cmd :: below))
    | .eraseChip .cmd, .ce => s.callWait s.params.tCE .ce 0 (.eraseChip .wait) below
    | .programPage .wren src si a n, .wren => s.withCtl (.busy (.programPage .cmd src si a n :: below))
    | .programPage .cmd src si a n, .pp => s.callWait s.params.tPP .pp a (.programPage .wait src si a n) below
    | .waitReady .poll t t0 k addr, .rdsr =>
      if readyReply rx then s.returnOk below [] 0 else s.withCtl (.busy (.waitReady .clk t t0 k addr :: below))
    | .read _ _, .read => s.returnOk below rx 0
    | .readId, .rdid => s.returnOk below [] (idOfReply rx)
    | _, _ => s
  | _ => s

/-- A transaction's end with every transport call `Ok`: the reply, the device's effect, chip-select released, the trace,
and the issuing frame goes on (R110, R112). -/
def State.xactOk (s : State) (w : Wire) (f : WireFrame) : State :=
  let r := s.reply w
  let t := r.2.withDev (r.2.dev.onSuccess w)
  State.resume (State.log { t with cs := false } (.xact w.kind f.cmd f.tx f.rxlen (some r.1))) w r.1

/-- A transaction's end with an `Err`: chip-select released, what it leaves on the device, the trace, and the request
fails (R110, R112, R123, R222). -/
def State.xactErr (s : State) (w : Wire) (f : WireFrame) : State :=
  let t := State.onFailure { s with cs := false } w
  State.fail (t.log (.xact w.kind f.cmd f.tx f.rxlen none)) .transportError w.kind w.addr

/-- `Xact`: one transaction in one atomic step (R110). It is held while an asynchronous read is in flight, and no agent
has a step after a model fault (R33): there nothing changes. The device's checks come first (R113). -/
def State.xact (s : State) (w : Wire) : State :=
  if s.inflight || s.fault.isSome then s
  else
    match s.dev.check s.params.capacity w with
    | some r => s.raise r
    | none =>
      let f := w.frame s.params.ops
      let r := s.transfer f
      if r.1 then r.2.xactOk w f else r.2.xactErr w f

end Sys2Proof.Machine
end

