-- ==== Sys2Proof/Machine/Wire.lean ====
section
/-! DEFINITION. The meanings of the seven wire commands: each is one transaction (40_sequencer.md R115 to R121). -/

namespace Sys2Proof.Machine

/-- WREN (R115): sets the write-enable latch. -/
def execWireWren (s : State) : Host.Outcome State Fault Refusal := .next (s.xact .wren)

/-- RDSR (R116): the status byte, allowed while the device is busy. -/
def execWireRdsr (s : State) : Host.Outcome State Fault Refusal := .next (s.xact .rdsr)

/-- RDID (R117): the device ID, high byte first. -/
def execWireRdid (s : State) : Host.Outcome State Fault Refusal := .next (s.xact .rdid)

/-- READ (R118): the `n` bytes at `a`. -/
def execWireRead (a : Addr) (n : Nat) (s : State) : Host.Outcome State Fault Refusal := .next (s.xact (.read a n))

/-- PP (R119): the payload `d` pending at `a`, the latch consumed. -/
def execWirePp (a : Addr) (d : List Byte) (s : State) : Host.Outcome State Fault Refusal := .next (s.xact (.pp a d))

/-- SE (R120): the erase of the sector at `a` pending, the latch consumed. -/
def execWireSe (a : Addr) (s : State) : Host.Outcome State Fault Refusal := .next (s.xact (.se a))

/-- CE (R121): the erase of the whole flash pending, the latch consumed. -/
def execWireCe (s : State) : Host.Outcome State Fault Refusal := .next (s.xact .ce)

end Sys2Proof.Machine
end

