-- ==== Sys2Proof/Machine/Dispatch.lean ====
section
/-! DEFINITION. Dispatch: one arm per instruction. -/

namespace Sys2Proof.Machine

def exec (i : Instr) (s : State) : Host.Outcome State Fault Refusal :=
  match i with
  | .mwrite a n d => Sys2Proof.Machine.execMwrite a n d s
  | .wnochk a n d => Sys2Proof.Machine.execWnochk a n d s
  | .pprog a n d => Sys2Proof.Machine.execPprog a n d s
  | .serase a => Sys2Proof.Machine.execSerase a s
  | .cerase => Sys2Proof.Machine.execCerase s
  | .wready t => Sys2Proof.Machine.execWready t s
  | .read a n => Sys2Proof.Machine.execRead a n s
  | .reada a n => Sys2Proof.Machine.execReada a n s
  | .rdid => Sys2Proof.Machine.execRdid s
  | .wireWren => Sys2Proof.Machine.execWireWren s
  | .wireRdsr => Sys2Proof.Machine.execWireRdsr s
  | .wireRdid => Sys2Proof.Machine.execWireRdid s
  | .wireRead a n => Sys2Proof.Machine.execWireRead a n s
  | .wirePp a d => Sys2Proof.Machine.execWirePp a d s
  | .wireSe a => Sys2Proof.Machine.execWireSe a s
  | .wireCe => Sys2Proof.Machine.execWireCe s

end Sys2Proof.Machine
end

