-- ==== Sys2Proof/Machine/Engine.lean ====
section
/-! DEFINITION. The engine's procedures as a state machine (41_status_poller.md to 46_read_path.md), and what each agent
does on its turn (10_state.md R20, R21). -/

namespace Sys2Proof.Machine

/-! ### Internal computation

Between two steps the stack's head stands where it stopped after its last external action. The next step first runs the
internal computation up to the next external action (R21; log entry 14). In what follows `ret` is what the frames below
do when the head returns `Ok`. A frame below the head stands at the control point that called, and goes on after it when
it becomes the head again. -/

/-- `ProgramPage` called with `1 <= n`: it stands at `PP_WREN` once its bytes are readable (43_page_programmer.md
R161). -/
def State.startPage (s : State) (src : Source) (si a n : Nat) (callers : List Frame) : State :=
  match s.sourceBytes src si n with
  | none => s.raise .unwrittenScratch
  | some _ => s.withCtl (.busy (.programPage .wren src si a n :: callers))

/-- `WN_LOOP` (44_page_split_writer.md R171): return, or the next page chunk. -/
def wnLoop (l : WnLocals) (below : List Frame) (ret : State → State) (s : State) : State :=
  if l.n = 0 then ret s
  else
    let c := min l.n (Config.pageSize - l.a % Config.pageSize)
    s.startPage l.src l.si l.a c (.writeNoCheck .page { l with chunk := c } :: below)

/-- `WN_ADV` (R171): the outermost frame counts the finished chunk (R174). -/
def wnAdv (l : WnLocals) (below : List Frame) (ret : State → State) (s : State) : State :=
  wnLoop { l with a := l.a + l.chunk, si := l.si + l.chunk, n := l.n - l.chunk } below ret
    (if below.isEmpty then s.addCommitted l.chunk else s)

/-- `MW_CHUNK` (45_managed_write.md R181, R182): return, or the next sector chunk, whose first action is the read of the
whole sector. -/
def mwChunk (l : MwLocals) (below : List Frame) (ret : State → State) (s : State) : State :=
  if l.n = 0 then ret s
  else
    let off := l.a % Config.sectorSize
    s.withCtl (.busy (.managedWrite .read
      { l with sec := l.a / Config.sectorSize, off := off, chunk := min (Config.sectorSize - off) l.n } :: below))

/-- `MW_ADV` (R187): the finished chunk is counted and the locals advance. -/
def mwAdv (l : MwLocals) (below : List Frame) (ret : State → State) (s : State) : State :=
  mwChunk { l with a := l.a + l.chunk, di := l.di + l.chunk, n := l.n - l.chunk } below ret (s.addCommitted l.chunk)

/-- `MW_PROG` (R185, R186): the whole sector from the Scratch Buffer, or the chunk from the request. -/
def mwProg (l : MwLocals) (below : List Frame) (ret : State → State) (s : State) : State :=
  let w : WnLocals :=
    if l.need then { src := .scratch, a := l.sec * Config.sectorSize, si := 0, n := Config.sectorSize, chunk := 0 }
    else { src := .req, a := l.a, si := l.di, n := l.chunk, chunk := 0 }
  wnLoop w (.managedWrite .prog l :: below) (mwAdv l below ret) s

/-- `MW_MERGE` (R185): the new bytes into the Scratch Buffer at the chunk's offset. -/
def mwMerge (l : MwLocals) (below : List Frame) (ret : State → State) (s : State) : State :=
  mwProg l below ret (s.withScratch (overwrite s.scratch l.off (s.requestSlice l.di l.chunk)))

/-- `MW_SCAN` (R184): the erase-needed test on the chunk's bytes, then the erase or the direct path. -/
def mwScan (l : MwLocals) (below : List Frame) (ret : State → State) (s : State) : State :=
  match s.scratchSlice l.off l.chunk with
  | none => s.raise .unwrittenScratch
  | some bs =>
    if eraseNeeded bs then
      s.withCtl (.busy (.eraseSector .wren (l.sec * Config.sectorSize) :: .managedWrite .erase { l with need := true } :: below))
    else mwProg { l with need := false } below ret s

/-- The internal computation from the head of a stack on, up to the next external action: the control state it leaves is
a stack whose head stands at an external action, or the ended request (R21, R22, R226). -/
def settle : List Frame → State → State
  | [], s => s.withCtl (.ending (.ok [] 0))
  | f :: below, s =>
    let stay := s.withCtl (.busy (f :: below))
    match f with
    | .managedWrite pt l =>
      match pt with
      | .chunk => mwChunk l below (settle below) s
      | .read => stay
      | .scan => mwScan l below (settle below) s
      | .erase => mwMerge l below (settle below) s
      | .merge => mwMerge l below (settle below) s
      | .prog => mwAdv l below (settle below) s
      | .adv => mwAdv l below (settle below) s
    | .writeNoCheck pt l =>
      match pt with
      | .loop => wnLoop l below (settle below) s
      | .page => wnAdv l below (settle below) s
      | .adv => wnAdv l below (settle below) s
    | .programPage pt src si a n =>
      match pt with
      | .wren => if n = 0 then settle below s else s.startPage src si a n below
      | .cmd =>
        match s.sourceBytes src si n with
        | none => s.raise .unwrittenScratch
        | some _ => stay
      | .wait => settle below s
    | .eraseSector pt _ =>
      match pt with
      | .wren => stay
      | .cmd => stay
      | .wait => settle below s
    | .eraseChip pt =>
      match pt with
      | .wren => stay
      | .cmd => stay
      | .wait => settle below s
    | .waitReady _ _ _ _ _ => stay
    | .read _ n => if n = 0 then settle below s else stay
    | .readAsync _ n => if n = 0 then settle below (s.withCmpl { outcome := .ok, data := [] }) else stay
    | .readId => stay

/-! ### External actions -/

/-- The transaction the head of the stack issues next (40_sequencer.md R125 and the procedures' pseudocode); none where
its next action is no transaction. -/
def State.nextWire (s : State) : Frame → Option Wire
  | .managedWrite .read l => some (.read (BitVec.ofNat 24 (l.sec * Config.sectorSize)) Config.sectorSize)
  | .eraseSector .wren _ => some .wren
  | .eraseSector .cmd a => some (.se (BitVec.ofNat 24 a))
  | .eraseChip .wren => some .wren
  | .eraseChip .cmd => some .ce
  | .programPage .wren _ _ _ _ => some .wren
  | .programPage .cmd src si a n => some (.pp (BitVec.ofNat 24 a) ((s.sourceBytes src si n).getD []))
  | .waitReady .poll _ _ _ _ => some .rdsr
  | .read a n => some (.read (BitVec.ofNat 24 a) n)
  | .readId => some .rdid
  | _ => none

/-- `WR_T0` (41_status_poller.md R141, R142): `t0 <- ReadClock()`. -/
def State.readEntry (s : State) (timeout : Nat) (k : Kind) (addr : Nat) (below : List Frame) : State :=
  (s.log (.clk s.now)).withCtl (.busy (.waitReady .poll timeout s.now k addr :: below))

/-- `WR_CLK` (R141, R143): the clock is read; past the deadline the request fails, else the next poll. -/
def State.readDeadline (s : State) (timeout t0 : Nat) (k : Kind) (addr : Nat) (below : List Frame) : State :=
  if deadlinePassed s.now t0 timeout then (s.log (.clk s.now)).fail .timeout k addr
  else (s.log (.clk s.now)).withCtl (.busy (.waitReady .poll timeout t0 k addr :: below))

/-- `RA_CMD` with `1 <= n` (46_read_path.md R201): the command phase, then the payload handed to the DMA agent and the
frame's return; a failed command phase fails the request with nothing in flight (log entry 17). -/
def State.startAsync (s : State) (a n : Nat) (below : List Frame) : State :=
  match s.dev.check s.params.capacity (.read (BitVec.ofNat 24 a) n) with
  | some r => s.raise r
  | none =>
    let r := s.drawOk
    if r.1 then ((r.2.beginAsync a n).log (.astart a n true)).returnOk below [] 0
    else State.fail (State.log { r.2 with cs := false } (.astart a n false)) .transportError .read a

/-- What an agent's turn comes to. -/
inductive Plan where
  /-- The instruction the engine fetched, and the state it runs in. -/
  | run (i : Instr) (s : State)
  /-- The state after a step that runs no instruction. -/
  | done (s : State)
  /-- A frame that is no command (R88). -/
  | refuse (r : Refusal)
  deriving DecidableEq, Repr

/-- The next external action of a settled stack with head `f`; `s` is the state before its internal computation and `t`
the state after it. A transaction or an asynchronous start is held while a payload is in flight (R110, R205; log
entry 15). -/
def State.act (s t : State) (f : Frame) (below : List Frame) : Plan :=
  match f with
  | .waitReady .t0 timeout _ k addr => .done (t.readEntry timeout k addr below)
  | .waitReady .clk timeout t0 k addr => .done (t.readDeadline timeout t0 k addr below)
  | .readAsync a n => if s.inflight then .done s else .done (t.startAsync a n below)
  | _ =>
    match t.nextWire f with
    | none => .done t
    | some w =>
      if s.inflight then .done s
      else
        match decodeWire t.params.ops (w.frame t.params.ops) with
        | .ok i => .run i t
        | .error e => .refuse (.unknownCommand e)

/-- The engine's turn with a settled state `t` (R21): a fault raised on the way, a response to post, or the head's next
external action. -/
def State.proceed (s t : State) : Plan :=
  if t.fault.isSome then .done t
  else
    match t.ctl with
    | .ending x => .done (t.post x)
    | .busy (f :: below) => s.act t f below
    | _ => .done t

/-- The engine's turn (R21). IDLE, it fetches from the request port (R43, R91); a request that is not acceptable yet
changes nothing. -/
def State.engineTurn (s : State) : Plan :=
  match s.ctl with
  | .idle =>
    match s.port with
    | none => .done s
    | some d =>
      match decodeRequest d with
      | .ok i => .run i s
      | .error _ => .done (s.acceptReserved (Descriptor.fields d))
  | .ending x => .done (s.post x)
  | .busy stack => s.proceed (settle stack s)

/-- An agent's turn (R20). A turn whose agent has no enabled step changes nothing (log entry 8). -/
def State.turn (s : State) : Config.Agent → Plan
  | .engine => s.engineTurn
  | .dma => .done s.dmaStep
  | .device => .done s.deviceStep
  | .clock => .done s.tickClock
  | .host => .done s.hostMove

/-! ### Placing an instruction -/

/-- The state whose engine is idle with the descriptor at its request port, the records consumed. -/
def State.placeRequest (s : State) (d : Descriptor) : State :=
  { s with
    port := some d
    ctl := .idle
    resp := { s.resp with valid := false }
    cmpl := { s.cmpl with valid := false } }

/-- The frame whose next transaction is the wire command, and the request bytes it takes (log entry 20). -/
def wireHome (s : State) : Instr → Option (Frame × List Byte)
  | .wireWren => some (.eraseSector .wren 0, [])
  | .wireRdsr => some (.waitReady .poll 0 s.now .rdsr 0, [])
  | .wireRdid => some (.readId, [])
  | .wireRead a n => some (.read a.toNat n, [])
  | .wirePp a d => some (.programPage .cmd .req 0 a.toNat d.length, d)
  | .wireSe a => some (.eraseSector .cmd a.toNat, [])
  | .wireCe => some (.eraseChip .cmd, [])
  | _ => none

/-- The state whose engine stands at the transaction of the wire command `i`, with no payload in flight; a request is
placed at the port instead. -/
def State.placeWire (s : State) (i : Instr) : State :=
  match wireHome s i with
  | none => s
  | some (f, d) =>
    { s with
      ctl := .busy [f]
      req := some { op := 0, addr := 0, len := BitVec.ofNat 32 d.length, tmo := 0, data := d }
      inflight := false
      dma := .none
      cs := false }

/-- The engine's turn next, no fault marked. -/
def State.engineNext (s : State) : State :=
  { s with fault := none, env := { s.env with turns := .engine :: s.env.turns } }

/-- The instruction of an opcode-table word placed where the engine fetches it (log entry 20). -/
def State.placeTableWord (s : State) (nbits w : Nat) : State :=
  match tableEncoded s.params.ops nbits w with
  | .request d => (s.placeRequest d).engineNext
  | .wire f =>
    match decodeWire s.params.ops f with
    | .ok i => (s.placeWire i).engineNext
    | .error _ => s.engineNext

end Sys2Proof.Machine
end

