-- ==== Sys2Proof/Machine/Step.lean ====
section
/-! DEFINITION. One step of the machine: the next agent's turn (10_state.md R20, R21). -/

namespace Sys2Proof.Machine

/-- What a planned turn comes to: the fetched instruction's meaning, or the state after it. -/
def Plan.outcome : Plan → Host.Outcome State Fault Refusal
  | .run i s => exec i s
  | .done s => .next s
  | .refuse r => .refused r

/-- One step. After a model fault no agent has a step (R33): the machine stops with its reason. -/
def step (s : State) : Host.Outcome State Fault Refusal :=
  match s.fault with
  | some r => .fault r
  | none => (s.takeTurn.2.turn s.takeTurn.1).outcome

/-- `s` with the instruction of an opcode-table word where the next step fetches it. -/
def State.withFetchWord (s : State) (nbits w : Nat) : State := s.placeTableWord nbits w

end Sys2Proof.Machine
end

