-- ==== Sys2Proof/WellFormed.lean ====
section
/-! DEFINITION. Which instructions the formats of 30_encoding.md admit, one named check per format. -/

namespace Sys2Proof

/-- The payload of a write request has as many bytes as `LEN` says (R23, R89: the data of a write op is "n bytes"). -/
def dataFits (n : Word) (d : List Byte) : Bool := d.length == n.toNat

/-- A W3 frame receives at least one byte (R81: "`n >= 1`"). -/
def replyFits (n : Nat) : Bool := decide (1 ≤ n)

/-- A W4 frame sends 1 to `P` payload bytes (R81: "`1 <= m <= P`"). -/
def payloadFits (d : List Byte) : Bool := decide (1 ≤ d.length) && decide (d.length ≤ Config.pageSize)

/-- The instruction has a format of R81 or a descriptor of R89. The preconditions of R223, which depend on the
machine's capacity, are no part of this: a request that breaks one is decoded and faults at acceptance. -/
def Instr.wf : Instr → Bool
  | .mwrite _ n d => dataFits n d
  | .wnochk _ n d => dataFits n d
  | .pprog _ n d  => dataFits n d
  | .serase _     => true
  | .cerase       => true
  | .wready _     => true
  | .read _ _     => true
  | .reada _ _    => true
  | .rdid         => true
  | .wireWren     => true
  | .wireRdsr     => true
  | .wireRdid     => true
  | .wireRead _ n => replyFits n
  | .wirePp _ d   => payloadFits d
  | .wireSe _     => true
  | .wireCe       => true

end Sys2Proof
end

