-- ==== Sys2Proof/Safety.lean ====
section
/-! DEFINITION. What a consistent state is, in the terms claims use: the bus, the flash, the device's pending operation,
the Scratch Buffer and the control stack (10_state.md R22 to R41), and the model faults the engine never raises. -/

namespace Sys2Proof.Safety

open Sys2Proof.Machine
open Sys2Proof.Config (sectorSize pageSize)

/-! ### Bus, flash, device, scratch -/

/-- Between steps chip-select is asserted exactly while a payload is in flight (R29, 40_sequencer.md R112), and the DMA
job is that payload, inside the flash (R28, R41). -/
def BusOk (s : State) : Prop :=
  s.cs = s.inflight ∧ s.dma = (if s.inflight then .rx s.asyncA s.asyncN else .none)
    ∧ (s.inflight = true → s.asyncA + s.asyncN ≤ s.params.capacity)

/-- The flash array is in canonical form and lists no address past the capacity (R38, 20_memory.md R50). -/
def ArrayOk (s : State) : Prop := s.dev.array.wf = true ∧ s.dev.array.within s.params.capacity = true

/-- The pending operation is one the device has accepted (R39, 40_sequencer.md R119 to R123). -/
def PendingOk (cap : Nat) : Pending → Prop
  | .none => True
  | .pp a d => a < cap ∧ 0 < d.length ∧ d.length ≤ pageSize
  | .se a => a % sectorSize = 0 ∧ a < cap
  | .ce => True
  | .havoc lo hi => lo ≤ hi ∧ hi ≤ cap

/-- The Scratch Buffer has `S` cells (R27). -/
def ScratchOk (s : State) : Prop := s.scratch.length = sectorSize

/-! ### The control stack -/

/-- What holds of a frame wherever it stands: its chunk is what 44_page_split_writer.md R172 and 45_managed_write.md R182
say, it keeps in its page or sector, and a wait began no later than now (41_status_poller.md R142). A managed write past
its read has every Scratch Buffer cell written (45_managed_write.md R183). -/
def FrameOk (s : State) : Frame → Prop
  | .managedWrite pt l =>
    (pt ≠ .chunk → 0 < l.n ∧ l.sec = l.a / sectorSize ∧ l.off = l.a % sectorSize
      ∧ l.chunk = min (sectorSize - l.off) l.n)
    ∧ (pt ≠ .chunk → pt ≠ .read → ∀ c ∈ s.scratch, c ≠ none)
  | .writeNoCheck pt l => pt ≠ .loop → 0 < l.n ∧ l.chunk = min l.n (pageSize - l.a % pageSize)
  | .programPage pt _ _ a n => (pt ≠ .wren → 0 < n) ∧ a % pageSize + n ≤ pageSize
  | .eraseSector _ a => a % sectorSize = 0 ∧ a < s.params.capacity
  | .eraseChip _ => True
  | .waitReady pt _ t0 _ _ => pt ≠ .t0 → t0 ≤ s.now
  | .read a n => a + n ≤ s.params.capacity ∧ a < 2 ^ 24
  | .readAsync a n => a + n ≤ s.params.capacity ∧ a < 2 ^ 24
  | .readId => True

/-- `Calls p callee caller`: the caller stands at the control point that called the callee, with the arguments the
procedures' pseudocode passes (R22, and rules R151, R153, R161, R171, R181). -/
def Calls (p : Config.Params) : Frame → Frame → Prop
  | .waitReady _ t _ k ad, .programPage .wait _ _ a _ => t = p.tPP ∧ k = .pp ∧ ad = a
  | .waitReady _ t _ k ad, .eraseSector .wait a => t = p.tSE ∧ k = .se ∧ ad = a
  | .waitReady _ t _ k ad, .eraseChip .wait => t = p.tCE ∧ k = .ce ∧ ad = 0
  | .programPage _ src si a n, .writeNoCheck .page l => src = l.src ∧ si = l.si ∧ a = l.a ∧ n = l.chunk
  | .eraseSector _ a, .managedWrite .erase m => a = m.sec * sectorSize ∧ m.need = true
  | .writeNoCheck _ l, .managedWrite .prog m =>
    if m.need then l.src = .scratch ∧ l.a = m.sec * sectorSize + l.si ∧ l.si + l.n = sectorSize
    else l.src = .req ∧ m.di ≤ l.si ∧ l.a = m.a + (l.si - m.di) ∧ l.si + l.n = m.di + m.chunk
  | _, _ => False

/-- A write request's data and range (60_exceptions.md R223). -/
def WriteFits (s : State) (r : Request) : Prop :=
  r.data.length = r.len.toNat ∧ r.addr.toNat + r.len.toNat ≤ s.params.capacity

/-- The outermost frame is the procedure the request's op selects (R22, 30_encoding.md R90), at the place in the request
its locals say, and `committed` counts the finished chunks (R30). -/
def OuterOk (s : State) (r : Request) : Frame → Prop
  | .managedWrite _ l =>
    r.op = opMwrite ∧ WriteFits s r ∧ l.di + l.n = r.len.toNat ∧ l.a = r.addr.toNat + l.di ∧ s.committed = l.di
  | .writeNoCheck _ l =>
    r.op = opWnochk ∧ WriteFits s r ∧ l.src = .req ∧ l.si + l.n = r.len.toNat ∧ l.a = r.addr.toNat + l.si
      ∧ s.committed = l.si
  | .programPage _ src si a n =>
    r.op = opPprog ∧ WriteFits s r ∧ src = .req ∧ si = 0 ∧ a = r.addr.toNat ∧ n = r.len.toNat ∧ s.committed = 0
  | .eraseSector _ a => r.op = opSerase ∧ a = r.addr.toNat ∧ s.committed = 0
  | .eraseChip _ => r.op = opCerase ∧ s.committed = 0
  | .waitReady _ t _ k ad => r.op = opWready ∧ t = r.tmo.toNat ∧ k = .rdsr ∧ ad = 0 ∧ s.committed = 0
  | .read a n => r.op = opRead ∧ a = r.addr.toNat ∧ n = r.len.toNat ∧ s.committed = 0
  | .readAsync a n => r.op = opReada ∧ a = r.addr.toNat ∧ n = r.len.toNat ∧ s.committed = 0
  | .readId => r.op = opRdid ∧ s.committed = 0

/-- The control stack is a legal one for the request (R22): innermost frame first, each frame called by the next. -/
def StackOk (s : State) (r : Request) : List Frame → Prop
  | [] => False
  | [f] => FrameOk s f ∧ OuterOk s r f
  | f :: g :: below => FrameOk s f ∧ Calls s.params f g ∧ StackOk s r (g :: below)

/-- A frame that its request has just been accepted with: no transaction of the request has been issued. -/
def initialFrame : Frame → Bool
  | .managedWrite .chunk l => l.di == 0
  | .writeNoCheck .loop l => l.si == 0
  | .programPage .wren _ _ _ _ => true
  | .eraseSector .wren _ => true
  | .eraseChip .wren => true
  | .read _ _ => true
  | .readAsync _ _ => true
  | .readId => true
  | _ => false

/-- The request on the stack has issued no transaction yet and its first one is not a status poll. -/
def freshStack : List Frame → Bool
  | [f] => initialFrame f
  | _ => false

/-- The head frame stands at its program or erase command. -/
def atCommand : Frame → Bool
  | .programPage .cmd _ _ _ _ => true
  | .eraseSector .cmd _ => true
  | .eraseChip .cmd => true
  | _ => false

/-- The head frame polls the device. -/
def isWait : Frame → Bool
  | .waitReady _ _ _ _ _ => true
  | _ => false

/-- What the device is while a request runs: the write-enable latch is set where the next transaction is a program or an
erase (70_reset_and_hazards.md R265), and, once the request has begun, the device is busy only while the engine waits for
it (R266). -/
def DeviceReady (s : State) : List Frame → Prop
  | [] => True
  | f :: below =>
    (atCommand f = true → s.dev.wel = true)
      ∧ (isWait f = false → freshStack (f :: below) = false → s.dev.pending = .none)

/-- What a control state asks of the rest: idle with an empty latch, a request whose response is to be posted, or a
request running on a legal stack (R22, R23, R226). -/
def CtlShape (s : State) : Ctl → Prop
  | .idle => s.req = none
  | .ending _ => s.req ≠ none
  | .busy stack => ∃ r, s.req = some r ∧ StackOk s r stack ∧ DeviceReady s stack

/-- The control state fits the rest. After a model fault no agent has a step, and nothing is asked. -/
def CtlOk (s : State) : Prop := s.fault = none → CtlShape s s.ctl

/-! ### The whole -/

/-- The model faults the engine never raises by itself: its programs and erases follow a write-enable, its addresses and
payloads are in range, and it reads no unwritten cell (10_state.md R27, 20_memory.md R63, 70_reset_and_hazards.md
R265). -/
def engineFault : Fault → Bool
  | .noWriteEnable => true
  | .deviceDefined => true
  | .unwrittenScratch => true
  | _ => false

/-- The fault mark holds no fault of the engine's own making. -/
def FaultOk (s : State) : Prop := ∀ r, s.fault = some r → engineFault r = false

/-- A consistent state. -/
structure Consistent (s : State) : Prop where
  params : s.params.wf = true
  bus : BusOk s
  array : ArrayOk s
  pending : PendingOk s.params.capacity s.dev.pending
  scratch : ScratchOk s
  ctl : CtlOk s
  fault : FaultOk s

/-! ### Statements about single steps -/

/-- The engine can accept a request other than READA (R43). -/
abbrev Ready (s : State) : Prop := s.ctl = .idle ∧ s.fault = none ∧ s.resp.valid = false

/-- What the acceptance of request `r` leaves, where its procedure starts with frame `f` (R43): the request latched, the
committed length 0, the port empty, the trace, the control stack; nothing else changes. -/
def accepted (s : State) (r : Request) (f : Frame) : State :=
  { s with req := some r, committed := 0, port := none, trace := s.trace ++ [.accept r], ctl := .busy [f] }

/-- What the posting of response `r` leaves (60_exceptions.md R226): the response valid, the engine idle with an empty
latch, the trace; nothing else changes. -/
def answered (s : State) (r : Response) : State :=
  { s with resp := ⟨true, r⟩, ctl := .idle, req := none, trace := s.trace ++ [.resp r] }

/-- The bus can take a transaction: no model fault, no payload in flight (40_sequencer.md R110). -/
abbrev BusFree (s : State) : Prop := s.fault = none ∧ s.inflight = false

/-- The drawn byte makes a transport call `Ok` (40_sequencer.md R111; log entry 7). -/
def okDraw (b : Byte) : Bool := !b.getLsbD 0

/-- What no transaction changes: everything but the control state, the Scratch Buffer, the device, the trace and the open
choices; and chip-select is released at its end (R112). -/
def BusFrame (s t : State) : Prop :=
  t.params = s.params ∧ t.port = s.port ∧ t.req = s.req ∧ t.inflight = s.inflight ∧ t.asyncA = s.asyncA
    ∧ t.asyncN = s.asyncN ∧ t.cs = false ∧ t.committed = s.committed ∧ t.resp = s.resp ∧ t.cmpl = s.cmpl
    ∧ t.fault = s.fault ∧ t.dma = s.dma ∧ t.now = s.now ∧ t.host = s.host

/-- From `s` to `t` no transaction was issued: none is among the events the trace has gained (R34, R114). -/
def NoTransaction (s t : State) : Prop :=
  ∃ new, t.trace = s.trace ++ new ∧ ∀ k cmd tx rx r, Event.xact k cmd tx rx r ∉ new

/-- The bytes on the wire of a well-formed wire command, both ways (30_encoding.md R87). -/
def wireLength : Instr → Nat
  | .wireWren => 1
  | .wireRdsr => 2
  | .wireRdid => 6
  | .wireRead _ n => 4 + n
  | .wirePp _ d => 4 + d.length
  | .wireSe _ => 4
  | .wireCe => 1
  | _ => 0

/-- A request op, not a wire command. -/
def isRequest : Instr → Bool
  | .mwrite _ _ _ => true
  | .wnochk _ _ _ => true
  | .pprog _ _ _ => true
  | .serase _ => true
  | .cerase => true
  | .wready _ => true
  | .read _ _ => true
  | .reada _ _ => true
  | .rdid => true
  | _ => false

/-- The preconditions of 60_exceptions.md R223, as the table has them. -/
def MeetsPrecondition (p : Config.Params) : Instr → Prop
  | .mwrite a n d => d.length = n.toNat ∧ a.toNat + n.toNat ≤ p.capacity
  | .wnochk a n d => d.length = n.toNat ∧ a.toNat + n.toNat ≤ p.capacity
  | .pprog a n d =>
    d.length = n.toNat ∧ n.toNat ≤ 256 ∧ a.toNat % 256 + n.toNat ≤ 256 ∧ a.toNat + n.toNat ≤ p.capacity
  | .serase a => a.toNat % 4096 = 0 ∧ a.toNat < p.capacity
  | .read a n => a.toNat + n.toNat ≤ p.capacity
  | .reada a n => a.toNat + n.toNat ≤ p.capacity
  | _ => True

/-- The WREN event that stands in the trace just before a program or an erase (70_reset_and_hazards.md R265). -/
def wrenEvent (s : State) : Event := .xact .wren [s.params.ops.wren] [] 0 (some [])

/-- Where the engine stands at a program or an erase, the last event is its write-enable and no payload is in flight
(R265, 40_sequencer.md R110). -/
def WrenLast (s : State) : Prop :=
  ∀ f below, s.fault = none → s.ctl = .busy (f :: below) → atCommand f = true →
    s.inflight = false ∧ s.trace.getLast? = some (wrenEvent s)

/-- A transaction event the engine may issue: a program inside one page, an erase of a whole sector, a read inside the
flash, or a command without an address (20_memory.md R63, 40_sequencer.md R125). -/
def TransactionInRange (s : State) : Event → Prop
  | .xact .pp cmd tx rx _ =>
    ∃ a : Addr, cmd = s.params.ops.pp :: addr24 a ∧ rx = 0 ∧ 0 < tx.length ∧ a.toNat % 256 + tx.length ≤ 256
      ∧ a.toNat + tx.length ≤ s.params.capacity
  | .xact .se cmd tx rx _ =>
    ∃ a : Addr, cmd = s.params.ops.se :: addr24 a ∧ tx = [] ∧ rx = 0 ∧ a.toNat % 4096 = 0
      ∧ a.toNat + 4096 ≤ s.params.capacity
  | .xact .read cmd tx rx _ =>
    ∃ a : Addr, cmd = s.params.ops.read :: addr24 a ∧ tx = [] ∧ 0 < rx ∧ a.toNat + rx ≤ s.params.capacity
  | .xact .wren cmd tx rx _ => cmd = [s.params.ops.wren] ∧ tx = [] ∧ rx = 0
  | .xact .rdsr cmd tx rx _ => cmd = [s.params.ops.rdsr] ∧ tx = [] ∧ rx = 1
  | .xact .rdid cmd tx rx _ => cmd = [s.params.ops.rdid, 0, 0, 0] ∧ tx = [] ∧ rx = 2
  | .xact .ce cmd tx rx _ => cmd = [s.params.ops.ce] ∧ tx = [] ∧ rx = 0
  | _ => True

/-! ### Runs -/

/-- The machine after `k` steps. -/
def runs (k : Nat) (s : State) : Host.Outcome State Fault Refusal := Host.Core.run Sys2Proof.core k s

/-- `t` is the first idle state of the machine's run from `s`: where `s` runs a request, the state whose last step
posted its response (60_exceptions.md R226). -/
def Finishes (s t : State) : Prop :=
  ∃ k, runs k s = .next t ∧ t.ctl = .idle ∧ ∀ j < k, ∀ u, runs j s = .next u → u.ctl ≠ .idle

end Sys2Proof.Safety
end

