-- ==== Sys2Proof/Certificates/Slice0/Obligations.lean ====
section
/-! DEFINITION. The statements for the provers, in the order of OBLIGATIONS.json. -/

open Sys2Proof Sys2Proof.Machine Sys2Proof.Safety
open Sys2Proof.Config (Opcodes Agent)

/-! ### Encodings (30_encoding.md) -/

/-- Decoding the encoding of a well-formed instruction gives it back, for every legal choice of the opcodes (R81, R89,
R92, R125). -/
def Obligations.EncodeThenDecodeIsIdentity : Prop :=
  ∀ (o : Opcodes) (i : Instr), o.distinct = true → i.wf = true → decode o (encode o i) = .ok i

/-- Words written out in the spec (95_test_vectors.md V1.6, V2.1.6 to V2.1.10, V2.1.17, V2.1.18, V2.4.1, V2.4.5) decode
to the instruction they stand for. The opcode bytes are the defaults of R86 (log entry 2). -/
def Obligations.SpecWordsDecode : Prop :=
  decodeRequest ⟨0x01000000, 0x0000000A, 0, List.replicate 10 0xAA⟩ = .ok (.mwrite 0 10 (List.replicate 10 0xAA))
    ∧ decodeRequest ⟨0x02002000, 1, 0, [0x0F]⟩ = .ok (.wnochk 0x2000 1 [0x0F])
    ∧ decodeRequest ⟨0x03000100, 2, 0, [0x12, 0x34]⟩ = .ok (.pprog 0x100 2 [0x12, 0x34])
    ∧ decodeRequest ⟨0x04003000, 0, 0, []⟩ = .ok (.serase 0x3000)
    ∧ decodeRequest ⟨0x05000000, 0, 0, []⟩ = .ok .cerase
    ∧ decodeRequest ⟨0x06000000, 0, 0x000001F4, []⟩ = .ok (.wready 500)
    ∧ decodeRequest ⟨0x07000FFC, 8, 0, []⟩ = .ok (.read 0x0FFC 8)
    ∧ decodeRequest ⟨0x08000010, 4, 0, []⟩ = .ok (.reada 0x10 4)
    ∧ decodeRequest ⟨0x09000000, 0, 0, []⟩ = .ok .rdid
    ∧ decodeWire Opcodes.usual ⟨[0x06], [], 0⟩ = .ok .wireWren
    ∧ decodeWire Opcodes.usual ⟨[0x05], [], 1⟩ = .ok .wireRdsr
    ∧ decodeWire Opcodes.usual ⟨[0x90, 0x00, 0x00, 0x00], [], 2⟩ = .ok .wireRdid
    ∧ decodeWire Opcodes.usual ⟨[0x03, 0x00, 0x0F, 0xFE], [], 4⟩ = .ok (.wireRead 0x0FFE 4)
    ∧ decodeWire Opcodes.usual ⟨[0x02, 0x00, 0x01, 0x00], [0x02, 0x03], 0⟩ = .ok (.wirePp 0x100 [0x02, 0x03])
    ∧ decodeWire Opcodes.usual ⟨[0x20, 0x00, 0x30, 0x00], [], 0⟩ = .ok (.wireSe 0x3000)
    ∧ decodeWire Opcodes.usual ⟨[0xC7], [], 0⟩ = .ok .wireCe

/-- The length of a transaction is the one R87 gives its command; no frame of another length is read as one. -/
def Obligations.FrameLengthsAreFixed : Prop :=
  (∀ (o : Opcodes) (w : Wire), (w.frame o).length = wireLength w.instr)
    ∧ ∀ (o : Opcodes) (f : WireFrame) (i : Instr), decodeWire o f = .ok i → f.length = wireLength i

/-- Op code `0x00` and the op codes from `0x0A` on select no operation; accepting such a request raises
`Fault(ReservedOp)` and issues no transaction (R91). -/
def Obligations.ReservedOpsFault : Prop :=
  ∀ (s : State) (d : Descriptor) (rest : List Agent), d.op = 0 ∨ 0x0A ≤ d.op.toNat →
    (∀ i, decodeRequest d ≠ .ok i)
      ∧ (Ready s → s.port = some d → s.env.turns = .engine :: rest →
          ∃ t, step s = .next t ∧ t.fault = some .reservedOp ∧ t.dev = s.dev ∧ t.ctl = .idle ∧ t.resp = s.resp
            ∧ NoTransaction s t)

/-- Fields that an op does not use are ignored, whatever their value (R89): SERASE reads `w0` only, CERASE and RDID the
op code only, WREADY the op code and `w2`, READ and READA `w0` and `w1`, the writes all but `w2`. -/
def Obligations.UnusedFieldsAreIgnored : Prop :=
  ∀ d d' : Descriptor, d.op = d'.op →
    (d.op = 0x04 → d.addr = d'.addr → decodeRequest d = decodeRequest d')
      ∧ (d.op = 0x05 ∨ d.op = 0x09 → decodeRequest d = decodeRequest d')
      ∧ (d.op = 0x06 → d.w2 = d'.w2 → decodeRequest d = decodeRequest d')
      ∧ (d.op = 0x07 ∨ d.op = 0x08 → d.addr = d'.addr → d.w1 = d'.w1 → decodeRequest d = decodeRequest d')
      ∧ (d.op = 0x01 ∨ d.op = 0x02 ∨ d.op = 0x03 → d.addr = d'.addr → d.w1 = d'.w1 → d.data = d'.data →
          decodeRequest d = decodeRequest d')

/-- The bit layout of the response words (R93), with the reserved fields 0 and the reserved codes never produced; the code of
each outcome and of each kind of command (R93), and `c_outcome` of a completion record (R94). -/
def Obligations.ResponseWordLayout : Prop :=
  (∀ r : Response,
    r.r0.extractLsb' 0 2 = r.outcome.code ∧ r.r0.extractLsb' 2 2 = 0 ∧ r.r0.extractLsb' 4 4 = failCode r.failKind
      ∧ r.r0.extractLsb' 8 24 = r.failAddr ∧ r.r1 = r.committed ∧ r.r2.extractLsb' 0 16 = r.id
      ∧ r.r2.extractLsb' 16 16 = 0 ∧ r.outcome.code ≠ 3 ∧ (failCode r.failKind).toNat ≤ 7)
    ∧ (OpOutcome.code .ok = 0 ∧ OpOutcome.code .timeout = 1 ∧ OpOutcome.code .transportError = 2)
    ∧ (failCode none = 0 ∧ failCode (some .wren) = 1 ∧ failCode (some .rdsr) = 2 ∧ failCode (some .rdid) = 3
      ∧ failCode (some .read) = 4 ∧ failCode (some .pp) = 5 ∧ failCode (some .se) = 6 ∧ failCode (some .ce) = 7)
    ∧ ∀ c : Completion, (c.outcome = .ok → c.code = 0) ∧ (c.outcome = .transportError → c.code = 2)

/-! ### Acceptance of requests (10_state.md R43) -/

/-- MWRITE, WNOCHK and PPROG whose precondition holds are accepted: the request latched, `committed` cleared, the frame
of their procedure pushed, nothing else changed (R43, R160, R170, R180). Not the spec's but the model's: that the port is
emptied (log entry 10, DESIGN CHOICE), the zeros of the locals sec, off, chunk and need that the frame has not written yet
(log entry 6, DESIGN CHOICE), the latch's fields that the op ignores (log entry 19, DEDUCED), and that a request is also
accepted while a payload is in flight (log entry 15, DEDUCED). -/
def Obligations.WriteRequestsAccepted : Prop :=
  ∀ (s : State) (a : Addr) (n : Word) (d : List Byte), Ready s → d.length = n.toNat →
    a.toNat + n.toNat ≤ s.params.capacity →
    exec (.mwrite a n d) s = .next (accepted s { s.incoming with op := 0x01, addr := a, len := n, data := d }
        (.managedWrite .chunk ⟨a.toNat, 0, n.toNat, 0, 0, 0, false⟩))
      ∧ exec (.wnochk a n d) s = .next (accepted s { s.incoming with op := 0x02, addr := a, len := n, data := d }
        (.writeNoCheck .loop ⟨.req, a.toNat, 0, n.toNat, 0⟩))
      ∧ (n.toNat ≤ 256 → a.toNat % 256 + n.toNat ≤ 256 →
        exec (.pprog a n d) s = .next (accepted s { s.incoming with op := 0x03, addr := a, len := n, data := d }
          (.programPage .wren .req 0 a.toNat n.toNat)))

/-- SERASE at a sector of the flash, CERASE and WREADY are accepted (R43, R150, R152, R140). Not the spec's but the
model's: that the port is emptied (log entry 10, DESIGN CHOICE), the zero `t0` of the WaitReady frame before `WR_T0` (log
entry 6, DESIGN CHOICE), the latch's fields that the op ignores (log entry 19, DEDUCED), and that a request is also accepted
while a payload is in flight (log entry 15, DEDUCED). -/
def Obligations.EraseAndWaitRequestsAccepted : Prop :=
  ∀ (s : State) (a : Addr) (t : Word), Ready s →
    (a.toNat % 4096 = 0 → a.toNat < s.params.capacity →
      exec (.serase a) s = .next (accepted s { s.incoming with op := 0x04, addr := a } (.eraseSector .wren a.toNat)))
      ∧ exec .cerase s = .next (accepted s { s.incoming with op := 0x05 } (.eraseChip .wren))
      ∧ exec (.wready t) s
        = .next (accepted s { s.incoming with op := 0x06, tmo := t } (.waitReady .t0 t.toNat 0 .rdsr 0))

/-- READ and READA inside the flash and RDID are accepted, READA where the previous completion record has been consumed
(R43, R200, R201, R204). Not the spec's but the model's: that the port is emptied (log entry 10, DESIGN CHOICE), the latch's
fields that the op ignores (log entry 19, DEDUCED), and that a request is also accepted while a payload is in flight (log
entry 15, DEDUCED). -/
def Obligations.ReadRequestsAccepted : Prop :=
  ∀ (s : State) (a : Addr) (n : Word), Ready s →
    (a.toNat + n.toNat ≤ s.params.capacity →
      exec (.read a n) s
        = .next (accepted s { s.incoming with op := 0x07, addr := a, len := n } (.read a.toNat n.toNat)))
      ∧ (a.toNat + n.toNat ≤ s.params.capacity → s.cmpl.valid = false →
        exec (.reada a n) s
          = .next (accepted s { s.incoming with op := 0x08, addr := a, len := n } (.readAsync a.toNat n.toNat)))
      ∧ exec .rdid s = .next (accepted s { s.incoming with op := 0x09 } .readId)

/-- A request waits, nothing changed, while the engine is not idle, a response is unconsumed or a fault is marked; a READA
also while a completion record is unconsumed (R43, 60_exceptions.md R235; that a waiting request leaves the state as it
is: log entry 21). -/
def Obligations.RequestsWaitUntilAcceptable : Prop :=
  ∀ (s : State) (i : Instr), isRequest i = true →
    (¬Ready s ∨ ((∃ a n, i = .reada a n) ∧ s.cmpl.valid = true)) → exec i s = .next s

/-- A request that breaks its precondition raises `Fault(ContractViolation)`, issues no transaction and posts no response;
one that meets it does not (60_exceptions.md R223, all rows). -/
def Obligations.PreconditionViolationFaults : Prop :=
  ∀ (s t : State) (i : Instr), isRequest i = true → Ready s → s.cmpl.valid = false → exec i s = .next t →
    (MeetsPrecondition s.params i → t.fault = none ∧ ∃ f, t.ctl = .busy [f])
      ∧ (¬MeetsPrecondition s.params i →
        t.fault = some .contractViolation ∧ t.ctl = .idle ∧ t.resp = s.resp ∧ t.dev = s.dev ∧ NoTransaction s t)

/-! ### Wire commands (40_sequencer.md R110 to R125) -/

/-- WREN on a ready device sets the write-enable latch (R115). -/
def Obligations.WireWrenSetsLatch : Prop :=
  ∀ (s : State) (b : Byte) (rest : List Byte), BusFree s → s.dev.pending = .none → s.env.draws = b :: rest →
    okDraw b = true →
    ∃ t, exec .wireWren s = .next t ∧ BusFrame s t ∧ t.scratch = s.scratch ∧ t.dev = { s.dev with wel := true }
      ∧ t.trace = s.trace ++ [.xact .wren [s.params.ops.wren] [] 0 (some [])]

/-- RDSR replies a byte whose bit 0 is the busy bit and whose other bits are those of a draw, busy or not, and changes no
device state (R116, 10_state.md R36). -/
def Obligations.WireRdsrReportsBusy : Prop :=
  ∀ (s : State) (b c v : Byte) (rest : List Byte), BusFree s → s.env.draws = b :: c :: v :: rest →
    okDraw b = true → okDraw c = true →
    ∃ t sr, exec .wireRdsr s = .next t ∧ BusFrame s t ∧ t.scratch = s.scratch ∧ t.dev = s.dev
      ∧ t.trace = s.trace ++ [.xact .rdsr [s.params.ops.rdsr] [] 1 (some [sr])]
      ∧ (sr.getLsbD 0 = true ↔ s.dev.pending ≠ .none)
      ∧ ∀ j, 1 ≤ j → j < 8 → sr.getLsbD j = v.getLsbD j

/-- RDID on a ready device replies the device ID, high byte first (R117, 30_encoding.md R84). -/
def Obligations.WireRdidRepliesId : Prop :=
  ∀ (s : State) (b c : Byte) (rest : List Byte), BusFree s → s.dev.pending = .none → s.env.draws = b :: c :: rest →
    okDraw b = true → okDraw c = true →
    ∃ t hi lo, exec .wireRdid s = .next t ∧ BusFrame s t ∧ t.scratch = s.scratch ∧ t.dev = s.dev
      ∧ t.trace = s.trace ++ [.xact .rdid [s.params.ops.rdid, 0, 0, 0] [] 2 (some [hi, lo])]
      ∧ hi.toNat * 256 + lo.toNat = s.params.deviceId.toNat ∧ idOfReply [hi, lo] = s.params.deviceId

/-- READ inside the flash on a ready device replies the bytes from its address on, lowest address first, across every
boundary, and changes no device state (R118, 20_memory.md R55). Only a managed write's own sector read writes the Scratch
Buffer. -/
def Obligations.WireReadRepliesBytes : Prop :=
  ∀ (s : State) (a : Addr) (n : Nat) (b c : Byte) (rest : List Byte), BusFree s → s.dev.pending = .none → 1 ≤ n →
    a.toNat + n ≤ s.params.capacity → s.env.draws = b :: c :: rest → okDraw b = true → okDraw c = true →
    ∃ t rx, exec (.wireRead a n) s = .next t ∧ BusFrame s t ∧ t.dev = s.dev
      ∧ t.trace = s.trace ++ [.xact .read (s.params.ops.read :: addr24 a) [] n (some rx)]
      ∧ rx.length = n ∧ (∀ j, j < n → rx[j]? = some (s.dev.array.read (a.toNat + j)))
      ∧ ((∀ l below, s.ctl ≠ .busy (.managedWrite .read l :: below)) → t.scratch = s.scratch)

/-- PP of 1 to 256 bytes at an address of the flash, on a ready device with the latch set, leaves the program pending and
consumes the latch; the array is unchanged until it lands (R119, 20_memory.md R59). -/
def Obligations.WirePpPends : Prop :=
  ∀ (s : State) (a : Addr) (d : List Byte) (b c : Byte) (rest : List Byte), BusFree s → s.dev.pending = .none →
    s.dev.wel = true → 1 ≤ d.length → d.length ≤ 256 → a.toNat < s.params.capacity →
    s.env.draws = b :: c :: rest → okDraw b = true → okDraw c = true →
    ∃ t, exec (.wirePp a d) s = .next t ∧ BusFrame s t ∧ t.scratch = s.scratch
      ∧ t.dev = { s.dev with pending := .pp a.toNat d, wel := false }
      ∧ t.trace = s.trace ++ [.xact .pp (s.params.ops.pp :: addr24 a) d 0 (some [])]

/-- SE at a sector of the flash and CE, on a ready device with the latch set, leave the erase pending and consume the
latch; the array is unchanged until it lands (R120, R121, 20_memory.md R59). -/
def Obligations.WireErasesPend : Prop :=
  ∀ (s : State) (a : Addr) (b : Byte) (rest : List Byte), BusFree s → s.dev.pending = .none → s.dev.wel = true →
    s.env.draws = b :: rest → okDraw b = true →
    (a.toNat % 4096 = 0 → a.toNat < s.params.capacity →
      ∃ t, exec (.wireSe a) s = .next t ∧ BusFrame s t ∧ t.scratch = s.scratch
        ∧ t.dev = { s.dev with pending := .se a.toNat, wel := false }
        ∧ t.trace = s.trace ++ [.xact .se (s.params.ops.se :: addr24 a) [] 0 (some [])])
      ∧ ∃ t, exec .wireCe s = .next t ∧ BusFrame s t ∧ t.scratch = s.scratch
        ∧ t.dev = { s.dev with pending := .ce, wel := false }
        ∧ t.trace = s.trace ++ [.xact .ce [s.params.ops.ce] [] 0 (some [])]

/-- Device checks come before transport results: whatever the transport calls would draw, a command the device cannot take
marks its fault and changes nothing else (R113; the checks of R115 to R121 and R124, in their order). The start of an
asynchronous read passes the checks of a READ first (46_read_path.md R201): on a busy device it marks `DeviceBusyAccess`. -/
def Obligations.DeviceChecksComeFirst : Prop :=
  ∀ (s : State) (a : Addr) (n : Nat) (d : List Byte), BusFree s →
    (s.dev.pending ≠ .none → ∀ i ∈ [Instr.wireWren, .wireRdid, .wireRead a n, .wirePp a d, .wireSe a, .wireCe],
      exec i s = .next { s with fault := some .deviceBusyAccess })
      ∧ (s.dev.pending = .none → s.params.capacity < a.toNat + n →
        exec (.wireRead a n) s = .next { s with fault := some .deviceDefined })
      ∧ (s.dev.pending = .none → s.dev.wel = false → ∀ i ∈ [Instr.wirePp a d, .wireSe a, .wireCe],
        exec i s = .next { s with fault := some .noWriteEnable })
      ∧ (s.dev.pending = .none → s.dev.wel = true →
        d.length = 0 ∨ 256 < d.length ∨ s.params.capacity ≤ a.toNat →
        exec (.wirePp a d) s = .next { s with fault := some .deviceDefined })
      ∧ (s.dev.pending = .none → s.dev.wel = true → a.toNat % 4096 ≠ 0 ∨ s.params.capacity ≤ a.toNat →
        exec (.wireSe a) s = .next { s with fault := some .deviceDefined })
      ∧ ∀ (below : List Frame) (rest : List Agent), s.env.turns = .engine :: rest →
        s.ctl = .busy (.readAsync a.toNat n :: below) → 1 ≤ n →
        (s.dev.pending ≠ .none →
          step s = .next { s with env := { s.env with turns := rest }, fault := some .deviceBusyAccess })
          ∧ (s.dev.pending = .none → s.params.capacity < a.toNat + n →
            step s = .next { s with env := { s.env with turns := rest }, fault := some .deviceDefined })

/-- A failed transport call of an RDSR, RDID or READ leaves the device as it was and ends the request with that kind and
address; one of a WREN does the same with the latch a draw (R110, R123, 60_exceptions.md R222, R225, R226). A failed command
phase of an asynchronous read ends the request with `TransportError`, READ and its address: chip-select released, nothing in
flight, no DMA job, the device as it was (46_read_path.md R201). -/
def Obligations.FailedReadsLeaveTheDevice : Prop :=
  ∀ (s : State) (stack : List Frame) (a : Addr) (n : Nat) (b c : Byte) (rest : List Byte), BusFree s →
    s.ctl = .busy stack → s.env.draws = b :: c :: rest →
    (okDraw b = false ∨ okDraw c = false →
      ∃ t, exec .wireRdsr s = .next t ∧ BusFrame s t ∧ t.scratch = s.scratch ∧ t.dev = s.dev
        ∧ t.ctl = .ending (.failed .transportError .rdsr 0)
        ∧ t.trace = s.trace ++ [.xact .rdsr [s.params.ops.rdsr] [] 1 none])
      ∧ (okDraw b = false ∨ okDraw c = false → s.dev.pending = .none →
        ∃ t, exec .wireRdid s = .next t ∧ BusFrame s t ∧ t.scratch = s.scratch ∧ t.dev = s.dev
          ∧ t.ctl = .ending (.failed .transportError .rdid 0)
          ∧ t.trace = s.trace ++ [.xact .rdid [s.params.ops.rdid, 0, 0, 0] [] 2 none])
      ∧ (okDraw b = false ∨ okDraw c = false → s.dev.pending = .none → 1 ≤ n →
        a.toNat + n ≤ s.params.capacity →
        ∃ t, exec (.wireRead a n) s = .next t ∧ BusFrame s t ∧ t.scratch = s.scratch ∧ t.dev = s.dev
          ∧ t.ctl = .ending (.failed .transportError .read a.toNat)
          ∧ t.trace = s.trace ++ [.xact .read (s.params.ops.read :: addr24 a) [] n none])
      ∧ (okDraw b = false → s.dev.pending = .none →
        ∃ t, exec .wireWren s = .next t ∧ BusFrame s t ∧ t.scratch = s.scratch
          ∧ t.dev = { s.dev with wel := c.getLsbD 0 }
          ∧ t.ctl = .ending (.failed .transportError .wren 0)
          ∧ t.trace = s.trace ++ [.xact .wren [s.params.ops.wren] [] 0 none])
      ∧ ∀ (below : List Frame) (turns : List Agent), okDraw b = false → s.dev.pending = .none → 1 ≤ n →
        a.toNat + n ≤ s.params.capacity → stack = .readAsync a.toNat n :: below → s.env.turns = .engine :: turns →
        ∃ t, step s = .next t
          ∧ t = { s with
              env := { s.env with turns := turns, draws := c :: rest }
              cs := false
              ctl := .ending (.failed .transportError .read a.toNat)
              trace := t.trace }
          ∧ t.inflight = false ∧ (BusOk s → t.dma = .none) ∧ NoTransaction s t

/-- A failed transport call of a PP, SE or CE ends the request with that kind and address and may leave any bytes in the
addressed page, sector or flash and the device busy over it; every other byte is unchanged (R110, R123). -/
def Obligations.FailedProgramsStayInTheirRange : Prop :=
  ∀ (s : State) (stack : List Frame) (a : Addr) (d : List Byte) (b c : Byte) (rest : List Byte), BusFree s →
    s.ctl = .busy stack → s.dev.pending = .none → s.dev.wel = true → s.dev.array.wf = true →
    s.env.draws = b :: c :: rest →
    (okDraw b = false ∨ okDraw c = false → 1 ≤ d.length → d.length ≤ 256 → a.toNat < s.params.capacity →
      ∃ t, exec (.wirePp a d) s = .next t ∧ BusFrame s t ∧ t.scratch = s.scratch
        ∧ t.ctl = .ending (.failed .transportError .pp a.toNat)
        ∧ t.trace = s.trace ++ [.xact .pp (s.params.ops.pp :: addr24 a) d 0 none]
        ∧ (t.dev.pending = .none
          ∨ t.dev.pending = .havoc (a.toNat - a.toNat % 256) (a.toNat - a.toNat % 256 + 256))
        ∧ ∀ x, x / 256 ≠ a.toNat / 256 → t.dev.array.read x = s.dev.array.read x)
      ∧ (okDraw b = false → a.toNat % 4096 = 0 → a.toNat < s.params.capacity →
        ∃ t, exec (.wireSe a) s = .next t ∧ BusFrame s t ∧ t.scratch = s.scratch
          ∧ t.ctl = .ending (.failed .transportError .se a.toNat)
          ∧ t.trace = s.trace ++ [.xact .se (s.params.ops.se :: addr24 a) [] 0 none]
          ∧ (t.dev.pending = .none ∨ t.dev.pending = .havoc a.toNat (a.toNat + 4096))
          ∧ ∀ x, x / 4096 ≠ a.toNat / 4096 → t.dev.array.read x = s.dev.array.read x)
      ∧ (okDraw b = false →
        ∃ t, exec .wireCe s = .next t ∧ BusFrame s t ∧ t.scratch = s.scratch
          ∧ t.ctl = .ending (.failed .transportError .ce 0)
          ∧ t.trace = s.trace ++ [.xact .ce [s.params.ops.ce] [] 0 none]
          ∧ (t.dev.pending = .none ∨ t.dev.pending = .havoc 0 s.params.capacity)
          ∧ ∀ x, s.params.capacity ≤ x → t.dev.array.read x = s.dev.array.read x)

/-- While a payload is in flight no step, of any agent, starts a transaction or another asynchronous read (10_state.md
R28, 40_sequencer.md R110, 46_read_path.md R205). -/
def Obligations.NoTransactionWhileInFlight : Prop :=
  ∀ s t : State, s.inflight = true → step s = .next t →
    ∃ new, t.trace = s.trace ++ new
      ∧ ∀ e ∈ new, (∀ k cmd tx rx r, e ≠ .xact k cmd tx rx r) ∧ ∀ a n ok, e ≠ .astart a n ok

/-! ### Device, DMA, clock and host steps -/

/-- When a sector erase at an aligned address completes, it sets every byte of its sector to `0xFF`, and nothing else
changes (20_memory.md R57). -/
def Obligations.SectorEraseLands : Prop :=
  ∀ (s : State) (a : Nat) (rest : List Agent), s.fault = none → s.env.turns = .device :: rest →
    s.dev.array.wf = true → s.dev.pending = .se a → a % 4096 = 0 →
    ∃ t, step s = .next t ∧ t = { s with env := { s.env with turns := rest }, dev := t.dev }
      ∧ t.dev.pending = .none ∧ t.dev.wel = s.dev.wel
      ∧ ∀ x, t.dev.array.read x = if a ≤ x ∧ x < a + 4096 then 0xFF else s.dev.array.read x

/-- When a chip erase completes every byte of the flash is `0xFF`; when what a failed transaction left pending completes only
its range may have changed; the device is ready and nothing else changes (20_memory.md R58, 40_sequencer.md R122,
R123). -/
def Obligations.ChipEraseAndHavocLand : Prop :=
  ∀ (s : State) (rest : List Agent), s.fault = none → s.env.turns = .device :: rest → s.dev.array.wf = true →
    (s.dev.pending = .ce →
      ∃ t, step s = .next t ∧ t = { s with env := { s.env with turns := rest }, dev := t.dev }
        ∧ t.dev.pending = .none ∧ t.dev.wel = s.dev.wel
        ∧ ∀ x, t.dev.array.read x = if x < s.params.capacity then 0xFF else s.dev.array.read x)
      ∧ ∀ lo hi, s.dev.pending = .havoc lo hi → lo ≤ hi →
        ∃ t, step s = .next t ∧ t = { s with env := t.env, dev := t.dev }
          ∧ t.dev.pending = .none ∧ t.dev.wel = s.dev.wel
          ∧ ∀ x, x < lo ∨ hi ≤ x → t.dev.array.read x = s.dev.array.read x

/-- When a page program completes, each payload byte is ANDed into its target address, which wraps within the page, and no
other byte changes; a program that stays in its page targets `a + i` (20_memory.md R56, 40_sequencer.md R119, R122). -/
def Obligations.PageProgramLands : Prop :=
  ∀ (s : State) (a : Nat) (d : List Byte) (rest : List Agent), s.fault = none → s.env.turns = .device :: rest →
    s.dev.array.wf = true → s.dev.pending = .pp a d → d.length ≤ 256 →
    ∃ t, step s = .next t ∧ t = { s with env := { s.env with turns := rest }, dev := t.dev }
      ∧ t.dev.pending = .none ∧ t.dev.wel = s.dev.wel
      ∧ (∀ i v, d[i]? = some v →
        t.dev.array.read ((a - a % 256) + (a % 256 + i) % 256)
          = s.dev.array.read ((a - a % 256) + (a % 256 + i) % 256) &&& v)
      ∧ (∀ x, (∀ i, i < d.length → x ≠ (a - a % 256) + (a % 256 + i) % 256) →
        t.dev.array.read x = s.dev.array.read x)
      ∧ (a % 256 + d.length ≤ 256 → ∀ i v, d[i]? = some v →
        t.dev.array.read (a + i) = s.dev.array.read (a + i) &&& v)

/-- The DMA completion posts the completion record, with the bytes of the flash at completion time or the transport error,
releases chip-select and lifts the hold (46_read_path.md R202, 30_encoding.md R94). The DMA agent is weakly fair: a transfer
in flight completes, unless the machine stops before it does (R202; log entry 9 says how the model is fair). -/
def Obligations.DmaCompletionPosts : Prop :=
  (∀ (s : State) (a n : Nat) (rest : List Agent) (b : Byte) (more : List Byte) (c : Completion), s.fault = none →
    s.env.turns = .dma :: rest → s.dma = .rx a n → s.env.draws = b :: more →
    (okDraw b = true → c = ⟨.ok, (List.range n).map fun i => s.dev.array.read (a + i)⟩) →
    (okDraw b = false → c = ⟨.transportError, []⟩) →
    step s = .next
      { s with
        env := { s.env with turns := rest, draws := more }
        cmpl := ⟨true, c⟩
        cs := false
        inflight := false
        dma := .none
        trace := s.trace ++ [.adone c] })
    ∧ ∀ (s : State) (a n : Nat), s.dma = .rx a n →
      ∃ k, (∀ t, runs k s ≠ .next t) ∨ ∃ t, runs k s = .next t ∧ t.dma = .none ∧ t.inflight = false ∧ t.cmpl.valid = true

/-- Only the Clock agent writes the clock, by one millisecond a step; no step decreases it; and it is weakly fair: unless the
machine stops, `now` eventually exceeds any bound (10_state.md R37; log entry 9 says how the model is fair). -/
def Obligations.OnlyTheClockAdvancesTime : Prop :=
  (∀ (s : State) (rest : List Agent), s.fault = none → s.env.turns = .clock :: rest →
      step s = .next { s with env := { s.env with turns := rest }, now := s.now + 1 })
    ∧ (∀ s t : State, step s = .next t → s.now ≤ t.now
      ∧ (t.now ≠ s.now → s.takeTurn.1 = .clock ∧ t.now = s.now + 1))
    ∧ ∀ (s : State) (bound : Nat), ∃ k, (∀ t, runs k s ≠ .next t) ∨ ∃ t, runs k s = .next t ∧ bound < t.now

/-- The host's moves: a descriptor to an empty request port, the consumption of the response and of the completion record
(10_state.md R31, R32, R42, 60_exceptions.md R242; that a move which is not enabled waits is the model's choice, log
entry 10). -/
def Obligations.HostMovesActOnThePortsOnly : Prop :=
  ∀ (s : State) (m : HostMove) (ms : List HostMove) (rest : List Agent), s.fault = none →
    s.env.turns = .host :: rest → s.host = m :: ms →
    match m with
    | .issue d =>
      (s.port = none → step s = .next { s with env := { s.env with turns := rest }, port := some d, host := ms })
        ∧ (s.port ≠ none → step s = .next { s with env := { s.env with turns := rest } })
    | .takeResp =>
      (s.resp.valid = true →
        step s = .next { s with env := { s.env with turns := rest }, resp := ⟨false, s.resp.record⟩, host := ms })
        ∧ (s.resp.valid = false → step s = .next { s with env := { s.env with turns := rest } })
    | .takeCmpl =>
      (s.cmpl.valid = true →
        step s = .next { s with env := { s.env with turns := rest }, cmpl := ⟨false, s.cmpl.record⟩, host := ms })
        ∧ (s.cmpl.valid = false → step s = .next { s with env := { s.env with turns := rest } })

/-! ### The step -/

/-- Where the engine is idle and the descriptor at its port decodes to a request, the engine's turn is the meaning of that
request, in the state with the turn taken (10_state.md R21, R43). -/
def Obligations.StepRunsTheRequest : Prop :=
  ∀ (s : State) (d : Descriptor) (i : Instr) (rest : List Agent), s.fault = none → s.env.turns = .engine :: rest →
    s.ctl = .idle → s.port = some d → decodeRequest d = .ok i →
    step s = exec i { s with env := { s.env with turns := rest } }

/-- Where the engine's internal computation ends at a frame whose next action is a transaction, the bytes of that
transaction are decoded and the engine's turn is the meaning of the wire command, in the state after that computation
(10_state.md R21, 40_sequencer.md R110, R125); the command read is the one built. -/
def Obligations.StepRunsTheWireCommand : Prop :=
  ∀ (s u : State) (stack : List Frame) (f : Frame) (below : List Frame) (w : Wire) (rest : List Agent),
    s.fault = none → s.inflight = false → s.env.turns = .engine :: rest → s.ctl = .busy stack →
    settle stack { s with env := { s.env with turns := rest } } = u → u.fault = none → u.ctl = .busy (f :: below) →
    u.nextWire f = some w →
    (∀ i, decodeWire u.params.ops (w.frame u.params.ops) = .ok i → step s = exec i u)
      ∧ (u.params.ops.distinct = true → (∀ a, w ≠ .read a 0) → step s = exec w.instr u)

/-- The fault mark holds the first reason raised, and once it is set no agent has a step (10_state.md R33): there is no next
state, now or later. -/
def Obligations.FaultStopsTheMachine : Prop :=
  ∀ (s : State) (r : Fault), s.fault = some r →
    (∀ r', (s.raise r').fault = some r) ∧ (∀ t, step s ≠ .next t) ∧ ∀ k t, runs (k + 1) s ≠ .next t

/-! ### Status poller (41_status_poller.md) -/

/-- `WR_T0` reads the clock once and records it as the start of the wait. `WR_CLK` reads the clock: at `t - t0 >= T` the same
step fails with `Timeout` and the awaited command, with no further RDSR; before it the next poll follows (R141, R142,
R143, R147). That the clock is read also while a payload is in flight is the model's reading of R110 (log entry 15,
DEDUCED). -/
def Obligations.WaitReadsTheClock : Prop :=
  ∀ (s : State) (timeout t0 : Nat) (k : Kind) (ad : Nat) (below : List Frame) (rest : List Agent), s.fault = none →
    s.env.turns = .engine :: rest →
    (s.ctl = .busy (.waitReady .t0 timeout t0 k ad :: below) →
      step s = .next
        { s with
          env := { s.env with turns := rest }
          trace := s.trace ++ [.clk s.now]
          ctl := .busy (.waitReady .poll timeout s.now k ad :: below) })
      ∧ (s.ctl = .busy (.waitReady .clk timeout t0 k ad :: below) →
        step s = .next
          { s with
            env := { s.env with turns := rest }
            trace := s.trace ++ [.clk s.now]
            ctl :=
              if timeout ≤ s.now - t0 then .ending (.failed .timeout k ad)
              else .busy (.waitReady .poll timeout t0 k ad :: below) })

/-- `WR_POLL` issues one RDSR; a clear bit 0 ends the wait with `Ok` whatever the clock says, a set bit 0 leads to the
clock read (R141, R143, R144). -/
def Obligations.PollDecidesOnBusyBit : Prop :=
  ∀ (s : State) (timeout t0 : Nat) (k : Kind) (ad : Nat) (below : List Frame) (rest : List Agent) (b c v : Byte)
    (more : List Byte), s.params.wf = true → BusFree s → s.env.turns = .engine :: rest →
    s.ctl = .busy (.waitReady .poll timeout t0 k ad :: below) → s.env.draws = b :: c :: v :: more →
    okDraw b = true → okDraw c = true →
    ∃ t sr, step s = .next t ∧ t.trace = s.trace ++ [.xact .rdsr [s.params.ops.rdsr] [] 1 (some [sr])]
      ∧ t.dev = s.dev ∧ t.now = s.now ∧ t.scratch = s.scratch ∧ t.committed = s.committed
      ∧ (s.dev.pending ≠ .none → t.ctl = .busy (.waitReady .clk timeout t0 k ad :: below))
      ∧ (s.dev.pending = .none → below ≠ [] → t.ctl = .busy below)
      ∧ (s.dev.pending = .none → below = [] → t.ctl = .ending (.ok [] 0))

/-- Every wait ends (R146). Once the clock has advanced by the timeout, two turns of the engine leave it, whatever the device
and the transport do. And in the run from any state, after finitely many steps, a poll has shown ready, an RDSR has failed
or the deadline has passed; until then the machine stands in the wait. The Clock agent is weakly fair (10_state.md R37), and
so is the DMA agent (46_read_path.md R202), which lifts the hold of a payload in flight; that the engine keeps moving is
log entry 29 (DEDUCED from R146), how the model is fair log entry 9. -/
def Obligations.EveryWaitEnds : Prop :=
  (∀ (s : State) (timeout t0 : Nat) (k : Kind) (ad : Nat) (below : List Frame) (rest : List Agent),
    s.params.wf = true → BusFree s → t0 ≤ s.now → s.ctl = .busy (.waitReady .poll timeout t0 k ad :: below) →
    s.env.turns = List.replicate timeout .clock ++ .engine :: .engine :: rest →
    ∃ t, runs (timeout + 2) s = .next t
      ∧ ∀ pt timeout' t0' k' ad', t.ctl ≠ .busy (.waitReady pt timeout' t0' k' ad' :: below))
    ∧ ∀ (s : State) (pt : WrPoint) (timeout t0 : Nat) (k : Kind) (ad : Nat) (below : List Frame),
      s.params.wf = true → s.fault = none → BusOk s → s.ctl = .busy (.waitReady pt timeout t0 k ad :: below) →
      ∃ n t, runs n s = .next t ∧ t.fault = none
        ∧ ((below ≠ [] ∧ t.ctl = .busy below) ∨ (below = [] ∧ t.ctl = .ending (.ok [] 0))
          ∨ t.ctl = .ending (.failed .timeout k ad) ∨ t.ctl = .ending (.failed .transportError .rdsr 0))
        ∧ ∀ j < n, ∀ u, runs j s = .next u → ∃ pt' t0', u.ctl = .busy (.waitReady pt' timeout t0' k ad :: below)

/-! ### Managed write and page splitting (44_page_split_writer.md, 45_managed_write.md) -/

/-- Every chunk of a managed write begins with one READ of the whole sector into the Scratch Buffer, every cell of it
(45_managed_write.md R182, R183). -/
def Obligations.ChunkBeginsWithSectorRead : Prop :=
  ∀ (s : State) (l : MwLocals) (rest : List Agent) (b c : Byte) (more : List Byte), s.params.wf = true → BusFree s →
    s.dev.pending = .none → s.env.turns = .engine :: rest → s.ctl = .busy [.managedWrite .chunk l] → 0 < l.n →
    l.a < s.params.capacity → s.scratch.length = 4096 → s.env.draws = b :: c :: more → okDraw b = true →
    okDraw c = true →
    ∃ t rx, step s = .next t ∧ t.dev = s.dev ∧ t.committed = s.committed
      ∧ t.trace = s.trace ++
        [.xact .read (s.params.ops.read :: addr24 (BitVec.ofNat 24 (l.a / 4096 * 4096))) [] 4096 (some rx)]
      ∧ rx.length = 4096 ∧ (∀ i, i < 4096 → rx[i]? = some (s.dev.array.read (l.a / 4096 * 4096 + i)))
      ∧ t.scratch = rx.map some
      ∧ t.ctl = .busy [.managedWrite .scan
        { l with sec := l.a / 4096, off := l.a % 4096, chunk := min (4096 - l.a % 4096) l.n }]

/-- The erase-needed test: the erase path is taken exactly when some byte of the chunk's range in the Scratch Buffer differs
from `0xFF`, and the direct path programs the chunk's first page from the request; either way the next transaction is a
write-enable (45_managed_write.md R184, R186). -/
def Obligations.ScanDecidesErase : Prop :=
  ∀ (s : State) (l : MwLocals) (rest : List Agent) (b : Byte) (more : List Byte), s.params.wf = true → BusFree s →
    s.dev.pending = .none → s.env.turns = .engine :: rest → s.ctl = .busy [.managedWrite .scan l] →
    s.scratch.length = 4096 → (∀ x ∈ s.scratch, x ≠ none) → 0 < l.chunk → l.off + l.chunk ≤ 4096 →
    s.env.draws = b :: more → okDraw b = true →
    ∃ t, step s = .next t ∧ t.trace = s.trace ++ [.xact .wren [s.params.ops.wren] [] 0 (some [])]
      ∧ t.scratch = s.scratch ∧ t.dev = { s.dev with wel := true } ∧ t.committed = s.committed
      ∧ ((∃ i, l.off ≤ i ∧ i < l.off + l.chunk ∧ s.scratch[i]? ≠ some (some 0xFF)) →
        t.ctl = .busy [.eraseSector .cmd (l.sec * 4096), .managedWrite .erase { l with need := true }])
      ∧ ((∀ i, l.off ≤ i → i < l.off + l.chunk → s.scratch[i]? = some (some 0xFF)) →
        t.ctl = .busy
          [.programPage .cmd .req l.di l.a (min l.chunk (256 - l.a % 256)),
            .writeNoCheck .page ⟨.req, l.a, l.di, l.chunk, min l.chunk (256 - l.a % 256)⟩,
            .managedWrite .prog { l with need := false }])

/-- After the erase, where its wait has just ended, the new bytes are merged into the Scratch Buffer at the chunk's offset, every other cell kept, and the
whole sector is programmed from it, first page first (45_managed_write.md R185). -/
def Obligations.ErasePathRewritesTheSector : Prop :=
  ∀ (s : State) (r : Request) (l : MwLocals) (rest : List Agent) (b : Byte) (more : List Byte),
    s.params.wf = true → BusFree s → s.dev.pending = .none → s.env.turns = .engine :: rest →
    s.ctl = .busy [.eraseSector .wait (l.sec * 4096), .managedWrite .erase l] → l.need = true → s.req = some r → s.scratch.length = 4096 →
    (∀ x ∈ s.scratch, x ≠ none) → l.off + l.chunk ≤ 4096 → l.di + l.chunk ≤ r.data.length →
    s.env.draws = b :: more → okDraw b = true →
    ∃ t, step s = .next t ∧ t.trace = s.trace ++ [.xact .wren [s.params.ops.wren] [] 0 (some [])]
      ∧ t.committed = s.committed
      ∧ (∀ i, i < 4096 → t.scratch[i]?
        = if l.off ≤ i ∧ i < l.off + l.chunk then some r.data[l.di + (i - l.off)]? else s.scratch[i]?)
      ∧ t.ctl = .busy
        [.programPage .cmd .scratch 0 (l.sec * 4096) 256,
          .writeNoCheck .page ⟨.scratch, l.sec * 4096, 0, 4096, 256⟩, .managedWrite .prog l]

/-- Where the last wait of a request has just ended, the last finished chunk is counted and the request posts `Ok` with the
committed length: sector chunks for a managed write, page chunks for an unchecked write, none for a page program or an erase
(10_state.md R30, 44_page_split_writer.md R174, 45_managed_write.md R187, 60_exceptions.md R226;
that the latch is emptied: log entry 18; that the response is posted also while a payload is in flight: log entry 15). -/
def Obligations.LastChunkPostsCommitted : Prop :=
  ∀ (s : State) (stack : List Frame) (k : Nat) (rest : List Agent), s.fault = none → s.env.turns = .engine :: rest →
    s.ctl = .busy stack →
    ((∃ src si a n w l, stack = [.programPage .wait src si a n, .writeNoCheck .page w, .managedWrite .prog l]
        ∧ w.n ≤ w.chunk ∧ l.n ≤ l.chunk ∧ k = l.chunk)
      ∨ (∃ src si a n w, stack = [.programPage .wait src si a n, .writeNoCheck .page w] ∧ w.n ≤ w.chunk ∧ k = w.chunk)
      ∨ ((∃ src si a n, stack = [.programPage .wait src si a n]) ∧ k = 0)
      ∨ ((∃ a, stack = [.eraseSector .wait a]) ∧ k = 0)
      ∨ (stack = [.eraseChip .wait] ∧ k = 0)) →
    step s = .next
      { answered s ⟨.ok, none, 0, BitVec.ofNat 32 (s.committed + k), [], 0⟩ with
        env := { s.env with turns := rest }
        committed := s.committed + k }

/-- Where the wait for the last page of a chunk has just ended and the chunk is not the last, the managed write counts it,
advances and reads the next chunk's whole sector: the
reply is the sector's bytes, and they fill every cell of the Scratch Buffer (45_managed_write.md R182, R183, R187). -/
def Obligations.NextChunkAdvances : Prop :=
  ∀ (s : State) (src : Source) (si a n : Nat) (w : WnLocals) (l : MwLocals) (rest : List Agent) (b c : Byte)
    (more : List Byte), s.params.wf = true → BusFree s → s.dev.pending = .none → s.env.turns = .engine :: rest →
    s.ctl = .busy [.programPage .wait src si a n, .writeNoCheck .page w, .managedWrite .prog l] → w.n ≤ w.chunk →
    l.chunk < l.n → l.a + l.chunk < s.params.capacity → s.env.draws = b :: c :: more → okDraw b = true →
    okDraw c = true →
    ∃ t rx, step s = .next t ∧ t.committed = s.committed + l.chunk ∧ t.dev = s.dev
      ∧ t.trace = s.trace ++
        [.xact .read (s.params.ops.read :: addr24 (BitVec.ofNat 24 ((l.a + l.chunk) / 4096 * 4096))) [] 4096 (some rx)]
      ∧ rx.length = 4096 ∧ (∀ i, i < 4096 → rx[i]? = some (s.dev.array.read ((l.a + l.chunk) / 4096 * 4096 + i)))
      ∧ (s.scratch.length = 4096 → t.scratch = rx.map some)
      ∧ t.ctl = .busy [.managedWrite .scan
        { l with
          a := l.a + l.chunk
          di := l.di + l.chunk
          n := l.n - l.chunk
          sec := (l.a + l.chunk) / 4096
          off := (l.a + l.chunk) % 4096
          chunk := min (4096 - (l.a + l.chunk) % 4096) (l.n - l.chunk) }]

/-- Where the wait for a page chunk has just ended and the chunk is not the last, the page-splitting writer advances and
starts the next page, whose chunk is a whole page or what remains. An unchecked write's own writer counts the finished chunk;
one that a managed write has called, for the request's bytes or for the Scratch Buffer, leaves `committed` as it is
(44_page_split_writer.md R171, R172, R174). -/
def Obligations.NextPageAdvances : Prop :=
  ∀ (s : State) (src : Source) (si a n : Nat) (l : WnLocals) (below : List Frame) (rest : List Agent) (b : Byte)
    (more : List Byte), s.params.wf = true → BusFree s → s.dev.pending = .none → s.env.turns = .engine :: rest →
    s.ctl = .busy (.programPage .wait src si a n :: .writeNoCheck .page l :: below) →
    (below = [] ∨ ∃ m, below = [.managedWrite .prog m]) →
    (l.src = .scratch → s.scratch.length = 4096 ∧ (∀ x ∈ s.scratch, x ≠ none) ∧ l.si + l.n ≤ 4096) →
    l.chunk = min l.n (256 - l.a % 256) → l.chunk < l.n → s.env.draws = b :: more → okDraw b = true →
    ∃ t, step s = .next t ∧ (l.a + l.chunk) % 256 = 0 ∧ t.scratch = s.scratch
      ∧ (below = [] → t.committed = s.committed + l.chunk) ∧ (below ≠ [] → t.committed = s.committed)
      ∧ t.trace = s.trace ++ [.xact .wren [s.params.ops.wren] [] 0 (some [])]
      ∧ t.ctl = .busy
        (.programPage .cmd l.src (l.si + l.chunk) (l.a + l.chunk) (min (l.n - l.chunk) 256) ::
          .writeNoCheck .page ⟨l.src, l.a + l.chunk, l.si + l.chunk, l.n - l.chunk, min (l.n - l.chunk) 256⟩ :: below)

/-- Every zero-length write or read ends with `Ok` in two turns of the engine, with no transaction, even while a payload is
in flight; READA posts its empty completion record (43_page_programmer.md R163, 44_page_split_writer.md R175,
45_managed_write.md R188, 46_read_path.md R200, R201, R205; that READA's record is posted in the response's step: log
entry 16). -/
def Obligations.ZeroLengthRequestsComplete : Prop :=
  ∀ (s : State) (a : Addr) (op : Byte) (rest : List Agent), Ready s → s.cmpl.valid = false →
    a.toNat ≤ s.params.capacity → s.env.turns = .engine :: .engine :: rest →
    op ∈ [(0x01 : Byte), 0x02, 0x03, 0x07, 0x08] → s.port = some (assemble op a 0 0 []) →
    ∃ t, runs 2 s = .next t ∧ t.ctl = .idle ∧ t.dev = s.dev ∧ t.inflight = s.inflight
      ∧ t.resp = ⟨true, ⟨.ok, none, 0, 0, [], 0⟩⟩
      ∧ t.trace = s.trace ++ [.accept ⟨op, a, 0, 0, []⟩, .resp ⟨.ok, none, 0, 0, [], 0⟩]
      ∧ t.cmpl = if op = 0x08 then ⟨true, ⟨.ok, []⟩⟩ else s.cmpl

/-- The response is posted in the engine's next step after the request has ended, with the outcome, the failing command's
kind and address and the committed length, and the engine is idle again (60_exceptions.md R226, R232; that the latch is
emptied: log entry 18; the control form between the two steps: log entry 13; that the response is posted also while a
payload is in flight: log entry 15). -/
def Obligations.EndedRequestPostsItsResponse : Prop :=
  ∀ (s : State) (rest : List Agent), s.fault = none → s.env.turns = .engine :: rest →
    (∀ o k ad, s.ctl = .ending (.failed o k ad) →
      step s = .next
        { answered s ⟨o, some k, BitVec.ofNat 24 ad, BitVec.ofNat 32 s.committed, [], 0⟩ with
          env := { s.env with turns := rest } })
      ∧ ∀ rd id, s.ctl = .ending (.ok rd id) →
        step s = .next
          { answered s ⟨.ok, none, 0, BitVec.ofNat 32 s.committed, rd, id⟩ with env := { s.env with turns := rest } }

/-! ### Whole requests under one schedule -/

/-- SERASE and CERASE on a ready device whose erase lands at once and whose transport works: accepted, write-enable, erase,
clock, one status poll, `Ok`; the sector, or the whole flash, is `0xFF` and no other byte has changed
(42_erase_controller.md R150, R151, R152, R153). -/
def Obligations.EraseRequestsRun : Prop :=
  ∀ (s : State) (a : Addr) (rest : List Agent) (b1 b2 b3 b4 v : Byte) (more : List Byte), s.params.wf = true →
    Ready s → s.inflight = false → s.dev.pending = .none → s.dev.array.wf = true →
    s.env.turns = [.engine, .engine, .engine, .device, .engine, .engine, .engine] ++ rest →
    s.env.draws = b1 :: b2 :: b3 :: b4 :: v :: more → (∀ b ∈ [b1, b2, b3, b4], okDraw b = true) →
    (a.toNat % 4096 = 0 → a.toNat < s.params.capacity → s.port = some (assemble 0x04 a 0 0 []) →
      ∃ t sr, runs 7 s = .next t ∧ t.ctl = .idle ∧ t.resp = ⟨true, ⟨.ok, none, 0, 0, [], 0⟩⟩
        ∧ t.dev.pending = .none ∧ t.dev.wel = false
        ∧ t.trace = s.trace ++
          [.accept ⟨0x04, a, 0, 0, []⟩, .xact .wren [s.params.ops.wren] [] 0 (some []),
            .xact .se (s.params.ops.se :: addr24 a) [] 0 (some []), .clk s.now,
            .xact .rdsr [s.params.ops.rdsr] [] 1 (some [sr]), .resp ⟨.ok, none, 0, 0, [], 0⟩]
        ∧ ∀ x, t.dev.array.read x = if a.toNat ≤ x ∧ x < a.toNat + 4096 then 0xFF else s.dev.array.read x)
      ∧ (s.port = some (assemble 0x05 0 0 0 []) →
        ∃ t sr, runs 7 s = .next t ∧ t.ctl = .idle ∧ t.resp = ⟨true, ⟨.ok, none, 0, 0, [], 0⟩⟩
          ∧ t.dev.pending = .none ∧ t.dev.wel = false
          ∧ t.trace = s.trace ++
            [.accept ⟨0x05, 0, 0, 0, []⟩, .xact .wren [s.params.ops.wren] [] 0 (some []),
              .xact .ce [s.params.ops.ce] [] 0 (some []), .clk s.now,
              .xact .rdsr [s.params.ops.rdsr] [] 1 (some [sr]), .resp ⟨.ok, none, 0, 0, [], 0⟩]
          ∧ ∀ x, t.dev.array.read x = if x < s.params.capacity then 0xFF else s.dev.array.read x)

/-- PPROG and WNOCHK of one to 256 bytes inside a page under the same schedule: accepted, write-enable, page program, clock,
one status poll, `Ok`; each byte is the AND of old and new and no other byte has changed; WNOCHK commits its length, PPROG
none (43_page_programmer.md R160, R161, 44_page_split_writer.md R171, R174, 10_state.md R30). -/
def Obligations.PageProgramRequestsRun : Prop :=
  ∀ (s : State) (op : Byte) (a : Addr) (n : Word) (d : List Byte) (rest : List Agent) (b1 b2 b3 b4 b5 v : Byte)
    (more : List Byte) (c : Word), s.params.wf = true → Ready s → s.inflight = false → s.dev.pending = .none →
    s.dev.array.wf = true → d.length = n.toNat → 1 ≤ d.length → a.toNat % 256 + d.length ≤ 256 →
    a.toNat + d.length ≤ s.params.capacity → s.port = some (assemble op a n 0 d) →
    ((op = 0x03 ∧ c = 0) ∨ (op = 0x02 ∧ c = n)) →
    s.env.turns = [.engine, .engine, .engine, .device, .engine, .engine, .engine] ++ rest →
    s.env.draws = b1 :: b2 :: b3 :: b4 :: b5 :: v :: more → (∀ b ∈ [b1, b2, b3, b4, b5], okDraw b = true) →
    ∃ t sr, runs 7 s = .next t ∧ t.ctl = .idle ∧ t.resp = ⟨true, ⟨.ok, none, 0, c, [], 0⟩⟩
      ∧ t.dev.pending = .none ∧ t.dev.wel = false
      ∧ t.trace = s.trace ++
        [.accept ⟨op, a, n, 0, d⟩, .xact .wren [s.params.ops.wren] [] 0 (some []),
          .xact .pp (s.params.ops.pp :: addr24 a) d 0 (some []), .clk s.now,
          .xact .rdsr [s.params.ops.rdsr] [] 1 (some [sr]), .resp ⟨.ok, none, 0, c, [], 0⟩]
      ∧ ∀ x, t.dev.array.read x
        = if a.toNat ≤ x ∧ x < a.toNat + d.length then s.dev.array.read x &&& d.getD (x - a.toNat) 0xFF
          else s.dev.array.read x

/-- READ, RDID and WREADY on a ready device with a working transport: accepted, one transaction (WREADY: the clock read and
one status poll), `Ok` with the bytes or the device ID (46_read_path.md R200, R204, 41_status_poller.md R140). -/
def Obligations.ReadAndWaitRequestsRun : Prop :=
  ∀ (s : State) (a : Addr) (n timeout : Word) (rest : List Agent) (b1 b2 v : Byte) (more : List Byte),
    s.params.wf = true → Ready s → s.inflight = false → s.dev.pending = .none →
    s.env.turns = [.engine, .engine, .engine, .engine] ++ rest → s.env.draws = b1 :: b2 :: v :: more →
    (∀ b ∈ [b1, b2], okDraw b = true) →
    (1 ≤ n.toNat → a.toNat + n.toNat ≤ s.params.capacity → s.port = some (assemble 0x07 a n 0 []) →
      ∃ t, runs 3 s = .next t ∧ t.ctl = .idle ∧ t.dev = s.dev ∧ t.scratch = s.scratch
        ∧ t.resp = ⟨true, ⟨.ok, none, 0, 0, (List.range n.toNat).map fun i => s.dev.array.read (a.toNat + i), 0⟩⟩)
      ∧ (s.port = some (assemble 0x09 0 0 0 []) →
        ∃ t, runs 3 s = .next t ∧ t.ctl = .idle ∧ t.dev = s.dev ∧ t.scratch = s.scratch
          ∧ t.resp = ⟨true, ⟨.ok, none, 0, 0, [], s.params.deviceId⟩⟩)
      ∧ (s.port = some (assemble 0x06 0 0 timeout []) →
        ∃ t sr, runs 4 s = .next t ∧ t.ctl = .idle ∧ t.dev = s.dev ∧ t.scratch = s.scratch
          ∧ t.resp = ⟨true, ⟨.ok, none, 0, 0, [], 0⟩⟩
          ∧ t.trace = s.trace ++
            [.accept ⟨0x06, 0, 0, timeout, []⟩, .clk s.now, .xact .rdsr [s.params.ops.rdsr] [] 1 (some [sr]),
              .resp ⟨.ok, none, 0, 0, [], 0⟩])

/-- READA on a ready device: `Ok` as soon as the command phase is sent, with chip-select held and the payload in flight;
the DMA completion then posts the bytes and releases the bus (46_read_path.md R201, R202, R203). -/
def Obligations.AsyncReadRuns : Prop :=
  ∀ (s : State) (a : Addr) (n : Word) (rest : List Agent) (b1 b2 : Byte) (more : List Byte), s.params.wf = true →
    Ready s → s.cmpl.valid = false → s.inflight = false → s.dev.pending = .none → 1 ≤ n.toNat →
    a.toNat + n.toNat ≤ s.params.capacity → s.port = some (assemble 0x08 a n 0 []) →
    s.env.turns = [.engine, .engine, .engine, .dma] ++ rest → s.env.draws = b1 :: b2 :: more →
    (∀ b ∈ [b1, b2], okDraw b = true) →
    (∃ t, runs 3 s = .next t ∧ t.ctl = .idle ∧ t.resp = ⟨true, ⟨.ok, none, 0, 0, [], 0⟩⟩ ∧ t.inflight = true
      ∧ t.cs = true ∧ t.dma = .rx a.toNat n.toNat ∧ t.asyncA = a.toNat ∧ t.asyncN = n.toNat
      ∧ t.cmpl.valid = false ∧ t.dev = s.dev)
      ∧ ∃ u, runs 4 s = .next u ∧ u.inflight = false ∧ u.cs = false ∧ u.dma = .none ∧ u.dev = s.dev
        ∧ u.cmpl = ⟨true, ⟨.ok, (List.range n.toNat).map fun i => s.dev.array.read (a.toNat + i)⟩⟩

/-- MWRITE of a chunk inside one page whose old bytes are all `0xFF`: whole-sector read, write-enable, page program, clock,
one status poll, `Ok` with the committed length; no erase is issued, the destination holds the request's bytes and no
other byte has changed (45_managed_write.md R181, R186, R189, R190). -/
def Obligations.ManagedWriteDirectRuns : Prop :=
  ∀ (s : State) (a : Addr) (n : Word) (d : List Byte) (rest : List Agent) (b1 b2 b3 b4 b5 b6 b7 v : Byte)
    (more : List Byte), s.params.wf = true → Ready s → s.inflight = false → s.dev.pending = .none →
    s.dev.array.wf = true → s.scratch.length = 4096 → d.length = n.toNat → 1 ≤ d.length →
    a.toNat % 256 + d.length ≤ 256 → a.toNat + d.length ≤ s.params.capacity →
    (∀ x, a.toNat ≤ x → x < a.toNat + d.length → s.dev.array.read x = 0xFF) →
    s.port = some (assemble 0x01 a n 0 d) →
    s.env.turns = [.engine, .engine, .engine, .engine, .device, .engine, .engine, .engine] ++ rest →
    s.env.draws = b1 :: b2 :: b3 :: b4 :: b5 :: b6 :: b7 :: v :: more →
    (∀ b ∈ [b1, b2, b3, b4, b5, b6, b7], okDraw b = true) →
    ∃ t rx sr, runs 8 s = .next t ∧ t.ctl = .idle ∧ t.resp = ⟨true, ⟨.ok, none, 0, n, [], 0⟩⟩
      ∧ t.trace = s.trace ++
        [.accept ⟨0x01, a, n, 0, d⟩,
          .xact .read (s.params.ops.read :: addr24 (BitVec.ofNat 24 (a.toNat / 4096 * 4096))) [] 4096 (some rx),
          .xact .wren [s.params.ops.wren] [] 0 (some []),
          .xact .pp (s.params.ops.pp :: addr24 a) d 0 (some []), .clk s.now,
          .xact .rdsr [s.params.ops.rdsr] [] 1 (some [sr]), .resp ⟨.ok, none, 0, n, [], 0⟩]
      ∧ ∀ x, t.dev.array.read x
        = if a.toNat ≤ x ∧ x < a.toNat + d.length then d.getD (x - a.toNat) 0xFF else s.dev.array.read x

/-! ### Whole requests under every schedule -/

/-- SERASE that posts `Ok`, under any interleaving of the agents and any draws: the sector is all `0xFF` and no other byte
has changed (42_erase_controller.md R151, 20_memory.md R70). -/
def Obligations.SectorEraseOkMeansErased : Prop :=
  ∀ (s t u : State) (a : Addr), Consistent s → Ready s → s.dev.pending = .none → exec (.serase a) s = .next t →
    Finishes t u → u.resp.valid = true → u.resp.record.outcome = .ok →
    u.dev.pending = .none
      ∧ ∀ x, u.dev.array.read x = if a.toNat ≤ x ∧ x < a.toNat + 4096 then 0xFF else s.dev.array.read x

/-- WNOCHK under any interleaving and any draws. Where it posts `Ok`, every destination byte is the AND of old and new, no
other byte has changed, and `committed` is the whole length. Where it posts `Timeout` or `TransportError` with committed
length `c`, the chunks counted end at a page boundary, the first `c` destination bytes are the AND of old and new, and
outside the page of the failing chunk every other byte keeps its old value (44_page_split_writer.md R173, R174; what a
pending operation does later is no part of this statement). -/
def Obligations.UncheckedWriteAndsItsBytes : Prop :=
  ∀ (s t u : State) (a : Addr) (n : Word) (d : List Byte), Consistent s → Ready s → s.dev.pending = .none →
    exec (.wnochk a n d) s = .next t → Finishes t u → u.resp.valid = true →
    let c := u.resp.record.committed.toNat
    (u.resp.record.outcome = .ok →
      u.dev.pending = .none ∧ u.resp.record.committed = n
        ∧ ∀ x, u.dev.array.read x
          = if a.toNat ≤ x ∧ x < a.toNat + d.length then s.dev.array.read x &&& d.getD (x - a.toNat) 0xFF
            else s.dev.array.read x)
      ∧ (u.resp.record.outcome ≠ .ok →
        c < n.toNat ∧ (c = 0 ∨ (a.toNat + c) % 256 = 0)
          ∧ (∀ x, a.toNat ≤ x → x < a.toNat + c →
            u.dev.array.read x = s.dev.array.read x &&& d.getD (x - a.toNat) 0xFF)
          ∧ ∀ x, (x < a.toNat ∨ a.toNat + c ≤ x) → x / 256 ≠ (a.toNat + c) / 256 →
            u.dev.array.read x = s.dev.array.read x)

/-- MWRITE that posts `Ok`, under any interleaving and any draws, erase path or direct path: the destination holds exactly
the request's bytes and every other byte its old value (45_managed_write.md R189). -/
def Obligations.ManagedWriteOkStoresItsBytes : Prop :=
  ∀ (s t u : State) (a : Addr) (n : Word) (d : List Byte), Consistent s → Ready s → s.dev.pending = .none →
    exec (.mwrite a n d) s = .next t → Finishes t u → u.resp.valid = true → u.resp.record.outcome = .ok →
    u.dev.pending = .none ∧ u.resp.record.committed = n
      ∧ ∀ x, u.dev.array.read x
        = if a.toNat ≤ x ∧ x < a.toNat + d.length then d.getD (x - a.toNat) 0xFF else s.dev.array.read x

/-- MWRITE that posts `Timeout` or `TransportError` with committed length `c`, under any interleaving and any draws: the
first `c` destination bytes hold the request's bytes, and outside the sector of the failing chunk every other byte keeps its
old value (45_managed_write.md R192; what a pending operation does later is no part of this statement). -/
def Obligations.ManagedWriteFailureKeepsOtherSectors : Prop :=
  ∀ (s t u : State) (a : Addr) (n : Word) (d : List Byte), Consistent s → Ready s → s.dev.pending = .none →
    exec (.mwrite a n d) s = .next t → Finishes t u → u.resp.valid = true → u.resp.record.outcome ≠ .ok →
    let c := u.resp.record.committed.toNat
    c < n.toNat ∧ (c = 0 ∨ (a.toNat + c) % 4096 = 0)
      ∧ (∀ x, a.toNat ≤ x → x < a.toNat + c → u.dev.array.read x = d.getD (x - a.toNat) 0xFF)
      ∧ ∀ x, (x < a.toNat ∨ a.toNat + c ≤ x) → x / 4096 ≠ (a.toNat + c) / 4096 →
        u.dev.array.read x = s.dev.array.read x

/-! ### Invariants and rules of the whole machine -/

/-- The machine after reset as the spec gives it (10_state.md R44, R45); the values log entries 1 to 8 choose are no part of
this statement. -/
def Obligations.ResetState : Prop :=
  State.reset.ctl = .idle ∧ State.reset.req = none ∧ State.reset.scratch = List.replicate 4096 none
    ∧ State.reset.inflight = false ∧ State.reset.cs = false ∧ State.reset.committed = 0
    ∧ State.reset.resp.valid = false ∧ State.reset.cmpl.valid = false ∧ State.reset.fault = none
    ∧ State.reset.trace = [] ∧ State.reset.dev.pending = .none ∧ State.reset.dev.wel = false
    ∧ State.reset.dma = .none

/-- The state after reset is consistent. It rests on the reset values of log entries 1 and 3 (parameters that meet R9 to
R11, an array in canonical form). -/
def Obligations.ResetIsConsistent : Prop := Consistent State.reset ∧ WrenLast State.reset

/-- Every step keeps a consistent state: legal control stacks, chunks inside their page or sector, the committed length the
position in the request, chip-select asserted only while a payload is in flight, the array canonical and inside the
flash. -/
def Obligations.StepKeepsConsistency : Prop := ∀ s t : State, Consistent s → step s = .next t → Consistent t

/-- From a consistent state a step is never refused, and the machine stops only for a request the host should not have
made: a contract violation, a reserved op or a command to a busy device, never for a missing write-enable, a
device-defined command or an unwritten Scratch Buffer cell (10_state.md R27, 20_memory.md R63, 30_encoding.md R88,
70_reset_and_hazards.md R265, R267). -/
def Obligations.EngineNeverFaultsByItself : Prop :=
  ∀ s : State, Consistent s →
    (∀ r, step s ≠ .refused r)
      ∧ (∀ r, step s = .fault r → s.fault = some r ∧ engineFault r = false)
      ∧ ∀ t r, step s = .next t → t.fault = some r →
        r = .contractViolation ∨ r = .reservedOp ∨ r = .deviceBusyAccess

/-- Every transaction the engine issues from a consistent state is one of the seven commands with its operands in range: no
PP crosses a page boundary, no SE is unaligned, no read leaves the flash (20_memory.md R63, 40_sequencer.md R125,
43_page_programmer.md R162, 70_reset_and_hazards.md R267). -/
def Obligations.TransactionsStayInRange : Prop :=
  ∀ s t : State, Consistent s → step s = .next t →
    ∃ new, t.trace = s.trace ++ new ∧ ∀ e ∈ new, TransactionInRange s e

/-- Every PP, SE and CE is immediately preceded by its own WREN: where the engine stands at a program or an erase the last
event of the trace is that WREN, every step keeps this, and a program or an erase is issued from nowhere else
(70_reset_and_hazards.md R265). -/
def Obligations.WriteEnableImmediatelyBefore : Prop :=
  ∀ s t : State, Consistent s → WrenLast s → step s = .next t →
    WrenLast t
      ∧ ∀ k cmd tx rx r, t.trace = s.trace ++ [.xact k cmd tx rx r] → k = .pp ∨ k = .se ∨ k = .ce →
        s.trace.getLast? = some (wrenEvent s)

/-- From a consistent state `Fault(DeviceBusyAccess)` is raised only by the first transaction of a request: the engine's own
sequences wait for the device (40_sequencer.md R124, 70_reset_and_hazards.md R266, R268). -/
def Obligations.BusyAccessOnlyAtTheStart : Prop :=
  ∀ s t : State, Consistent s → s.fault = none → step s = .next t → t.fault = some .deviceBusyAccess →
    ∃ f, s.ctl = .busy [f] ∧ initialFrame f = true

/-- The flash array keeps its canonical form: addresses strictly rising, no erased byte listed, under every step from any
state (log entry 3). -/
def Obligations.StepKeepsArrayCanonical : Prop :=
  ∀ s t : State, s.dev.array.wf = true → step s = .next t → t.dev.array.wf = true

/-- Only device rules write the flash array: the completion of a program or erase, and the havoc of a failed one
(10_state.md R38). -/
def Obligations.OnlyDeviceRulesWriteFlash : Prop :=
  ∀ s t : State, step s = .next t → t.dev.array ≠ s.dev.array →
    s.takeTurn.1 = .device
      ∨ ∃ k cmd tx rx, t.trace = s.trace ++ [.xact k cmd tx rx none] ∧ (k = .pp ∨ k = .se ∨ k = .ce)

/-- The trace is append-only and at most one event is added a step (10_state.md R21, R34); the implementation parameters
never change (00_scope.md R9 to R12). -/
def Obligations.TraceOnlyGrowsAndParametersStay : Prop :=
  ∀ s t : State, step s = .next t →
    t.params = s.params ∧ (t.trace = s.trace ∨ ∃ e, t.trace = s.trace ++ [e])
end

