-- ==== Sys2Proof/Laws/Memory.lean ====
section
/-! SUPPORT. The laws of the flash array: a read after a write, and that every operation keeps the canonical form and the
addresses in range. -/

namespace Sys2Proof.Machine

open Config (pageSize)

/-! ### The canonical form -/

theorem Memory.wfFrom_mono {lo lo' : Nat} {m : Memory} (hle : lo' ≤ lo) (h : m.wfFrom lo = true) :
    m.wfFrom lo' = true := by
  cases m with
  | nil => rfl
  | cons c t =>
    obtain ⟨b, v⟩ := c
    simp only [Memory.wfFrom, Bool.and_eq_true, decide_eq_true_eq] at h ⊢
    exact ⟨⟨by omega, h.1.2⟩, h.2⟩

/-- An address below every listed one reads as the erased byte. -/
theorem Memory.read_below {lo a : Nat} {m : Memory} (h : m.wfFrom lo = true) (ha : a < lo) : m.read a = erased := by
  induction m generalizing lo with
  | nil => rfl
  | cons c t ih =>
    obtain ⟨b, v⟩ := c
    simp only [Memory.wfFrom, Bool.and_eq_true, decide_eq_true_eq] at h
    rw [Memory.read, if_neg (by omega)]
    exact ih h.2 (by omega)

theorem Memory.wfFrom_remove {lo a : Nat} {m : Memory} (h : m.wfFrom lo = true) : (m.remove a).wfFrom lo = true := by
  induction m generalizing lo with
  | nil => rfl
  | cons c t ih =>
    obtain ⟨b, v⟩ := c
    have h' := h
    simp only [Memory.wfFrom, Bool.and_eq_true, decide_eq_true_eq] at h
    unfold Memory.remove
    split
    · exact Memory.wfFrom_mono (by omega) h.2
    · split
      · exact h'
      · simp only [Memory.wfFrom, Bool.and_eq_true, decide_eq_true_eq]; exact ⟨h.1, ih h.2⟩

theorem Memory.wfFrom_put {lo a : Nat} {v : Byte} {m : Memory} (h : m.wfFrom lo = true) (ha : lo ≤ a)
    (hv : v ≠ erased) : (m.put a v).wfFrom lo = true := by
  induction m generalizing lo with
  | nil => simp only [Memory.put, Memory.wfFrom, Bool.and_eq_true, decide_eq_true_eq, bne_iff_ne]; exact ⟨⟨ha, hv⟩, trivial⟩
  | cons c t ih =>
    obtain ⟨b, w⟩ := c
    simp only [Memory.wfFrom, Bool.and_eq_true, decide_eq_true_eq] at h
    unfold Memory.put
    split
    · next hb =>
      subst hb
      simp only [Memory.wfFrom, Bool.and_eq_true, decide_eq_true_eq, bne_iff_ne]
      exact ⟨⟨ha, hv⟩, h.2⟩
    · split
      · next hb hlt =>
        simp only [Memory.wfFrom, Bool.and_eq_true, decide_eq_true_eq, bne_iff_ne]
        exact ⟨⟨ha, hv⟩, ⟨by omega, by simpa using h.1.2⟩, h.2⟩
      · simp only [Memory.wfFrom, Bool.and_eq_true, decide_eq_true_eq]
        exact ⟨h.1, ih h.2 (by omega)⟩

theorem Memory.write_wf {m : Memory} (h : m.wf = true) (a : Nat) (v : Byte) : (m.write a v).wf = true := by
  unfold Memory.write Memory.wf
  split
  · exact Memory.wfFrom_remove h
  · next hv => exact Memory.wfFrom_put h (Nat.zero_le a) hv

theorem Memory.writeRange_wf {m : Memory} (h : m.wf = true) (a : Nat) (vs : List Byte) :
    (m.writeRange a vs).wf = true := by
  induction vs generalizing m a with
  | nil => exact h
  | cons v vs ih => exact ih (Memory.write_wf h a v) (a + 1)

theorem Memory.program_wf {m : Memory} (h : m.wf = true) (a i : Nat) (vs : List Byte) :
    (m.program a i vs).wf = true := by
  induction vs generalizing m i with
  | nil => exact h
  | cons v vs ih => exact ih (Memory.write_wf h _ _) (i + 1)

theorem Memory.wfFrom_filter {lo : Nat} {m : Memory} (h : m.wfFrom lo = true) (p : Host.Cell → Bool) :
    Memory.wfFrom lo (m.filter p) = true := by
  induction m generalizing lo with
  | nil => rfl
  | cons c t ih =>
    obtain ⟨b, v⟩ := c
    simp only [Memory.wfFrom, Bool.and_eq_true, decide_eq_true_eq] at h
    rw [List.filter_cons]
    split
    · simp only [Memory.wfFrom, Bool.and_eq_true, decide_eq_true_eq]; exact ⟨h.1, ih h.2⟩
    · exact Memory.wfFrom_mono (by omega) (ih h.2)

theorem Memory.erase_wf {m : Memory} (h : m.wf = true) (lo hi : Nat) : (m.erase lo hi).wf = true :=
  Memory.wfFrom_filter h _

/-! ### Reading back -/

theorem Memory.read_put (m : Memory) (a : Nat) (v : Byte) (x : Nat) :
    (m.put a v).read x = if x = a then v else m.read x := by
  induction m with
  | nil => simp [Memory.put, Memory.read, eq_comm]
  | cons c t ih =>
    obtain ⟨b, w⟩ := c
    unfold Memory.put
    split
    · next hb => subst hb; simp only [Memory.read, eq_comm]; split <;> simp_all
    · split
      · simp only [Memory.read, eq_comm]
      · simp only [Memory.read, ih]; split <;> split <;> simp_all

theorem Memory.read_remove {lo : Nat} {m : Memory} (h : m.wfFrom lo = true) (a x : Nat) :
    (m.remove a).read x = if x = a then erased else m.read x := by
  induction m generalizing lo with
  | nil => simp [Memory.remove, Memory.read]
  | cons c t ih =>
    obtain ⟨b, w⟩ := c
    simp only [Memory.wfFrom, Bool.and_eq_true, decide_eq_true_eq] at h
    unfold Memory.remove
    split
    · next hb =>
      subst hb
      by_cases hx : x = b
      · subst hx; simp [Memory.read_below h.2 (Nat.lt_succ_self x)]
      · simp [Memory.read, hx, Ne.symm hx]
    · split
      · next hb hlt =>
        by_cases hx : x = a
        · subst hx
          simp only [Memory.read, if_neg hb, if_true]
          exact Memory.read_below h.2 (by omega)
        · simp [hx]
      · next hb hlt =>
        simp only [Memory.read, ih h.2]
        split <;> split <;> simp_all

/-- A read after a write to the same address gives the value, and to another address what it gave before. -/
theorem Memory.read_write {m : Memory} (h : m.wf = true) (a : Nat) (v : Byte) (x : Nat) :
    (m.write a v).read x = if x = a then v else m.read x := by
  unfold Memory.write
  split
  · next hv => subst hv; exact Memory.read_remove h a x
  · exact Memory.read_put m a v x

/-- A range of writes: byte `x - a` of the range inside it, the old byte outside. -/
theorem Memory.read_writeRange {m : Memory} (h : m.wf = true) (a : Nat) (vs : List Byte) (x : Nat) :
    (m.writeRange a vs).read x = if a ≤ x ∧ x < a + vs.length then vs.getD (x - a) erased else m.read x := by
  induction vs generalizing m a with
  | nil =>
    simp [Memory.writeRange]
  | cons v vs ih =>
    rw [Memory.writeRange, ih (Memory.write_wf h a v), Memory.read_write h]
    by_cases hx : x = a
    · subst hx; simp
    · by_cases hr : a + 1 ≤ x ∧ x < a + 1 + vs.length
      · have hr' : a ≤ x ∧ x < a + (v :: vs).length := by simp only [List.length_cons]; omega
        have hs : x - a = (x - (a + 1)) + 1 := by omega
        rw [if_pos hr, if_pos hr', hs, List.getD_cons_succ]
      · have hr' : ¬(a ≤ x ∧ x < a + (v :: vs).length) := by simp only [List.length_cons]; omega
        rw [if_neg hr, if_neg hr', if_neg hx]

/-- An erase: the erased byte inside the range, the old byte outside. -/
theorem Memory.read_erase {m : Memory} (h : m.wf = true) (lo hi x : Nat) :
    (m.erase lo hi).read x = if lo ≤ x ∧ x < hi then erased else m.read x := by
  have key : ∀ (k : Nat) (m : Memory), m.wfFrom k = true →
      Memory.read (List.filter (fun c => decide (c.1 < lo) || decide (hi ≤ c.1)) m) x
        = if lo ≤ x ∧ x < hi then erased else m.read x := by
    intro k m
    induction m generalizing k with
    | nil => intro _; simp [Memory.read]
    | cons c t ih =>
      intro hw
      obtain ⟨b, w⟩ := c
      simp only [Memory.wfFrom, Bool.and_eq_true, decide_eq_true_eq] at hw
      rw [List.filter_cons]
      split
      · next hk =>
        simp only [Bool.or_eq_true, decide_eq_true_eq] at hk
        by_cases hb : b = x
        · subst hb
          have : ¬(lo ≤ b ∧ b < hi) := by omega
          simp [Memory.read, this]
        · simp only [Memory.read, if_neg hb]; exact ih _ hw.2
      · next hk =>
        simp only [Bool.or_eq_true, decide_eq_true_eq, not_or] at hk
        rw [ih _ hw.2]
        by_cases hb : b = x
        · subst hb
          have : lo ≤ b ∧ b < hi := by omega
          simp [this]
        · simp only [Memory.read, if_neg hb]
  exact key 0 m h

/-- A program touches no byte outside the page of its address. -/
theorem Memory.read_program_outside {m : Memory} (h : m.wf = true) (a i : Nat) (vs : List Byte) {x : Nat}
    (hx : x < a - a % pageSize ∨ a - a % pageSize + pageSize ≤ x) : (m.program a i vs).read x = m.read x := by
  induction vs generalizing m i with
  | nil => rfl
  | cons v vs ih =>
    rw [Memory.program, ih (Memory.write_wf h _ _), Memory.read_write h, if_neg]
    have : (a % pageSize + i) % pageSize < pageSize := Nat.mod_lt _ (by decide)
    unfold pageTarget; omega

/-- The effect of a program that stays in its page: the AND of old and new on its bytes, every other byte as it was
(20_memory.md R56). -/
theorem Memory.read_program {m : Memory} (h : m.wf = true) (a i : Nat) (vs : List Byte)
    (hp : a % pageSize + i + vs.length ≤ pageSize) (x : Nat) :
    (m.program a i vs).read x
      = if a + i ≤ x ∧ x < a + i + vs.length then m.read x &&& vs.getD (x - (a + i)) erased else m.read x := by
  induction vs generalizing m i with
  | nil =>
    simp [Memory.program]
  | cons v vs ih =>
    simp only [List.length_cons] at hp
    have ht : pageTarget a i = a + i := by
      unfold pageTarget
      rw [Nat.mod_eq_of_lt (by omega : a % pageSize + i < pageSize)]
      have := Nat.mod_le a pageSize
      omega
    rw [Memory.program, ih (Memory.write_wf h _ _) (i + 1) (by omega), Memory.read_write h, ht]
    by_cases hx : x = a + i
    · subst hx
      simp
    · by_cases hr : a + (i + 1) ≤ x ∧ x < a + (i + 1) + vs.length
      · have hr' : a + i ≤ x ∧ x < a + i + (v :: vs).length := by simp only [List.length_cons]; omega
        have hs : x - (a + i) = (x - (a + (i + 1))) + 1 := by omega
        rw [if_pos hr, if_pos hr', hs, List.getD_cons_succ, if_neg hx]
      · have hr' : ¬(a + i ≤ x ∧ x < a + i + (v :: vs).length) := by simp only [List.length_cons]; omega
        rw [if_neg hr, if_neg hr', if_neg hx]

theorem Memory.length_readRange (m : Memory) (a n : Nat) : (m.readRange a n).length = n := by
  induction n generalizing a with
  | zero => rfl
  | succ n ih => simp [Memory.readRange, ih]

theorem Memory.getElem?_readRange (m : Memory) (a n i : Nat) (hi : i < n) : (m.readRange a n)[i]? = some (m.read (a + i)) := by
  induction n generalizing a i with
  | zero => omega
  | succ n ih =>
    cases i with
    | zero => simp [Memory.readRange]
    | succ i => simp only [Memory.readRange, List.getElem?_cons_succ, ih (a + 1) i (by omega)]; congr 2; omega

/-! ### Addresses in range -/

theorem Memory.within_remove {m : Memory} {cap : Nat} (h : m.within cap = true) (a : Nat) :
    (m.remove a).within cap = true := by
  induction m with
  | nil => rfl
  | cons c t ih =>
    obtain ⟨b, v⟩ := c
    have h' := h
    simp only [Memory.within, List.all_cons, Bool.and_eq_true, decide_eq_true_eq] at h ih ⊢
    unfold Memory.remove
    split
    · exact h.2
    · split
      · exact h'
      · simp only [List.all_cons, Bool.and_eq_true, decide_eq_true_eq]; exact ⟨h.1, ih h.2⟩

theorem Memory.within_put {m : Memory} {cap : Nat} (h : m.within cap = true) {a : Nat} (ha : a < cap) (v : Byte) :
    (m.put a v).within cap = true := by
  induction m with
  | nil => simp [Memory.put, Memory.within, ha]
  | cons c t ih =>
    obtain ⟨b, w⟩ := c
    simp only [Memory.within, List.all_cons, Bool.and_eq_true, decide_eq_true_eq] at h ih ⊢
    unfold Memory.put
    split
    · simp only [List.all_cons, Bool.and_eq_true, decide_eq_true_eq]; exact ⟨ha, h.2⟩
    · split
      · simp only [List.all_cons, Bool.and_eq_true, decide_eq_true_eq]; exact ⟨ha, h⟩
      · simp only [List.all_cons, Bool.and_eq_true, decide_eq_true_eq]; exact ⟨h.1, ih h.2⟩

theorem Memory.within_write {m : Memory} {cap : Nat} (h : m.within cap = true) {a : Nat} (ha : a < cap) (v : Byte) :
    (m.write a v).within cap = true := by
  unfold Memory.write
  split
  · exact Memory.within_remove h a
  · exact Memory.within_put h ha v

theorem Memory.within_writeRange {m : Memory} {cap : Nat} (h : m.within cap = true) {a : Nat} {vs : List Byte}
    (ha : a + vs.length ≤ cap) : (m.writeRange a vs).within cap = true := by
  induction vs generalizing m a with
  | nil => exact h
  | cons v vs ih =>
    simp only [List.length_cons] at ha
    exact ih (Memory.within_write h (by omega) v) (by omega)

theorem Memory.within_program {m : Memory} {cap : Nat} (h : m.within cap = true) {a : Nat}
    (ha : a - a % pageSize + pageSize ≤ cap) (i : Nat) (vs : List Byte) : (m.program a i vs).within cap = true := by
  induction vs generalizing m i with
  | nil => exact h
  | cons v vs ih =>
    refine ih (Memory.within_write h ?_ _) (i + 1)
    have : (a % pageSize + i) % pageSize < pageSize := Nat.mod_lt _ (by decide)
    unfold pageTarget; omega

theorem Memory.within_erase {m : Memory} {cap : Nat} (h : m.within cap = true) (lo hi : Nat) :
    (m.erase lo hi).within cap = true := by
  simp only [Memory.within, Memory.erase, List.all_eq_true, List.mem_filter] at h ⊢
  exact fun c hc => h c hc.1

end Sys2Proof.Machine
end

