-- ==== Sys2Proof/Laws/State.lean ====
section
/-! SUPPORT. One lemma per field per update of the state, so that no proof unfolds a record update. -/

namespace Sys2Proof.Machine

section withCtl

variable (s : State) (c : Ctl)

@[simp] theorem State.withCtl_params : (s.withCtl c).params = s.params := rfl
@[simp] theorem State.withCtl_port : (s.withCtl c).port = s.port := rfl
@[simp] theorem State.withCtl_ctl : (s.withCtl c).ctl = c := rfl
@[simp] theorem State.withCtl_req : (s.withCtl c).req = s.req := rfl
@[simp] theorem State.withCtl_scratch : (s.withCtl c).scratch = s.scratch := rfl
@[simp] theorem State.withCtl_inflight : (s.withCtl c).inflight = s.inflight := rfl
@[simp] theorem State.withCtl_asyncA : (s.withCtl c).asyncA = s.asyncA := rfl
@[simp] theorem State.withCtl_asyncN : (s.withCtl c).asyncN = s.asyncN := rfl
@[simp] theorem State.withCtl_cs : (s.withCtl c).cs = s.cs := rfl
@[simp] theorem State.withCtl_committed : (s.withCtl c).committed = s.committed := rfl
@[simp] theorem State.withCtl_resp : (s.withCtl c).resp = s.resp := rfl
@[simp] theorem State.withCtl_cmpl : (s.withCtl c).cmpl = s.cmpl := rfl
@[simp] theorem State.withCtl_fault : (s.withCtl c).fault = s.fault := rfl
@[simp] theorem State.withCtl_trace : (s.withCtl c).trace = s.trace := rfl
@[simp] theorem State.withCtl_dev : (s.withCtl c).dev = s.dev := rfl
@[simp] theorem State.withCtl_dma : (s.withCtl c).dma = s.dma := rfl
@[simp] theorem State.withCtl_now : (s.withCtl c).now = s.now := rfl
@[simp] theorem State.withCtl_host : (s.withCtl c).host = s.host := rfl
@[simp] theorem State.withCtl_env : (s.withCtl c).env = s.env := rfl

end withCtl

section withDev

variable (s : State) (d : Device)

@[simp] theorem State.withDev_params : (s.withDev d).params = s.params := rfl
@[simp] theorem State.withDev_port : (s.withDev d).port = s.port := rfl
@[simp] theorem State.withDev_ctl : (s.withDev d).ctl = s.ctl := rfl
@[simp] theorem State.withDev_req : (s.withDev d).req = s.req := rfl
@[simp] theorem State.withDev_scratch : (s.withDev d).scratch = s.scratch := rfl
@[simp] theorem State.withDev_inflight : (s.withDev d).inflight = s.inflight := rfl
@[simp] theorem State.withDev_asyncA : (s.withDev d).asyncA = s.asyncA := rfl
@[simp] theorem State.withDev_asyncN : (s.withDev d).asyncN = s.asyncN := rfl
@[simp] theorem State.withDev_cs : (s.withDev d).cs = s.cs := rfl
@[simp] theorem State.withDev_committed : (s.withDev d).committed = s.committed := rfl
@[simp] theorem State.withDev_resp : (s.withDev d).resp = s.resp := rfl
@[simp] theorem State.withDev_cmpl : (s.withDev d).cmpl = s.cmpl := rfl
@[simp] theorem State.withDev_fault : (s.withDev d).fault = s.fault := rfl
@[simp] theorem State.withDev_trace : (s.withDev d).trace = s.trace := rfl
@[simp] theorem State.withDev_dev : (s.withDev d).dev = d := rfl
@[simp] theorem State.withDev_dma : (s.withDev d).dma = s.dma := rfl
@[simp] theorem State.withDev_now : (s.withDev d).now = s.now := rfl
@[simp] theorem State.withDev_host : (s.withDev d).host = s.host := rfl
@[simp] theorem State.withDev_env : (s.withDev d).env = s.env := rfl

end withDev

section withScratch

variable (s : State) (c : List (Option Byte))

@[simp] theorem State.withScratch_params : (s.withScratch c).params = s.params := rfl
@[simp] theorem State.withScratch_port : (s.withScratch c).port = s.port := rfl
@[simp] theorem State.withScratch_ctl : (s.withScratch c).ctl = s.ctl := rfl
@[simp] theorem State.withScratch_req : (s.withScratch c).req = s.req := rfl
@[simp] theorem State.withScratch_scratch : (s.withScratch c).scratch = c := rfl
@[simp] theorem State.withScratch_inflight : (s.withScratch c).inflight = s.inflight := rfl
@[simp] theorem State.withScratch_asyncA : (s.withScratch c).asyncA = s.asyncA := rfl
@[simp] theorem State.withScratch_asyncN : (s.withScratch c).asyncN = s.asyncN := rfl
@[simp] theorem State.withScratch_cs : (s.withScratch c).cs = s.cs := rfl
@[simp] theorem State.withScratch_committed : (s.withScratch c).committed = s.committed := rfl
@[simp] theorem State.withScratch_resp : (s.withScratch c).resp = s.resp := rfl
@[simp] theorem State.withScratch_cmpl : (s.withScratch c).cmpl = s.cmpl := rfl
@[simp] theorem State.withScratch_fault : (s.withScratch c).fault = s.fault := rfl
@[simp] theorem State.withScratch_trace : (s.withScratch c).trace = s.trace := rfl
@[simp] theorem State.withScratch_dev : (s.withScratch c).dev = s.dev := rfl
@[simp] theorem State.withScratch_dma : (s.withScratch c).dma = s.dma := rfl
@[simp] theorem State.withScratch_now : (s.withScratch c).now = s.now := rfl
@[simp] theorem State.withScratch_host : (s.withScratch c).host = s.host := rfl
@[simp] theorem State.withScratch_env : (s.withScratch c).env = s.env := rfl

end withScratch

section withEnv

variable (s : State) (e : Env)

@[simp] theorem State.withEnv_params : (s.withEnv e).params = s.params := rfl
@[simp] theorem State.withEnv_port : (s.withEnv e).port = s.port := rfl
@[simp] theorem State.withEnv_ctl : (s.withEnv e).ctl = s.ctl := rfl
@[simp] theorem State.withEnv_req : (s.withEnv e).req = s.req := rfl
@[simp] theorem State.withEnv_scratch : (s.withEnv e).scratch = s.scratch := rfl
@[simp] theorem State.withEnv_inflight : (s.withEnv e).inflight = s.inflight := rfl
@[simp] theorem State.withEnv_asyncA : (s.withEnv e).asyncA = s.asyncA := rfl
@[simp] theorem State.withEnv_asyncN : (s.withEnv e).asyncN = s.asyncN := rfl
@[simp] theorem State.withEnv_cs : (s.withEnv e).cs = s.cs := rfl
@[simp] theorem State.withEnv_committed : (s.withEnv e).committed = s.committed := rfl
@[simp] theorem State.withEnv_resp : (s.withEnv e).resp = s.resp := rfl
@[simp] theorem State.withEnv_cmpl : (s.withEnv e).cmpl = s.cmpl := rfl
@[simp] theorem State.withEnv_fault : (s.withEnv e).fault = s.fault := rfl
@[simp] theorem State.withEnv_trace : (s.withEnv e).trace = s.trace := rfl
@[simp] theorem State.withEnv_dev : (s.withEnv e).dev = s.dev := rfl
@[simp] theorem State.withEnv_dma : (s.withEnv e).dma = s.dma := rfl
@[simp] theorem State.withEnv_now : (s.withEnv e).now = s.now := rfl
@[simp] theorem State.withEnv_host : (s.withEnv e).host = s.host := rfl
@[simp] theorem State.withEnv_env : (s.withEnv e).env = e := rfl

end withEnv

section withCmpl

variable (s : State) (c : Completion)

@[simp] theorem State.withCmpl_params : (s.withCmpl c).params = s.params := rfl
@[simp] theorem State.withCmpl_port : (s.withCmpl c).port = s.port := rfl
@[simp] theorem State.withCmpl_ctl : (s.withCmpl c).ctl = s.ctl := rfl
@[simp] theorem State.withCmpl_req : (s.withCmpl c).req = s.req := rfl
@[simp] theorem State.withCmpl_scratch : (s.withCmpl c).scratch = s.scratch := rfl
@[simp] theorem State.withCmpl_inflight : (s.withCmpl c).inflight = s.inflight := rfl
@[simp] theorem State.withCmpl_asyncA : (s.withCmpl c).asyncA = s.asyncA := rfl
@[simp] theorem State.withCmpl_asyncN : (s.withCmpl c).asyncN = s.asyncN := rfl
@[simp] theorem State.withCmpl_cs : (s.withCmpl c).cs = s.cs := rfl
@[simp] theorem State.withCmpl_committed : (s.withCmpl c).committed = s.committed := rfl
@[simp] theorem State.withCmpl_resp : (s.withCmpl c).resp = s.resp := rfl
@[simp] theorem State.withCmpl_cmpl : (s.withCmpl c).cmpl = { valid := true, record := c } := rfl
@[simp] theorem State.withCmpl_fault : (s.withCmpl c).fault = s.fault := rfl
@[simp] theorem State.withCmpl_trace : (s.withCmpl c).trace = s.trace := rfl
@[simp] theorem State.withCmpl_dev : (s.withCmpl c).dev = s.dev := rfl
@[simp] theorem State.withCmpl_dma : (s.withCmpl c).dma = s.dma := rfl
@[simp] theorem State.withCmpl_now : (s.withCmpl c).now = s.now := rfl
@[simp] theorem State.withCmpl_host : (s.withCmpl c).host = s.host := rfl
@[simp] theorem State.withCmpl_env : (s.withCmpl c).env = s.env := rfl

end withCmpl

section log

variable (s : State) (e : Event)

@[simp] theorem State.log_params : (s.log e).params = s.params := rfl
@[simp] theorem State.log_port : (s.log e).port = s.port := rfl
@[simp] theorem State.log_ctl : (s.log e).ctl = s.ctl := rfl
@[simp] theorem State.log_req : (s.log e).req = s.req := rfl
@[simp] theorem State.log_scratch : (s.log e).scratch = s.scratch := rfl
@[simp] theorem State.log_inflight : (s.log e).inflight = s.inflight := rfl
@[simp] theorem State.log_asyncA : (s.log e).asyncA = s.asyncA := rfl
@[simp] theorem State.log_asyncN : (s.log e).asyncN = s.asyncN := rfl
@[simp] theorem State.log_cs : (s.log e).cs = s.cs := rfl
@[simp] theorem State.log_committed : (s.log e).committed = s.committed := rfl
@[simp] theorem State.log_resp : (s.log e).resp = s.resp := rfl
@[simp] theorem State.log_cmpl : (s.log e).cmpl = s.cmpl := rfl
@[simp] theorem State.log_fault : (s.log e).fault = s.fault := rfl
@[simp] theorem State.log_trace : (s.log e).trace = s.trace ++ [e] := rfl
@[simp] theorem State.log_dev : (s.log e).dev = s.dev := rfl
@[simp] theorem State.log_dma : (s.log e).dma = s.dma := rfl
@[simp] theorem State.log_now : (s.log e).now = s.now := rfl
@[simp] theorem State.log_host : (s.log e).host = s.host := rfl
@[simp] theorem State.log_env : (s.log e).env = s.env := rfl

end log

section addCommitted

variable (s : State) (k : Nat)

@[simp] theorem State.addCommitted_params : (s.addCommitted k).params = s.params := rfl
@[simp] theorem State.addCommitted_port : (s.addCommitted k).port = s.port := rfl
@[simp] theorem State.addCommitted_ctl : (s.addCommitted k).ctl = s.ctl := rfl
@[simp] theorem State.addCommitted_req : (s.addCommitted k).req = s.req := rfl
@[simp] theorem State.addCommitted_scratch : (s.addCommitted k).scratch = s.scratch := rfl
@[simp] theorem State.addCommitted_inflight : (s.addCommitted k).inflight = s.inflight := rfl
@[simp] theorem State.addCommitted_asyncA : (s.addCommitted k).asyncA = s.asyncA := rfl
@[simp] theorem State.addCommitted_asyncN : (s.addCommitted k).asyncN = s.asyncN := rfl
@[simp] theorem State.addCommitted_cs : (s.addCommitted k).cs = s.cs := rfl
@[simp] theorem State.addCommitted_committed : (s.addCommitted k).committed = s.committed + k := rfl
@[simp] theorem State.addCommitted_resp : (s.addCommitted k).resp = s.resp := rfl
@[simp] theorem State.addCommitted_cmpl : (s.addCommitted k).cmpl = s.cmpl := rfl
@[simp] theorem State.addCommitted_fault : (s.addCommitted k).fault = s.fault := rfl
@[simp] theorem State.addCommitted_trace : (s.addCommitted k).trace = s.trace := rfl
@[simp] theorem State.addCommitted_dev : (s.addCommitted k).dev = s.dev := rfl
@[simp] theorem State.addCommitted_dma : (s.addCommitted k).dma = s.dma := rfl
@[simp] theorem State.addCommitted_now : (s.addCommitted k).now = s.now := rfl
@[simp] theorem State.addCommitted_host : (s.addCommitted k).host = s.host := rfl
@[simp] theorem State.addCommitted_env : (s.addCommitted k).env = s.env := rfl

end addCommitted

section latch

variable (s : State) (r : Request)

@[simp] theorem State.latch_params : (s.latch r).params = s.params := rfl
@[simp] theorem State.latch_port : (s.latch r).port = none := rfl
@[simp] theorem State.latch_ctl : (s.latch r).ctl = s.ctl := rfl
@[simp] theorem State.latch_req : (s.latch r).req = some r := rfl
@[simp] theorem State.latch_scratch : (s.latch r).scratch = s.scratch := rfl
@[simp] theorem State.latch_inflight : (s.latch r).inflight = s.inflight := rfl
@[simp] theorem State.latch_asyncA : (s.latch r).asyncA = s.asyncA := rfl
@[simp] theorem State.latch_asyncN : (s.latch r).asyncN = s.asyncN := rfl
@[simp] theorem State.latch_cs : (s.latch r).cs = s.cs := rfl
@[simp] theorem State.latch_committed : (s.latch r).committed = 0 := rfl
@[simp] theorem State.latch_resp : (s.latch r).resp = s.resp := rfl
@[simp] theorem State.latch_cmpl : (s.latch r).cmpl = s.cmpl := rfl
@[simp] theorem State.latch_fault : (s.latch r).fault = s.fault := rfl
@[simp] theorem State.latch_trace : (s.latch r).trace = s.trace ++ [.accept r] := rfl
@[simp] theorem State.latch_dev : (s.latch r).dev = s.dev := rfl
@[simp] theorem State.latch_dma : (s.latch r).dma = s.dma := rfl
@[simp] theorem State.latch_now : (s.latch r).now = s.now := rfl
@[simp] theorem State.latch_host : (s.latch r).host = s.host := rfl
@[simp] theorem State.latch_env : (s.latch r).env = s.env := rfl

end latch

section post

variable (s : State) (x : Exit)

@[simp] theorem State.post_params : (s.post x).params = s.params := rfl
@[simp] theorem State.post_port : (s.post x).port = s.port := rfl
@[simp] theorem State.post_ctl : (s.post x).ctl = .idle := rfl
@[simp] theorem State.post_req : (s.post x).req = none := rfl
@[simp] theorem State.post_scratch : (s.post x).scratch = s.scratch := rfl
@[simp] theorem State.post_inflight : (s.post x).inflight = s.inflight := rfl
@[simp] theorem State.post_asyncA : (s.post x).asyncA = s.asyncA := rfl
@[simp] theorem State.post_asyncN : (s.post x).asyncN = s.asyncN := rfl
@[simp] theorem State.post_cs : (s.post x).cs = s.cs := rfl
@[simp] theorem State.post_committed : (s.post x).committed = s.committed := rfl
@[simp] theorem State.post_resp : (s.post x).resp = { valid := true, record := x.response s.committed } := rfl
@[simp] theorem State.post_cmpl : (s.post x).cmpl = s.cmpl := rfl
@[simp] theorem State.post_fault : (s.post x).fault = s.fault := rfl
@[simp] theorem State.post_trace : (s.post x).trace = s.trace ++ [.resp (x.response s.committed)] := rfl
@[simp] theorem State.post_dev : (s.post x).dev = s.dev := rfl
@[simp] theorem State.post_dma : (s.post x).dma = s.dma := rfl
@[simp] theorem State.post_now : (s.post x).now = s.now := rfl
@[simp] theorem State.post_host : (s.post x).host = s.host := rfl
@[simp] theorem State.post_env : (s.post x).env = s.env := rfl

end post

section beginAsync

variable (s : State) (a n : Nat)

@[simp] theorem State.beginAsync_params : (s.beginAsync a n).params = s.params := rfl
@[simp] theorem State.beginAsync_port : (s.beginAsync a n).port = s.port := rfl
@[simp] theorem State.beginAsync_ctl : (s.beginAsync a n).ctl = s.ctl := rfl
@[simp] theorem State.beginAsync_req : (s.beginAsync a n).req = s.req := rfl
@[simp] theorem State.beginAsync_scratch : (s.beginAsync a n).scratch = s.scratch := rfl
@[simp] theorem State.beginAsync_inflight : (s.beginAsync a n).inflight = true := rfl
@[simp] theorem State.beginAsync_asyncA : (s.beginAsync a n).asyncA = a := rfl
@[simp] theorem State.beginAsync_asyncN : (s.beginAsync a n).asyncN = n := rfl
@[simp] theorem State.beginAsync_cs : (s.beginAsync a n).cs = true := rfl
@[simp] theorem State.beginAsync_committed : (s.beginAsync a n).committed = s.committed := rfl
@[simp] theorem State.beginAsync_resp : (s.beginAsync a n).resp = s.resp := rfl
@[simp] theorem State.beginAsync_cmpl : (s.beginAsync a n).cmpl = s.cmpl := rfl
@[simp] theorem State.beginAsync_fault : (s.beginAsync a n).fault = s.fault := rfl
@[simp] theorem State.beginAsync_trace : (s.beginAsync a n).trace = s.trace := rfl
@[simp] theorem State.beginAsync_dev : (s.beginAsync a n).dev = s.dev := rfl
@[simp] theorem State.beginAsync_dma : (s.beginAsync a n).dma = .rx a n := rfl
@[simp] theorem State.beginAsync_now : (s.beginAsync a n).now = s.now := rfl
@[simp] theorem State.beginAsync_host : (s.beginAsync a n).host = s.host := rfl
@[simp] theorem State.beginAsync_env : (s.beginAsync a n).env = s.env := rfl

end beginAsync

section endAsync

variable (s : State) (c : Completion)

@[simp] theorem State.endAsync_params : (s.endAsync c).params = s.params := rfl
@[simp] theorem State.endAsync_port : (s.endAsync c).port = s.port := rfl
@[simp] theorem State.endAsync_ctl : (s.endAsync c).ctl = s.ctl := rfl
@[simp] theorem State.endAsync_req : (s.endAsync c).req = s.req := rfl
@[simp] theorem State.endAsync_scratch : (s.endAsync c).scratch = s.scratch := rfl
@[simp] theorem State.endAsync_inflight : (s.endAsync c).inflight = false := rfl
@[simp] theorem State.endAsync_asyncA : (s.endAsync c).asyncA = s.asyncA := rfl
@[simp] theorem State.endAsync_asyncN : (s.endAsync c).asyncN = s.asyncN := rfl
@[simp] theorem State.endAsync_cs : (s.endAsync c).cs = false := rfl
@[simp] theorem State.endAsync_committed : (s.endAsync c).committed = s.committed := rfl
@[simp] theorem State.endAsync_resp : (s.endAsync c).resp = s.resp := rfl
@[simp] theorem State.endAsync_cmpl : (s.endAsync c).cmpl = { valid := true, record := c } := rfl
@[simp] theorem State.endAsync_fault : (s.endAsync c).fault = s.fault := rfl
@[simp] theorem State.endAsync_trace : (s.endAsync c).trace = s.trace ++ [.adone c] := rfl
@[simp] theorem State.endAsync_dev : (s.endAsync c).dev = s.dev := rfl
@[simp] theorem State.endAsync_dma : (s.endAsync c).dma = .none := rfl
@[simp] theorem State.endAsync_now : (s.endAsync c).now = s.now := rfl
@[simp] theorem State.endAsync_host : (s.endAsync c).host = s.host := rfl
@[simp] theorem State.endAsync_env : (s.endAsync c).env = s.env := rfl

end endAsync

section tickClock

variable (s : State)

@[simp] theorem State.tickClock_params : (s.tickClock).params = s.params := rfl
@[simp] theorem State.tickClock_port : (s.tickClock).port = s.port := rfl
@[simp] theorem State.tickClock_ctl : (s.tickClock).ctl = s.ctl := rfl
@[simp] theorem State.tickClock_req : (s.tickClock).req = s.req := rfl
@[simp] theorem State.tickClock_scratch : (s.tickClock).scratch = s.scratch := rfl
@[simp] theorem State.tickClock_inflight : (s.tickClock).inflight = s.inflight := rfl
@[simp] theorem State.tickClock_asyncA : (s.tickClock).asyncA = s.asyncA := rfl
@[simp] theorem State.tickClock_asyncN : (s.tickClock).asyncN = s.asyncN := rfl
@[simp] theorem State.tickClock_cs : (s.tickClock).cs = s.cs := rfl
@[simp] theorem State.tickClock_committed : (s.tickClock).committed = s.committed := rfl
@[simp] theorem State.tickClock_resp : (s.tickClock).resp = s.resp := rfl
@[simp] theorem State.tickClock_cmpl : (s.tickClock).cmpl = s.cmpl := rfl
@[simp] theorem State.tickClock_fault : (s.tickClock).fault = s.fault := rfl
@[simp] theorem State.tickClock_trace : (s.tickClock).trace = s.trace := rfl
@[simp] theorem State.tickClock_dev : (s.tickClock).dev = s.dev := rfl
@[simp] theorem State.tickClock_dma : (s.tickClock).dma = s.dma := rfl
@[simp] theorem State.tickClock_now : (s.tickClock).now = s.now + 1 := rfl
@[simp] theorem State.tickClock_host : (s.tickClock).host = s.host := rfl
@[simp] theorem State.tickClock_env : (s.tickClock).env = s.env := rfl

end tickClock

section raise

variable (s : State) (r : Fault)

@[simp] theorem State.raise_params : (s.raise r).params = s.params := by unfold State.raise; cases s.fault <;> rfl
@[simp] theorem State.raise_port : (s.raise r).port = s.port := by unfold State.raise; cases s.fault <;> rfl
@[simp] theorem State.raise_ctl : (s.raise r).ctl = s.ctl := by unfold State.raise; cases s.fault <;> rfl
@[simp] theorem State.raise_req : (s.raise r).req = s.req := by unfold State.raise; cases s.fault <;> rfl
@[simp] theorem State.raise_scratch : (s.raise r).scratch = s.scratch := by unfold State.raise; cases s.fault <;> rfl
@[simp] theorem State.raise_inflight : (s.raise r).inflight = s.inflight := by unfold State.raise; cases s.fault <;> rfl
@[simp] theorem State.raise_asyncA : (s.raise r).asyncA = s.asyncA := by unfold State.raise; cases s.fault <;> rfl
@[simp] theorem State.raise_asyncN : (s.raise r).asyncN = s.asyncN := by unfold State.raise; cases s.fault <;> rfl
@[simp] theorem State.raise_cs : (s.raise r).cs = s.cs := by unfold State.raise; cases s.fault <;> rfl
@[simp] theorem State.raise_committed : (s.raise r).committed = s.committed := by unfold State.raise; cases s.fault <;> rfl
@[simp] theorem State.raise_resp : (s.raise r).resp = s.resp := by unfold State.raise; cases s.fault <;> rfl
@[simp] theorem State.raise_cmpl : (s.raise r).cmpl = s.cmpl := by unfold State.raise; cases s.fault <;> rfl
theorem State.raise_fault : (s.raise r).fault = some (s.fault.getD r) := by
  unfold State.raise; cases h : s.fault <;> simp [h]

@[simp] theorem State.raise_fault_isSome : (s.raise r).fault.isSome = true := by simp [State.raise_fault]

@[simp] theorem State.raise_trace : (s.raise r).trace = s.trace := by unfold State.raise; cases s.fault <;> rfl
@[simp] theorem State.raise_dev : (s.raise r).dev = s.dev := by unfold State.raise; cases s.fault <;> rfl
@[simp] theorem State.raise_dma : (s.raise r).dma = s.dma := by unfold State.raise; cases s.fault <;> rfl
@[simp] theorem State.raise_now : (s.raise r).now = s.now := by unfold State.raise; cases s.fault <;> rfl
@[simp] theorem State.raise_host : (s.raise r).host = s.host := by unfold State.raise; cases s.fault <;> rfl
@[simp] theorem State.raise_env : (s.raise r).env = s.env := by unfold State.raise; cases s.fault <;> rfl

end raise

end Sys2Proof.Machine
end

