-- ==== Sys2Proof/Laws/Draws.lean ====
section
/-! SUPPORT. A draw, a turn and the transport calls of a transaction change the open choices and nothing else. -/

namespace Sys2Proof.Machine

@[simp] theorem State.withEnv_withEnv (s : State) (e e' : Env) : (s.withEnv e).withEnv e' = s.withEnv e' := rfl

@[simp] theorem State.withEnv_self (s : State) : s.withEnv s.env = s := rfl

/-- A draw changes the open choices only. -/
theorem State.drawByte_env (s : State) : ∃ e, s.drawByte.2 = s.withEnv e := by
  unfold State.drawByte; split <;> exact ⟨_, rfl⟩

/-- A turn taken changes the open choices only. -/
theorem State.takeTurn_env (s : State) : ∃ e, s.takeTurn.2 = s.withEnv e := ⟨_, rfl⟩

/-- A one-bit draw changes the open choices only. -/
theorem State.drawBit_env (s : State) : ∃ e, s.drawBit.2 = s.withEnv e := s.drawByte_env

/-- A transport call's result changes the open choices only. -/
theorem State.drawOk_env (s : State) : ∃ e, s.drawOk.2 = s.withEnv e := s.drawByte_env

/-- Several draws change the open choices only. -/
theorem State.drawBytes_env (s : State) (n : Nat) : ∃ e, (s.drawBytes n).2 = s.withEnv e := by
  induction n generalizing s with
  | zero => exact ⟨s.env, rfl⟩
  | succ n ih =>
    obtain ⟨e, h⟩ := s.drawByte_env
    obtain ⟨e', h'⟩ := ih s.drawByte.2
    exact ⟨e', by rw [State.drawBytes, h', h, State.withEnv_withEnv]⟩

theorem State.length_drawBytes (s : State) (n : Nat) : (s.drawBytes n).1.length = n := by
  induction n generalizing s with
  | zero => rfl
  | succ n ih => simp [State.drawBytes, ih]

/-- The transport calls of a transaction change the open choices only (R110, R111). -/
theorem State.transfer_env (s : State) (f : WireFrame) : ∃ e, (s.transfer f).2 = s.withEnv e := by
  have two : ∀ t : State, (∃ e, t = s.withEnv e) → ∃ e, t.drawOk.2 = s.withEnv e := by
    rintro _ ⟨e, rfl⟩
    obtain ⟨e', h⟩ := (s.withEnv e).drawOk_env
    exact ⟨e', by rw [h, State.withEnv_withEnv]⟩
  have h1 := s.drawOk_env
  simp only [State.transfer]
  repeat' split
  all_goals first
    | exact h1
    | exact two _ h1
    | exact two _ (two _ h1)

section drawByte

variable (s : State)

@[simp] theorem State.drawByte_params : (s.drawByte.2).params = s.params := by
  obtain ⟨e, h⟩ := s.drawByte_env; rw [h]; rfl

@[simp] theorem State.drawByte_port : (s.drawByte.2).port = s.port := by
  obtain ⟨e, h⟩ := s.drawByte_env; rw [h]; rfl

@[simp] theorem State.drawByte_ctl : (s.drawByte.2).ctl = s.ctl := by
  obtain ⟨e, h⟩ := s.drawByte_env; rw [h]; rfl

@[simp] theorem State.drawByte_req : (s.drawByte.2).req = s.req := by
  obtain ⟨e, h⟩ := s.drawByte_env; rw [h]; rfl

@[simp] theorem State.drawByte_scratch : (s.drawByte.2).scratch = s.scratch := by
  obtain ⟨e, h⟩ := s.drawByte_env; rw [h]; rfl

@[simp] theorem State.drawByte_inflight : (s.drawByte.2).inflight = s.inflight := by
  obtain ⟨e, h⟩ := s.drawByte_env; rw [h]; rfl

@[simp] theorem State.drawByte_asyncA : (s.drawByte.2).asyncA = s.asyncA := by
  obtain ⟨e, h⟩ := s.drawByte_env; rw [h]; rfl

@[simp] theorem State.drawByte_asyncN : (s.drawByte.2).asyncN = s.asyncN := by
  obtain ⟨e, h⟩ := s.drawByte_env; rw [h]; rfl

@[simp] theorem State.drawByte_cs : (s.drawByte.2).cs = s.cs := by
  obtain ⟨e, h⟩ := s.drawByte_env; rw [h]; rfl

@[simp] theorem State.drawByte_committed : (s.drawByte.2).committed = s.committed := by
  obtain ⟨e, h⟩ := s.drawByte_env; rw [h]; rfl

@[simp] theorem State.drawByte_resp : (s.drawByte.2).resp = s.resp := by
  obtain ⟨e, h⟩ := s.drawByte_env; rw [h]; rfl

@[simp] theorem State.drawByte_cmpl : (s.drawByte.2).cmpl = s.cmpl := by
  obtain ⟨e, h⟩ := s.drawByte_env; rw [h]; rfl

@[simp] theorem State.drawByte_fault : (s.drawByte.2).fault = s.fault := by
  obtain ⟨e, h⟩ := s.drawByte_env; rw [h]; rfl

@[simp] theorem State.drawByte_trace : (s.drawByte.2).trace = s.trace := by
  obtain ⟨e, h⟩ := s.drawByte_env; rw [h]; rfl

@[simp] theorem State.drawByte_dev : (s.drawByte.2).dev = s.dev := by
  obtain ⟨e, h⟩ := s.drawByte_env; rw [h]; rfl

@[simp] theorem State.drawByte_dma : (s.drawByte.2).dma = s.dma := by
  obtain ⟨e, h⟩ := s.drawByte_env; rw [h]; rfl

@[simp] theorem State.drawByte_now : (s.drawByte.2).now = s.now := by
  obtain ⟨e, h⟩ := s.drawByte_env; rw [h]; rfl

@[simp] theorem State.drawByte_host : (s.drawByte.2).host = s.host := by
  obtain ⟨e, h⟩ := s.drawByte_env; rw [h]; rfl

end drawByte

section drawBit

variable (s : State)

@[simp] theorem State.drawBit_params : (s.drawBit.2).params = s.params := by
  obtain ⟨e, h⟩ := s.drawBit_env; rw [h]; rfl

@[simp] theorem State.drawBit_port : (s.drawBit.2).port = s.port := by
  obtain ⟨e, h⟩ := s.drawBit_env; rw [h]; rfl

@[simp] theorem State.drawBit_ctl : (s.drawBit.2).ctl = s.ctl := by
  obtain ⟨e, h⟩ := s.drawBit_env; rw [h]; rfl

@[simp] theorem State.drawBit_req : (s.drawBit.2).req = s.req := by
  obtain ⟨e, h⟩ := s.drawBit_env; rw [h]; rfl

@[simp] theorem State.drawBit_scratch : (s.drawBit.2).scratch = s.scratch := by
  obtain ⟨e, h⟩ := s.drawBit_env; rw [h]; rfl

@[simp] theorem State.drawBit_inflight : (s.drawBit.2).inflight = s.inflight := by
  obtain ⟨e, h⟩ := s.drawBit_env; rw [h]; rfl

@[simp] theorem State.drawBit_asyncA : (s.drawBit.2).asyncA = s.asyncA := by
  obtain ⟨e, h⟩ := s.drawBit_env; rw [h]; rfl

@[simp] theorem State.drawBit_asyncN : (s.drawBit.2).asyncN = s.asyncN := by
  obtain ⟨e, h⟩ := s.drawBit_env; rw [h]; rfl

@[simp] theorem State.drawBit_cs : (s.drawBit.2).cs = s.cs := by
  obtain ⟨e, h⟩ := s.drawBit_env; rw [h]; rfl

@[simp] theorem State.drawBit_committed : (s.drawBit.2).committed = s.committed := by
  obtain ⟨e, h⟩ := s.drawBit_env; rw [h]; rfl

@[simp] theorem State.drawBit_resp : (s.drawBit.2).resp = s.resp := by
  obtain ⟨e, h⟩ := s.drawBit_env; rw [h]; rfl

@[simp] theorem State.drawBit_cmpl : (s.drawBit.2).cmpl = s.cmpl := by
  obtain ⟨e, h⟩ := s.drawBit_env; rw [h]; rfl

@[simp] theorem State.drawBit_fault : (s.drawBit.2).fault = s.fault := by
  obtain ⟨e, h⟩ := s.drawBit_env; rw [h]; rfl

@[simp] theorem State.drawBit_trace : (s.drawBit.2).trace = s.trace := by
  obtain ⟨e, h⟩ := s.drawBit_env; rw [h]; rfl

@[simp] theorem State.drawBit_dev : (s.drawBit.2).dev = s.dev := by
  obtain ⟨e, h⟩ := s.drawBit_env; rw [h]; rfl

@[simp] theorem State.drawBit_dma : (s.drawBit.2).dma = s.dma := by
  obtain ⟨e, h⟩ := s.drawBit_env; rw [h]; rfl

@[simp] theorem State.drawBit_now : (s.drawBit.2).now = s.now := by
  obtain ⟨e, h⟩ := s.drawBit_env; rw [h]; rfl

@[simp] theorem State.drawBit_host : (s.drawBit.2).host = s.host := by
  obtain ⟨e, h⟩ := s.drawBit_env; rw [h]; rfl

end drawBit

section drawOk

variable (s : State)

@[simp] theorem State.drawOk_params : (s.drawOk.2).params = s.params := by
  obtain ⟨e, h⟩ := s.drawOk_env; rw [h]; rfl

@[simp] theorem State.drawOk_port : (s.drawOk.2).port = s.port := by
  obtain ⟨e, h⟩ := s.drawOk_env; rw [h]; rfl

@[simp] theorem State.drawOk_ctl : (s.drawOk.2).ctl = s.ctl := by
  obtain ⟨e, h⟩ := s.drawOk_env; rw [h]; rfl

@[simp] theorem State.drawOk_req : (s.drawOk.2).req = s.req := by
  obtain ⟨e, h⟩ := s.drawOk_env; rw [h]; rfl

@[simp] theorem State.drawOk_scratch : (s.drawOk.2).scratch = s.scratch := by
  obtain ⟨e, h⟩ := s.drawOk_env; rw [h]; rfl

@[simp] theorem State.drawOk_inflight : (s.drawOk.2).inflight = s.inflight := by
  obtain ⟨e, h⟩ := s.drawOk_env; rw [h]; rfl

@[simp] theorem State.drawOk_asyncA : (s.drawOk.2).asyncA = s.asyncA := by
  obtain ⟨e, h⟩ := s.drawOk_env; rw [h]; rfl

@[simp] theorem State.drawOk_asyncN : (s.drawOk.2).asyncN = s.asyncN := by
  obtain ⟨e, h⟩ := s.drawOk_env; rw [h]; rfl

@[simp] theorem State.drawOk_cs : (s.drawOk.2).cs = s.cs := by
  obtain ⟨e, h⟩ := s.drawOk_env; rw [h]; rfl

@[simp] theorem State.drawOk_committed : (s.drawOk.2).committed = s.committed := by
  obtain ⟨e, h⟩ := s.drawOk_env; rw [h]; rfl

@[simp] theorem State.drawOk_resp : (s.drawOk.2).resp = s.resp := by
  obtain ⟨e, h⟩ := s.drawOk_env; rw [h]; rfl

@[simp] theorem State.drawOk_cmpl : (s.drawOk.2).cmpl = s.cmpl := by
  obtain ⟨e, h⟩ := s.drawOk_env; rw [h]; rfl

@[simp] theorem State.drawOk_fault : (s.drawOk.2).fault = s.fault := by
  obtain ⟨e, h⟩ := s.drawOk_env; rw [h]; rfl

@[simp] theorem State.drawOk_trace : (s.drawOk.2).trace = s.trace := by
  obtain ⟨e, h⟩ := s.drawOk_env; rw [h]; rfl

@[simp] theorem State.drawOk_dev : (s.drawOk.2).dev = s.dev := by
  obtain ⟨e, h⟩ := s.drawOk_env; rw [h]; rfl

@[simp] theorem State.drawOk_dma : (s.drawOk.2).dma = s.dma := by
  obtain ⟨e, h⟩ := s.drawOk_env; rw [h]; rfl

@[simp] theorem State.drawOk_now : (s.drawOk.2).now = s.now := by
  obtain ⟨e, h⟩ := s.drawOk_env; rw [h]; rfl

@[simp] theorem State.drawOk_host : (s.drawOk.2).host = s.host := by
  obtain ⟨e, h⟩ := s.drawOk_env; rw [h]; rfl

end drawOk

section drawBytes

variable (s : State) (n : Nat)

@[simp] theorem State.drawBytes_params : ((s.drawBytes n).2).params = s.params := by
  obtain ⟨e, h⟩ := s.drawBytes_env n; rw [h]; rfl

@[simp] theorem State.drawBytes_port : ((s.drawBytes n).2).port = s.port := by
  obtain ⟨e, h⟩ := s.drawBytes_env n; rw [h]; rfl

@[simp] theorem State.drawBytes_ctl : ((s.drawBytes n).2).ctl = s.ctl := by
  obtain ⟨e, h⟩ := s.drawBytes_env n; rw [h]; rfl

@[simp] theorem State.drawBytes_req : ((s.drawBytes n).2).req = s.req := by
  obtain ⟨e, h⟩ := s.drawBytes_env n; rw [h]; rfl

@[simp] theorem State.drawBytes_scratch : ((s.drawBytes n).2).scratch = s.scratch := by
  obtain ⟨e, h⟩ := s.drawBytes_env n; rw [h]; rfl

@[simp] theorem State.drawBytes_inflight : ((s.drawBytes n).2).inflight = s.inflight := by
  obtain ⟨e, h⟩ := s.drawBytes_env n; rw [h]; rfl

@[simp] theorem State.drawBytes_asyncA : ((s.drawBytes n).2).asyncA = s.asyncA := by
  obtain ⟨e, h⟩ := s.drawBytes_env n; rw [h]; rfl

@[simp] theorem State.drawBytes_asyncN : ((s.drawBytes n).2).asyncN = s.asyncN := by
  obtain ⟨e, h⟩ := s.drawBytes_env n; rw [h]; rfl

@[simp] theorem State.drawBytes_cs : ((s.drawBytes n).2).cs = s.cs := by
  obtain ⟨e, h⟩ := s.drawBytes_env n; rw [h]; rfl

@[simp] theorem State.drawBytes_committed : ((s.drawBytes n).2).committed = s.committed := by
  obtain ⟨e, h⟩ := s.drawBytes_env n; rw [h]; rfl

@[simp] theorem State.drawBytes_resp : ((s.drawBytes n).2).resp = s.resp := by
  obtain ⟨e, h⟩ := s.drawBytes_env n; rw [h]; rfl

@[simp] theorem State.drawBytes_cmpl : ((s.drawBytes n).2).cmpl = s.cmpl := by
  obtain ⟨e, h⟩ := s.drawBytes_env n; rw [h]; rfl

@[simp] theorem State.drawBytes_fault : ((s.drawBytes n).2).fault = s.fault := by
  obtain ⟨e, h⟩ := s.drawBytes_env n; rw [h]; rfl

@[simp] theorem State.drawBytes_trace : ((s.drawBytes n).2).trace = s.trace := by
  obtain ⟨e, h⟩ := s.drawBytes_env n; rw [h]; rfl

@[simp] theorem State.drawBytes_dev : ((s.drawBytes n).2).dev = s.dev := by
  obtain ⟨e, h⟩ := s.drawBytes_env n; rw [h]; rfl

@[simp] theorem State.drawBytes_dma : ((s.drawBytes n).2).dma = s.dma := by
  obtain ⟨e, h⟩ := s.drawBytes_env n; rw [h]; rfl

@[simp] theorem State.drawBytes_now : ((s.drawBytes n).2).now = s.now := by
  obtain ⟨e, h⟩ := s.drawBytes_env n; rw [h]; rfl

@[simp] theorem State.drawBytes_host : ((s.drawBytes n).2).host = s.host := by
  obtain ⟨e, h⟩ := s.drawBytes_env n; rw [h]; rfl

end drawBytes

section takeTurn

variable (s : State)

@[simp] theorem State.takeTurn_params : (s.takeTurn.2).params = s.params := by
  obtain ⟨e, h⟩ := s.takeTurn_env; rw [h]; rfl

@[simp] theorem State.takeTurn_port : (s.takeTurn.2).port = s.port := by
  obtain ⟨e, h⟩ := s.takeTurn_env; rw [h]; rfl

@[simp] theorem State.takeTurn_ctl : (s.takeTurn.2).ctl = s.ctl := by
  obtain ⟨e, h⟩ := s.takeTurn_env; rw [h]; rfl

@[simp] theorem State.takeTurn_req : (s.takeTurn.2).req = s.req := by
  obtain ⟨e, h⟩ := s.takeTurn_env; rw [h]; rfl

@[simp] theorem State.takeTurn_scratch : (s.takeTurn.2).scratch = s.scratch := by
  obtain ⟨e, h⟩ := s.takeTurn_env; rw [h]; rfl

@[simp] theorem State.takeTurn_inflight : (s.takeTurn.2).inflight = s.inflight := by
  obtain ⟨e, h⟩ := s.takeTurn_env; rw [h]; rfl

@[simp] theorem State.takeTurn_asyncA : (s.takeTurn.2).asyncA = s.asyncA := by
  obtain ⟨e, h⟩ := s.takeTurn_env; rw [h]; rfl

@[simp] theorem State.takeTurn_asyncN : (s.takeTurn.2).asyncN = s.asyncN := by
  obtain ⟨e, h⟩ := s.takeTurn_env; rw [h]; rfl

@[simp] theorem State.takeTurn_cs : (s.takeTurn.2).cs = s.cs := by
  obtain ⟨e, h⟩ := s.takeTurn_env; rw [h]; rfl

@[simp] theorem State.takeTurn_committed : (s.takeTurn.2).committed = s.committed := by
  obtain ⟨e, h⟩ := s.takeTurn_env; rw [h]; rfl

@[simp] theorem State.takeTurn_resp : (s.takeTurn.2).resp = s.resp := by
  obtain ⟨e, h⟩ := s.takeTurn_env; rw [h]; rfl

@[simp] theorem State.takeTurn_cmpl : (s.takeTurn.2).cmpl = s.cmpl := by
  obtain ⟨e, h⟩ := s.takeTurn_env; rw [h]; rfl

@[simp] theorem State.takeTurn_fault : (s.takeTurn.2).fault = s.fault := by
  obtain ⟨e, h⟩ := s.takeTurn_env; rw [h]; rfl

@[simp] theorem State.takeTurn_trace : (s.takeTurn.2).trace = s.trace := by
  obtain ⟨e, h⟩ := s.takeTurn_env; rw [h]; rfl

@[simp] theorem State.takeTurn_dev : (s.takeTurn.2).dev = s.dev := by
  obtain ⟨e, h⟩ := s.takeTurn_env; rw [h]; rfl

@[simp] theorem State.takeTurn_dma : (s.takeTurn.2).dma = s.dma := by
  obtain ⟨e, h⟩ := s.takeTurn_env; rw [h]; rfl

@[simp] theorem State.takeTurn_now : (s.takeTurn.2).now = s.now := by
  obtain ⟨e, h⟩ := s.takeTurn_env; rw [h]; rfl

@[simp] theorem State.takeTurn_host : (s.takeTurn.2).host = s.host := by
  obtain ⟨e, h⟩ := s.takeTurn_env; rw [h]; rfl

end takeTurn

section transfer

variable (s : State) (f : WireFrame)

@[simp] theorem State.transfer_params : ((s.transfer f).2).params = s.params := by
  obtain ⟨e, h⟩ := s.transfer_env f; rw [h]; rfl

@[simp] theorem State.transfer_port : ((s.transfer f).2).port = s.port := by
  obtain ⟨e, h⟩ := s.transfer_env f; rw [h]; rfl

@[simp] theorem State.transfer_ctl : ((s.transfer f).2).ctl = s.ctl := by
  obtain ⟨e, h⟩ := s.transfer_env f; rw [h]; rfl

@[simp] theorem State.transfer_req : ((s.transfer f).2).req = s.req := by
  obtain ⟨e, h⟩ := s.transfer_env f; rw [h]; rfl

@[simp] theorem State.transfer_scratch : ((s.transfer f).2).scratch = s.scratch := by
  obtain ⟨e, h⟩ := s.transfer_env f; rw [h]; rfl

@[simp] theorem State.transfer_inflight : ((s.transfer f).2).inflight = s.inflight := by
  obtain ⟨e, h⟩ := s.transfer_env f; rw [h]; rfl

@[simp] theorem State.transfer_asyncA : ((s.transfer f).2).asyncA = s.asyncA := by
  obtain ⟨e, h⟩ := s.transfer_env f; rw [h]; rfl

@[simp] theorem State.transfer_asyncN : ((s.transfer f).2).asyncN = s.asyncN := by
  obtain ⟨e, h⟩ := s.transfer_env f; rw [h]; rfl

@[simp] theorem State.transfer_cs : ((s.transfer f).2).cs = s.cs := by
  obtain ⟨e, h⟩ := s.transfer_env f; rw [h]; rfl

@[simp] theorem State.transfer_committed : ((s.transfer f).2).committed = s.committed := by
  obtain ⟨e, h⟩ := s.transfer_env f; rw [h]; rfl

@[simp] theorem State.transfer_resp : ((s.transfer f).2).resp = s.resp := by
  obtain ⟨e, h⟩ := s.transfer_env f; rw [h]; rfl

@[simp] theorem State.transfer_cmpl : ((s.transfer f).2).cmpl = s.cmpl := by
  obtain ⟨e, h⟩ := s.transfer_env f; rw [h]; rfl

@[simp] theorem State.transfer_fault : ((s.transfer f).2).fault = s.fault := by
  obtain ⟨e, h⟩ := s.transfer_env f; rw [h]; rfl

@[simp] theorem State.transfer_trace : ((s.transfer f).2).trace = s.trace := by
  obtain ⟨e, h⟩ := s.transfer_env f; rw [h]; rfl

@[simp] theorem State.transfer_dev : ((s.transfer f).2).dev = s.dev := by
  obtain ⟨e, h⟩ := s.transfer_env f; rw [h]; rfl

@[simp] theorem State.transfer_dma : ((s.transfer f).2).dma = s.dma := by
  obtain ⟨e, h⟩ := s.transfer_env f; rw [h]; rfl

@[simp] theorem State.transfer_now : ((s.transfer f).2).now = s.now := by
  obtain ⟨e, h⟩ := s.transfer_env f; rw [h]; rfl

@[simp] theorem State.transfer_host : ((s.transfer f).2).host = s.host := by
  obtain ⟨e, h⟩ := s.transfer_env f; rw [h]; rfl

end transfer

end Sys2Proof.Machine
end

