-- ==== Sys2Proof/Laws/Ops.lean ====
section
/-! SUPPORT. One lemma per named operation on the state, saying everything it can do: the model fault, acceptance, the end
of a request, the host's moves, draws and turns. -/

namespace Sys2Proof.Machine

/-! ### Draws and turns -/

/-- With a listed draw, that draw is taken. -/
theorem State.drawByte_cons {s : State} {b : Byte} {t : List Byte} (h : s.env.draws = b :: t) :
    s.drawByte = (b, s.withEnv { s.env with draws := t }) := by
  simp [State.drawByte, h]

/-- A listed draw decides a transport call by its bit 0. -/
theorem State.drawOk_cons {s : State} {b : Byte} {t : List Byte} (h : s.env.draws = b :: t) :
    s.drawOk = (!b.getLsbD 0, s.withEnv { s.env with draws := t }) := by
  simp [State.drawOk, State.drawBit, State.drawByte_cons h]

/-- With a listed turn, that agent moves. -/
theorem State.takeTurn_cons {s : State} {g : Config.Agent} {t : List Config.Agent} (h : s.env.turns = g :: t) :
    s.takeTurn = (g, s.withEnv { s.env with turns := t }) := by
  simp [State.takeTurn, Env.nextTurn, h]

/-! ### The model fault -/

/-- Raising a fault sets the mark where none is set, and nothing else (R33). -/
theorem State.raise_eq (s : State) (r : Fault) : s.raise r = { s with fault := some (s.fault.getD r) } := by
  obtain ⟨_, _, _, _, _, _, _, _, _, _, _, _, f, _, _, _, _, _, _⟩ := s
  cases f <;> rfl

/-! ### Acceptance -/

/-- The engine accepts exactly where it is idle, no fault is marked, the response is consumed and, for a READA, the
completion record too (R43). -/
theorem State.canAccept_iff (s : State) (op : Byte) :
    s.canAccept op = true
      ↔ s.ctl = .idle ∧ s.fault = none ∧ s.resp.valid = false ∧ (op = opReada → s.cmpl.valid = false) := by
  simp only [State.canAccept, Bool.and_eq_true, beq_iff_eq, Bool.not_eq_true', Bool.or_eq_true, bne_iff_ne]
  rw [and_assoc, and_assoc, ← imp_iff_not_or]

/-- Where a request is not acceptable, its acceptance changes nothing. -/
theorem State.accept_waits {s : State} {r : Request} (h : s.canAccept r.op = false) (ok : Bool) (f : Frame) :
    s.accept r ok f = s := by
  simp [State.accept, h]

/-- Where it is and its precondition holds, the frame of its procedure is pushed. -/
theorem State.accept_runs {s : State} {r : Request} (h : s.canAccept r.op = true) (f : Frame) :
    s.accept r true f = (s.latch r).withCtl (.busy [f]) := by
  simp [State.accept, h]

/-- Where it is and its precondition fails, the fault is marked (R223). -/
theorem State.accept_faults {s : State} {r : Request} (h : s.canAccept r.op = true) (f : Frame) :
    s.accept r false f = (s.latch r).raise .contractViolation := by
  simp [State.accept, h]

/-- Acceptance in one line: nothing, the pushed frame, or the fault mark. -/
theorem State.accept_cases (s : State) (r : Request) (ok : Bool) (f : Frame) :
    (s.canAccept r.op = false ∧ s.accept r ok f = s)
      ∨ (s.canAccept r.op = true ∧ ok = true ∧ s.accept r ok f = (s.latch r).withCtl (.busy [f]))
      ∨ (s.canAccept r.op = true ∧ ok = false ∧ s.accept r ok f = (s.latch r).raise .contractViolation) := by
  cases h : s.canAccept r.op
  · exact .inl ⟨rfl, State.accept_waits h ok f⟩
  · cases ok
    · exact .inr (.inr ⟨rfl, rfl, State.accept_faults h f⟩)
    · exact .inr (.inl ⟨rfl, rfl, State.accept_runs h f⟩)

/-- Acceptance of a request whose op selects no operation: nothing, or the fault mark (R91). -/
theorem State.acceptReserved_cases (s : State) (r : Request) :
    (s.canAccept r.op = false ∧ s.acceptReserved r = s)
      ∨ (s.canAccept r.op = true ∧ s.acceptReserved r = (s.latch r).raise .reservedOp) := by
  cases h : s.canAccept r.op <;> simp [State.acceptReserved, h]

/-! ### The end of a request -/

/-- Where a request runs, `fail` ends it; elsewhere it changes nothing. -/
theorem State.fail_cases (s : State) (o : OpOutcome) (k : Kind) (addr : Nat) :
    (∃ stack, s.ctl = .busy stack ∧ s.fail o k addr = s.withCtl (.ending (.failed o k addr)))
      ∨ ((∀ stack, s.ctl ≠ .busy stack) ∧ s.fail o k addr = s) := by
  unfold State.fail
  split
  · next stack h => exact .inl ⟨stack, h, rfl⟩
  · next h => exact .inr ⟨h, rfl⟩

/-- `fail` changes the control state and nothing else. -/
theorem State.fail_frame (s : State) (o : OpOutcome) (k : Kind) (addr : Nat) : ∃ c, s.fail o k addr = s.withCtl c := by
  rcases s.fail_cases o k addr with ⟨_, _, h⟩ | ⟨_, h⟩
  · exact ⟨_, h⟩
  · exact ⟨s.ctl, h⟩

/-- The return of the outermost frame ends the request; any other return pops one frame. -/
theorem State.returnOk_cases (s : State) (below : List Frame) (rdata : List Byte) (id : BitVec 16) :
    (below = [] ∧ s.returnOk below rdata id = s.withCtl (.ending (.ok rdata id)))
      ∨ (below ≠ [] ∧ s.returnOk below rdata id = s.withCtl (.busy below)) := by
  cases below
  · exact .inl ⟨rfl, rfl⟩
  · exact .inr ⟨by simp, rfl⟩

/-- A return changes the control state and nothing else. -/
theorem State.returnOk_frame (s : State) (below : List Frame) (rdata : List Byte) (id : BitVec 16) :
    ∃ c, s.returnOk below rdata id = s.withCtl c := by
  rcases s.returnOk_cases below rdata id with ⟨_, h⟩ | ⟨_, h⟩ <;> exact ⟨_, h⟩

/-! ### The host -/

/-- The host's moves write the request port and the two valid bits, and nothing else (R42, R242). -/
theorem State.hostMove_frame (s : State) :
    ∃ p rv cv h, s.hostMove
      = { s with port := p, resp := ⟨rv, s.resp.record⟩, cmpl := ⟨cv, s.cmpl.record⟩, host := h } := by
  have id : ∃ p rv cv h,
      s = { s with port := p, resp := ⟨rv, s.resp.record⟩, cmpl := ⟨cv, s.cmpl.record⟩, host := h } :=
    ⟨s.port, s.resp.valid, s.cmpl.valid, s.host, rfl⟩
  unfold State.hostMove
  split
  · exact id
  · split
    · exact ⟨_, s.resp.valid, s.cmpl.valid, _, rfl⟩
    · exact id
  · split
    · exact ⟨s.port, false, s.cmpl.valid, _, rfl⟩
    · exact id
  · split
    · exact ⟨s.port, s.resp.valid, false, _, rfl⟩
    · exact id

/-- The memory of the state after reset is in canonical form. -/
theorem reset_array_wf : State.reset.dev.array.wf = true := rfl

end Sys2Proof.Machine
end

