-- ==== Sys2Proof/Laws/Operands.lean ====
section
/-! SUPPORT. The operand forms: bytes taken from the request or the Scratch Buffer, and addresses on the wire. -/

namespace Sys2Proof.Machine

/-! ### Source bytes -/

/-- Cells that are all written are bytes. -/
theorem writtenBytes_some {l : List (Option Byte)} (h : ∀ c ∈ l, c ≠ none) :
    ∃ bs, writtenBytes l = some bs ∧ l = bs.map some := by
  induction l with
  | nil => exact ⟨[], rfl, rfl⟩
  | cons c t ih =>
    obtain ⟨bs, h1, h2⟩ := ih fun c hc => h c (List.mem_cons_of_mem _ hc)
    cases c with
    | none => exact absurd rfl (h none List.mem_cons_self)
    | some v => exact ⟨v :: bs, by simp [writtenBytes, h1], by simp [h2]⟩

/-- A slice of a Scratch Buffer whose cells are all written can be read, as many bytes as there are cells. -/
theorem State.scratchSlice_some {s : State} (h : ∀ c ∈ s.scratch, c ≠ none) (lo n : Nat) :
    ∃ bs, s.scratchSlice lo n = some bs ∧ bs.length = min n (s.scratch.length - lo) := by
  obtain ⟨bs, h1, h2⟩ := writtenBytes_some (l := (s.scratch.drop lo).take n)
    fun c hc => h c (List.mem_of_mem_drop (List.mem_of_mem_take hc))
  refine ⟨bs, h1, ?_⟩
  have := congrArg List.length h2
  simpa using this.symm

/-- Overwriting inside the Scratch Buffer keeps its size. -/
theorem overwrite_length {cells : List (Option Byte)} {lo : Nat} {bs : List Byte} (h : lo + bs.length ≤ cells.length) :
    (overwrite cells lo bs).length = cells.length := by
  simp [overwrite]; omega

/-- Overwriting keeps every cell written. -/
theorem overwrite_written {cells : List (Option Byte)} {lo : Nat} {bs : List Byte} (h : ∀ c ∈ cells, c ≠ none) :
    ∀ c ∈ overwrite cells lo bs, c ≠ none := by
  intro c hc
  simp only [overwrite, List.mem_append, List.mem_map] at hc
  rcases hc with (hc | ⟨b, _, rfl⟩) | hc
  · exact h c (List.mem_of_mem_take hc)
  · simp
  · exact h c (List.mem_of_mem_drop hc)

/-- What a cell holds after an overwrite inside the Scratch Buffer. -/
theorem getElem?_overwrite {cells : List (Option Byte)} {lo : Nat} {bs : List Byte} (h : lo + bs.length ≤ cells.length)
    (i : Nat) :
    (overwrite cells lo bs)[i]? = if lo ≤ i ∧ i < lo + bs.length then some bs[i - lo]? else cells[i]? := by
  have hlo : (cells.take lo).length = lo := by simp; omega
  unfold overwrite
  rw [List.append_assoc]
  by_cases h1 : i < lo
  · rw [List.getElem?_append_left (by omega), List.getElem?_take_of_lt h1, if_neg (by omega)]
  · rw [List.getElem?_append_right (by omega), hlo]
    by_cases h2 : i < lo + bs.length
    · rw [List.getElem?_append_left (by simp; omega), List.getElem?_map, if_pos ⟨by omega, h2⟩,
        List.getElem?_eq_getElem (by omega)]
      rfl
    · rw [List.getElem?_append_right (by simp; omega), List.length_map, List.getElem?_drop, if_neg (by omega)]
      congr 1; omega

/-- The bytes taken from the request. -/
theorem State.length_requestSlice {s : State} {r : Request} (h : s.req = some r) (i n : Nat) :
    (s.requestSlice i n).length = min n (r.data.length - i) := by
  simp [State.requestSlice, h]

/-! ### Addresses on the wire -/

/-- The address carried by the three bytes of `addr24(a)` is `a` (30_encoding.md R82). -/
theorem addrOfBytes_addr24 (a : Addr) :
    addrOfBytes (a.extractLsb' 16 8) (a.extractLsb' 8 8) (a.extractLsb' 0 8) = a := by
  unfold addrOfBytes
  apply BitVec.eq_of_getLsbD_eq
  intro i (hi : i < 24)
  simp only [BitVec.getLsbD_append, BitVec.getLsbD_extractLsb']
  by_cases h1 : i < 8
  · simp [h1]
  · by_cases h2 : i - 8 < 8
    · simp [h1, h2, show 8 + (i - 8) = i by omega]
    · simp [h1, h2, show i - 8 - 8 < 8 by omega, show 16 + (i - 8 - 8) = i by omega]

/-- A natural below `2^24` as an address. -/
theorem toNat_ofNat24 {x : Nat} (h : x < 2 ^ 24) : (BitVec.ofNat 24 x).toNat = x := by
  rw [BitVec.toNat_ofNat, Nat.mod_eq_of_lt h]

/-- The command bytes are told apart by their opcode (00_scope.md R11). -/
theorem opcodes_ne {o : Config.Opcodes} (h : o.distinct = true) :
    (o.wren ≠ o.rdsr ∧ o.wren ≠ o.rdid ∧ o.wren ≠ o.read ∧ o.wren ≠ o.pp ∧ o.wren ≠ o.se ∧ o.wren ≠ o.ce)
      ∧ (o.rdsr ≠ o.rdid ∧ o.rdsr ≠ o.read ∧ o.rdsr ≠ o.pp ∧ o.rdsr ≠ o.se ∧ o.rdsr ≠ o.ce)
      ∧ (o.rdid ≠ o.read ∧ o.rdid ≠ o.pp ∧ o.rdid ≠ o.se ∧ o.rdid ≠ o.ce)
      ∧ (o.read ≠ o.pp ∧ o.read ≠ o.se ∧ o.read ≠ o.ce) ∧ (o.pp ≠ o.se ∧ o.pp ≠ o.ce) ∧ o.se ≠ o.ce := by
  simp only [Config.Opcodes.distinct, Config.Opcodes.all, decide_eq_true_eq, List.nodup_cons, List.mem_cons, not_or,
    List.not_mem_nil, not_false_eq_true] at h
  tauto

/-- What the constraints on the parameters give (R9, R11). -/
theorem params_wf {p : Config.Params} (h : p.wf = true) :
    p.capacity % 4096 = 0 ∧ 4096 ≤ p.capacity ∧ p.capacity ≤ 2 ^ 24 ∧ p.ops.distinct = true := by
  simp only [Config.Params.wf, Bool.and_eq_true, decide_eq_true_eq] at h
  exact ⟨h.1.1.1.1, h.1.1.1.2, h.1.1.2, h.2⟩

end Sys2Proof.Machine
end

