-- ==== Sys2Proof/Laws/Device.lean ====
section
/-! SUPPORT. What the device's and the DMA agent's operations can do. -/

namespace Sys2Proof.Machine

/-- The device is busy exactly where an operation is pending (10_state.md R36). -/
theorem Device.busy_iff (d : Device) : d.busy = true ↔ d.pending ≠ .none := by
  unfold Device.busy
  split <;> simp_all

/-- Bit 0 of a status byte is the busy bit (40_sequencer.md R116). -/
theorem statusByte_bit0 (busy : Bool) (draw : Byte) : (statusByte busy draw).getLsbD 0 = busy := by
  cases busy <;> simp [statusByte]

/-- The other bits are those of the draw (R116). -/
theorem statusByte_bit (busy : Bool) (draw : Byte) (j : Nat) (h1 : 1 ≤ j) (h2 : j < 8) :
    (statusByte busy draw).getLsbD j = draw.getLsbD j := by
  obtain rfl | rfl | rfl | rfl | rfl | rfl | rfl : j = 1 ∨ j = 2 ∨ j = 3 ∨ j = 4 ∨ j = 5 ∨ j = 6 ∨ j = 7 := by omega
  all_goals cases busy <;> simp [statusByte]

/-- A reply draws at most once and changes nothing else. -/
theorem State.reply_frame (s : State) (w : Wire) : ∃ e, (s.reply w).2 = s.withEnv e := by
  cases w <;> first | exact ⟨s.env, rfl⟩ | exact s.drawByte_env

/-- A failed program or erase writes its range with drawn bytes, the latch, and what stays pending; nothing else
(R123). -/
theorem State.havocRange_eq (s : State) (lo n : Nat) :
    ∃ e bs, ∃ p w : Bool, bs.length = n ∧ s.havocRange lo n = (s.withEnv e).withDev
      { array := s.dev.array.writeRange lo bs, pending := if p then .havoc lo (lo + n) else .none, wel := w } := by
  obtain ⟨e1, h1⟩ := s.drawBit_env
  obtain ⟨e2, h2⟩ := s.drawBit.2.drawBytes_env n
  obtain ⟨e3, h3⟩ := (s.drawBit.2.drawBytes n).2.drawBit_env
  refine ⟨e3, (s.drawBit.2.drawBytes n).1, (s.drawBit.2.drawBytes n).2.drawBit.1, s.drawBit.1,
    State.length_drawBytes _ _, ?_⟩
  unfold State.havocRange
  simp only []
  rw [h3, h2, h1]
  rfl

/-- What a failed transaction leaves: the device and the open choices may change, the array in canonical form still
(R123). -/
theorem State.onFailure_frame {s : State} (h : s.dev.array.wf = true) (w : Wire) :
    ∃ e d, s.onFailure w = (s.withEnv e).withDev d ∧ d.array.wf = true := by
  have havoc : ∀ lo n, ∃ e d, s.havocRange lo n = (s.withEnv e).withDev d ∧ d.array.wf = true := by
    intro lo n
    obtain ⟨e, bs, p, w, -, h1⟩ := s.havocRange_eq lo n
    exact ⟨e, _, h1, Memory.writeRange_wf h _ _⟩
  have same : ∃ e d, s = (s.withEnv e).withDev d ∧ d.array.wf = true := ⟨s.env, s.dev, rfl, h⟩
  cases w with
  | wren =>
    obtain ⟨e, he⟩ := s.drawBit_env
    exact ⟨e, { s.dev with wel := s.drawBit.1 }, congrArg (State.withDev · { s.dev with wel := s.drawBit.1 }) he, h⟩
  | rdsr => exact same
  | rdid => exact same
  | read a n => exact same
  | pp a d => exact havoc _ _
  | se a => exact havoc _ _
  | ce => exact havoc _ _

/-- The Device agent changes the device and the open choices only; afterwards nothing is pending, the latch is as it was,
and the array is in canonical form still (R122). -/
theorem State.deviceStep_frame (s : State) :
    ∃ e m, s.deviceStep = (s.withEnv e).withDev { array := m, pending := .none, wel := s.dev.wel }
      ∧ (s.dev.array.wf = true → m.wf = true) := by
  unfold State.deviceStep
  split
  · next h => exact ⟨s.env, s.dev.array, by rw [← h]; rfl, id⟩
  · exact ⟨s.env, _, rfl, fun h => Memory.program_wf h _ _ _⟩
  · exact ⟨s.env, _, rfl, fun h => Memory.erase_wf h _ _⟩
  · exact ⟨s.env, _, rfl, fun h => Memory.erase_wf h _ _⟩
  · next lo hi _ =>
    obtain ⟨e, he⟩ := s.drawBytes_env (hi - lo)
    exact ⟨e, _, by rw [he]; rfl, fun h => Memory.writeRange_wf h _ _⟩

/-- The DMA agent posts a completion record and lifts the hold, or has no step (46_read_path.md R202). -/
theorem State.dmaStep_cases (s : State) :
    (s.dma = .none ∧ s.dmaStep = s) ∨ ∃ e c, s.dmaStep = (s.withEnv e).endAsync c := by
  unfold State.dmaStep
  obtain ⟨e, he⟩ := s.drawOk_env
  split
  · exact .inl ⟨‹_›, rfl⟩
  · right
    rw [he]
    split <;> exact ⟨e, _, rfl⟩

end Sys2Proof.Machine
end

