-- ==== Sys2Proof/Laws/Sequencer.lean ====
section
/-! SUPPORT. What a transaction can do (40_sequencer.md R110). -/

namespace Sys2Proof.Machine

/-- The wire command of a transaction is that transaction. -/
theorem exec_wire (w : Wire) (s : State) : exec w.instr s = .next (s.xact w) := by cases w <;> rfl

/-- Going on after a reply changes the control state and the Scratch Buffer only. -/
theorem State.resume_frame (s : State) (w : Wire) (rx : List Byte) :
    ∃ sc c, s.resume w rx = (s.withScratch sc).withCtl c := by
  have keep : ∀ t : State, (∃ c, t = s.withCtl c) → ∃ sc c, t = (s.withScratch sc).withCtl c := by
    rintro _ ⟨c, rfl⟩; exact ⟨s.scratch, c, rfl⟩
  unfold State.resume State.callWait
  split
  · split
    · exact ⟨_, _, rfl⟩
    · exact keep _ ⟨_, rfl⟩
    · exact keep _ ⟨_, rfl⟩
    · exact keep _ ⟨_, rfl⟩
    · exact keep _ ⟨_, rfl⟩
    · exact keep _ ⟨_, rfl⟩
    · exact keep _ ⟨_, rfl⟩
    · split
      · exact keep _ (s.returnOk_frame _ _ _)
      · exact keep _ ⟨_, rfl⟩
    · exact keep _ (s.returnOk_frame _ _ _)
    · exact keep _ (s.returnOk_frame _ _ _)
    · exact ⟨s.scratch, s.ctl, rfl⟩
  · exact ⟨s.scratch, s.ctl, rfl⟩

/-- A successful transaction: chip-select released, one event logged, the device as R115 to R121 say; of the rest only the
control state, the Scratch Buffer and the open choices may change. -/
theorem State.xactOk_frame (s : State) (w : Wire) (f : WireFrame) :
    ∃ e sc c rx, s.xactOk w f
      = { s with
          cs := false
          env := e
          scratch := sc
          ctl := c
          dev := s.dev.onSuccess w
          trace := s.trace ++ [.xact w.kind f.cmd f.tx f.rxlen (some rx)] } := by
  obtain ⟨e, he⟩ := s.reply_frame w
  unfold State.xactOk
  simp only []
  rw [he]
  obtain ⟨sc, c, h⟩ := State.resume_frame
    (State.log { (s.withEnv e).withDev ((s.withEnv e).dev.onSuccess w) with cs := false }
      (.xact w.kind f.cmd f.tx f.rxlen (some (s.reply w).1))) w (s.reply w).1
  exact ⟨e, sc, c, (s.reply w).1, by rw [h]; rfl⟩

/-- A failed transaction: chip-select released, one event logged; of the rest only the control state, the device and the
open choices may change (R123, 60_exceptions.md R222). -/
theorem State.xactErr_frame {s : State} (h : s.dev.array.wf = true) (w : Wire) (f : WireFrame) :
    ∃ e c d, d.array.wf = true ∧ s.xactErr w f
      = { s with
          cs := false
          env := e
          ctl := c
          dev := d
          trace := s.trace ++ [.xact w.kind f.cmd f.tx f.rxlen none] } := by
  obtain ⟨e, d, h1, h2⟩ := State.onFailure_frame (s := { s with cs := false }) h w
  unfold State.xactErr
  simp only []
  rw [h1]
  obtain ⟨c, h3⟩ := State.fail_frame
    (State.log ((({ s with cs := false } : State).withEnv e).withDev d) (.xact w.kind f.cmd f.tx f.rxlen none))
    .transportError w.kind w.addr
  exact ⟨e, c, d, h2, by rw [h3]; rfl⟩

/-- A transaction is held, faulted by the device's checks, successful, or failed (R110, R113). -/
theorem State.xact_cases (s : State) (w : Wire) :
    ((s.inflight = true ∨ s.fault ≠ none) ∧ s.xact w = s)
      ∨ (s.inflight = false ∧ s.fault = none ∧
        ((∃ r, s.dev.check s.params.capacity w = some r ∧ s.xact w = { s with fault := some r })
          ∨ (s.dev.check s.params.capacity w = none ∧ ∃ e,
            s.xact w = (s.withEnv e).xactOk w (w.frame s.params.ops)
              ∨ s.xact w = (s.withEnv e).xactErr w (w.frame s.params.ops)))) := by
  cases hi : s.inflight
  · cases hf : s.fault with
    | some r => exact .inl ⟨.inr (by simp), by simp [State.xact, hf]⟩
    | none =>
      refine .inr ⟨rfl, rfl, ?_⟩
      cases hc : s.dev.check s.params.capacity w with
      | some r => exact .inl ⟨r, rfl, by simp [State.xact, hi, hf, hc, State.raise_eq]⟩
      | none =>
        obtain ⟨e, he⟩ := s.transfer_env (w.frame s.params.ops)
        refine .inr ⟨rfl, e, ?_⟩
        simp only [State.xact, hi, hf, hc, Bool.false_or, Option.isSome_none, Bool.false_eq_true, if_false, he]
        split
        · exact .inl rfl
        · exact .inr rfl
  · exact .inl ⟨.inl rfl, by simp [State.xact, hi]⟩

end Sys2Proof.Machine
end

