-- ==== Sys2Proof/Laws/Engine.lean ====
section
/-! SUPPORT. What the engine's internal computation and its other external actions can change (10_state.md R21). -/

namespace Sys2Proof.Machine

/-- What internal computation may change: the control state, the committed length, the Scratch Buffer, the completion
record, the fault mark. -/
def Internal (s t : State) : Prop :=
  ∃ c k sc cm f, t = { s with ctl := c, committed := k, scratch := sc, cmpl := cm, fault := f }

theorem Internal.refl (s : State) : Internal s s := ⟨s.ctl, s.committed, s.scratch, s.cmpl, s.fault, rfl⟩

theorem Internal.trans {s t u : State} (h : Internal s t) (h' : Internal t u) : Internal s u := by
  obtain ⟨_, _, _, _, _, rfl⟩ := h
  obtain ⟨_, _, _, _, _, rfl⟩ := h'
  exact ⟨_, _, _, _, _, rfl⟩

theorem Internal.withCtl (s : State) (c : Ctl) : Internal s (s.withCtl c) := ⟨c, s.committed, s.scratch, s.cmpl, s.fault, rfl⟩

theorem Internal.withScratch (s : State) (sc : List (Option Byte)) : Internal s (s.withScratch sc) :=
  ⟨s.ctl, s.committed, sc, s.cmpl, s.fault, rfl⟩

theorem Internal.withCmpl (s : State) (c : Completion) : Internal s (s.withCmpl c) :=
  ⟨s.ctl, s.committed, s.scratch, _, s.fault, rfl⟩

theorem Internal.addCommitted (s : State) (k : Nat) : Internal s (s.addCommitted k) :=
  ⟨s.ctl, _, s.scratch, s.cmpl, s.fault, rfl⟩

theorem Internal.raise (s : State) (r : Fault) : Internal s (s.raise r) := by
  rw [State.raise_eq]; exact ⟨s.ctl, s.committed, s.scratch, s.cmpl, _, rfl⟩

theorem Internal.startPage (s : State) (src : Source) (si a n : Nat) (cs : List Frame) :
    Internal s (s.startPage src si a n cs) := by
  unfold State.startPage; split
  · exact .raise _ _
  · exact .withCtl _ _

theorem Internal.wnLoop {ret : State → State} (hr : ∀ t, Internal t (ret t)) (l : WnLocals) (b : List Frame) (s : State) :
    Internal s (wnLoop l b ret s) := by
  unfold Machine.wnLoop; split
  · exact hr s
  · exact .startPage _ _ _ _ _ _

theorem Internal.wnAdv {ret : State → State} (hr : ∀ t, Internal t (ret t)) (l : WnLocals) (b : List Frame) (s : State) :
    Internal s (wnAdv l b ret s) := by
  unfold Machine.wnAdv
  refine .trans ?_ (.wnLoop hr _ _ _)
  split
  · exact .addCommitted _ _
  · exact .refl s

theorem Internal.mwChunk {ret : State → State} (hr : ∀ t, Internal t (ret t)) (l : MwLocals) (b : List Frame) (s : State) :
    Internal s (mwChunk l b ret s) := by
  unfold Machine.mwChunk; split
  · exact hr s
  · exact .withCtl _ _

theorem Internal.mwAdv {ret : State → State} (hr : ∀ t, Internal t (ret t)) (l : MwLocals) (b : List Frame) (s : State) :
    Internal s (mwAdv l b ret s) := .trans (.addCommitted _ _) (.mwChunk hr _ _ _)

theorem Internal.mwProg {ret : State → State} (hr : ∀ t, Internal t (ret t)) (l : MwLocals) (b : List Frame) (s : State) :
    Internal s (mwProg l b ret s) := .wnLoop (fun t => .mwAdv hr l b t) _ _ _

theorem Internal.mwMerge {ret : State → State} (hr : ∀ t, Internal t (ret t)) (l : MwLocals) (b : List Frame) (s : State) :
    Internal s (mwMerge l b ret s) := .trans (.withScratch _ _) (.mwProg hr _ _ _)

theorem Internal.mwScan {ret : State → State} (hr : ∀ t, Internal t (ret t)) (l : MwLocals) (b : List Frame) (s : State) :
    Internal s (mwScan l b ret s) := by
  unfold Machine.mwScan; split
  · exact .raise _ _
  · split
    · exact .withCtl _ _
    · exact .mwProg hr _ _ _

/-- Everything the internal computation can do to the state: no draw, no event, no change of the device, the bus, the clock
or the ports. -/
theorem settle_frame (stack : List Frame) (s : State) : Internal s (settle stack s) := by
  induction stack generalizing s with
  | nil => exact .withCtl _ _
  | cons f below ih =>
    cases f with
    | managedWrite pt l =>
      cases pt
      · exact .mwChunk ih _ _ _
      · exact .withCtl _ _
      · exact .mwScan ih _ _ _
      · exact .mwMerge ih _ _ _
      · exact .mwMerge ih _ _ _
      · exact .mwAdv ih _ _ _
      · exact .mwAdv ih _ _ _
    | writeNoCheck pt l =>
      cases pt
      · exact .wnLoop ih _ _ _
      · exact .wnAdv ih _ _ _
      · exact .wnAdv ih _ _ _
    | programPage pt src si a n =>
      cases pt
      · unfold settle; simp only []; split
        · exact ih s
        · exact .startPage _ _ _ _ _ _
      · unfold settle; simp only []; split
        · exact .raise _ _
        · exact .withCtl _ _
      · exact ih s
    | eraseSector pt a =>
      cases pt
      · exact .withCtl _ _
      · exact .withCtl _ _
      · exact ih s
    | eraseChip pt =>
      cases pt
      · exact .withCtl _ _
      · exact .withCtl _ _
      · exact ih s
    | waitReady pt t t0 k ad => exact .withCtl _ _
    | read a n =>
      unfold settle; simp only []; split
      · exact ih s
      · exact .withCtl _ _
    | readAsync a n =>
      unfold settle; simp only []; split
      · exact .trans (.withCmpl _ _) (ih _)
      · exact .withCtl _ _
    | readId => exact .withCtl _ _

/-- A step from a state with a fault mark stops with it; any other step is the next agent's turn. -/
theorem step_eq {s : State} (h : s.fault = none) : step s = (s.takeTurn.2.turn s.takeTurn.1).outcome := by
  simp [step, h]

/-- With a listed turn, the step is that agent's. -/
theorem step_turn {s : State} {g : Config.Agent} {rest : List Config.Agent} (h : s.fault = none)
    (ht : s.env.turns = g :: rest) :
    step s = ((s.withEnv { s.env with turns := rest }).turn g).outcome := by
  rw [step_eq h, State.takeTurn_cons ht]

/-- What the start of an asynchronous read can do (46_read_path.md R201): the device's check faults it, or its command phase
succeeds or fails; one event is logged in the latter cases. -/
theorem State.startAsync_cases (s : State) (a n : Nat) (below : List Frame) :
    (∃ r, s.dev.check s.params.capacity (.read (BitVec.ofNat 24 a) n) = some r ∧ s.startAsync a n below = s.raise r)
      ∨ (s.dev.check s.params.capacity (.read (BitVec.ofNat 24 a) n) = none ∧ ∃ e,
        s.startAsync a n below = (((s.withEnv e).beginAsync a n).log (.astart a n true)).returnOk below [] 0
          ∨ s.startAsync a n below
            = State.fail (State.log { s.withEnv e with cs := false } (.astart a n false)) .transportError .read a) := by
  unfold State.startAsync
  obtain ⟨e, he⟩ := s.drawOk_env
  split
  · exact .inl ⟨_, ‹_›, rfl⟩
  · refine .inr ⟨‹_›, e, ?_⟩
    simp only [he]
    split
    · exact .inl rfl
    · exact .inr rfl

end Sys2Proof.Machine
end

