-- ==== Sys2Proof/Laws/Fairness.lean ====
section
/-! SUPPORT. Fairness (10_state.md R37, 46_read_path.md R202; log entries 9 and 29): draws leave the turns to come as they
are, and in every run each fair agent has a turn, and another after any step. -/

namespace Sys2Proof.Machine

open Sys2Proof.Config (Agent fairAgents freeGap)

/-! ### Only the turn taken changes the turns to come -/

/-- From `e` to `e'` draws were taken and nothing else. -/
def Env.Drawn (e e' : Env) : Prop := ∃ d k, e' = { e with draws := d, tick := k }

theorem Env.Drawn.refl (e : Env) : e.Drawn e := ⟨e.draws, e.tick, rfl⟩

theorem Env.Drawn.trans {e e' e'' : Env} (h : e.Drawn e') (h' : e'.Drawn e'') : e.Drawn e'' := by
  obtain ⟨_, _, rfl⟩ := h
  obtain ⟨_, _, rfl⟩ := h'
  exact ⟨_, _, rfl⟩

theorem State.drawByte_drawn (s : State) : s.env.Drawn s.drawByte.2.env := by
  unfold State.drawByte; split <;> exact ⟨_, _, rfl⟩

theorem State.drawOk_drawn (s : State) : s.env.Drawn s.drawOk.2.env := s.drawByte_drawn

theorem State.drawBytes_drawn (s : State) (n : Nat) : s.env.Drawn (s.drawBytes n).2.env := by
  induction n generalizing s with
  | zero => exact .refl _
  | succ n ih => exact s.drawByte_drawn.trans (ih _)

theorem State.transfer_drawn (s : State) (f : WireFrame) : s.env.Drawn (s.transfer f).2.env := by
  have h1 := s.drawOk_drawn
  have h2 := h1.trans s.drawOk.2.drawOk_drawn
  simp only [State.transfer]
  repeat' split
  all_goals first
    | exact h1
    | exact h2
    | exact h2.trans (State.drawOk_drawn _)

theorem State.reply_drawn (s : State) (w : Wire) : s.env.Drawn (s.reply w).2.env := by
  cases w <;> first | exact .refl _ | exact s.drawByte_drawn

theorem State.havocRange_drawn (s : State) (lo n : Nat) : s.env.Drawn (s.havocRange lo n).env :=
  (s.drawByte_drawn.trans (State.drawBytes_drawn _ n)).trans (State.drawByte_drawn _)

theorem State.onFailure_drawn (s : State) (w : Wire) : s.env.Drawn (s.onFailure w).env := by
  cases w with
  | wren => exact s.drawByte_drawn
  | rdsr => exact .refl _
  | rdid => exact .refl _
  | read a n => exact .refl _
  | pp a d => exact s.havocRange_drawn _ _
  | se a => exact s.havocRange_drawn _ _
  | ce => exact s.havocRange_drawn _ _

theorem State.xact_drawn (s : State) (w : Wire) : s.env.Drawn (s.xact w).env := by
  have ok : ∀ (t : State) (f : WireFrame), t.env.Drawn (t.xactOk w f).env := by
    intro t f
    unfold State.xactOk
    obtain ⟨sc, c, h⟩ := State.resume_frame
      (State.log { (t.reply w).2.withDev ((t.reply w).2.dev.onSuccess w) with cs := false }
        (.xact w.kind f.cmd f.tx f.rxlen (some (t.reply w).1))) w (t.reply w).1
    simp only [h]
    exact t.reply_drawn w
  have err : ∀ (t : State) (f : WireFrame), t.env.Drawn (t.xactErr w f).env := by
    intro t f
    unfold State.xactErr
    obtain ⟨c, h⟩ := State.fail_frame
      ((State.onFailure { t with cs := false } w).log (.xact w.kind f.cmd f.tx f.rxlen none)) .transportError w.kind w.addr
    simp only [h]
    exact State.onFailure_drawn { t with cs := false } w
  unfold State.xact
  split
  · exact .refl _
  · split
    · rw [State.raise_eq]; exact .refl _
    · simp only []
      split
      · exact (s.transfer_drawn _).trans (ok _ _)
      · exact (s.transfer_drawn _).trans (err _ _)

theorem State.accept_env (s : State) (r : Request) (ok : Bool) (f : Frame) : (s.accept r ok f).env = s.env := by
  unfold State.accept
  repeat' split
  all_goals first | rfl | (rw [State.raise_eq]; rfl)

/-- An instruction takes draws and no turn. -/
theorem exec_drawn {i : Instr} {s t : State} (h : exec i s = .next t) : s.env.Drawn t.env := by
  have acc : ∀ r ok f, s.accept r ok f = t → s.env.Drawn t.env := by
    rintro r ok f rfl
    rw [State.accept_env]; exact .refl _
  have wire : ∀ w : Wire, exec w.instr s = .next t → s.env.Drawn t.env := by
    intro w hw
    rw [exec_wire] at hw
    cases hw
    exact s.xact_drawn w
  cases i with
  | wireWren => exact wire .wren h
  | wireRdsr => exact wire .rdsr h
  | wireRdid => exact wire .rdid h
  | wireRead a n => exact wire (.read a n) h
  | wirePp a d => exact wire (.pp a d) h
  | wireSe a => exact wire (.se a) h
  | wireCe => exact wire .ce h
  | _ => exact acc _ _ _ (Host.Outcome.next.inj h)

theorem settle_env (stack : List Frame) (s : State) : (settle stack s).env = s.env := by
  obtain ⟨_, _, _, _, _, h⟩ := settle_frame stack s
  rw [h]

theorem State.startAsync_drawn (s : State) (a n : Nat) (below : List Frame) : s.env.Drawn (s.startAsync a n below).env := by
  unfold State.startAsync
  split
  · rw [State.raise_eq]; exact .refl _
  · simp only []
    split
    · obtain ⟨c, h⟩ := State.returnOk_frame ((s.drawOk.2.beginAsync a n).log (.astart a n true)) below [] 0
      rw [h]; exact s.drawOk_drawn
    · obtain ⟨c, h⟩ := State.fail_frame (State.log { s.drawOk.2 with cs := false } (.astart a n false)) .transportError .read a
      rw [h]; exact s.drawOk_drawn

/-- The engine's turn takes draws and no further turn. -/
theorem State.engineTurn_drawn {s t : State} (h : s.engineTurn.outcome = .next t) : s.env.Drawn t.env := by
  have act : ∀ (u : State) (f : Frame) (below : List Frame), u.env = s.env →
      (s.act u f below).outcome = .next t → s.env.Drawn t.env := by
    intro u f below hu h
    unfold State.act at h
    split at h
    · cases h; exact hu ▸ .refl _
    · cases h
      rw [← hu]
      unfold State.readDeadline State.fail
      repeat' split
      all_goals exact .refl _
    · split at h
      · cases h; exact .refl _
      · cases h
        rw [← hu]
        exact u.startAsync_drawn _ _ _
    · split at h
      · cases h; exact hu ▸ .refl _
      · split at h
        · cases h; exact .refl _
        · split at h
          · exact hu ▸ exec_drawn h
          · cases h
  unfold State.engineTurn at h
  split at h
  · split at h
    · cases h; exact .refl _
    · split at h
      · exact exec_drawn h
      · cases h
        unfold State.acceptReserved
        split
        · rw [State.raise_eq]; exact .refl _
        · exact .refl _
  · cases h; exact .refl _
  · unfold State.proceed at h
    have hs := settle_env ‹List Frame› s
    split at h
    · cases h; rw [hs]; exact .refl _
    · split at h
      · cases h; exact hs ▸ .refl _
      · exact act _ _ _ hs h
      · cases h; rw [hs]; exact .refl _

/-- A step takes one turn; beyond it, draws. -/
theorem step_drawn {s t : State} (h : step s = .next t) : s.env.nextTurn.2.Drawn t.env := by
  have hf : s.fault = none := by
    cases hf : s.fault with
    | none => rfl
    | some r => simp [step, hf] at h
  rw [step_eq hf] at h
  unfold State.turn at h
  split at h
  · exact State.engineTurn_drawn h
  · cases h
    show s.takeTurn.2.env.Drawn _
    unfold State.dmaStep
    split
    · exact .refl _
    · split <;> exact State.drawOk_drawn _
  · cases h
    show s.takeTurn.2.env.Drawn _
    unfold State.deviceStep
    split <;> first | exact .refl _ | exact State.drawBytes_drawn _ _
  · cases h; exact .refl _
  · cases h
    show s.takeTurn.2.env.Drawn _
    unfold State.hostMove
    split
    · exact .refl _
    all_goals (split <;> exact .refl _)

/-! ### Every fair agent has a turn -/

/-- How far the turn of an agent still owed in this round can be: the listed turns, the rest of the gap, the agents owed. -/
def Env.distance (e : Env) : Nat := e.turns.length + (freeGap e.round - e.waited) + e.owed.length

/-- A turn of another agent than `a` brings the end of the round nearer, unless it ends the round; an agent still owed is
owed afterwards. -/
theorem Env.nextTurn_distance {e e' : Env} {a : Agent} (h : e.nextTurn.2.Drawn e') (ha : e.nextTurn.1 ≠ a) :
    (e'.distance < e.distance ∧ (a ∈ e.owed → a ∈ e'.owed)) ∨ (e'.owed = fairAgents ∧ a ∉ e.owed) := by
  obtain ⟨d, k, rfl⟩ := h
  unfold Env.nextTurn at ha ⊢
  split at ha
  · next g t ht => exact .inl ⟨by simp [Env.distance, ht], by simp⟩
  · next ht =>
    simp only [Env.distance, ht] at ha ⊢
    have keep : a ∈ e.owed → a ∈ e.owed.filter (· ≠ e.choice) := fun hm => by simp [hm, Ne.symm ha]
    unfold Env.afterChoice
    by_cases hl : e.owed.filter (· ≠ e.choice) = []
    · right
      refine ⟨by rw [if_pos hl], fun hm => ?_⟩
      have := keep hm
      rw [hl] at this
      cases this
    · left
      simp only [if_neg hl]
      refine ⟨?_, keep⟩
      have hle := List.length_filter_le (fun x => decide (x ≠ e.choice)) e.owed
      by_cases hg : freeGap e.round ≤ e.waited
      · have hc : e.choice = e.owed.headD .clock := by simp [Env.choice, hg]
        cases ho : e.owed with
        | nil => simp [ho] at hl
        | cons x xs =>
          rw [ho] at hc
          have := List.length_filter_le (fun y => decide (y ≠ x)) xs
          simp only [hc, List.headD_cons] at *
          have hx : (x :: xs).filter (fun y => decide (y ≠ x)) = xs.filter (fun y => decide (y ≠ x)) := by simp
          rw [hx]
          simp only [ht, List.length_nil, List.length_cons]
          omega
      · simp only [ht, List.length_nil]
        omega

/-- The first turns of an agent owed in this round, in a run that does not end. -/
theorem owed_agent_moves {a : Agent} (m : Nat) (e : Nat → Env) (h : ∀ i, (e i).nextTurn.2.Drawn (e (i + 1)))
    (ho : a ∈ (e 0).owed) (hm : (e 0).distance ≤ m) : ∃ i, (e i).nextTurn.1 = a := by
  induction m generalizing e with
  | zero =>
    by_cases ha : (e 0).nextTurn.1 = a
    · exact ⟨0, ha⟩
    · obtain ⟨h1, -⟩ | ⟨-, h2⟩ := Env.nextTurn_distance (h 0) ha
      · omega
      · exact absurd ho h2
  | succ m ih =>
    by_cases ha : (e 0).nextTurn.1 = a
    · exact ⟨0, ha⟩
    · obtain ⟨h1, h2⟩ | ⟨-, h2⟩ := Env.nextTurn_distance (h 0) ha
      · obtain ⟨i, hi⟩ := ih (fun i => e (i + 1)) (fun i => h (i + 1)) (h2 ho) (by omega)
        exact ⟨i + 1, hi⟩
      · exact absurd ho h2

/-- In a run that does not end, every fair agent has a turn (R37, 46_read_path.md R202; log entries 9 and 29). -/
theorem fair_agent_moves {a : Agent} (hf : a ∈ fairAgents) (e : Nat → Env)
    (h : ∀ i, (e i).nextTurn.2.Drawn (e (i + 1))) : ∃ i, (e i).nextTurn.1 = a := by
  suffices ∀ m (e : Nat → Env), (∀ i, (e i).nextTurn.2.Drawn (e (i + 1))) → (e 0).distance ≤ m →
      ∃ i, (e i).nextTurn.1 = a from this _ e h (Nat.le_refl _)
  intro m
  induction m with
  | zero =>
    intro e h hm
    by_cases ha : (e 0).nextTurn.1 = a
    · exact ⟨0, ha⟩
    · obtain ⟨h1, -⟩ | ⟨h2, -⟩ := Env.nextTurn_distance (h 0) ha
      · omega
      · obtain ⟨i, hi⟩ := owed_agent_moves _ (fun i => e (i + 1)) (fun i => h (i + 1)) (by simpa [h2] using hf) (Nat.le_refl _)
        exact ⟨i + 1, hi⟩
  | succ m ih =>
    intro e h hm
    by_cases ha : (e 0).nextTurn.1 = a
    · exact ⟨0, ha⟩
    · obtain ⟨h1, -⟩ | ⟨h2, -⟩ := Env.nextTurn_distance (h 0) ha
      · obtain ⟨i, hi⟩ := ih (fun i => e (i + 1)) (fun i => h (i + 1)) (by omega)
        exact ⟨i + 1, hi⟩
      · obtain ⟨i, hi⟩ := owed_agent_moves _ (fun i => e (i + 1)) (fun i => h (i + 1)) (by simpa [h2] using hf) (Nat.le_refl _)
        exact ⟨i + 1, hi⟩

end Sys2Proof.Machine

namespace Sys2Proof.Safety

open Sys2Proof.Machine
open Sys2Proof.Config (Agent fairAgents)

theorem runs_zero (s : State) : runs 0 s = .next s := rfl

/-- The first step of a run. -/
theorem runs_step (k : Nat) (s : State) :
    runs (k + 1) s = match step s with
      | .next t => runs k t
      | .fault r => .fault r
      | .refused r => .refused r := by
  have h := Host.Core.run.eq_def core (k + 1) s
  dsimp only at h
  cases hs : step s with
  | next t => rw [show core.step s = .next t from hs] at h; exact h
  | fault r => rw [show core.step s = .fault r from hs] at h; exact h
  | refused r => rw [show core.step s = .refused r from hs] at h; exact h

/-- A run in two parts. -/
theorem runs_add {j : Nat} {s t : State} (h : runs j s = .next t) (k : Nat) : runs (j + k) s = runs k t := by
  induction j generalizing s with
  | zero => cases h; rw [Nat.zero_add]
  | succ j ih =>
    rw [Nat.add_right_comm, runs_step]
    rw [runs_step] at h
    cases hs : step s with
    | next u => rw [hs] at h; exact ih h
    | fault r => rw [hs] at h; cases h
    | refused r => rw [hs] at h; cases h

/-- The last step of a run. -/
theorem runs_succ {k : Nat} {s t : State} (h : runs k s = .next t) : runs (k + 1) s = step t := by
  rw [runs_add h, runs_step]
  cases step t <;> rfl

/-- In the machine's run from any state, either some step has no next state or every fair agent has a turn. -/
theorem run_gives_turn (s : State) {a : Agent} (ha : a ∈ fairAgents) :
    ∃ k, (∀ t, runs k s ≠ .next t) ∨ ∃ t, runs k s = .next t ∧ t.takeTurn.1 = a := by
  by_cases hall : ∀ k, ∃ t, runs k s = .next t
  · choose u hu using hall
    obtain ⟨i, hi⟩ := fair_agent_moves ha (fun i => (u i).env) fun i => step_drawn ((runs_succ (hu i)).symm.trans (hu (i + 1)))
    exact ⟨i, .inr ⟨u i, hu i, hi⟩⟩
  · push Not at hall
    obtain ⟨k, hk⟩ := hall
    exact ⟨k, .inl hk⟩

end Sys2Proof.Safety
end

