-- ==== Sys2Proof/Laws/PerInstr.lean ====
section
/-! SUPPORT. What holds of the encoding of every instruction: the op code or the opcode byte of its table row, one lemma per
constructor. -/

namespace Sys2Proof.Laws.OpField

/-- The byte that selects the instruction: `w0[31:24]` of a descriptor (30_encoding.md R92), the first byte of a frame
(R80). -/
def selector : Encoded → Option Byte
  | .request d => some d.op
  | .wire f => f.cmd.head?

/-- The op code of a request (30_encoding.md R90), or the opcode of a wire command (R81). -/
def expected (o : Config.Opcodes) : Instr → Byte
  | .mwrite _ _ _ => 0x01
  | .wnochk _ _ _ => 0x02
  | .pprog _ _ _ => 0x03
  | .serase _ => 0x04
  | .cerase => 0x05
  | .wready _ => 0x06
  | .read _ _ => 0x07
  | .reada _ _ => 0x08
  | .rdid => 0x09
  | .wireWren => o.wren
  | .wireRdsr => o.rdsr
  | .wireRdid => o.rdid
  | .wireRead _ _ => o.read
  | .wirePp _ _ => o.pp
  | .wireSe _ => o.se
  | .wireCe => o.ce

/-- The encoding of the instruction carries its selecting byte, whatever its operands. -/
def Statement (i : Instr) : Prop := ∀ o : Config.Opcodes, selector (encode o i) = some (expected o i)

/-- The op code of an assembled descriptor is the one it was assembled with. -/
theorem op_assemble (op : Byte) (a : Addr) (n t : Word) (d : List Byte) : (assemble op a n t d).op = op := by
  unfold assemble Descriptor.op
  apply BitVec.eq_of_getLsbD_eq
  intro i hi
  have h : (op ++ a).getLsbD (24 + i) = op.getLsbD i := by
    rw [BitVec.getLsbD_append, if_neg (by omega), show 24 + i - 24 = i by omega]
  exact (BitVec.getLsbD_extractLsb' ..).trans (by rw [decide_eq_true hi, Bool.true_and]; exact h)

theorem mwrite (a : Addr) (n : Word) (d : List Byte) : Statement (.mwrite a n d) :=
  fun _ => congrArg some (op_assemble _ _ _ _ _)
theorem wnochk (a : Addr) (n : Word) (d : List Byte) : Statement (.wnochk a n d) :=
  fun _ => congrArg some (op_assemble _ _ _ _ _)
theorem pprog (a : Addr) (n : Word) (d : List Byte) : Statement (.pprog a n d) :=
  fun _ => congrArg some (op_assemble _ _ _ _ _)
theorem serase (a : Addr) : Statement (.serase a) := fun _ => congrArg some (op_assemble _ _ _ _ _)
theorem cerase : Statement .cerase := fun _ => congrArg some (op_assemble _ _ _ _ _)
theorem wready (t : Word) : Statement (.wready t) := fun _ => congrArg some (op_assemble _ _ _ _ _)
theorem read (a : Addr) (n : Word) : Statement (.read a n) := fun _ => congrArg some (op_assemble _ _ _ _ _)
theorem reada (a : Addr) (n : Word) : Statement (.reada a n) := fun _ => congrArg some (op_assemble _ _ _ _ _)
theorem rdid : Statement .rdid := fun _ => congrArg some (op_assemble _ _ _ _ _)
theorem wireWren : Statement .wireWren := fun _ => rfl
theorem wireRdsr : Statement .wireRdsr := fun _ => rfl
theorem wireRdid : Statement .wireRdid := fun _ => rfl
theorem wireRead (a : Addr) (n : Nat) : Statement (.wireRead a n) := fun _ => rfl
theorem wirePp (a : Addr) (d : List Byte) : Statement (.wirePp a d) := fun _ => rfl
theorem wireSe (a : Addr) : Statement (.wireSe a) := fun _ => rfl
theorem wireCe : Statement .wireCe := fun _ => rfl

end Sys2Proof.Laws.OpField
end

