-- ==== Sys2Proof/Tests/Slice0.lean ====
section
/-! SUPPORT. Tests: ill-formed terms, words written out from the spec's encodings, one small step for each instruction
(expected results from 95_test_vectors.md), and for every statement a state and operands that meet its hypotheses. -/

namespace Sys2Proof.Tests

open Sys2Proof.Machine Sys2Proof.Safety
open Sys2Proof.Config (Opcodes Agent)

/-! ### Helpers -/

/-- The state after reset with these turns and draws to come. -/
def bench (ts : List Agent) (ds : List Byte) : State := 
  { State.reset with env := { State.reset.env with turns := ts, draws := ds } }

/-- The same with a request at the port. -/
def asked (op : Byte) (a : Addr) (n t : Word) (d : List Byte) (ts : List Agent) (ds : List Byte) : State :=
  { bench ts ds with port := some (assemble op a n t d) }

/-- The same with a request running on this stack. -/
def running (r : Request) (stack : List Frame) (ts : List Agent) (ds : List Byte) : State :=
  { bench ts ds with req := some r, ctl := .busy stack }

/-- The same with this device. -/
def withDevice (s : State) (m : Memory) (p : Pending) (wel : Bool) : State := { s with dev := ⟨m, p, wel⟩ }

/-- A WREADY request. -/
def waitRequest : Request := ⟨0x06, 0, 0, 2, []⟩

/-- A Scratch Buffer whose cells all hold `0xFF`. -/
def fullScratch : List (Option Byte) := List.replicate 4096 (some 0xFF)

theorem fullScratch_written : ∀ x ∈ fullScratch, x ≠ none := by
  intro x hx
  rw [List.eq_of_mem_replicate hx]
  exact Option.some_ne_none _

/-- The parameters of the state after reset meet R9 to R11. -/
theorem launch_wf : Config.Params.launch.wf = true := by decide

/-- The next state, if there is one. -/
def after : Host.Outcome State Fault Refusal → Option State
  | .next t => some t
  | _ => none

/-- The next state's value of `f`, if there is a next state. -/
def field {α : Type} (f : State → α) (o : Host.Outcome State Fault Refusal) : Option α := (after o).map f

/-! ### Well-formedness: each check refuses a term -/

theorem test_wf_mwrite_length : (Instr.mwrite 0 3 [1, 2]).wf = false := by decide
theorem test_wf_wnochk_length : (Instr.wnochk 0 1 [1, 2]).wf = false := by decide
theorem test_wf_pprog_length : (Instr.pprog 0x100 3 [1, 2]).wf = false := by decide
theorem test_wf_read_reply : (Instr.wireRead 0 0).wf = false := by decide
theorem test_wf_pp_empty : (Instr.wirePp 0 []).wf = false := by decide
theorem test_wf_pp_long : (Instr.wirePp 0 (List.replicate 257 0)).wf = false := by decide +kernel
theorem test_wf_pp_full_page : (Instr.wirePp 0 (List.replicate 256 0)).wf = true := by decide +kernel

/-! ### Decoding: words written out from the spec's encodings -/

/-- V2.1.6: `w0 = op[31:24] : a[23:0]`, R89, R92. -/
theorem test_decode_mwrite :
    decodeRequest ⟨0b00000001_000000000000000000000000, 10, 0, List.replicate 10 0xAA⟩
      = .ok (.mwrite 0 10 (List.replicate 10 0xAA)) := by decide
theorem test_decode_wnochk :
    decodeRequest ⟨0b00000010_000000000000000011111111, 3, 0, [1, 2, 3]⟩ = .ok (.wnochk 0xFF 3 [1, 2, 3]) := by decide
theorem test_decode_pprog :
    decodeRequest ⟨0b00000011_000000000000000100000000, 2, 0, [0x12, 0x34]⟩ = .ok (.pprog 0x100 2 [0x12, 0x34]) := by
  decide
/-- V2.1.7. -/
theorem test_decode_serase : decodeRequest ⟨0b00000100_000000000011000000000000, 0, 0, []⟩ = .ok (.serase 0x3000) := by
  decide
theorem test_decode_cerase : decodeRequest ⟨0b00000101_000000000000000000000000, 0, 0, []⟩ = .ok .cerase := by decide
/-- V2.1.8. -/
theorem test_decode_wready : decodeRequest ⟨0b00000110_000000000000000000000000, 0, 0x1F4, []⟩ = .ok (.wready 500) := by
  decide
theorem test_decode_read : decodeRequest ⟨0b00000111_000000000000111111111110, 4, 0, []⟩ = .ok (.read 0x0FFE 4) := by
  decide
/-- V2.1.9. -/
theorem test_decode_reada : decodeRequest ⟨0b00001000_000000000000000000010000, 4, 0, []⟩ = .ok (.reada 0x10 4) := by
  decide
/-- V2.1.10. -/
theorem test_decode_rdid : decodeRequest ⟨0b00001001_000000000000000000000000, 0, 0, []⟩ = .ok .rdid := by decide
/-- V2.1.11. -/
theorem test_decode_reserved :
    decodeRequest ⟨0x0A000000, 0, 0, []⟩ = .error (.reservedOp 0x0A)
      ∧ decodeRequest ⟨0x00000000, 0, 0, []⟩ = .error (.reservedOp 0) := by decide

/-- V2.4.1, V2.4.5, V2.1.17, V2.1.18, V2.5.1: the bytes on the wire. -/
theorem test_decode_wires :
    decodeWire Opcodes.usual ⟨[0x06], [], 0⟩ = .ok .wireWren
      ∧ decodeWire Opcodes.usual ⟨[0x05], [], 1⟩ = .ok .wireRdsr
      ∧ decodeWire Opcodes.usual ⟨[0x90, 0, 0, 0], [], 2⟩ = .ok .wireRdid
      ∧ decodeWire Opcodes.usual ⟨[0x03, 0x00, 0x0F, 0xFE], [], 4⟩ = .ok (.wireRead 0x0FFE 4)
      ∧ decodeWire Opcodes.usual ⟨[0x02, 0x00, 0x01, 0x00], [0x12, 0x34], 0⟩ = .ok (.wirePp 0x100 [0x12, 0x34])
      ∧ decodeWire Opcodes.usual ⟨[0x20, 0x00, 0x30, 0x00], [], 0⟩ = .ok (.wireSe 0x3000)
      ∧ decodeWire Opcodes.usual ⟨[0xC7], [], 0⟩ = .ok .wireCe := by decide

/-- R87, R88: no other length, no other opcode. -/
theorem test_decode_wire_refuses :
    decodeWire Opcodes.usual ⟨[0x06, 0], [], 0⟩ = .error (.badLength 0x06)
      ∧ decodeWire Opcodes.usual ⟨[0x03, 0, 0], [], 1⟩ = .error (.badLength 0x03)
      ∧ decodeWire Opcodes.usual ⟨[0xAB], [], 0⟩ = .error (.unknownOpcode 0xAB)
      ∧ decodeWire Opcodes.usual ⟨[], [], 0⟩ = .error .emptyFrame := by decide

/-- V2.1.1, V2.1.2. -/
theorem test_addr24 : addr24 0x012345 = [0x01, 0x23, 0x45] ∧ addr24 0x000FFC = [0x00, 0x0F, 0xFC] := by decide

/-- V2.1.12 to V2.1.14, V2.1.16. -/
theorem test_response_words :
    (⟨.timeout, some .pp, 0x100, 0, [], 0⟩ : Response).r0 = 0x00010051
      ∧ (⟨.timeout, some .se, 0x3000, 0, [], 0⟩ : Response).r0 = 0x00300061
      ∧ (⟨.transportError, some .read, 0x1000, 4, [], 0⟩ : Response).r0 = 0x00100042
      ∧ (⟨.ok, none, 0, 0, [], 0xEF13⟩ : Response).r2 = 0x0000EF13 := by decide

/-- The opcode table's words: MWRITE's `op` is bits 31:24 of the first word; SE's opcode byte is all its row has. -/
theorem test_table_words :
    decodeTableWord 96 0x01000000 = some (.mwrite 0 0 []) ∧ decodeTableWord 8 0x20 = some (.wireSe 0) := by decide

/-! ### Requests: one step each (R43, R223) -/

/-- V2.7.10: past the capacity. -/
theorem test_mwrite_past_capacity :
    field State.fault (exec (.mwrite 0x0FFFFF 2 [1, 2]) (bench [] [])) = some (some .contractViolation) := by decide
theorem test_mwrite_last_byte :
    field State.ctl (exec (.mwrite 0x0FFFFF 1 [1]) (bench [] []))
      = some (.busy [.managedWrite .chunk ⟨0x0FFFFF, 0, 1, 0, 0, 0, false⟩]) := by decide
theorem test_wnochk_accepts :
    field State.ctl (exec (.wnochk 0xFF 3 [1, 2, 3]) (bench [] []))
      = some (.busy [.writeNoCheck .loop ⟨.req, 0xFF, 0, 3, 0⟩]) := by decide
/-- V2.5.3, V2.5.8. -/
theorem test_pprog_page_rule :
    field State.fault (exec (.pprog 0xFF 2 [1, 2]) (bench [] [])) = some (some .contractViolation)
      ∧ field State.fault (exec (.pprog 0x100 3 [1, 2]) (bench [] [])) = some (some .contractViolation)
      ∧ field State.fault (exec (.pprog 0xFE 2 [1, 2]) (bench [] [])) = some none := by decide
/-- V2.4.3, V2.4.4. -/
theorem test_serase_precondition :
    field State.fault (exec (.serase 0x3004) (bench [] [])) = some (some .contractViolation)
      ∧ field State.fault (exec (.serase 0x100000) (bench [] [])) = some (some .contractViolation)
      ∧ field State.ctl (exec (.serase 0x0FF000) (bench [] [])) = some (.busy [.eraseSector .wren 0x0FF000]) := by decide
theorem test_cerase_accepts : field State.ctl (exec .cerase (bench [] [])) = some (.busy [.eraseChip .wren]) := by decide
theorem test_wready_accepts :
    field State.ctl (exec (.wready 10) (bench [] [])) = some (.busy [.waitReady .t0 10 0 .rdsr 0]) := by decide
/-- V2.8.3. -/
theorem test_read_past_capacity :
    field State.fault (exec (.read 0x0FFFFF 2) (bench [] [])) = some (some .contractViolation) := by decide
/-- V2.8.9. -/
theorem test_reada_waits_for_completion :
    field State.ctl (exec (.reada 0x10 4) ((bench [] []).withCmpl ⟨.ok, []⟩)) = some .idle
      ∧ field State.ctl (exec (.reada 0x10 4) (bench [] [])) = some (.busy [.readAsync 0x10 4]) := by decide
theorem test_rdid_accepts : field State.ctl (exec .rdid (bench [] [])) = some (.busy [.readId]) := by decide

/-! ### Wire commands: one step each -/

/-- V2.2.1. -/
theorem test_wren_sets_latch : field (·.dev.wel) (exec .wireWren (bench [] [0])) = some true := by decide
/-- V2.2.7; V2.3.7: bits 7:1 of the draw `0xFE` are replied. -/
theorem test_rdsr_busy_bit :
    field (·.trace) (exec .wireRdsr (withDevice (bench [] [0, 0, 0xFE]) [] (.se 0x2000) false))
        = some [.xact .rdsr [0x05] [] 1 (some [0xFF])]
      ∧ field (·.trace) (exec .wireRdsr (bench [] [0, 0, 0xFE])) = some [.xact .rdsr [0x05] [] 1 (some [0xFE])] := by
  decide
/-- V2.8.10. -/
theorem test_rdid_high_byte_first :
    field (·.trace) (exec .wireRdid (bench [] [0, 0])) = some [.xact .rdid [0x90, 0, 0, 0] [] 2 (some [0xEF, 0x13])] := by
  decide
/-- V2.2.9: across the sector boundary. -/
theorem test_read_crosses_sectors :
    field (·.trace) (exec (.wireRead 0x0FFE 4)
      (withDevice (bench [] [0, 0]) [(0x0FFE, 1), (0x0FFF, 2), (0x1000, 3), (0x1001, 4)] .none false))
      = some [.xact .read [0x03, 0x00, 0x0F, 0xFE] [] 4 (some [1, 2, 3, 4])] := by decide
/-- V2.2.8. -/
theorem test_read_busy_faults :
    field State.fault (exec (.wireRead 0 1) (withDevice (bench [] [0, 0]) [] (.se 0x2000) false))
      = some (some .deviceBusyAccess) := by decide
/-- V2.2.2. -/
theorem test_pp_pends :
    field (·.dev) (exec (.wirePp 0x100 [0x12, 0x34]) (withDevice (bench [] [0, 0]) [(0x101, 0xF0)] .none true))
      = some ⟨[(0x101, 0xF0)], .pp 0x100 [0x12, 0x34], false⟩ := by decide
/-- V2.2.4. -/
theorem test_pp_needs_latch :
    field State.fault (exec (.wirePp 0 [0]) (bench [] [0, 0])) = some (some .noWriteEnable) := by decide
/-- V2.2.5. -/
theorem test_se_pends :
    field (·.dev) (exec (.wireSe 0x2000) (withDevice (bench [] [0]) [] .none true)) = some ⟨[], .se 0x2000, false⟩ := by
  decide
/-- V2.2.6. -/
theorem test_se_unaligned :
    field State.fault (exec (.wireSe 0x2001) (withDevice (bench [] [0]) [] .none true)) = some (some .deviceDefined) := by
  decide
theorem test_ce_pends :
    field (·.dev) (exec .wireCe (withDevice (bench [] [0]) [] .none true)) = some ⟨[], .ce, false⟩ := by decide
/-- V2.4.7: a failed WREN ends the request with that kind and address 0. -/
theorem test_wren_fails :
    field State.ctl (exec .wireWren (running ⟨0x04, 0x3000, 0, 0, []⟩ [.eraseSector .wren 0x3000] [] [1, 1]))
      = some (.ending (.failed .transportError .wren 0)) := by decide

/-! ### Steps of the other agents -/

/-- V2.2.2, after completion: the AND of old and new. -/
theorem test_program_lands :
    (withDevice (bench [] []) [(0x101, 0xF0)] (.pp 0x100 [0x12, 0x34]) false).deviceStep.dev
      = ⟨[(0x100, 0x12), (0x101, 0x30)], .none, false⟩ := by decide
/-- V2.2.3: the payload wraps to the page start. -/
theorem test_program_wraps :
    (withDevice (bench [] []) [] (.pp 0xFE [1, 2, 3]) false).deviceStep.dev.array
      = [(0x00, 3), (0xFE, 1), (0xFF, 2)] := by decide
/-- V2.2.5, after completion. -/
theorem test_erase_lands :
    (withDevice (bench [] []) [(0x1FFF, 1), (0x2000, 2), (0x2FFF, 3), (0x3000, 4)] (.se 0x2000) false).deviceStep.dev.array
      = [(0x1FFF, 1), (0x3000, 4)] := by decide
/-- V2.8.7. -/
theorem test_dma_error :
    ({ bench [] [1] with inflight := true, cs := true, dma := .rx 0x10 4 } : State).dmaStep.cmpl
      = ⟨true, ⟨.transportError, []⟩⟩ := by decide

/-! ### Witnesses: for each statement with hypotheses, a state and operands that meet them all -/

theorem witness_EncodeThenDecodeIsIdentity :
    Opcodes.usual.distinct = true ∧ (Instr.wirePp 0xFFFFFF [0]).wf = true ∧ (Instr.wireRead 0 1).wf = true := by decide +kernel

theorem witness_FrameLengthsAreFixed :
    decodeWire Opcodes.usual ⟨[0x03, 0xFF, 0xFF, 0xFF], [], 1⟩ = .ok (.wireRead 0xFFFFFF 1) := by decide +kernel

/-- Both ends of the reserved op codes. -/
theorem witness_ReservedOpsFault :
    ∀ op ∈ [(0x00 : Byte), 0x0A, 0xFF],
      let s := asked op 0 0 0 [] [.engine] []
      Ready s ∧ s.port = some (assemble op 0 0 0 []) ∧ s.env.turns = .engine :: []
        ∧ ((assemble op 0 0 0 []).op = 0 ∨ 0x0A ≤ (assemble op 0 0 0 []).op.toNat) := by decide +kernel

/-- For each clause two descriptors that differ in an unused field. -/
theorem witness_UnusedFieldsAreIgnored :
    (assemble 0x04 8 1 1 []).op = (assemble 0x04 8 2 2 [3]).op
      ∧ (assemble 0x04 8 1 1 []).addr = (assemble 0x04 8 2 2 [3]).addr
      ∧ (assemble 0x05 1 1 1 []).op = (assemble 0x05 2 2 2 [3]).op
      ∧ (assemble 0x09 1 1 1 []).op = (assemble 0x09 2 2 2 [3]).op
      ∧ (assemble 0x06 1 1 9 []).w2 = (assemble 0x06 2 2 9 [3]).w2
      ∧ (assemble 0x07 1 4 1 []).w1 = (assemble 0x07 1 4 2 [3]).w1
      ∧ (assemble 0x08 1 4 1 []).addr = (assemble 0x08 1 4 2 [3]).addr
      ∧ (assemble 0x01 1 1 1 [3]).data = (assemble 0x01 1 1 2 [3]).data
      ∧ (assemble 0x02 1 1 1 [3]).addr = (assemble 0x02 1 1 2 [3]).addr
      ∧ (assemble 0x03 1 1 1 [3]).w1 = (assemble 0x03 1 1 2 [3]).w1 := by decide +kernel

/-- A write that ends with the flash, a program that ends with its page. -/
theorem witness_WriteRequestsAccepted :
    Ready (bench [] []) ∧ [(1 : Byte)].length = (1 : Word).toNat
      ∧ (0x0FFFFF : Addr).toNat + (1 : Word).toNat ≤ (bench [] []).params.capacity
      ∧ (1 : Word).toNat ≤ 256 ∧ (0x0FFFFF : Addr).toNat % 256 + (1 : Word).toNat ≤ 256 := by decide +kernel

/-- The last sector of the flash. -/
theorem witness_EraseAndWaitRequestsAccepted :
    Ready (bench [] []) ∧ (0x0FF000 : Addr).toNat % 4096 = 0
      ∧ (0x0FF000 : Addr).toNat < (bench [] []).params.capacity := by decide +kernel

/-- A read up to the end of the flash, and one of nothing past its last byte. -/
theorem witness_ReadRequestsAccepted :
    Ready (bench [] []) ∧ (0x0FFFFE : Addr).toNat + (2 : Word).toNat ≤ (bench [] []).params.capacity
      ∧ (0x100000 : Addr).toNat + (0 : Word).toNat ≤ (bench [] []).params.capacity
      ∧ (bench [] []).cmpl.valid = false := by decide +kernel

/-- Each reason to wait: not idle, a response unconsumed, a fault marked, a completion record unconsumed. -/
theorem witness_RequestsWaitUntilAcceptable :
    isRequest .rdid = true ∧ ¬Ready (running waitRequest [.readId] [] [])
      ∧ ¬Ready { bench [] [] with resp := ⟨true, Response.blank⟩ } ∧ ¬Ready { bench [] [] with fault := some .reservedOp }
      ∧ isRequest (.reada 0 0) = true ∧ ((bench [] []).withCmpl ⟨.ok, []⟩).cmpl.valid = true := by decide +kernel

/-- For each row of the precondition table an instruction that meets it and one that breaks it, with its next state. -/
theorem witness_PreconditionViolationFaults :
    Ready (bench [] []) ∧ (bench [] []).cmpl.valid = false
      ∧ (∀ i ∈ [Instr.mwrite 0x0FFFFF 1 [1], .mwrite 0x0FFFFF 2 [1, 2], .wnochk 0 1 [1], .wnochk 0 2 [1],
          .pprog 0x1FF 1 [1], .pprog 0x1FF 2 [1, 2], .serase 0x0FF000, .serase 0x100000, .serase 0x0FF001, .cerase,
          .wready 0, .read 0x0FFFFF 1, .read 0x0FFFFF 2, .reada 0x0FFFFF 1, .reada 0x0FFFFF 2, .rdid],
        isRequest i = true ∧ (after (exec i (bench [] []))).isSome = true) := by decide +kernel

theorem witness_precondition_met_and_broken :
    MeetsPrecondition (bench [] []).params (.serase 0x0FF000) ∧ ¬MeetsPrecondition (bench [] []).params (.serase 0x100000)
      ∧ ¬MeetsPrecondition (bench [] []).params (.serase 0x0FF001)
      ∧ MeetsPrecondition (bench [] []).params (.pprog 0x1FF 1 [1])
      ∧ ¬MeetsPrecondition (bench [] []).params (.pprog 0x1FF 2 [1, 2]) := by
  simp only [MeetsPrecondition]
  decide +kernel

/-! Wire commands. -/

theorem witness_WireWrenSetsLatch :
    BusFree (bench [] [0]) ∧ (bench [] [0]).dev.pending = .none ∧ (bench [] [0]).env.draws = 0 :: [] ∧ okDraw 0 = true := by
  decide +kernel

/-- Ready and busy; the draw of bits 7:1 at both ends. -/
theorem witness_WireRdsrReportsBusy :
    BusFree (bench [] [0, 0, 0xFE]) ∧ (bench [] [0, 0, 0xFE]).env.draws = 0 :: 0 :: 0xFE :: []
      ∧ BusFree (withDevice (bench [] [0, 0, 0x01]) [] .ce false)
      ∧ (withDevice (bench [] [0, 0, 0x01]) [] .ce false).dev.pending ≠ .none ∧ okDraw 0 = true := by decide +kernel

theorem witness_WireRdidRepliesId :
    BusFree (bench [] [0, 2]) ∧ (bench [] [0, 2]).dev.pending = .none ∧ (bench [] [0, 2]).env.draws = 0 :: 2 :: []
      ∧ okDraw 0 = true ∧ okDraw 2 = true := by decide +kernel

/-- The last byte of the flash, read by a frame that is no managed write. -/
theorem witness_WireReadRepliesBytes :
    let s := running ⟨0x07, 0x0FFFFF, 1, 0, []⟩ [.read 0x0FFFFF 1] [] [0, 0]
    BusFree s ∧ s.dev.pending = .none ∧ 1 ≤ 1 ∧ (0x0FFFFF : Addr).toNat + 1 ≤ s.params.capacity
      ∧ s.env.draws = 0 :: 0 :: [] ∧ ∀ l below, s.ctl ≠ .busy (.managedWrite .read l :: below) := by
  refine ⟨by decide +kernel, by decide +kernel, by decide +kernel, by decide +kernel, by decide +kernel, ?_⟩
  intro l below h
  cases h

/-- One byte and a whole page. -/
theorem witness_WirePpPends :
    let s := withDevice (bench [] [0, 0]) [] .none true
    BusFree s ∧ s.dev.pending = .none ∧ s.dev.wel = true ∧ (0x0FFFFF : Addr).toNat < s.params.capacity
      ∧ s.env.draws = 0 :: 0 :: [] ∧ 1 ≤ [(7 : Byte)].length ∧ (List.replicate 256 (7 : Byte)).length ≤ 256 := by decide +kernel

theorem witness_WireErasesPend :
    let s := withDevice (bench [] [0]) [] .none true
    BusFree s ∧ s.dev.pending = .none ∧ s.dev.wel = true ∧ s.env.draws = 0 :: []
      ∧ (0x0FF000 : Addr).toNat % 4096 = 0 ∧ (0x0FF000 : Addr).toNat < s.params.capacity := by decide +kernel

/-- Each clause: a busy device; a read one byte past the flash; no latch; an empty program and one past the flash; an erase
at an unaligned address and one at the capacity; an asynchronous start on a busy device and one past the flash. -/
theorem witness_DeviceChecksComeFirst :
    (BusFree (withDevice (bench [] []) [] (.se 0) true) ∧ (withDevice (bench [] []) [] (.se 0) true).dev.pending ≠ .none)
      ∧ (BusFree (bench [] []) ∧ (bench [] []).dev.pending = .none ∧ (bench [] []).dev.wel = false
        ∧ (bench [] []).params.capacity < (0x0FFFFF : Addr).toNat + 2)
      ∧ (BusFree (withDevice (bench [] []) [] .none true) ∧ (withDevice (bench [] []) [] .none true).dev.wel = true
        ∧ ([] : List Byte).length = 0 ∧ (bench [] []).params.capacity ≤ (0x100000 : Addr).toNat
        ∧ (0x0FF001 : Addr).toNat % 4096 ≠ 0)
      ∧ ∀ p ∈ [Pending.ce, .none],
        let s := withDevice (running ⟨0x08, 0x0FFFFF, 2, 0, []⟩ [.readAsync 0x0FFFFF 2] [.engine] []) [] p false
        BusFree s ∧ s.env.turns = .engine :: [] ∧ s.ctl = .busy (.readAsync (0x0FFFFF : Addr).toNat 2 :: [])
          ∧ (p = .none → s.params.capacity < (0x0FFFFF : Addr).toNat + 2) := by decide +kernel

/-- The first and the second call failing, for each of the four commands. -/
theorem witness_FailedReadsLeaveTheDevice (b c : Byte) (h : okDraw b = false ∨ okDraw c = false) :
    let s := running waitRequest [.waitReady .poll 2 0 .rdsr 0] [] [b, c]
    BusFree s ∧ s.ctl = .busy [.waitReady .poll 2 0 .rdsr 0] ∧ s.env.draws = b :: c :: []
      ∧ (okDraw b = false ∨ okDraw c = false) ∧ s.dev.pending = .none
      ∧ (0x0FFFFF : Addr).toNat + 1 ≤ s.params.capacity ∧ okDraw 1 = false :=
  ⟨⟨rfl, rfl⟩, rfl, rfl, h, rfl, (by decide : (0x0FFFFF : Addr).toNat + 1 ≤ Config.Params.launch.capacity), rfl⟩

/-- The command phase of an asynchronous read of the last byte, failing. -/
theorem witness_failed_async_start :
    let s := running ⟨0x08, 0x0FFFFF, 1, 0, []⟩ [.readAsync 0x0FFFFF 1] [.engine] [1, 0]
    BusFree s ∧ s.ctl = .busy [.readAsync 0x0FFFFF 1] ∧ s.env.draws = 1 :: 0 :: [] ∧ okDraw 1 = false
      ∧ s.dev.pending = .none ∧ (0x0FFFFF : Addr).toNat + 1 ≤ s.params.capacity
      ∧ [Frame.readAsync 0x0FFFFF 1] = .readAsync (0x0FFFFF : Addr).toNat 1 :: [] ∧ s.env.turns = .engine :: []
      ∧ field State.ctl (step s) = some (.ending (.failed .transportError .read 0x0FFFFF)) := by decide +kernel

theorem witness_FailedProgramsStayInTheirRange :
    let s := withDevice (running ⟨0x04, 0, 0, 0, []⟩ [.eraseSector .cmd 0] [] [1, 0]) [(0, 1)] .none true
    BusFree s ∧ s.ctl = .busy [.eraseSector .cmd 0] ∧ s.dev.pending = .none ∧ s.dev.wel = true ∧ s.dev.array.wf = true
      ∧ s.env.draws = 1 :: 0 :: [] ∧ okDraw 1 = false ∧ 1 ≤ [(5 : Byte)].length ∧ [(5 : Byte)].length ≤ 256
      ∧ (0x0FF000 : Addr).toNat % 4096 = 0 ∧ (0x0FF000 : Addr).toNat < s.params.capacity := by decide +kernel

/-- A payload in flight, the engine at a program. -/
theorem witness_NoTransactionWhileInFlight :
    let s : State := { running ⟨0x03, 0, 1, 0, [1]⟩ [.programPage .wren .req 0 0 1] [.engine] [] with
      inflight := true, cs := true, asyncA := 0, asyncN := 1, dma := .rx 0 1 }
    s.inflight = true ∧ (after (step s)).isSome = true := by decide +kernel

/-! The other agents. -/

theorem witness_SectorEraseLands :
    let s := withDevice (bench [.device] []) [(0x0FF000, 1), (0x0FFFFF, 1)] (.se 0x0FF000) false
    s.fault = none ∧ s.env.turns = .device :: [] ∧ s.dev.array.wf = true ∧ s.dev.pending = .se 0x0FF000
      ∧ 0x0FF000 % 4096 = 0 := by decide +kernel

/-- The chip erase, and a havoc range of no byte and of one page. -/
theorem witness_ChipEraseAndHavocLand :
    ∀ p ∈ [Pending.ce, .havoc 0x100 0x100, .havoc 0x100 0x200],
      let s := withDevice (bench [.device] []) [(0xFF, 1), (0x0FFFFF, 1)] p false
      s.fault = none ∧ s.env.turns = .device :: [] ∧ s.dev.array.wf = true ∧ s.dev.pending = p := by decide +kernel

/-- A program that wraps and one that ends with its page. -/
theorem witness_PageProgramLands :
    (let s := withDevice (bench [.device] []) [(0xFF, 1)] (.pp 0xFF [1, 2]) false
     s.fault = none ∧ s.env.turns = .device :: [] ∧ s.dev.array.wf = true ∧ s.dev.pending = .pp 0xFF [1, 2]
       ∧ [(1 : Byte), 2].length ≤ 256)
      ∧ 0xFE % 256 + [(1 : Byte), 2].length ≤ 256 := by decide +kernel

/-- Both results. -/
theorem witness_DmaCompletionPosts :
    ∀ b ∈ [(0 : Byte), 1],
      let s : State := { bench [.dma] [b] with inflight := true, cs := true, asyncN := 1, dma := .rx 0 1 }
      s.fault = none ∧ s.env.turns = .dma :: [] ∧ s.dma = .rx 0 1 ∧ s.env.draws = b :: []
        ∧ (okDraw b = true ∨ okDraw b = false) := by decide +kernel

theorem witness_OnlyTheClockAdvancesTime :
    (bench [.clock] []).fault = none ∧ (bench [.clock] []).env.turns = .clock :: []
      ∧ field State.now (step (bench [.clock] [])) = some 1 := by decide +kernel

/-- Each move, enabled and waiting. -/
theorem witness_HostMovesActOnThePortsOnly :
    (let s : State := { bench [.host] [] with host := [.issue (assemble 0x09 0 0 0 [])] }
     s.fault = none ∧ s.env.turns = .host :: [] ∧ s.host = .issue (assemble 0x09 0 0 0 []) :: [] ∧ s.port = none
       ∧ { s with port := some (assemble 0x05 0 0 0 []) }.port ≠ none)
      ∧ (let s : State := { bench [.host] [] with host := [.takeResp] }
         s.host = .takeResp :: [] ∧ s.resp.valid = false ∧ { s with resp := ⟨true, Response.blank⟩ }.resp.valid = true)
      ∧ (let s : State := { bench [.host] [] with host := [.takeCmpl] }
         s.host = .takeCmpl :: [] ∧ s.cmpl.valid = false ∧ (s.withCmpl ⟨.ok, []⟩).cmpl.valid = true) := by decide +kernel

/-! The step. -/

theorem witness_StepRunsTheRequest :
    let s := asked 0x04 0x3000 0 0 [] [.engine] []
    s.fault = none ∧ s.env.turns = .engine :: [] ∧ s.ctl = .idle ∧ s.port = some (assemble 0x04 0x3000 0 0 [])
      ∧ decodeRequest (assemble 0x04 0x3000 0 0 []) = .ok (.serase 0x3000) := by decide +kernel

/-- The engine at its status poll. -/
theorem witness_StepRunsTheWireCommand :
    let s := running waitRequest [.waitReady .poll 2 0 .rdsr 0] [.engine] []
    let u := settle [.waitReady .poll 2 0 .rdsr 0] { s with env := { s.env with turns := [] } }
    s.fault = none ∧ s.inflight = false ∧ s.env.turns = .engine :: []
      ∧ s.ctl = .busy [.waitReady .poll 2 0 .rdsr 0] ∧ u.fault = none ∧ u.ctl = .busy (.waitReady .poll 2 0 .rdsr 0 :: [])
      ∧ u.nextWire (.waitReady .poll 2 0 .rdsr 0) = some .rdsr
      ∧ decodeWire u.params.ops (Wire.frame u.params.ops .rdsr) = .ok .wireRdsr ∧ u.params.ops.distinct = true := by decide +kernel

theorem witness_step_wire_is_no_empty_read : ∀ a, Wire.rdsr ≠ .read a 0 := by intro a h; cases h

theorem witness_FaultStopsTheMachine : ({ bench [] [] with fault := some .reservedOp } : State).fault = some .reservedOp := by
  decide +kernel

/-! Status poller. -/

/-- The entry, and the deadline met (`0 >= 0`) and not met. -/
theorem witness_WaitReadsTheClock :
    (let s := running waitRequest [.waitReady .t0 2 0 .rdsr 0] [.engine] []
     s.fault = none ∧ s.env.turns = .engine :: [] ∧ s.ctl = .busy (.waitReady .t0 2 0 .rdsr 0 :: []))
      ∧ (∀ timeout ∈ [0, 1],
        let s := running waitRequest [.waitReady .clk timeout 0 .rdsr 0] [.engine] []
        s.fault = none ∧ s.env.turns = .engine :: [] ∧ s.ctl = .busy (.waitReady .clk timeout 0 .rdsr 0 :: [])) := by
  decide +kernel

/-- Busy, ready with a caller, ready without. -/
theorem witness_PollDecidesOnBusyBit :
    let stack := [Frame.waitReady .poll 400 0 .se 0, .eraseSector .wait 0]
    let s := withDevice (running ⟨0x04, 0, 0, 0, []⟩ stack [.engine] [0, 0, 0xFE]) [] (.se 0) false
    s.params.wf = true ∧ BusFree s ∧ s.env.turns = .engine :: []
      ∧ s.ctl = .busy (.waitReady .poll 400 0 .se 0 :: [.eraseSector .wait 0]) ∧ s.env.draws = 0 :: 0 :: 0xFE :: []
      ∧ s.dev.pending ≠ .none ∧ (withDevice s [] .none false).dev.pending = .none
      ∧ (running waitRequest [.waitReady .poll 2 0 .rdsr 0] [.engine] [0, 0, 0]).ctl
        = .busy (.waitReady .poll 2 0 .rdsr 0 :: []) := by decide +kernel

/-- A busy device, a timeout of two milliseconds; and a WREADY accepted while a payload is in flight. -/
theorem witness_EveryWaitEnds :
    (let s := withDevice (running waitRequest [.waitReady .poll 2 0 .rdsr 0] [.clock, .clock, .engine, .engine] [0, 0, 0])
      [] .ce false
    s.params.wf = true ∧ BusFree s ∧ 0 ≤ s.now ∧ s.ctl = .busy (.waitReady .poll 2 0 .rdsr 0 :: [])
      ∧ s.env.turns = List.replicate 2 .clock ++ .engine :: .engine :: [])
      ∧ let s : State :=
          { running waitRequest [.waitReady .t0 2 0 .rdsr 0] [] [] with
            inflight := true, cs := true, asyncN := 1, dma := .rx 0 1 }
        s.params.wf = true ∧ s.fault = none ∧ BusOk s ∧ s.ctl = .busy (.waitReady .t0 2 0 .rdsr 0 :: []) :=
  ⟨by decide +kernel, by decide +kernel, rfl, ⟨rfl, rfl, fun _ => by decide⟩, rfl⟩

/-! Managed write and page splitting. -/

/-- A chunk in the last sector. -/
theorem witness_ChunkBeginsWithSectorRead :
    let l : MwLocals := ⟨0x0FFFFF, 0, 1, 0, 0, 0, false⟩
    let s := running ⟨0x01, 0x0FFFFF, 1, 0, [7]⟩ [.managedWrite .chunk l] [.engine] [0, 0]
    s.params.wf = true ∧ BusFree s ∧ s.dev.pending = .none ∧ s.env.turns = .engine :: []
      ∧ s.ctl = .busy [.managedWrite .chunk l] ∧ 0 < l.n ∧ l.a < s.params.capacity ∧ s.scratch.length = 4096
      ∧ s.env.draws = 0 :: 0 :: [] ∧ okDraw 0 = true := by decide +kernel

/-- The chunk's range all `0xFF`, and one whose last byte is not. -/
theorem witness_ScanDecidesErase :
    let l : MwLocals := ⟨0x0FFF, 0, 1, 0, 0x0FFF, 1, false⟩
    let s : State := { running ⟨0x01, 0x0FFF, 1, 0, [7]⟩ [.managedWrite .scan l] [.engine] [0] with scratch := fullScratch }
    s.params.wf = true ∧ BusFree s ∧ s.dev.pending = .none ∧ s.env.turns = .engine :: []
      ∧ s.ctl = .busy [.managedWrite .scan l] ∧ s.scratch.length = 4096 ∧ (∀ x ∈ s.scratch, x ≠ none) ∧ 0 < l.chunk
      ∧ l.off + l.chunk ≤ 4096 ∧ s.env.draws = 0 :: []
      ∧ (∀ i, l.off ≤ i → i < l.off + l.chunk → s.scratch[i]? = some (some 0xFF))
      ∧ (List.replicate 4096 (some (0x7F : Byte)))[0x0FFF]? ≠ some (some 0xFF) := by
  refine ⟨launch_wf, ⟨rfl, rfl⟩, rfl, rfl, rfl, List.length_replicate, fullScratch_written, by decide, by decide, rfl,
    fun i _ (h : i < 0x0FFF + 1) => ?_, ?_⟩
  · exact List.getElem?_replicate_of_lt (by omega)
  · rw [List.getElem?_replicate_of_lt (by decide)]; decide

theorem witness_ErasePathRewritesTheSector :
    let l : MwLocals := ⟨0x0FFF, 0, 1, 0, 0x0FFF, 1, true⟩
    let r : Request := ⟨0x01, 0x0FFF, 1, 0, [7]⟩
    let s : State := { running r [.eraseSector .wait 0, .managedWrite .erase l] [.engine] [0] with scratch := fullScratch }
    s.params.wf = true ∧ BusFree s ∧ s.dev.pending = .none ∧ s.env.turns = .engine :: []
      ∧ s.ctl = .busy [.eraseSector .wait (l.sec * 4096), .managedWrite .erase l] ∧ l.need = true ∧ s.req = some r ∧ s.scratch.length = 4096
      ∧ (∀ x ∈ s.scratch, x ≠ none) ∧ l.off + l.chunk ≤ 4096 ∧ l.di + l.chunk ≤ r.data.length
      ∧ s.env.draws = 0 :: [] :=
  ⟨launch_wf, ⟨rfl, rfl⟩, rfl, rfl, rfl, rfl, rfl, List.length_replicate, fullScratch_written, by decide, by decide, rfl⟩

/-- A byte at the end of the first sector: the last of a managed write, of an unchecked write, of a page program; an erase of
each kind. -/
theorem witness_LastChunkPostsCommitted :
    let w : WnLocals := ⟨.req, 0x0FFF, 0, 1, 1⟩
    let l : MwLocals := ⟨0x0FFF, 0, 1, 0, 0x0FFF, 1, false⟩
    let page := Frame.programPage .wait .req 0 0x0FFF 1
    (∀ stack ∈ [[page, .writeNoCheck .page w, .managedWrite .prog l], [page, .writeNoCheck .page w], [page],
        [.eraseSector .wait 0x0FF000], [.eraseChip .wait]],
      let s := running ⟨0x01, 0x0FFF, 1, 0, [7]⟩ stack [.engine] []
      s.fault = none ∧ s.env.turns = .engine :: [] ∧ s.ctl = .busy stack) ∧ w.n ≤ w.chunk ∧ l.n ≤ l.chunk := by
  decide +kernel

/-- One byte at the end of the first sector done, one left. -/
theorem witness_NextChunkAdvances :
    let w : WnLocals := ⟨.req, 0x0FFF, 0, 1, 1⟩
    let l : MwLocals := ⟨0x0FFF, 0, 2, 0, 0x0FFF, 1, false⟩
    let stack := [Frame.programPage .wait .req 0 0x0FFF 1, .writeNoCheck .page w, .managedWrite .prog l]
    let s := running ⟨0x01, 0x0FFF, 2, 0, [7, 8]⟩ stack [.engine] [0, 0]
    s.params.wf = true ∧ BusFree s ∧ s.dev.pending = .none ∧ s.env.turns = .engine :: []
      ∧ s.ctl = .busy [.programPage .wait .req 0 0x0FFF 1, .writeNoCheck .page w, .managedWrite .prog l]
      ∧ w.n ≤ w.chunk ∧ l.chunk < l.n ∧ l.a + l.chunk < s.params.capacity
      ∧ s.env.draws = 0 :: 0 :: [] ∧ s.scratch.length = 4096 := by decide +kernel

/-- One byte at the end of the first page done, one left: an unchecked write, and a managed write's direct path. -/
theorem witness_NextPageAdvances :
    let l : WnLocals := ⟨.req, 0xFF, 0, 2, 1⟩
    ∀ below ∈ [[], [Frame.managedWrite .prog ⟨0xFF, 0, 2, 0, 0xFF, 2, false⟩]],
      let s := running ⟨0x02, 0xFF, 2, 0, [7, 8]⟩ (.programPage .wait .req 0 0xFF 1 :: .writeNoCheck .page l :: below)
        [.engine] [0]
      s.params.wf = true ∧ BusFree s ∧ s.dev.pending = .none ∧ s.env.turns = .engine :: []
        ∧ s.ctl = .busy (.programPage .wait .req 0 0xFF 1 :: .writeNoCheck .page l :: below)
        ∧ l.src ≠ .scratch ∧ l.chunk = min l.n (256 - l.a % 256) ∧ l.chunk < l.n ∧ s.env.draws = 0 :: [] := by
  decide +kernel

/-- The erase path's last page but one, from the Scratch Buffer. -/
theorem witness_next_page_from_scratch :
    let l : WnLocals := ⟨.scratch, 0x0E00, 0x0E00, 0x200, 0x100⟩
    let m : MwLocals := ⟨0x0FFF, 0, 1, 0, 0x0FFF, 1, true⟩
    let stack := [Frame.programPage .wait .scratch 0x0E00 0x0E00 0x100, .writeNoCheck .page l, .managedWrite .prog m]
    let s : State := { running ⟨0x01, 0x0FFF, 1, 0, [7]⟩ stack [.engine] [0] with scratch := fullScratch }
    s.params.wf = true ∧ BusFree s ∧ s.dev.pending = .none ∧ s.env.turns = .engine :: [] ∧ s.ctl = .busy stack
      ∧ s.scratch.length = 4096 ∧ (∀ x ∈ s.scratch, x ≠ none) ∧ l.si + l.n ≤ 4096
      ∧ l.chunk = min l.n (256 - l.a % 256) ∧ l.chunk < l.n ∧ s.env.draws = 0 :: [] :=
  ⟨launch_wf, ⟨rfl, rfl⟩, rfl, rfl, rfl, List.length_replicate, fullScratch_written, by decide, by decide, by decide, rfl⟩

/-- Each op, at address 0 and at the capacity. -/
theorem witness_ZeroLengthRequestsComplete (op : Byte) (a : Addr) (ha : a = 0 ∨ a = 0x100000)
    (h : op ∈ [(0x01 : Byte), 0x02, 0x03, 0x07, 0x08]) :
    let s := asked op a 0 0 [] [.engine, .engine] []
    Ready s ∧ s.cmpl.valid = false ∧ a.toNat ≤ s.params.capacity ∧ s.env.turns = .engine :: .engine :: []
      ∧ op ∈ [(0x01 : Byte), 0x02, 0x03, 0x07, 0x08] ∧ s.port = some (assemble op a 0 0 []) := by
  refine ⟨⟨rfl, rfl, rfl⟩, rfl, ?_, rfl, h, rfl⟩
  show a.toNat ≤ Config.Params.launch.capacity
  rcases ha with rfl | rfl <;> decide

theorem witness_EndedRequestPostsItsResponse :
    (∀ x ∈ [Exit.failed .timeout .se 0x3000, .ok [1] 0],
      let s : State := { bench [.engine] [] with ctl := .ending x, req := some waitRequest }
      s.fault = none ∧ s.env.turns = .engine :: [] ∧ s.ctl = .ending x) := by decide +kernel

/-! Whole requests under one schedule. -/

/-- The schedule in which the device lands its operation at once. -/
def prompt : List Agent := [.engine, .engine, .engine, .device, .engine, .engine, .engine]

theorem witness_EraseRequestsRun :
    (let s := asked 0x04 0x0FF000 0 0 [] prompt [0, 0, 0, 0, 0]
     s.params.wf = true ∧ Ready s ∧ s.inflight = false ∧ s.dev.pending = .none ∧ s.dev.array.wf = true
       ∧ s.env.turns = prompt ++ [] ∧ s.env.draws = 0 :: 0 :: 0 :: 0 :: 0 :: [] ∧ (0x0FF000 : Addr).toNat % 4096 = 0
       ∧ (0x0FF000 : Addr).toNat < s.params.capacity ∧ s.port = some (assemble 0x04 0x0FF000 0 0 []))
      ∧ (asked 0x05 0 0 0 [] prompt [0, 0, 0, 0, 0]).port = some (assemble 0x05 0 0 0 []) := by decide +kernel

/-- One byte at the end of the flash, for both ops. -/
theorem witness_PageProgramRequestsRun :
    ∀ op ∈ [(0x03 : Byte), 0x02],
      let s := asked op 0x0FFFFF 1 0 [7] prompt [0, 0, 0, 0, 0, 0]
      s.params.wf = true ∧ Ready s ∧ s.inflight = false ∧ s.dev.pending = .none ∧ s.dev.array.wf = true
        ∧ [(7 : Byte)].length = (1 : Word).toNat ∧ (0x0FFFFF : Addr).toNat % 256 + [(7 : Byte)].length ≤ 256
        ∧ (0x0FFFFF : Addr).toNat + [(7 : Byte)].length ≤ s.params.capacity
        ∧ s.port = some (assemble op 0x0FFFFF 1 0 [7]) ∧ s.env.turns = prompt ++ []
        ∧ s.env.draws = 0 :: 0 :: 0 :: 0 :: 0 :: 0 :: [] := by decide +kernel

theorem witness_ReadAndWaitRequestsRun :
    ∀ op ∈ [(0x07 : Byte), 0x09, 0x06],
      let s := { bench [.engine, .engine, .engine, .engine] [0, 0, 0] with
        port := some (if op = 0x07 then assemble 0x07 0x0FFFFF 1 0 [] else assemble op 0 0 0 []) }
      s.params.wf = true ∧ Ready s ∧ s.inflight = false ∧ s.dev.pending = .none
        ∧ s.env.turns = [.engine, .engine, .engine, .engine] ++ [] ∧ s.env.draws = 0 :: 0 :: 0 :: []
        ∧ 1 ≤ (1 : Word).toNat ∧ (0x0FFFFF : Addr).toNat + (1 : Word).toNat ≤ s.params.capacity := by decide +kernel

theorem witness_AsyncReadRuns :
    let s := asked 0x08 0x0FFFFF 1 0 [] [.engine, .engine, .engine, .dma] [0, 0]
    s.params.wf = true ∧ Ready s ∧ s.cmpl.valid = false ∧ s.inflight = false ∧ s.dev.pending = .none
      ∧ 1 ≤ (1 : Word).toNat ∧ (0x0FFFFF : Addr).toNat + (1 : Word).toNat ≤ s.params.capacity
      ∧ s.port = some (assemble 0x08 0x0FFFFF 1 0 []) ∧ s.env.turns = [.engine, .engine, .engine, .dma] ++ []
      ∧ s.env.draws = 0 :: 0 :: [] := by decide +kernel

/-- One erased byte at the end of the flash. -/
theorem witness_ManagedWriteDirectRuns :
    let s := asked 0x01 0x0FFFFF 1 0 [7] [.engine, .engine, .engine, .engine, .device, .engine, .engine, .engine]
      [0, 0, 0, 0, 0, 0, 0, 0]
    s.params.wf = true ∧ Ready s ∧ s.inflight = false ∧ s.dev.pending = .none ∧ s.dev.array.wf = true
      ∧ s.scratch.length = 4096 ∧ [(7 : Byte)].length = (1 : Word).toNat
      ∧ (0x0FFFFF : Addr).toNat % 256 + [(7 : Byte)].length ≤ 256
      ∧ (0x0FFFFF : Addr).toNat + [(7 : Byte)].length ≤ s.params.capacity ∧ s.dev.array.read 0x0FFFFF = 0xFF
      ∧ s.port = some (assemble 0x01 0x0FFFFF 1 0 [7])
      ∧ s.env.draws = 0 :: 0 :: 0 :: 0 :: 0 :: 0 :: 0 :: 0 :: [] := by decide +kernel

/-! Whole requests under every schedule: a run that finishes, with the outcome each statement asks for. -/

/-- The state after `k` steps (the start where a step stops). -/
def at_ (k : Nat) (s : State) : State := (after (runs k s)).getD s

/-- The state after one step (the start where the step stops). -/
def stepped (s : State) : State := (after (step s)).getD s

theorem step_stepped {s : State} (h : (after (step s)).isSome = true) : step s = .next (stepped s) := by
  unfold stepped
  cases hr : step s with
  | next t => rfl
  | fault r => rw [hr] at h; cases h
  | refused r => rw [hr] at h; cases h

/-- The run's first idle state is the one after `k` steps. -/
def finishesIn (k : Nat) (s : State) : Bool :=
  (List.range k).all (fun j => (at_ j s).ctl != .idle) && (after (runs k s)).isSome && (at_ k s).ctl == .idle

theorem runs_at {k : Nat} {s : State} (h : (after (runs k s)).isSome = true) : runs k s = .next (at_ k s) := by
  unfold at_
  cases hr : runs k s with
  | next t => rfl
  | fault r => rw [hr] at h; cases h
  | refused r => rw [hr] at h; cases h

theorem finishes_of {k : Nat} {s : State} (h : finishesIn k s = true) : Finishes s (at_ k s) := by
  simp only [finishesIn, Bool.and_eq_true, List.all_eq_true, List.mem_range, bne_iff_ne, beq_iff_eq] at h
  refine ⟨k, runs_at h.1.2, h.2, fun j hj u hu => ?_⟩
  have := h.1.1 j hj
  rwa [at_, hu] at this

/-- The states of `asked` are consistent. -/
theorem consistent_asked (op : Byte) (a : Addr) (n t : Word) (d : List Byte) (ts : List Agent) (ds : List Byte) :
    Consistent (asked op a n t d ts ds) :=
  ⟨launch_wf, ⟨rfl, rfl, (fun h => nomatch h)⟩, ⟨rfl, rfl⟩, trivial, List.length_replicate, fun _ => rfl,
    (fun _ h => nomatch h)⟩

/-- The rest of a request's schedule after its acceptance. -/
def promptly : List Agent := [.engine, .engine, .device, .engine, .engine, .engine]

/-- The state after the acceptance of `i`. -/
def accepting (i : Instr) (ts : List Agent) (ds : List Byte) : State :=
  (after (exec i (asked 0 0 0 0 [] ts ds))).getD State.reset

theorem exec_accepting {i : Instr} {ts : List Agent} {ds : List Byte}
    (h : (after (exec i (asked 0 0 0 0 [] ts ds))).isSome = true) :
    exec i (asked 0 0 0 0 [] ts ds) = .next (accepting i ts ds) := by
  unfold accepting
  cases hr : exec i (asked 0 0 0 0 [] ts ds) with
  | next t => rfl
  | fault r => rw [hr] at h; cases h
  | refused r => rw [hr] at h; cases h

theorem witness_SectorEraseOkMeansErased :
    ∃ s t u a, Consistent s ∧ Ready s ∧ s.dev.pending = .none ∧ exec (.serase a) s = .next t ∧ Finishes t u
      ∧ u.resp.valid = true ∧ u.resp.record.outcome = .ok :=
  ⟨_, accepting (.serase 0x0FF000) promptly [0, 0, 0, 0, 0], at_ 6 _, 0x0FF000, consistent_asked _ _ _ _ _ _ _,
    ⟨rfl, rfl, rfl⟩, rfl, exec_accepting (by decide +kernel), finishes_of (by decide +kernel), by decide +kernel, by decide +kernel⟩

theorem witness_UncheckedWriteAndsItsBytes :
    ∃ s t u a n d, Consistent s ∧ Ready s ∧ s.dev.pending = .none ∧ exec (.wnochk a n d) s = .next t ∧ Finishes t u
      ∧ u.resp.valid = true ∧ u.resp.record.outcome = .ok :=
  ⟨_, accepting (.wnochk 0x0FFFFF 1 [7]) promptly [0, 0, 0, 0, 0, 0], at_ 6 _, 0x0FFFFF, 1, [7],
    consistent_asked _ _ _ _ _ _ _, ⟨rfl, rfl, rfl⟩, rfl, exec_accepting (by decide +kernel), finishes_of (by decide +kernel),
    by decide +kernel, by decide +kernel⟩

/-- The first page's byte written, the second page's write-enable failing. -/
theorem witness_unchecked_write_fails :
    ∃ s t u a n d, Consistent s ∧ Ready s ∧ s.dev.pending = .none ∧ exec (.wnochk a n d) s = .next t ∧ Finishes t u
      ∧ u.resp.valid = true ∧ u.resp.record.outcome ≠ .ok ∧ u.resp.record.committed = 1 :=
  ⟨_, accepting (.wnochk 0xFF 2 [7, 8]) (promptly ++ [.engine]) [0, 0, 0, 0, 0, 0, 1, 0], at_ 7 _, 0xFF, 2, [7, 8],
    consistent_asked _ _ _ _ _ _ _, ⟨rfl, rfl, rfl⟩, rfl, exec_accepting (by decide +kernel), finishes_of (by decide +kernel),
    by decide +kernel, by decide +kernel, by decide +kernel⟩

theorem witness_ManagedWriteOkStoresItsBytes :
    ∃ s t u a n d, Consistent s ∧ Ready s ∧ s.dev.pending = .none ∧ exec (.mwrite a n d) s = .next t ∧ Finishes t u
      ∧ u.resp.valid = true ∧ u.resp.record.outcome = .ok :=
  ⟨_, accepting (.mwrite 0x0FFFFF 1 [7]) (.engine :: promptly) [0, 0, 0, 0, 0, 0, 0, 0], at_ 7 _, 0x0FFFFF, 1, [7],
    consistent_asked _ _ _ _ _ _ _, ⟨rfl, rfl, rfl⟩, rfl, exec_accepting (by decide +kernel), finishes_of (by decide +kernel),
    by decide +kernel, by decide +kernel⟩

/-- The sector read fails. -/
theorem witness_ManagedWriteFailureKeepsOtherSectors :
    ∃ s t u a n d, Consistent s ∧ Ready s ∧ s.dev.pending = .none ∧ exec (.mwrite a n d) s = .next t ∧ Finishes t u
      ∧ u.resp.valid = true ∧ u.resp.record.outcome ≠ .ok :=
  ⟨_, accepting (.mwrite 0x0FFFFF 1 [7]) [.engine, .engine] [1], at_ 2 _, 0x0FFFFF, 1, [7],
    consistent_asked _ _ _ _ _ _ _, ⟨rfl, rfl, rfl⟩, rfl, exec_accepting (by decide +kernel), finishes_of (by decide +kernel),
    by decide +kernel, by decide +kernel⟩

/-! Invariants. -/

/-- An engine about to program the last byte of the flash, its write-enable just sent. -/
def programming : State :=
  { withDevice (running ⟨0x03, 0x0FFFFF, 1, 0, [7]⟩ [.programPage .cmd .req 0 0x0FFFFF 1] [.engine] [0, 0]) [] .none true
    with trace := [wrenEvent State.reset] }

theorem consistent_programming : Consistent programming := by
  refine ⟨launch_wf, ⟨rfl, rfl, (fun h => nomatch h)⟩, ⟨rfl, rfl⟩, trivial, List.length_replicate, fun _ => ?_,
    (fun _ h => nomatch h)⟩
  refine ⟨_, rfl, ⟨?_, ?_⟩, ?_⟩
  · exact ⟨fun _ => by decide +kernel, by decide +kernel⟩
  · exact ⟨rfl, ⟨rfl, by decide +kernel⟩, rfl, rfl, rfl, rfl, rfl⟩
  · exact ⟨fun _ => rfl, fun _ _ => rfl⟩

theorem wrenLast_programming : WrenLast programming := fun _ _ _ _ _ => ⟨rfl, rfl⟩

theorem witness_StepKeepsConsistency : ∃ s t, Consistent s ∧ step s = .next t :=
  ⟨programming, stepped programming, consistent_programming, step_stepped (by decide +kernel)⟩

/-- Each clause: a fault marked before, a step that marks one. -/
theorem witness_EngineNeverFaultsByItself :
    (∃ s r, Consistent s ∧ step s = .fault r)
      ∧ ∃ s t r, Consistent s ∧ step s = .next t ∧ t.fault = some r := by
  refine ⟨⟨{ asked 0 0 0 0 [] [] [] with fault := some .contractViolation }, .contractViolation, ?_, rfl⟩,
    asked 0 0 0 0 [] [.engine] [], _, .reservedOp, consistent_asked _ _ _ _ _ _ _, rfl, by decide +kernel⟩
  exact ⟨launch_wf, ⟨rfl, rfl, (fun h => nomatch h)⟩, ⟨rfl, rfl⟩, trivial, List.length_replicate, (fun h => nomatch h),
    (fun _ h => by cases h; rfl)⟩

theorem witness_TransactionsStayInRange :
    ∃ s t, Consistent s ∧ step s = .next t ∧ t.trace = s.trace ++ [.xact .pp [0x02, 0x0F, 0xFF, 0xFF] [7] 0 (some [])] :=
  ⟨programming, stepped programming, consistent_programming, step_stepped (by decide +kernel), by decide +kernel⟩

theorem witness_WriteEnableImmediatelyBefore :
    ∃ s t, Consistent s ∧ WrenLast s ∧ step s = .next t
      ∧ t.trace = s.trace ++ [.xact .pp [0x02, 0x0F, 0xFF, 0xFF] [7] 0 (some [])] :=
  ⟨programming, stepped programming, consistent_programming, wrenLast_programming, step_stepped (by decide +kernel), by decide +kernel⟩

/-- A chip erase requested while an earlier one is still pending. -/
theorem witness_BusyAccessOnlyAtTheStart :
    ∃ s t, Consistent s ∧ s.fault = none ∧ step s = .next t ∧ t.fault = some .deviceBusyAccess := by
  refine ⟨withDevice (running ⟨0x05, 0, 0, 0, []⟩ [.eraseChip .wren] [.engine] []) [] .ce false, stepped _, ?_, rfl,
    step_stepped (by decide +kernel), by decide +kernel⟩
  refine ⟨launch_wf, ⟨rfl, rfl, (fun h => nomatch h)⟩, ⟨rfl, rfl⟩, trivial, List.length_replicate, fun _ => ?_,
    (fun _ h => nomatch h)⟩
  exact ⟨_, rfl, ⟨trivial, rfl, rfl⟩, (fun h => nomatch h), (fun _ h => nomatch h)⟩

theorem witness_StepKeepsArrayCanonical :
    ∃ s t, s.dev.array.wf = true ∧ step s = .next t ∧ t.dev.array ≠ s.dev.array :=
  ⟨withDevice (bench [.device] []) [(0x100, 0xF3)] (.pp 0x100 [0x0F]) false, _, by decide +kernel, rfl, by decide +kernel⟩

/-- The same engine, its page program failing. -/
def failingProgram : State :=
  { programming with env := { programming.env with draws := [1, 0] ++ List.replicate 256 0 } }

/-- Both clauses: the completion of a program, and a failed one. -/
theorem witness_OnlyDeviceRulesWriteFlash :
    (∃ s t, step s = .next t ∧ t.dev.array ≠ s.dev.array ∧ s.takeTurn.1 = .device)
      ∧ ∃ s t, step s = .next t ∧ t.dev.array ≠ s.dev.array ∧ s.takeTurn.1 = .engine :=
  ⟨⟨withDevice (bench [.device] []) [(0x100, 0xF3)] (.pp 0x100 [0x0F]) false, _, rfl, by decide +kernel, rfl⟩,
    ⟨failingProgram, stepped failingProgram,
      step_stepped (by decide +kernel), by decide +kernel, rfl⟩⟩

theorem witness_TraceOnlyGrowsAndParametersStay : ∃ s t, step s = .next t ∧ t.trace ≠ s.trace :=
  ⟨programming, stepped programming, step_stepped (by decide +kernel), by decide +kernel⟩

end Sys2Proof.Tests
end

section
/-! PROOFS. The legality of a control stack (10_state.md R22): which frames call which, what pushing, replacing and popping
the head need, and the ranges a legal stack gives its writes. -/

namespace Sys2Proof.Safety

open Sys2Proof.Machine
open Sys2Proof.Config (sectorSize pageSize)

/-- Every Scratch Buffer cell is written (45_managed_write.md R183). -/
def Written (s : State) : Prop := ∀ c ∈ s.scratch, c ≠ none

/-- `t` has everything that the legality of a control stack in `s` speaks of: time may have passed, cells may have been
written. -/
structure Supports (s t : State) : Prop where
  params : t.params = s.params
  now : s.now ≤ t.now
  written : Written s → Written t
  committed : t.committed = s.committed

theorem FrameOk.mono {s t : State} {f : Frame} (h : FrameOk s f) (hp : t.params = s.params) (hn : s.now ≤ t.now)
    (hw : Written s → Written t) : FrameOk t f := by
  cases f with
  | managedWrite pt l => exact ⟨h.1, fun h1 h2 => hw (h.2 h1 h2)⟩
  | waitReady pt timeout t0 k ad => exact fun hpt => (h hpt).trans hn
  | eraseSector pt a => simpa only [FrameOk, hp] using h
  | read a n => simpa only [FrameOk, hp] using h
  | readAsync a n => simpa only [FrameOk, hp] using h
  | _ => exact h

theorem OuterOk.congr {s t : State} {r : Request} {f : Frame} (h : OuterOk s r f) (hp : t.params = s.params)
    (hc : t.committed = s.committed) : OuterOk t r f := by
  cases f <;> simpa only [OuterOk, WriteFits, hp, hc] using h

theorem StackOk.mono {s t : State} {r : Request} {stack : List Frame} (h : StackOk s r stack) (hst : Supports s t) :
    StackOk t r stack := by
  induction stack with
  | nil => exact h
  | cons f below ih =>
    cases below with
    | nil => exact ⟨h.1.mono hst.params hst.now hst.written, h.2.congr hst.params hst.committed⟩
    | cons g rest => exact ⟨h.1.mono hst.params hst.now hst.written, hst.params ▸ h.2.1, ih h.2.2⟩

theorem StackOk.head {s : State} {r : Request} {f : Frame} {below : List Frame} (h : StackOk s r (f :: below)) :
    FrameOk s f := by
  cases below <;> exact h.1

/-- A frame that calls and ends as another one may stand in its place. -/
theorem StackOk.replaceHead {s : State} {r : Request} {f f' : Frame} {below : List Frame} (h : StackOk s r (f :: below))
    (hf : FrameOk s f') (hcalls : ∀ g, Calls s.params f g → Calls s.params f' g)
    (houter : OuterOk s r f → OuterOk s r f') :
    StackOk s r (f' :: below) := by
  cases below with
  | nil => exact ⟨hf, houter h.2⟩
  | cons g rest => exact ⟨hf, hcalls g h.2.1, h.2.2⟩

/-- A frame that no frame calls is the outermost one. -/
theorem StackOk.below_nil {s : State} {r : Request} {f : Frame} {below : List Frame} (h : StackOk s r (f :: below))
    (hcalls : ∀ g, ¬Calls s.params f g) : below = [] := by
  cases below with
  | nil => rfl
  | cons g rest => exact absurd h.2.1 (hcalls g)

/-! ### Who calls whom -/

theorem not_calls_managedWrite (p : Config.Params) (pt : MwPoint) (l : MwLocals) (g : Frame) :
    ¬Calls p (.managedWrite pt l) g := id

theorem calls_writeNoCheck {p : Config.Params} {pt : WnPoint} {l : WnLocals} {g : Frame}
    (h : Calls p (.writeNoCheck pt l) g) :
    ∃ m, g = .managedWrite .prog m
      ∧ if m.need then l.src = .scratch ∧ l.a = m.sec * sectorSize + l.si ∧ l.si + l.n = sectorSize
        else l.src = .req ∧ m.di ≤ l.si ∧ l.a = m.a + (l.si - m.di) ∧ l.si + l.n = m.di + m.chunk := by
  unfold Calls at h
  split at h <;> simp_all

theorem calls_programPage {p : Config.Params} {pt : CmdPoint} {src : Source} {si a n : Nat} {g : Frame}
    (h : Calls p (.programPage pt src si a n) g) :
    ∃ l, g = .writeNoCheck .page l ∧ src = l.src ∧ si = l.si ∧ a = l.a ∧ n = l.chunk := by
  unfold Calls at h
  split at h <;> simp_all

theorem calls_programPage_congr {p : Config.Params} {pt pt' : CmdPoint} {src : Source} {si a n : Nat} {g : Frame}
    (h : Calls p (.programPage pt src si a n) g) : Calls p (.programPage pt' src si a n) g := by
  obtain ⟨l, rfl, hl⟩ := calls_programPage h
  exact hl

theorem calls_eraseSector_congr {p : Config.Params} {pt pt' : CmdPoint} {a : Nat} {g : Frame}
    (h : Calls p (.eraseSector pt a) g) : Calls p (.eraseSector pt' a) g := by
  unfold Calls at h ⊢
  split at h <;> simp_all

/-- The callers of a wait do not depend on its control point or its entry time. -/
theorem calls_waitReady_congr {p : Config.Params} {pt pt' : WrPoint} {timeout t0 t0' : Nat} {k : Kind} {ad : Nat} {g : Frame}
    (h : Calls p (.waitReady pt timeout t0 k ad) g) : Calls p (.waitReady pt' timeout t0' k ad) g := by
  unfold Calls at h ⊢
  split at h <;> simp_all

/-- A wait moves between its control points on the same stack, its entry time never later than now (41_status_poller.md
R142). -/
theorem StackOk.waitPoint {s : State} {r : Request} {pt pt' : WrPoint} {timeout t0 t0' : Nat} {k : Kind} {ad : Nat}
    {below : List Frame} (h : StackOk s r (.waitReady pt timeout t0 k ad :: below)) (ht : t0' ≤ s.now) :
    StackOk s r (.waitReady pt' timeout t0' k ad :: below) :=
  h.replaceHead (fun _ => ht) (fun _ => calls_waitReady_congr) id

/-- A frame that has called another one stands at no program or erase command. -/
theorem Calls.caller_not_atCommand {p : Config.Params} {f g : Frame} (h : Calls p f g) : atCommand g = false := by
  unfold Calls at h
  split at h <;> first | rfl | exact h.elim

/-! ### The ranges of a write -/

/-- What the internal computation of request `r` starts from and keeps: the request latched, no model fault, a Scratch
Buffer of the right size. -/
structure Live (r : Request) (s : State) : Prop where
  params : s.params.wf = true
  req : s.req = some r
  fault : s.fault = none
  scratch : ScratchOk s

/-- A managed write is the outermost frame. -/
theorem StackOk.managedWrite {s : State} {r : Request} {pt : MwPoint} {l : MwLocals} {below : List Frame}
    (h : StackOk s r (.managedWrite pt l :: below)) :
    below = [] ∧ FrameOk s (.managedWrite pt l) ∧ OuterOk s r (.managedWrite pt l) := by
  obtain rfl := h.below_nil (not_calls_managedWrite _ _ _)
  exact ⟨rfl, h⟩

/-- What is left of a write lies inside the flash and inside its source: the request's data, or a Scratch Buffer whose
cells are all written. -/
theorem StackOk.writeRange {s : State} {r : Request} {pt : WnPoint} {l : WnLocals} {below : List Frame} (hl : Live r s)
    (h : StackOk s r (.writeNoCheck pt l :: below)) :
    l.a + l.n ≤ s.params.capacity
      ∧ ((l.src = .req ∧ l.si + l.n ≤ r.data.length) ∨ (l.src = .scratch ∧ l.si + l.n ≤ sectorSize ∧ Written s)) := by
  cases below with
  | nil =>
    obtain ⟨-, -, ⟨hdata, hcap⟩, hsrc, hn, ha, -⟩ := h
    exact ⟨by omega, .inl ⟨hsrc, by omega⟩⟩
  | cons g rest =>
    obtain ⟨m, rfl, hcall⟩ := calls_writeNoCheck h.2.1
    obtain ⟨-, ⟨hchunk, hwritten⟩, -, ⟨hdata, hcap⟩, hn, ha, -⟩ := h.2.2.managedWrite
    obtain ⟨hpos, hsec, hoff, hc⟩ := hchunk (by decide)
    have hsize := (params_wf hl.params).1
    split at hcall
    · obtain ⟨hsrc, hla, hlen⟩ := hcall
      simp only [sectorSize] at *
      exact ⟨by omega, .inr ⟨hsrc, by omega, hwritten (by decide) (by decide)⟩⟩
    · obtain ⟨hsrc, hdi, hla, hlen⟩ := hcall
      exact ⟨by omega, .inl ⟨hsrc, by omega⟩⟩

/-- The bytes of a program: there are `n` of them, none unwritten, and their range lies inside the flash. -/
theorem StackOk.pageSource {s : State} {r : Request} {pt : CmdPoint} {src : Source} {si a n : Nat} {below : List Frame}
    (hl : Live r s) (h : StackOk s r (.programPage pt src si a n :: below)) :
    a + n ≤ s.params.capacity ∧ ∃ bs, s.sourceBytes src si n = some bs ∧ bs.length = n := by
  have fromRequest : ∀ i, i + n ≤ r.data.length →
      ∃ bs, s.sourceBytes .req i n = some bs ∧ bs.length = n := fun i hi =>
    ⟨_, rfl, by rw [State.length_requestSlice hl.req]; omega⟩
  cases below with
  | nil =>
    obtain ⟨-, -, ⟨hdata, hcap⟩, rfl, rfl, ha, hn, -⟩ := h
    exact ⟨by omega, fromRequest 0 (by omega)⟩
  | cons g rest =>
    obtain ⟨l, rfl, rfl, rfl, rfl, rfl⟩ := calls_programPage h.2.1
    obtain ⟨-, hchunk⟩ := h.2.2.head (by decide)
    obtain ⟨hcap, ⟨hsrc, hlen⟩ | ⟨hsrc, hlen, hwritten⟩⟩ := h.2.2.writeRange hl
    · exact ⟨by omega, hsrc ▸ fromRequest l.si (by omega)⟩
    · obtain ⟨bs, hbs, hbl⟩ := State.scratchSlice_some hwritten l.si l.chunk
      have hsize : s.scratch.length = sectorSize := hl.scratch
      exact ⟨by omega, bs, by rw [hsrc]; exact hbs, by omega⟩

end Sys2Proof.Safety
end

section
/-! PROOFS. The internal computation (10_state.md R21) from a legal stack: it raises no fault, and it ends in a legal stack
whose head stands at an external action, or in the ended request. One lemma per control point of the procedures. -/

namespace Sys2Proof.Safety

open Sys2Proof.Machine
open Sys2Proof.Config (sectorSize pageSize)

/-- The control points at which a frame's next move is an external action (R21). -/
def AtAction : Frame → Prop
  | .managedWrite pt _ => pt = .read
  | .writeNoCheck _ _ => False
  | .programPage pt _ _ _ n => pt ≠ .wait ∧ 0 < n
  | .eraseSector pt _ => pt ≠ .wait
  | .eraseChip pt => pt ≠ .wait
  | _ => True

/-- A legal stack whose head stands at an external action; the latch is set where that is a program or an erase
(70_reset_and_hazards.md R265). -/
structure ActionStack (r : Request) (s : State) (f : Frame) (below : List Frame) : Prop where
  legal : StackOk s r (f :: below)
  action : AtAction f
  latch : atCommand f = true → s.dev.wel = true

/-- Where the internal computation for `r` ends: the request ended, or its stack at an external action. -/
structure Settled (r : Request) (t : State) : Prop extends Live r t where
  ctl : (∃ x, t.ctl = .ending x) ∨ ∃ f below, t.ctl = .busy (f :: below) ∧ ActionStack r t f below

/-- What the computation that goes on with `stack` starts from. -/
def Returns (r : Request) (s : State) : List Frame → Prop
  | [] => True
  | f :: below => StackOk s r (f :: below) ∧ (atCommand f = true → s.dev.wel = true)

/-- `ret` goes on with `stack` and settles (the `ret` of Machine/Engine.lean). -/
def Continues (r : Request) (stack : List Frame) (ret : State → State) : Prop :=
  ∀ s, Live r s → Returns r s stack → Settled r (ret s)

/-- The frames below a head may go on when it returns. -/
theorem StackOk.returns {s : State} {r : Request} {f : Frame} {below : List Frame} (h : StackOk s r (f :: below)) :
    Returns r s below := by
  cases below with
  | nil => trivial
  | cons g rest => exact ⟨h.2.2, fun hg => by simp [h.2.1.caller_not_atCommand] at hg⟩

variable {r : Request} {s : State} {below : List Frame} {ret : State → State}

/-- A head that stands at an external action stays. -/
theorem Settled.stay {f : Frame} (hl : Live r s) (h : ActionStack r s f below) :
    Settled r (s.withCtl (.busy (f :: below))) where
  params := hl.params
  req := hl.req
  fault := hl.fault
  scratch := hl.scratch
  ctl := .inr ⟨f, below, rfl, h.legal.mono ⟨rfl, le_rfl, id, rfl⟩, h.action, h.latch⟩

theorem Settled.startPage {src : Source} {si a n : Nat} (hl : Live r s)
    (h : StackOk s r (.programPage .wren src si a n :: below)) (hn : 0 < n) :
    Settled r (s.startPage src si a n below) := by
  obtain ⟨-, bs, hbs, -⟩ := h.pageSource hl
  rw [State.startPage, hbs]
  exact .stay hl ⟨h, ⟨by decide, hn⟩, nofun⟩

theorem Settled.wnLoop {l : WnLocals} (hret : Continues r below ret) (hl : Live r s)
    (h : StackOk s r (.writeNoCheck .loop l :: below)) : Settled r (wnLoop l below ret s) := by
  unfold Machine.wnLoop
  split
  · exact hret s hl h.returns
  · have hp : l.a % pageSize < pageSize := Nat.mod_lt _ (by decide)
    have hpage : StackOk s r (.writeNoCheck .page { l with chunk := min l.n (pageSize - l.a % pageSize) } :: below) :=
      h.replaceHead (fun _ => ⟨Nat.pos_of_ne_zero ‹_›, rfl⟩)
        (fun g hg => by obtain ⟨m, rfl, hm⟩ := calls_writeNoCheck hg; exact hm) id
    refine .startPage hl ⟨⟨fun hw => absurd rfl hw, ?_⟩, ⟨rfl, rfl, rfl, rfl⟩, hpage⟩ ?_
    all_goals
      simp only [pageSize] at *
      omega

/-- The finished chunk of the outermost writer is counted, and the locals advance to the next position of the request
(44_page_split_writer.md R171, R174). -/
theorem StackOk.wnAdvance {pt : WnPoint} {l : WnLocals} (h : StackOk s r (.writeNoCheck pt l :: below))
    (hpt : pt ≠ .loop) :
    StackOk (if below.isEmpty then s.addCommitted l.chunk else s) r
      (.writeNoCheck .loop { l with a := l.a + l.chunk, si := l.si + l.chunk, n := l.n - l.chunk } :: below) := by
  obtain ⟨hpos, hchunk⟩ := h.head hpt
  have hle : l.chunk ≤ l.n := by omega
  have hloop : ∀ (t : State) (l : WnLocals), FrameOk t (.writeNoCheck .loop l) := fun _ _ hp => absurd rfl hp
  cases below with
  | nil =>
    obtain ⟨-, hop, hfits, hsrc, hn, ha, hcom⟩ := h
    refine ⟨hloop _ _, hop, hfits, hsrc, ?_, ?_, ?_⟩
    all_goals
      simp only [List.isEmpty_nil, if_true, State.addCommitted_committed]
      omega
  | cons g rest =>
    obtain ⟨m, rfl, hm⟩ := calls_writeNoCheck h.2.1
    refine ⟨hloop _ _, ?_, h.2.2⟩
    simp only [Calls]
    split at hm
    · rw [if_pos ‹_›]; exact ⟨hm.1, by omega, by omega⟩
    · rw [if_neg ‹_›]; exact ⟨hm.1, by omega, by omega, by omega⟩

theorem Settled.wnAdv {pt : WnPoint} {l : WnLocals} (hret : Continues r below ret) (hl : Live r s)
    (h : StackOk s r (.writeNoCheck pt l :: below)) (hpt : pt ≠ .loop) : Settled r (wnAdv l below ret s) := by
  refine .wnLoop hret ?_ (h.wnAdvance hpt)
  split
  · exact ⟨hl.params, hl.req, hl.fault, hl.scratch⟩
  · exact hl

theorem Settled.mwChunk {l : MwLocals} (hret : Continues r below ret) (hl : Live r s)
    (h : StackOk s r (.managedWrite .chunk l :: below)) : Settled r (mwChunk l below ret s) := by
  unfold Machine.mwChunk
  split
  · exact hret s hl h.returns
  · obtain ⟨rfl, -, houter⟩ := h.managedWrite
    refine .stay hl ⟨⟨⟨fun _ => ⟨Nat.pos_of_ne_zero ‹_›, rfl, rfl, rfl⟩, fun _ hp => absurd rfl hp⟩, houter⟩, rfl, ?_⟩
    exact nofun

theorem Settled.mwAdv {pt : MwPoint} {l : MwLocals} (hret : Continues r below ret) (hl : Live r s)
    (h : StackOk s r (.managedWrite pt l :: below)) (hpt : pt ≠ .chunk) : Settled r (mwAdv l below ret s) := by
  obtain ⟨rfl, ⟨hchunk, -⟩, hop, hfits, hn, ha, hcom⟩ := h.managedWrite
  obtain ⟨hpos, -, -, hc⟩ := hchunk hpt
  have hl' : Live r (s.addCommitted l.chunk) := ⟨hl.params, hl.req, hl.fault, hl.scratch⟩
  refine .mwChunk hret hl' ⟨⟨fun hp => absurd rfl hp, fun hp => absurd rfl hp⟩, hop, hfits, ?_, ?_, ?_⟩
  all_goals
    simp only [State.addCommitted_committed]
    omega

theorem Settled.mwProg {l : MwLocals} (hret : Continues r below ret) (hl : Live r s)
    (h : StackOk s r (.managedWrite .prog l :: below)) : Settled r (mwProg l below ret s) := by
  have hadv : Continues r (.managedWrite .prog l :: below) (Machine.mwAdv l below ret) :=
    fun t ht hb => .mwAdv hret ht hb.1 (by decide)
  refine .wnLoop hadv hl ⟨fun hp => absurd rfl hp, ?_, h⟩
  cases hneed : l.need <;> simp [Calls, hneed]

theorem Settled.mwMerge {pt : MwPoint} {l : MwLocals} (hret : Continues r below ret) (hl : Live r s)
    (h : StackOk s r (.managedWrite pt l :: below)) (hpt : pt ≠ .chunk) (hpt' : pt ≠ .read) :
    Settled r (mwMerge l below ret s) := by
  obtain ⟨rfl, ⟨hchunk, hwritten⟩, houter⟩ := h.managedWrite
  obtain ⟨-, -, hoff, hc⟩ := hchunk hpt
  have hfits : l.off + (s.requestSlice l.di l.chunk).length ≤ s.scratch.length := by
    have hsize : s.scratch.length = sectorSize := hl.scratch
    have hlt : l.a % sectorSize < sectorSize := Nat.mod_lt _ (by decide)
    rw [State.length_requestSlice hl.req, hsize]
    omega
  refine .mwProg hret ⟨hl.params, hl.req, hl.fault, (overwrite_length hfits).trans hl.scratch⟩
    ⟨⟨fun _ => hchunk hpt, ?_⟩, houter⟩
  exact fun _ _ => overwrite_written (hwritten hpt hpt')

theorem Settled.mwScan {l : MwLocals} (hret : Continues r below ret) (hl : Live r s)
    (h : StackOk s r (.managedWrite .scan l :: below)) : Settled r (mwScan l below ret s) := by
  obtain ⟨rfl, ⟨hchunk, hwritten⟩, houter⟩ := h.managedWrite
  have hw : Written s := hwritten (by decide) (by decide)
  obtain ⟨bs, hbs, -⟩ := State.scratchSlice_some hw l.off l.chunk
  unfold Machine.mwScan
  rw [hbs]
  simp only []
  split
  · have hmw : StackOk s r [.managedWrite .erase { l with need := true }] :=
      ⟨⟨fun _ => hchunk (by decide), fun _ _ => hw⟩, houter⟩
    obtain ⟨-, ⟨-, hcap⟩, hn, ha, -⟩ := houter
    obtain ⟨hpos, hsec, -, -⟩ := hchunk (by decide)
    refine .stay hl ⟨⟨⟨Nat.mul_mod_left _ _, ?_⟩, ⟨rfl, rfl⟩, hmw⟩, nofun, nofun⟩
    have := Nat.div_mul_le_self l.a sectorSize
    rw [hsec]; omega
  · exact .mwProg hret hl ⟨⟨fun _ => hchunk (by decide), fun _ _ => hw⟩, houter⟩

/-- The internal computation from a legal stack settles (R21). -/
theorem settle_settled (stack : List Frame) : Continues r stack (settle stack) := by
  induction stack with
  | nil => exact fun s hl _ => ⟨⟨hl.params, hl.req, hl.fault, hl.scratch⟩, .inl ⟨_, rfl⟩⟩
  | cons f below ih =>
    intro s hl ⟨h, hlatch⟩
    have stay : AtAction f → Settled r (s.withCtl (.busy (f :: below))) := fun hf => .stay hl ⟨h, hf, hlatch⟩
    have done : Settled r (settle below s) := ih s hl h.returns
    cases f with
    | managedWrite pt l =>
      cases pt with
      | chunk => exact .mwChunk ih hl h
      | read => exact stay rfl
      | scan => exact .mwScan ih hl h
      | erase => exact .mwMerge ih hl h (by decide) (by decide)
      | merge => exact .mwMerge ih hl h (by decide) (by decide)
      | prog => exact .mwAdv ih hl h (by decide)
      | adv => exact .mwAdv ih hl h (by decide)
    | writeNoCheck pt l =>
      cases pt with
      | loop => exact .wnLoop ih hl h
      | page => exact .wnAdv ih hl h (by decide)
      | adv => exact .wnAdv ih hl h (by decide)
    | programPage pt src si a n =>
      cases pt with
      | wren =>
        simp only [settle]
        split
        · exact done
        · exact .startPage hl h (Nat.pos_of_ne_zero ‹_›)
      | cmd =>
        obtain ⟨-, bs, hbs, -⟩ := h.pageSource hl
        simp only [settle, hbs]
        exact stay ⟨by decide, h.head.1 (by decide)⟩
      | wait => exact done
    | eraseSector pt a =>
      cases pt with
      | wren => exact stay nofun
      | cmd => exact stay nofun
      | wait => exact done
    | eraseChip pt =>
      cases pt with
      | wren => exact stay nofun
      | cmd => exact stay nofun
      | wait => exact done
    | waitReady pt timeout t0 k ad => exact stay trivial
    | read a n =>
      simp only [settle]
      split
      · exact done
      · exact stay trivial
    | readAsync a n =>
      simp only [settle]
      split
      · exact ih _ ⟨hl.params, hl.req, hl.fault, hl.scratch⟩
          (h.mono (t := s.withCmpl _) ⟨rfl, le_rfl, id, rfl⟩).returns
      · exact stay trivial
    | readId => exact stay trivial

end Sys2Proof.Safety
end

section
/-! PROOFS. The transactions a legal stack issues: their operands are in range, the device's checks find nothing but a busy
device, and what a success or a failure leaves on the device (40_sequencer.md R110 to R125). -/

namespace Sys2Proof.Safety

open Sys2Proof.Machine
open Sys2Proof.Config (sectorSize pageSize)

/-! ### The frame of a transaction -/

/-- A transaction's bytes decode to its own wire command, or to none (30_encoding.md R87, 40_sequencer.md R125). -/
theorem decodeWire_frame {o : Config.Opcodes} (ho : o.distinct = true) {w : Wire} {i : Instr}
    (h : decodeWire o (w.frame o) = .ok i) : i = w.instr := by
  have hne := opcodes_ne ho
  cases w
  all_goals
    simp only [Wire.frame, encode, Wire.instr, addr24] at h ⊢
    grind [decodeWire, addrOfBytes_addr24]

/-! ### Operands in range -/

/-- The operands of a transaction are ones the device accepts: a read inside the flash, a program inside one page, an erase
of a sector of the flash, the latch set for a program or an erase (R118 to R121). -/
def InRange (cap : Nat) (d : Device) : Wire → Prop
  | .read a n => a.toNat + n ≤ cap
  | .pp a bs => d.wel = true ∧ 0 < bs.length ∧ a.toNat % pageSize + bs.length ≤ pageSize
      ∧ a.toNat + bs.length ≤ cap
  | .se a => d.wel = true ∧ a.toNat % sectorSize = 0 ∧ a.toNat < cap
  | .ce => d.wel = true
  | .wren => True
  | .rdsr => True
  | .rdid => True

/-- What the head of a legal stack issues is in range (20_memory.md R63). -/
theorem ActionStack.inRange {r : Request} {s : State} {f : Frame} {below : List Frame} {w : Wire} (hl : Live r s)
    (h : ActionStack r s f below) (hw : s.nextWire f = some w) : InRange s.params.capacity s.dev w := by
  obtain ⟨hmod, -, hbits, -⟩ := params_wf hl.params
  obtain ⟨hs, ha, hlatch⟩ := h
  cases f with
  | managedWrite pt l =>
    obtain rfl : pt = .read := ha
    cases hw
    obtain ⟨-, ⟨hchunk, -⟩, -, ⟨-, hcap⟩, hn, hla, -⟩ := hs.managedWrite
    obtain ⟨hpos, hsec, -⟩ := hchunk (by decide)
    simp only [InRange, sectorSize] at *
    rw [toNat_ofNat24 (by omega)]
    omega
  | writeNoCheck pt l => exact ha.elim
  | programPage pt src si a n =>
    cases pt with
    | wren => cases hw; trivial
    | wait => cases hw
    | cmd =>
      cases hw
      obtain ⟨hcap, bs, hbs, hlen⟩ := hs.pageSource hl
      have hn := ha.2
      rw [hbs, Option.getD_some, InRange, toNat_ofNat24 (by omega), hlen]
      exact ⟨hlatch rfl, hn, hs.head.2, hcap⟩
  | eraseSector pt a =>
    cases pt with
    | wren => cases hw; trivial
    | wait => cases hw
    | cmd =>
      cases hw
      obtain ⟨halign, hcap⟩ := hs.head
      rw [InRange, toNat_ofNat24 (by omega)]
      exact ⟨hlatch rfl, halign, hcap⟩
  | eraseChip pt =>
    cases pt with
    | wren => cases hw; trivial
    | wait => cases hw
    | cmd => cases hw; exact hlatch rfl
  | waitReady pt timeout t0 k ad => cases pt <;> cases hw; trivial
  | read a n =>
    cases hw
    obtain ⟨hcap, ha⟩ := hs.head
    rw [InRange, toNat_ofNat24 ha]
    exact hcap
  | readAsync a n => cases hw
  | readId => cases hw; trivial

/-! ### The device's checks -/

/-- Of operands in range the device refuses none unless it is busy (R124). -/
theorem InRange.check_busy {cap : Nat} {d : Device} {w : Wire} {x : Fault} (h : InRange cap d w)
    (hc : d.check cap w = some x) : x = .deviceBusyAccess := by
  cases w with
  | wren => simp_all [Device.check]
  | rdsr => cases hc
  | rdid => simp_all [Device.check]
  | read a n => simp only [InRange] at h; simp_all [Device.check, Nat.not_lt.mpr h]
  | pp a bs =>
    obtain ⟨hwel, hpos, hpage, hcap⟩ := h
    have hlen : ¬(bs.length = 0 ∨ pageSize < bs.length) := by omega
    have ha : ¬cap ≤ a.toNat := by omega
    by_cases hb : d.busy <;> simp_all [Device.check, Device.writeCheck]
  | se a =>
    obtain ⟨hwel, halign, hcap⟩ := h
    have ha : ¬cap ≤ a.toNat := by omega
    by_cases hb : d.busy <;> simp_all [Device.check, Device.writeCheck]
  | ce => by_cases hb : d.busy <;> simp_all [Device.check, Device.writeCheck, InRange]

/-- A transaction other than RDSR passes the checks only of a device that is ready (R124). -/
theorem check_none_ready {d : Device} {cap : Nat} {w : Wire} (h : d.check cap w = none) (hw : w ≠ .rdsr) :
    d.pending = .none := by
  by_contra hp
  have hb : d.busy = true := d.busy_iff.mpr hp
  cases w <;> simp_all [Device.check, Device.writeCheck]

/-! ### What a transaction leaves on the device -/

/-- The operation that a success leaves pending is one the device has accepted (R39). -/
theorem InRange.pending_onSuccess {cap : Nat} {d : Device} {w : Wire} (h : InRange cap d w)
    (hp : PendingOk cap d.pending) : PendingOk cap (d.onSuccess w).pending := by
  cases w with
  | pp a bs =>
    obtain ⟨-, hpos, hpage, hcap⟩ := h
    exact ⟨by omega, hpos, by omega⟩
  | se a => exact h.2
  | ce => trivial
  | _ => exact hp

theorem onSuccess_array (d : Device) (w : Wire) : (d.onSuccess w).array = d.array := by cases w <;> rfl

/-- What a success lets the issuing frame rely on: the latch after a WREN, the bytes of a READ, and a ready device, after an
RDSR where its reply says so (R115 to R118). -/
def Replied (d : Device) (rx : List Byte) : Wire → Prop
  | .wren => d.wel = true ∧ d.pending = .none
  | .rdsr => readyReply rx = true → d.pending = .none
  | .rdid => d.pending = .none
  | .read _ n => d.pending = .none ∧ rx.length = n
  | .pp _ _ => True
  | .se _ => True
  | .ce => True

theorem replied_of_check {s : State} {w : Wire} (h : s.dev.check s.params.capacity w = none) :
    Replied (s.dev.onSuccess w) (s.reply w).1 w := by
  cases w with
  | wren => exact ⟨rfl, check_none_ready (d := s.dev) h nofun⟩
  | rdsr =>
    intro hr
    by_contra hp
    have hb : s.dev.busy = true := s.dev.busy_iff.mpr hp
    have hbit : readyReply (s.reply .rdsr).1 = !s.dev.busy := congrArg (!·) (statusByte_bit0 _ _)
    simp [hbit, hb] at hr
  | rdid => exact check_none_ready (d := s.dev) h nofun
  | read a n => exact ⟨check_none_ready (d := s.dev) h nofun, Memory.length_readRange _ _ _⟩
  | pp a d => trivial
  | se a => trivial
  | ce => trivial

/-- The range whose bytes a failed transaction leaves to the device: its first address and its length (R123). -/
def failRange (cap : Nat) : Wire → Option (Nat × Nat)
  | .pp a _ => some (a.toNat - a.toNat % pageSize, pageSize)
  | .se a => some (a.toNat, sectorSize)
  | .ce => some (0, cap)
  | .wren => none
  | .rdsr => none
  | .rdid => none
  | .read _ _ => none

/-- The range of a failed transaction lies inside the flash (R123). -/
theorem InRange.failRange_le {p : Config.Params} {d : Device} {w : Wire} {lo n : Nat}
    (h : InRange p.capacity d w) (hwf : p.wf = true) (hr : failRange p.capacity w = some (lo, n)) : lo + n ≤ p.capacity := by
  have hmod := (params_wf hwf).1
  cases w <;> simp only [failRange, reduceCtorEq, Option.some.injEq, Prod.mk.injEq] at hr
  all_goals
    obtain ⟨rfl, rfl⟩ := hr
    simp only [InRange, sectorSize, pageSize] at *
    omega

/-- A failed transaction may leave the device `d`: as it was but for the latch, or with the bytes of its range drawn and
possibly more of the same pending (R123). -/
def FailureLeaves (s : State) (w : Wire) (d : Device) : Prop :=
  (d.array = s.dev.array ∧ d.pending = s.dev.pending)
    ∨ ∃ lo n bs, failRange s.params.capacity w = some (lo, n) ∧ bs.length = n ∧ d.array = s.dev.array.writeRange lo bs
      ∧ (d.pending = .none ∨ d.pending = .havoc lo (lo + n))

theorem onFailure_leaves (s : State) (w : Wire) :
    ∃ e d, s.onFailure w = (s.withEnv e).withDev d ∧ FailureLeaves s w d := by
  have havoc : ∀ lo n, failRange s.params.capacity w = some (lo, n) →
      ∃ e d, s.havocRange lo n = (s.withEnv e).withDev d ∧ FailureLeaves s w d := by
    intro lo n hr
    obtain ⟨e, bs, p, wel, hlen, h⟩ := s.havocRange_eq lo n
    exact ⟨e, _, h, .inr ⟨lo, n, bs, hr, hlen, rfl, by cases p <;> simp⟩⟩
  have same : ∃ e d, s = (s.withEnv e).withDev d ∧ FailureLeaves s w d := ⟨s.env, s.dev, rfl, .inl ⟨rfl, rfl⟩⟩
  cases w with
  | wren =>
    obtain ⟨e, he⟩ := s.drawBit_env
    exact ⟨e, _, congrArg (State.withDev · { s.dev with wel := s.drawBit.1 }) he, .inl ⟨rfl, rfl⟩⟩
  | rdsr => exact same
  | rdid => exact same
  | read a n => exact same
  | pp a d => exact havoc _ _ rfl
  | se a => exact havoc _ _ rfl
  | ce => exact havoc _ _ rfl

end Sys2Proof.Safety
end

section
/-! PROOFS. A transaction, a clock read and the start of an asynchronous read leave a consistent state (10_state.md R21,
40_sequencer.md R110). -/

namespace Sys2Proof.Safety

open Sys2Proof.Machine
open Sys2Proof.Config (sectorSize)

/-! ### Consistency, part by part -/

/-- The part of consistency that does not speak of the control state. -/
structure Grounded (s : State) : Prop where
  params : s.params.wf = true
  bus : BusOk s
  array : ArrayOk s
  pending : PendingOk s.params.capacity s.dev.pending
  scratch : ScratchOk s

variable {r : Request} {s : State} {f : Frame} {below : List Frame}

theorem grounded_of_consistent (h : Consistent s) : Grounded s := ⟨h.params, h.bus, h.array, h.pending, h.scratch⟩

theorem Grounded.consistent (h : Grounded s) (hf : s.fault = none) (hc : CtlShape s s.ctl) : Consistent s :=
  ⟨h.params, h.bus, h.array, h.pending, h.scratch, fun _ => hc, fun x hx => by rw [hf] at hx; cases hx⟩

/-- After a fault that is none of the engine's own nothing more is asked (R33). -/
theorem Grounded.faulted (h : Grounded s) {x : Fault} (hf : s.fault = some x) (hx : engineFault x = false) : Consistent s :=
  ⟨h.params, h.bus, h.array, h.pending, h.scratch, fun hn => (by rw [hf] at hn; cases hn),
    fun y hy => by rw [hf] at hy; cases hy; exact hx⟩

theorem Grounded.busy (h : Grounded s) (hl : Live r s) {stack : List Frame} (hs : StackOk s r stack)
    (hd : DeviceReady s stack) : Consistent (s.withCtl (.busy stack)) := by
  refine Grounded.consistent ⟨h.params, h.bus, h.array, h.pending, h.scratch⟩ hl.fault
    ⟨r, hl.req, hs.mono ⟨rfl, le_rfl, id, rfl⟩, ?_⟩
  cases stack <;> exact hd

theorem Grounded.ending (h : Grounded s) (hl : Live r s) (x : Exit) : Consistent (s.withCtl (.ending x)) :=
  Grounded.consistent ⟨h.params, h.bus, h.array, h.pending, h.scratch⟩ hl.fault
    (by simp [CtlShape, hl.req])

/-- A return to a ready device: the caller, or the ended request. -/
theorem Grounded.returnOk (h : Grounded s) (hl : Live r s) (hs : StackOk s r (f :: below)) (hp : s.dev.pending = .none)
    (rx : List Byte) (id : BitVec 16) : Consistent (s.returnOk below rx id) := by
  cases below with
  | nil => exact h.ending hl _
  | cons g rest => exact h.busy hl hs.2.2 ⟨fun hg => by simp [hs.2.1.caller_not_atCommand] at hg, fun _ _ => hp⟩

theorem Grounded.fail (h : Grounded s) (hl : Live r s) {stack : List Frame} (hc : s.ctl = .busy stack) (o : OpOutcome)
    (k : Kind) (a : Nat) : Consistent (s.fail o k a) := by
  rw [State.fail, hc]
  exact h.ending hl _

/-! ### Going on after a reply -/

/-- A call of `WaitReady` by the frame that has sent its command (R151, R153, R161). -/
theorem Grounded.callWait (h : Grounded s) (hl : Live r s) {timeout : Nat} {k : Kind} {a : Nat}
    (hs : StackOk s r (f :: below)) (hcalls : Calls s.params (.waitReady .t0 timeout 0 k a) f) :
    Consistent (s.callWait timeout k a f below) :=
  h.busy hl ⟨fun hp => absurd rfl hp, hcalls, hs⟩ ⟨nofun, nofun⟩

/-- Where the issuing frame goes on with the reply the state is consistent. -/
theorem Grounded.resume (h : Grounded s) (hl : Live r s) {s₀ : State} {w : Wire} {rx : List Byte}
    (hc : s.ctl = .busy (f :: below)) (hs : StackOk s r (f :: below)) (ha : AtAction f) (hw : s₀.nextWire f = some w)
    (hr : Replied s.dev rx w) : Consistent (s.resume w rx) := by
  unfold State.resume
  rw [hc]
  cases f with
  | managedWrite pt l =>
    obtain rfl : pt = .read := ha
    cases hw
    obtain ⟨hp, hlen⟩ := hr
    obtain ⟨rfl, ⟨hchunk, -⟩, houter⟩ := hs.managedWrite
    have hsize : s.scratch.length = sectorSize := hl.scratch
    have hover : overwrite s.scratch 0 rx = rx.map some := by
      simp [overwrite, hlen, hsize]
    refine Grounded.busy (r := r) ?_ ?_ ?_ ?_
    · exact ⟨h.params, h.bus, h.array, h.pending, by simp [ScratchOk, hover, hlen]⟩
    · exact ⟨hl.params, hl.req, hl.fault, by simp [ScratchOk, hover, hlen]⟩
    · exact ⟨⟨fun _ => hchunk nofun, fun _ _ => by simp [hover]⟩, houter⟩
    · exact ⟨nofun, fun _ _ => hp⟩
  | writeNoCheck pt l => exact ha.elim
  | programPage pt src si a n =>
    cases pt with
    | wren =>
      cases hw
      exact h.busy hl (hs.replaceHead ⟨fun _ => ha.2, hs.head.2⟩
        (fun _ => calls_programPage_congr) id) ⟨fun _ => hr.1, fun _ _ => hr.2⟩
    | cmd =>
      cases hw
      exact h.callWait hl (hs.replaceHead ⟨fun _ => ha.2, hs.head.2⟩
        (fun _ => calls_programPage_congr) id) ⟨rfl, rfl, rfl⟩
    | wait => cases hw
  | eraseSector pt a =>
    cases pt with
    | wren =>
      cases hw
      exact h.busy hl (hs.replaceHead hs.head (fun _ => calls_eraseSector_congr) id) ⟨fun _ => hr.1, fun _ _ => hr.2⟩
    | cmd =>
      cases hw
      exact h.callWait hl (hs.replaceHead hs.head (fun _ => calls_eraseSector_congr) id) ⟨rfl, rfl, rfl⟩
    | wait => cases hw
  | eraseChip pt =>
    cases pt with
    | wren =>
      cases hw
      exact h.busy hl (hs.replaceHead trivial (fun _ => False.elim) id) ⟨fun _ => hr.1, fun _ _ => hr.2⟩
    | cmd =>
      cases hw
      exact h.callWait hl (hs.replaceHead trivial (fun _ => False.elim) id) ⟨rfl, rfl, rfl⟩
    | wait => cases hw
  | waitReady pt timeout t0 k ad =>
    cases pt with
    | t0 => cases hw
    | clk => cases hw
    | poll =>
      cases hw
      simp only [Wire.kind]
      split
      · exact h.returnOk hl hs (hr ‹_›) _ _
      · exact h.busy hl (hs.waitPoint (hs.head nofun)) ⟨nofun, nofun⟩
  | read a n => cases hw; exact h.returnOk hl hs hr.1 _ _
  | readAsync a n => cases hw
  | readId => cases hw; exact h.returnOk hl hs hr _ _

/-! ### A transaction -/

/-- A successful transaction ends with the frame that issued it going on (R110). -/
theorem xactOk_eq (s : State) (w : Wire) (b : WireFrame) :
    ∃ e, s.xactOk w b = State.resume
      (State.log { (s.withEnv e).withDev (s.dev.onSuccess w) with cs := false }
        (.xact w.kind b.cmd b.tx b.rxlen (some (s.reply w).1))) w (s.reply w).1 := by
  obtain ⟨e, he⟩ := s.reply_frame w
  exact ⟨e, by simp only [State.xactOk, he]; rfl⟩

theorem Grounded.xactOk (h : Grounded s) (hl : Live r s) {w : Wire} (hc : s.ctl = .busy (f :: below))
    (hs : ActionStack r s f below) (hi : s.inflight = false) (hw : s.nextWire f = some w)
    (hcheck : s.dev.check s.params.capacity w = none) (b : WireFrame) : Consistent (s.xactOk w b) := by
  obtain ⟨e, he⟩ := xactOk_eq s w b
  have hr := hs.inRange hl hw
  rw [he]
  refine Grounded.resume (r := r) (s₀ := s) ?_ ?_ hc ?_ hs.action hw (replied_of_check hcheck)
  · refine ⟨h.params, ⟨hi.symm, h.bus.2⟩, ?_, hr.pending_onSuccess h.pending, h.scratch⟩
    simpa [ArrayOk, onSuccess_array] using h.array
  · exact ⟨hl.params, hl.req, hl.fault, hl.scratch⟩
  · exact hs.legal.mono ⟨rfl, le_rfl, id, rfl⟩

theorem Grounded.xactErr (h : Grounded s) (hl : Live r s) {w : Wire} {stack : List Frame} (hc : s.ctl = .busy stack)
    (hi : s.inflight = false) (hr : InRange s.params.capacity s.dev w) (b : WireFrame) : Consistent (s.xactErr w b) := by
  obtain ⟨e, d, he, hd⟩ := onFailure_leaves { s with cs := false } w
  simp only [State.xactErr, he]
  have hdev : d.array.wf = true ∧ d.array.within s.params.capacity = true ∧ PendingOk s.params.capacity d.pending := by
    obtain ⟨ha, hp⟩ | ⟨lo, n, bs, hrange, hlen, ha, hp⟩ := hd
    · rw [ha, hp]; exact ⟨h.array.1, h.array.2, h.pending⟩
    · have hle := hr.failRange_le h.params hrange
      rw [ha]
      refine ⟨Memory.writeRange_wf h.array.1 _ _, Memory.within_writeRange h.array.2 (hlen ▸ hle), ?_⟩
      obtain hp | hp := hp <;> rw [hp]
      · trivial
      · exact ⟨Nat.le_add_right _ _, hle⟩
  refine Grounded.fail (r := r) ?_ ?_ (by exact hc) _ _ _
  · exact ⟨h.params, ⟨hi.symm, h.bus.2⟩, ⟨hdev.1, hdev.2.1⟩, hdev.2.2, h.scratch⟩
  · exact ⟨hl.params, hl.req, hl.fault, hl.scratch⟩

/-- A transaction of the head of a legal stack leaves a consistent state (R110). -/
theorem Grounded.xact (h : Grounded s) (hl : Live r s) {w : Wire} (hc : s.ctl = .busy (f :: below))
    (hs : ActionStack r s f below) (hi : s.inflight = false) (hw : s.nextWire f = some w) : Consistent (s.xact w) := by
  have hr := hs.inRange hl hw
  obtain ⟨hheld, -⟩ | ⟨-, -, ⟨x, hcheck, hx⟩ | ⟨hcheck, e, hx | hx⟩⟩ := s.xact_cases w
  · simp [hi, hl.fault] at hheld
  · rw [hx]
    refine Grounded.faulted (x := x) ⟨h.params, h.bus, h.array, h.pending, h.scratch⟩ rfl ?_
    rw [hr.check_busy hcheck]
    rfl
  · rw [hx]
    exact Grounded.xactOk (s := s.withEnv e) ⟨h.params, h.bus, h.array, h.pending, h.scratch⟩
      ⟨hl.params, hl.req, hl.fault, hl.scratch⟩ hc
      ⟨hs.legal.mono ⟨rfl, le_rfl, id, rfl⟩, hs.action, hs.latch⟩ hi hw hcheck _
  · rw [hx]
    exact Grounded.xactErr (s := s.withEnv e) ⟨h.params, h.bus, h.array, h.pending, h.scratch⟩
      ⟨hl.params, hl.req, hl.fault, hl.scratch⟩ hc hi hr _

/-! ### Clock reads and the asynchronous start -/

theorem Grounded.readEntry (h : Grounded s) (hl : Live r s) {timeout t0 : Nat} {k : Kind} {ad : Nat}
    (hs : StackOk s r (.waitReady .t0 timeout t0 k ad :: below)) : Consistent (s.readEntry timeout k ad below) :=
  Grounded.busy (s := s.log _) ⟨h.params, h.bus, h.array, h.pending, h.scratch⟩ ⟨hl.params, hl.req, hl.fault, hl.scratch⟩
    ((hs.waitPoint le_rfl).mono ⟨rfl, le_rfl, id, rfl⟩) ⟨nofun, nofun⟩

theorem Grounded.readDeadline (h : Grounded s) (hl : Live r s) {timeout t0 : Nat} {k : Kind} {ad : Nat}
    (hc : s.ctl = .busy (.waitReady .clk timeout t0 k ad :: below))
    (hs : StackOk s r (.waitReady .clk timeout t0 k ad :: below)) : Consistent (s.readDeadline timeout t0 k ad below) := by
  have hg : Grounded (s.log (.clk s.now)) := ⟨h.params, h.bus, h.array, h.pending, h.scratch⟩
  have hl' : Live r (s.log (.clk s.now)) := ⟨hl.params, hl.req, hl.fault, hl.scratch⟩
  unfold State.readDeadline
  split
  · exact hg.fail hl' hc _ _ _
  · exact hg.busy hl' ((hs.waitPoint (hs.head nofun)).mono ⟨rfl, le_rfl, id, rfl⟩) ⟨nofun, nofun⟩

theorem Grounded.startAsync (h : Grounded s) (hl : Live r s) {a n : Nat} (hc : s.ctl = .busy (.readAsync a n :: below))
    (hs : StackOk s r (.readAsync a n :: below)) (hi : s.inflight = false) : Consistent (s.startAsync a n below) := by
  obtain ⟨hcap, ha⟩ := hs.head
  obtain rfl := hs.below_nil (fun _ hg => hg)
  obtain ⟨x, hcheck, hx⟩ | ⟨-, e, hx | hx⟩ := s.startAsync_cases a n []
  · rw [hx, State.raise_eq, hl.fault]
    have hr : InRange s.params.capacity s.dev (.read (BitVec.ofNat 24 a) n) := by
      show (BitVec.ofNat 24 a).toNat + n ≤ s.params.capacity
      rw [toNat_ofNat24 ha]; exact hcap
    refine Grounded.faulted (x := x) ⟨h.params, h.bus, h.array, h.pending, h.scratch⟩ rfl ?_
    rw [hr.check_busy hcheck]
    rfl
  · rw [hx]
    refine Grounded.ending (r := r) ?_ ?_ _
    · exact ⟨h.params, ⟨rfl, rfl, fun _ => hcap⟩, h.array, h.pending, h.scratch⟩
    · exact ⟨hl.params, hl.req, hl.fault, hl.scratch⟩
  · rw [hx]
    refine Grounded.fail (r := r) ?_ ?_ (by exact hc) _ _ _
    · exact ⟨h.params, ⟨hi.symm, h.bus.2⟩, h.array, h.pending, h.scratch⟩
    · exact ⟨hl.params, hl.req, hl.fault, hl.scratch⟩

end Sys2Proof.Safety
end

section
/-! PROOFS. Everything the engine's turn can come to (10_state.md R21, R22), said once: the invariants of a step are read off
these cases. -/

namespace Sys2Proof.Safety

open Sys2Proof.Machine

/-- What the engine does in the state `u` that its internal computation has left. -/
inductive EngineAction (u : State) : State → Prop
  /-- A fault was raised on the way, or no external action follows. -/
  | stop (h : u.fault = none → (∀ x, u.ctl ≠ .ending x) ∧ ∀ f below, u.ctl = .busy (f :: below) → ¬AtAction f) :
      EngineAction u u
  /-- The ended request's response is posted (60_exceptions.md R226). -/
  | post {x : Exit} (hf : u.fault = none) (hc : u.ctl = .ending x) : EngineAction u (u.post x)
  /-- `WR_T0` reads the clock (41_status_poller.md R142). -/
  | entry {timeout t0 : Nat} {k : Kind} {ad : Nat} {below : List Frame} (hf : u.fault = none)
      (hc : u.ctl = .busy (.waitReady .t0 timeout t0 k ad :: below)) : EngineAction u (u.readEntry timeout k ad below)
  /-- `WR_CLK` reads the clock (R143). -/
  | deadline {timeout t0 : Nat} {k : Kind} {ad : Nat} {below : List Frame} (hf : u.fault = none)
      (hc : u.ctl = .busy (.waitReady .clk timeout t0 k ad :: below)) :
      EngineAction u (u.readDeadline timeout t0 k ad below)
  /-- An asynchronous read starts (46_read_path.md R201). -/
  | async {a n : Nat} {below : List Frame} (hf : u.fault = none) (hi : u.inflight = false)
      (hc : u.ctl = .busy (.readAsync a n :: below)) : EngineAction u (u.startAsync a n below)
  /-- The head's transaction, decoded, is run (40_sequencer.md R110). -/
  | wire {f : Frame} {below : List Frame} {w : Wire} {i : Instr} {t : State} (hf : u.fault = none) (hi : u.inflight = false)
      (hc : u.ctl = .busy (f :: below)) (hw : u.nextWire f = some w)
      (hd : decodeWire u.params.ops (w.frame u.params.ops) = .ok i) (ht : exec i u = .next t) : EngineAction u t

/-- What the engine's turn can do to `s`. -/
inductive EngineMove (s : State) : State → Prop
  /-- Nothing: the port is empty, or an action is held while a payload is in flight. -/
  | wait : EngineMove s s
  /-- The request at the port is fetched (10_state.md R43). -/
  | request {d : Descriptor} {i : Instr} {t : State} (hc : s.ctl = .idle) (hd : decodeRequest d = .ok i)
      (ht : exec i s = .next t) : EngineMove s t
  /-- The request at the port has a reserved op (30_encoding.md R91). -/
  | reserved (d : Descriptor) (hc : s.ctl = .idle) : EngineMove s (s.acceptReserved (Descriptor.fields d))
  /-- The response of an ended request is posted. -/
  | post {x : Exit} (hc : s.ctl = .ending x) : EngineMove s (s.post x)
  /-- The internal computation of the running request, then its external action. -/
  | run {stack : List Frame} {t : State} (hc : s.ctl = .busy stack) (ht : EngineAction (settle stack s) t) : EngineMove s t

/-- A frame without a next transaction stands at no external action, but for clock reads and the asynchronous start. -/
theorem not_atAction_of_nextWire_none {s : State} {f : Frame} (h : s.nextWire f = none)
    (ht0 : ∀ timeout t0 k ad, f ≠ .waitReady .t0 timeout t0 k ad)
    (hclk : ∀ timeout t0 k ad, f ≠ .waitReady .clk timeout t0 k ad) (hasync : ∀ a n, f ≠ .readAsync a n) :
    ¬AtAction f := by
  intro ha
  cases f with
  | managedWrite pt l => obtain rfl : pt = .read := ha; cases h
  | writeNoCheck pt l => exact ha
  | programPage pt src si a n =>
    cases pt with
    | wren => cases h
    | cmd => cases h
    | wait => exact ha.1 rfl
  | eraseSector pt a =>
    cases pt with
    | wren => cases h
    | cmd => cases h
    | wait => exact ha rfl
  | eraseChip pt =>
    cases pt with
    | wren => cases h
    | cmd => cases h
    | wait => exact ha rfl
  | waitReady pt timeout t0 k ad =>
    cases pt with
    | t0 => exact ht0 _ _ _ _ rfl
    | poll => cases h
    | clk => exact hclk _ _ _ _ rfl
  | read a n => cases h
  | readAsync a n => exact hasync _ _ rfl
  | readId => cases h

/-- The inversion of the engine's turn. -/
theorem engineMove_of_turn {s t : State} (h : s.engineTurn.outcome = .next t) : EngineMove s t := by
  unfold State.engineTurn at h
  split at h
  case h_1 hc =>
    split at h
    · cases h; exact .wait
    · split at h
      · exact .request hc ‹_› h
      · cases h; exact .reserved _ hc
  case h_2 x hc => cases h; exact .post hc
  case h_3 stack hc =>
    have hinflight : (settle stack s).inflight = s.inflight := by
      obtain ⟨_, _, _, _, _, hs⟩ := settle_frame stack s
      rw [hs]
    unfold State.proceed at h
    split at h
    · next hf => cases h; exact .run hc (.stop fun hn => by simp [hn] at hf)
    · next hf =>
      have hf : (settle stack s).fault = none := by simpa using hf
      split at h
      · next x hx => cases h; exact .run hc (.post hf hx)
      · next f below hb =>
        unfold State.act at h
        split at h
        · cases h; exact .run hc (.entry hf hb)
        · cases h; exact .run hc (.deadline hf hb)
        · split at h
          · cases h; exact .wait
          · cases h; exact .run hc (.async hf (by simpa [hinflight] using ‹¬s.inflight = true›) hb)
        · next hT hC hA =>
          split at h
          · next hw =>
            cases h
            refine .run hc (.stop fun _ => ⟨fun x hx => (by rw [hb] at hx; cases hx), fun g rest hg => ?_⟩)
            rw [hb] at hg
            cases hg
            exact not_atAction_of_nextWire_none hw hT hC hA
          · next w hw =>
            split at h
            · cases h; exact .wait
            · split at h
              · exact .run hc (.wire hf (by simpa [hinflight] using ‹¬s.inflight = true›) hb hw ‹_› h)
              · cases h
      · next hx hb =>
        cases h
        exact .run hc (.stop fun _ => ⟨hx, fun f below hg => absurd hg (hb f below)⟩)

end Sys2Proof.Safety
end

section
/-! PROOFS. Every step keeps a consistent state consistent: one lemma per agent. -/

namespace Sys2Proof.Safety

open Sys2Proof.Machine
open Sys2Proof.Config (pageSize)

variable {s : State}

/-! ### Acceptance -/

/-- An accepted request starts on a legal stack; a refused one leaves a fault that is none of the engine's own. -/
theorem accept_keeps (h : Consistent s) {r : Request} {ok : Bool} {f : Frame}
    (hf : ok = true → FrameOk s f ∧ OuterOk (s.latch r) r f) (hcmd : atCommand f = false)
    (hfirst : isWait f = true ∨ initialFrame f = true) : Consistent (s.accept r ok f) := by
  have hg : Grounded (s.latch r) := ⟨h.params, h.bus, h.array, h.pending, h.scratch⟩
  obtain ⟨-, hx⟩ | ⟨hcan, hok, hx⟩ | ⟨hcan, -, hx⟩ := s.accept_cases r ok f
  · rw [hx]; exact h
  · obtain ⟨-, hfault, -⟩ := (s.canAccept_iff _).mp hcan
    obtain ⟨hframe, houter⟩ := hf hok
    rw [hx]
    refine hg.busy ⟨h.params, rfl, hfault, h.scratch⟩ ⟨hframe.mono rfl le_rfl id, houter⟩
      ⟨by simp [hcmd], fun hw hfresh => ?_⟩
    simp [freshStack] at hfresh
    simp [hw, hfresh] at hfirst
  · obtain ⟨-, hfault, -⟩ := (s.canAccept_iff _).mp hcan
    rw [hx, State.raise_eq, State.latch_fault, hfault]
    exact Grounded.faulted ⟨h.params, h.bus, h.array, h.pending, h.scratch⟩ rfl rfl

/-- What the precondition of a write gives (60_exceptions.md R223). -/
theorem writeFits_of_writePre {r : Request} (h : writePre s.params r.addr r.len r.data = true) :
    WriteFits (s.latch r) r := by
  simpa [writePre, inCapacity, WriteFits] using h

theorem acceptReserved_keeps (h : Consistent s) (r : Request) : Consistent (s.acceptReserved r) := by
  obtain ⟨-, hx⟩ | ⟨hcan, hx⟩ := s.acceptReserved_cases r
  · rw [hx]; exact h
  · obtain ⟨-, hfault, -⟩ := (s.canAccept_iff _).mp hcan
    rw [hx, State.raise_eq, State.latch_fault, hfault]
    exact Grounded.faulted ⟨h.params, h.bus, h.array, h.pending, h.scratch⟩ rfl rfl

theorem decodeRequest_isRequest {d : Descriptor} {i : Instr} (h : decodeRequest d = .ok i) : isRequest i = true := by
  unfold decodeRequest at h
  split_ifs at h <;> cases h <;> rfl

/-- The acceptance of every request op keeps consistency (10_state.md R43). -/
theorem request_keeps (h : Consistent s) {i : Instr} (hi : isRequest i = true) {t : State} (ht : exec i s = .next t) :
    Consistent t := by
  cases i with
  | mwrite a n d =>
    cases ht
    refine accept_keeps h (fun hp => ?_) rfl (.inr rfl)
    exact ⟨⟨fun hc => absurd rfl hc, fun hc => absurd rfl hc⟩, rfl, writeFits_of_writePre hp, Nat.zero_add _, rfl, rfl⟩
  | wnochk a n d =>
    cases ht
    refine accept_keeps h (fun hp => ?_) rfl (.inr rfl)
    exact ⟨fun hc => absurd rfl hc, rfl, writeFits_of_writePre hp, rfl, Nat.zero_add _, rfl, rfl⟩
  | pprog a n d =>
    cases ht
    refine accept_keeps h (fun hp => ?_) rfl (.inr rfl)
    simp only [pprogPre, Bool.and_eq_true, decide_eq_true_eq] at hp
    exact ⟨⟨fun hc => absurd rfl hc, hp.2⟩, rfl, writeFits_of_writePre hp.1.1, rfl, rfl, rfl, rfl, rfl⟩
  | serase a =>
    cases ht
    refine accept_keeps h (fun hp => ⟨?_, rfl, rfl, rfl⟩) rfl (.inr rfl)
    simp only [serasePre, Bool.and_eq_true, decide_eq_true_eq] at hp
    exact hp
  | cerase => cases ht; exact accept_keeps h (fun _ => ⟨trivial, rfl, rfl⟩) rfl (.inr rfl)
  | wready t =>
    cases ht
    exact accept_keeps h (fun _ => ⟨fun hc => absurd rfl hc, rfl, rfl, rfl, rfl, rfl⟩) rfl (.inl rfl)
  | read a n =>
    cases ht
    exact accept_keeps h (fun hp => ⟨⟨of_decide_eq_true hp, a.isLt⟩, rfl, rfl, rfl, rfl⟩) rfl (.inr rfl)
  | reada a n =>
    cases ht
    exact accept_keeps h (fun hp => ⟨⟨of_decide_eq_true hp, a.isLt⟩, rfl, rfl, rfl, rfl⟩) rfl (.inr rfl)
  | rdid => cases ht; exact accept_keeps h (fun _ => ⟨trivial, rfl, rfl⟩) rfl (.inr rfl)
  | _ => cases hi

/-! ### The engine -/

theorem post_keeps (h : Grounded s) (hf : s.fault = none) (x : Exit) : Consistent (s.post x) :=
  Grounded.consistent ⟨h.params, h.bus, h.array, h.pending, h.scratch⟩ hf rfl

/-- The internal computation keeps what does not speak of the control state. -/
theorem Grounded.settle {r : Request} {stack : List Frame} (h : Grounded s) (hs : Settled r (settle stack s)) :
    Grounded (settle stack s) := by
  obtain ⟨c, k, sc, cm, f, he⟩ := settle_frame stack s
  have hsc := hs.scratch
  rw [he] at hsc ⊢
  exact ⟨h.params, h.bus, h.array, h.pending, hsc⟩

/-- The stack of a running request is where its internal computation may start. -/
theorem returns_of_legal {r : Request} {stack : List Frame} (h : StackOk s r stack) (hd : DeviceReady s stack) :
    Returns r s stack := by
  cases stack with
  | nil => trivial
  | cons f below => exact ⟨h, hd.1⟩

/-- The external action of a settled request keeps consistency. -/
theorem engineAction_keeps {r : Request} {u t : State} (hg : Grounded u) (hs : Settled r u) (ht : EngineAction u t) :
    Consistent t := by
  have head : ∀ {f below}, u.ctl = .busy (f :: below) → ActionStack r u f below := by
    intro f below hc
    obtain ⟨x, hx⟩ | ⟨f', below', hx, ha⟩ := hs.ctl
    · rw [hx] at hc; cases hc
    · rw [hx] at hc; cases hc; exact ha
  cases ht with
  | stop h =>
    obtain ⟨hend, hbusy⟩ := h hs.fault
    obtain ⟨x, hx⟩ | ⟨f, below, hx, ha⟩ := hs.ctl
    · exact absurd hx (hend x)
    · exact absurd ha.action (hbusy f below hx)
  | post hf hc => exact post_keeps hg hf _
  | entry hf hc => exact hg.readEntry hs.toLive (head hc).legal
  | deadline hf hc => exact hg.readDeadline hs.toLive hc (head hc).legal
  | async hf hi hc => exact hg.startAsync hs.toLive hc (head hc).legal hi
  | wire hf hi hc hw hd ht =>
    obtain rfl := decodeWire_frame (params_wf hg.params).2.2.2 hd
    rw [exec_wire] at ht
    cases ht
    exact hg.xact hs.toLive hc (head hc) hi hw

theorem engineTurn_keeps (h : Consistent s) (hf : s.fault = none) {t : State} (ht : s.engineTurn.outcome = .next t) :
    Consistent t := by
  have hg := grounded_of_consistent h
  cases engineMove_of_turn ht with
  | wait => exact h
  | request hc hd hi => exact request_keeps h (decodeRequest_isRequest hd) hi
  | reserved d hc => exact acceptReserved_keeps h _
  | post hc => exact post_keeps hg hf _
  | run hc hact =>
    have hctl := h.ctl hf
    rw [hc] at hctl
    obtain ⟨r, hreq, hlegal, hdev⟩ := hctl
    have hs := settle_settled _ s ⟨h.params, hreq, hf, h.scratch⟩ (returns_of_legal hlegal hdev)
    exact engineAction_keeps (hg.settle hs) hs hact

/-! ### The other agents -/

/-- A control state that fits still fits after a change of what it does not speak of; the device may have become ready. -/
theorem CtlShape.mono {t : State} (h : CtlShape s s.ctl) (hst : Supports s t) (hc : t.ctl = s.ctl) (hr : t.req = s.req)
    (hw : t.dev.wel = s.dev.wel) (hp : s.dev.pending = .none → t.dev.pending = .none) : CtlShape t t.ctl := by
  rw [hc]
  cases hctl : s.ctl with
  | idle => rw [hctl] at h; exact hr.trans h
  | ending x => rw [hctl] at h; exact fun hn => h (hr ▸ hn)
  | busy stack =>
    rw [hctl] at h
    obtain ⟨r, hreq, hs, hd⟩ := h
    refine ⟨r, hr.trans hreq, hs.mono hst, ?_⟩
    cases stack with
    | nil => trivial
    | cons f below => exact ⟨fun hf => hw.trans (hd.1 hf), fun h1 h2 => hp (hd.2 h1 h2)⟩

theorem withEnv_keeps (h : Consistent s) (e : Env) : Consistent (s.withEnv e) := by
  refine ⟨h.params, h.bus, h.array, h.pending, h.scratch, fun hf => ?_, h.fault⟩
  exact (h.ctl hf).mono (t := s.withEnv e) ⟨rfl, le_rfl, id, rfl⟩ rfl rfl rfl id

theorem dmaStep_keeps (h : Consistent s) : Consistent s.dmaStep := by
  obtain ⟨-, hx⟩ | ⟨e, c, hx⟩ := s.dmaStep_cases
  · rw [hx]; exact h
  · rw [hx]
    refine ⟨h.params, ⟨rfl, rfl, nofun⟩, h.array, h.pending, h.scratch, fun hf => ?_, h.fault⟩
    exact (h.ctl hf).mono (t := (s.withEnv e).endAsync c) ⟨rfl, le_rfl, id, rfl⟩ rfl rfl rfl id

theorem tickClock_keeps (h : Consistent s) : Consistent s.tickClock := by
  refine ⟨h.params, h.bus, h.array, h.pending, h.scratch, fun hf => ?_, h.fault⟩
  exact (h.ctl hf).mono (t := s.tickClock) ⟨rfl, Nat.le_succ _, id, rfl⟩ rfl rfl rfl id

theorem hostMove_keeps (h : Consistent s) : Consistent s.hostMove := by
  obtain ⟨p, rv, cv, host, hx⟩ := s.hostMove_frame
  rw [hx]
  refine ⟨h.params, h.bus, h.array, h.pending, h.scratch, fun hf => ?_, h.fault⟩
  exact (h.ctl hf).mono (t := { s with port := p, resp := ⟨rv, _⟩, cmpl := ⟨cv, _⟩, host := host })
    ⟨rfl, le_rfl, id, rfl⟩ rfl rfl rfl id

/-- The operation that lands stays inside the flash (20_memory.md R56 to R58, 40_sequencer.md R122). -/
theorem deviceStep_within (h : Consistent s) : s.deviceStep.dev.array.within s.params.capacity = true := by
  have hmod := (params_wf h.params).1
  have hp := h.pending
  unfold State.deviceStep
  cases hpend : s.dev.pending with
  | none => exact h.array.2
  | pp a d =>
    rw [hpend] at hp
    obtain ⟨ha, -, -⟩ := hp
    exact Memory.within_program h.array.2 (by simp only [pageSize]; omega) _ _
  | se a => exact Memory.within_erase h.array.2 _ _
  | ce => exact Memory.within_erase h.array.2 _ _
  | havoc lo hi =>
    rw [hpend] at hp
    obtain ⟨hlo, hhi⟩ := hp
    exact Memory.within_writeRange h.array.2 (by rw [State.length_drawBytes]; omega)

theorem deviceStep_keeps (h : Consistent s) : Consistent s.deviceStep := by
  have hwithin := deviceStep_within h
  obtain ⟨e, m, hx, hwf⟩ := s.deviceStep_frame
  rw [hx] at hwithin ⊢
  refine ⟨h.params, h.bus, ⟨hwf h.array.1, hwithin⟩, trivial, h.scratch, fun hf => ?_, h.fault⟩
  exact (h.ctl hf).mono (t := (s.withEnv e).withDev ⟨m, .none, s.dev.wel⟩) ⟨rfl, le_rfl, id, rfl⟩ rfl rfl rfl fun _ => rfl

/-! ### A step -/

theorem turn_keeps (h : Consistent s) (hf : s.fault = none) (g : Config.Agent) {t : State}
    (ht : (s.turn g).outcome = .next t) : Consistent t := by
  cases g with
  | engine => exact engineTurn_keeps h hf ht
  | dma => cases ht; exact dmaStep_keeps h
  | device => cases ht; exact deviceStep_keeps h
  | clock => cases ht; exact tickClock_keeps h
  | host => cases ht; exact hostMove_keeps h

/-- A step is taken from a state without a fault mark only (R33). -/
theorem fault_none_of_step {t : State} (h : step s = .next t) : s.fault = none := by
  cases hf : s.fault with
  | none => rfl
  | some x => simp [step, hf] at h

/-- Settles O53: the internal computation settles on a legal stack, and each agent's move keeps every part of consistency. -/
theorem stepKeepsConsistency : Obligations.StepKeepsConsistency := by
  intro s t h ht
  have hf := fault_none_of_step ht
  rw [step_eq hf] at ht
  exact turn_keeps (s := s.takeTurn.2) (withEnv_keeps h _) hf _ ht

end Sys2Proof.Safety
end

section
/-! PROOFS. Who writes the flash (10_state.md R38), acceptance (R43), the fault mark (R33) and reset (R44). -/

namespace Sys2Proof.Safety

open Sys2Proof.Machine

variable {s t : State}

/-! ### Who writes the flash (R38) -/

/-- From `s` to `t` a program or an erase failed: the only move of the engine that writes the flash array (R38). -/
def FailedWrite (s t : State) : Prop :=
  ∃ k cmd tx rx, t.trace = s.trace ++ [.xact k cmd tx rx none] ∧ (k = .pp ∨ k = .se ∨ k = .ce)

theorem kind_of_failRange {cap lo n : Nat} {w : Wire} (h : failRange cap w = some (lo, n)) :
    w.kind = .pp ∨ w.kind = .se ∨ w.kind = .ce := by
  cases w <;> simp [failRange, Wire.kind] at h ⊢

/-- A transaction leaves the array as it was, unless it is a program or an erase that failed (R115 to R123). -/
theorem xact_array (s : State) (w : Wire) : (s.xact w).dev.array = s.dev.array ∨ FailedWrite s (s.xact w) := by
  obtain ⟨-, hx⟩ | ⟨-, -, ⟨x, -, hx⟩ | ⟨-, e, hx | hx⟩⟩ := s.xact_cases w
  · rw [hx]; exact .inl rfl
  · rw [hx]; exact .inl rfl
  · obtain ⟨_, _, _, _, hok⟩ := (s.withEnv e).xactOk_frame w (w.frame s.params.ops)
    rw [hx, hok]
    exact .inl (onSuccess_array _ _)
  · obtain ⟨e', d, hfail, hd⟩ := onFailure_leaves { s.withEnv e with cs := false } w
    rw [hx]
    simp only [State.xactErr, hfail]
    obtain ⟨c, hc⟩ := State.fail_frame
      (((({ s.withEnv e with cs := false } : State).withEnv e').withDev d).log
        (.xact w.kind (w.frame s.params.ops).cmd (w.frame s.params.ops).tx (w.frame s.params.ops).rxlen none))
      .transportError w.kind w.addr
    rw [hc]
    obtain ⟨ha, -⟩ | ⟨lo, n, bs, hrange, -⟩ := hd
    · exact .inl ha
    · exact .inr ⟨_, _, _, _, rfl, kind_of_failRange hrange⟩

theorem accept_array (s : State) (r : Request) (ok : Bool) (f : Frame) : (s.accept r ok f).dev.array = s.dev.array := by
  obtain ⟨-, hx⟩ | ⟨-, -, hx⟩ | ⟨-, -, hx⟩ := s.accept_cases r ok f <;> simp [hx]

theorem exec_array {i : Instr} (h : exec i s = .next t) : t.dev.array = s.dev.array ∨ FailedWrite s t := by
  have wire : ∀ w : Wire, exec w.instr s = .next t → t.dev.array = s.dev.array ∨ FailedWrite s t := by
    intro w hw
    rw [exec_wire] at hw
    cases hw
    exact xact_array s w
  cases i with
  | wireWren => exact wire .wren h
  | wireRdsr => exact wire .rdsr h
  | wireRdid => exact wire .rdid h
  | wireRead a n => exact wire (.read a n) h
  | wirePp a d => exact wire (.pp a d) h
  | wireSe a => exact wire (.se a) h
  | wireCe => exact wire .ce h
  | _ => cases h; exact .inl (accept_array _ _ _ _)

/-- The engine's external actions write the array in a failed program or erase only. -/
theorem engineAction_array (h : EngineAction s t) : t.dev.array = s.dev.array ∨ FailedWrite s t := by
  cases h with
  | stop h => exact .inl rfl
  | post hf hc => exact .inl rfl
  | entry hf hc => exact .inl rfl
  | @deadline timeout t0 k ad below hf hc =>
    unfold State.readDeadline
    split
    · obtain ⟨c, hc⟩ := (s.log (.clk s.now)).fail_frame .timeout k ad
      rw [hc]; exact .inl rfl
    · exact .inl rfl
  | @async a n below hf hi hc =>
    obtain ⟨x, -, hx⟩ | ⟨-, e, hx | hx⟩ := s.startAsync_cases a n below
    · simp [hx]
    · obtain ⟨c, hc⟩ := State.returnOk_frame (((s.withEnv e).beginAsync a n).log (.astart a n true)) below [] 0
      rw [hx, hc]; exact .inl rfl
    · obtain ⟨c, hc⟩ :=
        State.fail_frame (State.log { s.withEnv e with cs := false } (.astart a n false)) .transportError .read a
      rw [hx, hc]; exact .inl rfl
  | wire hf hi hc hw hd ht => exact exec_array ht

theorem engineTurn_array (h : s.engineTurn.outcome = .next t) : t.dev.array = s.dev.array ∨ FailedWrite s t := by
  cases engineMove_of_turn h with
  | wait => exact .inl rfl
  | request hc hd hi => exact exec_array hi
  | reserved d hc =>
    obtain ⟨-, hx⟩ | ⟨-, hx⟩ := s.acceptReserved_cases (Descriptor.fields d) <;> simp [hx]
  | post hc => exact .inl rfl
  | @run stack _ hc hact =>
    obtain ⟨_, _, _, _, _, hs⟩ := settle_frame stack s
    have h := engineAction_array hact
    rw [hs] at h
    exact h

/-- Settles O59: the DMA agent, the clock and the host leave the device alone, and of the engine's moves only a failed
program or erase writes the array. -/
theorem onlyDeviceRulesWriteFlash : Obligations.OnlyDeviceRulesWriteFlash := by
  intro s t ht hne
  have hstep := ht
  rw [step_eq (fault_none_of_step ht)] at hstep
  cases hg : s.takeTurn.1 with
  | device => exact .inl rfl
  | engine =>
    rw [hg] at hstep
    exact .inr ((engineTurn_array (s := s.takeTurn.2) hstep).resolve_left hne)
  | dma =>
    rw [hg] at hstep
    cases hstep
    obtain ⟨-, hx⟩ | ⟨e, c, hx⟩ := s.takeTurn.2.dmaStep_cases <;> exact absurd (by rw [hx]; rfl) hne
  | clock =>
    rw [hg] at hstep
    cases hstep
    exact absurd rfl hne
  | host =>
    rw [hg] at hstep
    cases hstep
    obtain ⟨_, _, _, _, hx⟩ := s.takeTurn.2.hostMove_frame
    exact absurd (by rw [hx]; rfl) hne

/-! ### Acceptance (R43) -/

/-- A ready engine accepts a request whose precondition holds; a READA also needs its completion record consumed. -/
theorem accept_of_ready (h : Ready s) {r : Request} {ok : Bool} (hok : ok = true) (f : Frame)
    (hr : r.op = opReada → s.cmpl.valid = false) : s.accept r ok f = accepted s r f := by
  obtain ⟨hctl, hfault, hresp⟩ := h
  subst hok
  exact s.accept_runs ((s.canAccept_iff _).mpr ⟨hctl, hfault, hresp, hr⟩) f

theorem writePre_of_fits {p : Config.Params} {a : Addr} {n : Word} {d : List Byte} (hd : d.length = n.toNat)
    (hc : a.toNat + n.toNat ≤ p.capacity) : writePre p a n d = true := by
  simp [writePre, inCapacity, hd, hc]

/-- Settles O7: each precondition is the one its meaning checks, and no op is a READA. -/
theorem writeRequestsAccepted : Obligations.WriteRequestsAccepted := by
  intro s a n d h hd hc
  have hpre := writePre_of_fits hd hc
  refine ⟨?_, ?_, fun hn hpage => ?_⟩
  · exact congrArg Host.Outcome.next (accept_of_ready h hpre _ nofun)
  · exact congrArg Host.Outcome.next (accept_of_ready h hpre _ nofun)
  · exact congrArg Host.Outcome.next (accept_of_ready h (by simp [pprogPre, hpre, hn, hpage]) _ nofun)

/-- Settles O8: SERASE's precondition is the one its meaning checks; CERASE and WREADY have none (R223). -/
theorem eraseAndWaitRequestsAccepted : Obligations.EraseAndWaitRequestsAccepted := by
  intro s a t h
  refine ⟨fun halign hc => ?_, ?_, ?_⟩
  · exact congrArg Host.Outcome.next (accept_of_ready h (by simp [serasePre, halign, hc]) _ nofun)
  · exact congrArg Host.Outcome.next (accept_of_ready h rfl _ nofun)
  · exact congrArg Host.Outcome.next (accept_of_ready h rfl _ nofun)

/-- Settles O9: of the three only a READA asks for the completion record. -/
theorem readRequestsAccepted : Obligations.ReadRequestsAccepted := by
  intro s a n h
  refine ⟨fun hc => ?_, fun hc hcmpl => ?_, ?_⟩
  · exact congrArg Host.Outcome.next (accept_of_ready h (decide_eq_true hc) _ nofun)
  · exact congrArg Host.Outcome.next (accept_of_ready h (decide_eq_true hc) _ fun _ => hcmpl)
  · exact congrArg Host.Outcome.next (accept_of_ready h rfl _ nofun)

/-! ### The fault mark and reset -/

/-- Settles O30: raising keeps the mark, and the first step of any run is the stop. -/
theorem faultStopsTheMachine : Obligations.FaultStopsTheMachine := by
  intro s r h
  have hstep : ∀ t, step s ≠ .next t := fun t ht => by
    rw [fault_none_of_step ht] at h
    cases h
  refine ⟨fun r' => by simp [State.raise_fault, h], hstep, fun k t hrun => ?_⟩
  rw [runs_step] at hrun
  cases hs : step s with
  | next u => exact hstep u hs
  | fault x => rw [hs] at hrun; cases hrun
  | refused x => rw [hs] at hrun; cases hrun

/-- Settles O51: each field is read off `State.reset`. -/
theorem resetState : Obligations.ResetState :=
  ⟨rfl, rfl, rfl, rfl, rfl, rfl, rfl, rfl, rfl, rfl, rfl, rfl, rfl⟩

end Sys2Proof.Safety
end

section
/-! PROOFS. The flash array (20_memory.md): what a program leaves at each address when it wraps within its page, a listed turn
of the Device agent, and a successful READ. -/

namespace Sys2Proof.Machine

open Config (pageSize)

/-! ### The targets of a page program (40_sequencer.md R119) -/

/-- Payload bytes no more than a page apart go to different addresses. -/
theorem pageTarget_inj {a i j : Nat} (hi : i < pageSize) (hj : j < pageSize) (h : pageTarget a i = pageTarget a j) :
    i = j := by
  simp only [pageTarget, pageSize] at *
  omega

theorem pageTarget_of_fits {a i : Nat} (h : a % pageSize + i < pageSize) : pageTarget a i = a + i := by
  simp only [pageTarget, pageSize] at *
  omega

/-- A program changes no byte but its targets (20_memory.md R56). -/
theorem Memory.read_program_untargeted {m : Memory} (h : m.wf = true) {a i x : Nat} {vs : List Byte}
    (hx : ∀ k, k < vs.length → x ≠ pageTarget a (i + k)) : (m.program a i vs).read x = m.read x := by
  induction vs generalizing m i with
  | nil => rfl
  | cons v vs ih =>
    have hhead : x ≠ pageTarget a i := hx 0 (Nat.zero_lt_succ _)
    have htail : ∀ k, k < vs.length → x ≠ pageTarget a (i + 1 + k) := fun k hk => by
      have := hx (k + 1) (Nat.succ_lt_succ hk)
      rwa [show i + (k + 1) = i + 1 + k by omega] at this
    rw [Memory.program, ih (Memory.write_wf h _ _) htail, Memory.read_write h, if_neg hhead]

/-- A program of at most a page ANDs each payload byte into its target, wrapped or not: the targets are distinct, so no byte
is ANDed twice (20_memory.md R56, 40_sequencer.md R119). -/
theorem Memory.read_program_target {m : Memory} (h : m.wf = true) {a i k : Nat} {vs : List Byte} {v : Byte}
    (hlen : i + vs.length ≤ pageSize) (hv : vs[k]? = some v) :
    (m.program a i vs).read (pageTarget a (i + k)) = m.read (pageTarget a (i + k)) &&& v := by
  induction vs generalizing m i k with
  | nil => simp at hv
  | cons w vs ih =>
    rw [List.length_cons] at hlen
    rw [Memory.program]
    cases k with
    | zero =>
      obtain rfl : w = v := by simpa using hv
      have huntargeted : ∀ k, k < vs.length → pageTarget a i ≠ pageTarget a (i + 1 + k) := fun k hk heq => by
        have := pageTarget_inj (by omega) (by omega) heq
        omega
      rw [Nat.add_zero i, Memory.read_program_untargeted (Memory.write_wf h _ _) huntargeted, Memory.read_write h, if_pos rfl]
    | succ k =>
      have hv' : vs[k]? = some v := by simpa using hv
      have hk : k < vs.length := (List.getElem?_eq_some_iff.mp hv').1
      have hne : pageTarget a (i + 1 + k) ≠ pageTarget a i := fun heq => by
        have := pageTarget_inj (by omega) (by omega) heq
        omega
      rw [show i + (k + 1) = i + 1 + k by omega, ih (Memory.write_wf h _ _) (by omega) hv', Memory.read_write h, if_neg hne]

/-! ### The Device agent's turn (40_sequencer.md R122) -/

section deviceTurn

variable {s : State} {rest : List Config.Agent} (hf : s.fault = none) (ht : s.env.turns = .device :: rest)
include hf ht

theorem step_device_se {a : Nat} (hp : s.dev.pending = .se a) :
    step s = .next ((s.withEnv { s.env with turns := rest }).withDev
      (s.dev.settled (s.dev.array.erase a (a + Config.sectorSize)))) := by
  rw [step_turn hf ht]
  simp [State.turn, Plan.outcome, State.deviceStep, hp]

theorem step_device_pp {a : Nat} {d : List Byte} (hp : s.dev.pending = .pp a d) :
    step s = .next ((s.withEnv { s.env with turns := rest }).withDev (s.dev.settled (s.dev.array.program a 0 d))) := by
  rw [step_turn hf ht]
  simp [State.turn, Plan.outcome, State.deviceStep, hp]

end deviceTurn

/-! ### A READ (40_sequencer.md R118) -/

/-- A READ inside the flash passes the checks of a ready device. -/
theorem Device.check_read_none {d : Device} {cap n : Nat} {a : Addr} (hp : d.pending = .none) (h : a.toNat + n ≤ cap) :
    d.check cap (.read a n) = none := by
  simp [Device.check, Device.busy, hp, h]

/-- A transaction that passes the device's checks and whose transport calls are all `Ok` ends successfully (R110). -/
theorem State.xact_of_transfer {s : State} {w : Wire} {e : Env} (hf : s.fault = none) (hi : s.inflight = false)
    (hc : s.dev.check s.params.capacity w = none)
    (ht : s.transfer (w.frame s.params.ops) = (true, s.withEnv e)) :
    s.xact w = (s.withEnv e).xactOk w (w.frame s.params.ops) := by
  simp [State.xact, hf, hi, hc, ht]

/-- Only the sector read of a managed write fills the Scratch Buffer (45_managed_write.md R183). -/
theorem State.resume_scratch {s : State} (h : ∀ l below, s.ctl ≠ .busy (.managedWrite .read l :: below)) (w : Wire)
    (rx : List Byte) : (s.resume w rx).scratch = s.scratch := by
  have returns : ∀ below rdata id, (s.returnOk below rdata id).scratch = s.scratch := fun below rdata id => by
    obtain ⟨c, hc⟩ := s.returnOk_frame below rdata id
    rw [hc, State.withCtl_scratch]
  unfold State.resume State.callWait
  split
  · next f below hctl =>
    split
    · exact absurd hctl (h _ _)
    · rfl
    · rfl
    · rfl
    · rfl
    · rfl
    · rfl
    · split
      · exact returns _ _ _
      · rfl
    · exact returns _ _ _
    · exact returns _ _ _
    · rfl
  · rfl

end Sys2Proof.Machine

namespace Sys2Proof.Safety

open Sys2Proof.Machine

/-- A listed draw that is `Ok` passes one transport call (R111). -/
theorem drawOk_of_okDraw {s : State} {b : Byte} {t : List Byte} (h : s.env.draws = b :: t) (hb : okDraw b = true) :
    s.drawOk = (true, s.withEnv { s.env with draws := t }) := by
  rw [State.drawOk_cons h]
  exact congrArg (·, _) hb

/-- A transaction with a reply and no payload makes two transport calls, its command phase and its reply (R110). -/
theorem transfer_receives {s : State} {f : WireFrame} {b c : Byte} {rest : List Byte} (htx : f.tx = [])
    (hrx : f.rxlen ≠ 0) (h : s.env.draws = b :: c :: rest) (hb : okDraw b = true) (hc : okDraw c = true) :
    s.transfer f = (true, s.withEnv { s.env with draws := rest }) := by
  have hreply := drawOk_of_okDraw (s := s.withEnv { s.env with draws := c :: rest }) rfl hc
  simp [State.transfer, drawOk_of_okDraw h hb, htx, hrx, hreply]

theorem xactOk_busFrame (s : State) (w : Wire) (f : WireFrame) : BusFrame s (s.xactOk w f) := by
  obtain ⟨e, sc, c, rx, h⟩ := s.xactOk_frame w f
  rw [h]
  exact ⟨rfl, rfl, rfl, rfl, rfl, rfl, rfl, rfl, rfl, rfl, rfl, rfl, rfl, rfl⟩

/-- A successful transaction leaves the device its effect, the trace its event with the device's reply, and the Scratch
Buffer as it was unless a managed write waits for its sector (R110). -/
theorem xactOk_effect (s : State) (w : Wire) (f : WireFrame) :
    (s.xactOk w f).dev = s.dev.onSuccess w
      ∧ (s.xactOk w f).trace = s.trace ++ [.xact w.kind f.cmd f.tx f.rxlen (some (s.reply w).1)]
      ∧ ((∀ l below, s.ctl ≠ .busy (.managedWrite .read l :: below)) → (s.xactOk w f).scratch = s.scratch) := by
  obtain ⟨e, h⟩ := xactOk_eq s w f
  rw [h]
  refine ⟨?_, ?_, fun hctl => State.resume_scratch (by exact hctl) _ _⟩
  all_goals
    obtain ⟨sc, c, hr⟩ := State.resume_frame
      (State.log { (s.withEnv e).withDev (s.dev.onSuccess w) with cs := false }
        (.xact w.kind f.cmd f.tx f.rxlen (some (s.reply w).1))) w (s.reply w).1
    rw [hr]
    rfl

/-- Settles O15: the READ passes the device's checks and both calls, and its reply is the range read off the array. -/
theorem wireReadRepliesBytes : Obligations.WireReadRepliesBytes := by
  intro s a n b c rest ⟨hf, hi⟩ hp hn hcap hdraws hb hc
  have hcheck := Device.check_read_none hp hcap
  have htransfer := transfer_receives (f := (Wire.read a n).frame s.params.ops) rfl (Nat.ne_of_gt hn) hdraws hb hc
  have hexec := (exec_wire (.read a n) s).trans
    (congrArg Host.Outcome.next (State.xact_of_transfer hf hi hcheck htransfer))
  obtain ⟨hdev, htrace, hscratch⟩ := xactOk_effect (s.withEnv { s.env with draws := rest }) (.read a n)
    ((Wire.read a n).frame s.params.ops)
  exact ⟨_, s.dev.array.readRange a.toNat n, hexec, xactOk_busFrame _ _ _, hdev, htrace, Memory.length_readRange _ _ _,
    fun j hj => Memory.getElem?_readRange _ _ _ _ hj, hscratch⟩

/-- Settles O22: the Device's turn erases the sector. -/
theorem sectorEraseLands : Obligations.SectorEraseLands := by
  intro s a rest hf ht hwf hp _
  exact ⟨_, step_device_se hf ht hp, rfl, rfl, rfl, Memory.read_erase hwf a (a + Config.sectorSize)⟩

/-- Settles O24: the Device's turn runs the program, whose targets are distinct. -/
theorem pageProgramLands : Obligations.PageProgramLands := by
  intro s a d rest hf ht hwf hp hlen
  have htarget : ∀ i v, d[i]? = some v → (s.dev.array.program a 0 d).read (pageTarget a i)
      = s.dev.array.read (pageTarget a i) &&& v := fun i v hv => by
    simpa using Memory.read_program_target hwf (a := a) (i := 0) (by simpa using hlen) hv
  refine ⟨_, step_device_pp hf ht hp, rfl, rfl, rfl, htarget, fun x hx => ?_, fun hfits i v hv => ?_⟩
  · exact Memory.read_program_untargeted hwf fun k hk => by rw [Nat.zero_add]; exact hx k hk
  · have hi : i < d.length := (List.getElem?_eq_some_iff.mp hv).1
    rw [← pageTarget_of_fits (show a % Config.pageSize + i < Config.pageSize by simp only [Config.pageSize]; omega)]
    exact htarget i v hv

end Sys2Proof.Safety
end

section
/-! PROOFS. The two encodings (30_encoding.md): what the decoder reads from a descriptor of each op code (R90, R91), exactly
which frames it reads as a wire command (R81, R87), the acceptance of a reserved op code, and the response words (R93). -/

namespace Sys2Proof

open Laws.OpField (op_assemble)

/-! ### Request descriptors (R89 to R92) -/

/-- The address of an assembled descriptor is the one it was assembled with. -/
theorem addr_assemble (op : Byte) (a : Addr) (n t : Word) (d : List Byte) : (assemble op a n t d).addr = a :=
  BitVec.extractLsb'_append_eq_right

section descriptor

variable {d : Descriptor}

theorem decodeRequest_mwrite (h : d.op = opMwrite) : decodeRequest d = .ok (.mwrite d.addr d.w1 d.data) := by
  simp [decodeRequest, h]
theorem decodeRequest_wnochk (h : d.op = opWnochk) : decodeRequest d = .ok (.wnochk d.addr d.w1 d.data) := by
  simp [decodeRequest, h]
theorem decodeRequest_pprog (h : d.op = opPprog) : decodeRequest d = .ok (.pprog d.addr d.w1 d.data) := by
  simp [decodeRequest, h]
theorem decodeRequest_serase (h : d.op = opSerase) : decodeRequest d = .ok (.serase d.addr) := by simp [decodeRequest, h]
theorem decodeRequest_cerase (h : d.op = opCerase) : decodeRequest d = .ok .cerase := by simp [decodeRequest, h]
theorem decodeRequest_wready (h : d.op = opWready) : decodeRequest d = .ok (.wready d.w2) := by simp [decodeRequest, h]
theorem decodeRequest_read (h : d.op = opRead) : decodeRequest d = .ok (.read d.addr d.w1) := by simp [decodeRequest, h]
theorem decodeRequest_reada (h : d.op = opReada) : decodeRequest d = .ok (.reada d.addr d.w1) := by
  simp [decodeRequest, h]
theorem decodeRequest_rdid (h : d.op = opRdid) : decodeRequest d = .ok .rdid := by simp [decodeRequest, h]

/-- A reserved op code is none of the nine. -/
theorem not_mem_of_reserved {op : Byte} (h : op = 0 ∨ 0x0A ≤ op.toNat) :
    op ∉ [opMwrite, opWnochk, opPprog, opSerase, opCerase, opWready, opRead, opReada, opRdid] := by
  have hops : ∀ b ∈ [opMwrite, opWnochk, opPprog, opSerase, opCerase, opWready, opRead, opReada, opRdid],
      b ≠ 0 ∧ b.toNat < 0x0A := by decide
  exact fun hmem => h.elim (hops op hmem).1 (Nat.not_le.mpr (hops op hmem).2)

/-- A reserved op code selects no operation (R91). -/
theorem decodeRequest_reserved (h : d.op = 0 ∨ 0x0A ≤ d.op.toNat) : decodeRequest d = .error (.reservedOp d.op) := by
  have hne := not_mem_of_reserved h
  simp only [List.mem_cons, List.not_mem_nil, or_false, not_or] at hne
  simp only [decodeRequest, hne, if_false]

end descriptor

/-- Settles O5: the decoder's result for each op code names the fields it uses. -/
theorem unusedFieldsAreIgnored : Obligations.UnusedFieldsAreIgnored := by
  intro d d' hop
  refine ⟨fun h ha => ?_, ?_, fun h hw => ?_, ?_, ?_⟩
  · rw [decodeRequest_serase h, decodeRequest_serase (hop ▸ h), ha]
  · rintro (h | h)
    · rw [decodeRequest_cerase h, decodeRequest_cerase (hop ▸ h)]
    · rw [decodeRequest_rdid h, decodeRequest_rdid (hop ▸ h)]
  · rw [decodeRequest_wready h, decodeRequest_wready (hop ▸ h), hw]
  · rintro (h | h) ha hw
    · rw [decodeRequest_read h, decodeRequest_read (hop ▸ h), ha, hw]
    · rw [decodeRequest_reada h, decodeRequest_reada (hop ▸ h), ha, hw]
  · rintro (h | h | h) ha hw hd
    · rw [decodeRequest_mwrite h, decodeRequest_mwrite (hop ▸ h), ha, hw, hd]
    · rw [decodeRequest_wnochk h, decodeRequest_wnochk (hop ▸ h), ha, hw, hd]
    · rw [decodeRequest_pprog h, decodeRequest_pprog (hop ▸ h), ha, hw, hd]

/-! ### Wire frames (R81, R87) -/

/-- The formats of R81: the bytes the engine sends, the number it receives, and the command they are. -/
inductive WireFormat (o : Config.Opcodes) : List Byte → Nat → Instr → Prop
  | wren : WireFormat o [o.wren] 0 .wireWren
  | rdsr : WireFormat o [o.rdsr] 1 .wireRdsr
  | rdid (b2 b1 b0 : Byte) : WireFormat o [o.rdid, b2, b1, b0] 2 .wireRdid
  | read (b2 b1 b0 : Byte) {n : Nat} (hn : 1 ≤ n) :
    WireFormat o [o.read, b2, b1, b0] n (.wireRead (addrOfBytes b2 b1 b0) n)
  | pp (b2 b1 b0 : Byte) (d : List Byte) : WireFormat o (o.pp :: b2 :: b1 :: b0 :: d) 0 (.wirePp (addrOfBytes b2 b1 b0) d)
  | se (b2 b1 b0 : Byte) : WireFormat o [o.se, b2, b1, b0] 0 (.wireSe (addrOfBytes b2 b1 b0))
  | ce : WireFormat o [o.ce] 0 .wireCe

/-- What the decoder reads has one of the formats. -/
theorem wireFormat_of_decodeWire {o : Config.Opcodes} {f : WireFrame} {i : Instr} (h : decodeWire o f = .ok i) :
    WireFormat o (f.cmd ++ f.tx) f.rxlen i := by
  unfold decodeWire at h
  generalize f.cmd ++ f.tx = bytes, f.rxlen = n at h ⊢
  split at h
  · cases h
  · next op rest =>
    split at h
    · next hop => subst hop; split_ifs at h with hr; cases h; obtain ⟨rfl, rfl⟩ := hr; exact .wren
    split at h
    · next hop => subst hop; split_ifs at h with hr; cases h; obtain ⟨rfl, rfl⟩ := hr; exact .rdsr
    split at h
    · next hop =>
      subst hop; split_ifs at h with hr; cases h; obtain ⟨hlen, rfl⟩ := hr
      obtain ⟨b2, b1, b0, rfl⟩ := List.length_eq_three.mp hlen
      exact .rdid b2 b1 b0
    split at h
    · next hop =>
      subst hop; split at h <;> [split_ifs at h with hn; cases h]; cases h; exact .read _ _ _ hn
    split at h
    · next hop =>
      subst hop; split at h <;> [split_ifs at h with hn; cases h]; cases h; subst hn; exact .pp _ _ _ _
    split at h
    · next hop =>
      subst hop; split at h <;> [split_ifs at h with hn; cases h]; cases h; subst hn; exact .se _ _ _
    split at h
    · next hop => subst hop; split_ifs at h with hr; cases h; obtain ⟨rfl, rfl⟩ := hr; exact .ce
    · cases h

/-- With distinct opcodes the decoder reads every frame that has one of the formats. -/
theorem decodeWire_of_wireFormat {o : Config.Opcodes} (ho : o.distinct = true) {f : WireFrame} {i : Instr}
    (h : WireFormat o (f.cmd ++ f.tx) f.rxlen i) : decodeWire o f = .ok i := by
  unfold decodeWire
  generalize f.cmd ++ f.tx = bytes, f.rxlen = n at h ⊢
  have hne : o.all.Pairwise fun earlier op => op ≠ earlier := (of_decide_eq_true ho).imp Ne.symm
  simp [Config.Opcodes.all] at hne
  cases h with
  | wren => simp
  | rdsr => simp [hne]
  | rdid b2 b1 b0 => simp [hne]
  | read b2 b1 b0 hn => simp [hne, hn]
  | pp b2 b1 b0 d => simp [hne]
  | se b2 b1 b0 => simp [hne]
  | ce => simp [hne]

/-- A format's bytes, sent and received, number what R87 says. -/
theorem WireFormat.length_add {o : Config.Opcodes} {bytes : List Byte} {n : Nat} {i : Instr}
    (h : WireFormat o bytes n i) : bytes.length + n = Safety.wireLength i := by
  cases h with
  | pp b2 b1 b0 d => exact Nat.add_comm d.length 4
  | wren | rdsr | rdid | read | se | ce => rfl

/-- Settles O3: the frame of each command is as long as its format, and the decoder reads only frames of a format. -/
theorem frameLengthsAreFixed : Obligations.FrameLengthsAreFixed := by
  refine ⟨fun o w => by cases w <;> rfl, fun o f i h => ?_⟩
  rw [← (wireFormat_of_decodeWire h).length_add, WireFrame.length, List.length_append]

/-! ### Decoding what was encoded -/

/-- The frame of a well-formed wire command has the command's format. -/
theorem wireFormat_frame (o : Config.Opcodes) {w : Machine.Wire} (hw : w.instr.wf = true) :
    WireFormat o ((w.frame o).cmd ++ (w.frame o).tx) (w.frame o).rxlen w.instr := by
  cases w with
  | wren => exact .wren
  | rdsr => exact .rdsr
  | rdid => exact .rdid 0 0 0
  | read a n =>
    have h := WireFormat.read (o := o) (a.extractLsb' 16 8) (a.extractLsb' 8 8) (a.extractLsb' 0 8) (of_decide_eq_true hw)
    rwa [Machine.addrOfBytes_addr24] at h
  | pp a d =>
    have h := WireFormat.pp (o := o) (a.extractLsb' 16 8) (a.extractLsb' 8 8) (a.extractLsb' 0 8) d
    rwa [Machine.addrOfBytes_addr24] at h
  | se a =>
    have h := WireFormat.se (o := o) (a.extractLsb' 16 8) (a.extractLsb' 8 8) (a.extractLsb' 0 8)
    rwa [Machine.addrOfBytes_addr24] at h
  | ce => exact .ce

theorem decode_encode_wire {o : Config.Opcodes} (ho : o.distinct = true) {w : Machine.Wire} (hw : w.instr.wf = true) :
    decode o (encode o w.instr) = .ok w.instr := by
  have henc : encode o w.instr = .wire (w.frame o) := by cases w <;> rfl
  rw [henc]
  exact decodeWire_of_wireFormat ho (wireFormat_frame o hw)

/-- Settles O1: a request is read back by its op code, a wire command by its frame's format. -/
theorem encodeThenDecodeIsIdentity : Obligations.EncodeThenDecodeIsIdentity := by
  intro o i ho hi
  cases i with
  | mwrite a n d => exact (decodeRequest_mwrite (op_assemble ..)).trans (by rw [addr_assemble]; rfl)
  | wnochk a n d => exact (decodeRequest_wnochk (op_assemble ..)).trans (by rw [addr_assemble]; rfl)
  | pprog a n d => exact (decodeRequest_pprog (op_assemble ..)).trans (by rw [addr_assemble]; rfl)
  | serase a => exact (decodeRequest_serase (op_assemble ..)).trans (by rw [addr_assemble])
  | cerase => exact decodeRequest_cerase (op_assemble ..)
  | wready t => exact decodeRequest_wready (op_assemble ..)
  | read a n => exact (decodeRequest_read (op_assemble ..)).trans (by rw [addr_assemble]; rfl)
  | reada a n => exact (decodeRequest_reada (op_assemble ..)).trans (by rw [addr_assemble]; rfl)
  | rdid => exact decodeRequest_rdid (op_assemble ..)
  | wireWren => exact decode_encode_wire ho (w := .wren) hi
  | wireRdsr => exact decode_encode_wire ho (w := .rdsr) hi
  | wireRdid => exact decode_encode_wire ho (w := .rdid) hi
  | wireRead a n => exact decode_encode_wire ho (w := .read a n) hi
  | wirePp a d => exact decode_encode_wire ho (w := .pp a d) hi
  | wireSe a => exact decode_encode_wire ho (w := .se a) hi
  | wireCe => exact decode_encode_wire ho (w := .ce) hi

end Sys2Proof

namespace Sys2Proof.Safety

open Sys2Proof.Machine

/-! ### Accepting a reserved op code (R91) -/

/-- Where the engine is ready, a request that is no READA is latched and marks the fault. -/
theorem acceptReserved_of_ready {s : State} (h : Ready s) {r : Request} (hr : r.op ≠ opReada) :
    s.acceptReserved r = (s.latch r).raise .reservedOp := by
  obtain ⟨hctl, hfault, hresp⟩ := h
  exact if_pos ((s.canAccept_iff _).mpr ⟨hctl, hfault, hresp, fun h => absurd h hr⟩)

/-- The engine's turn at a reserved op code: the decoder refuses the descriptor, and the acceptance marks the fault. -/
theorem engineTurn_reserved {s : State} (h : Ready s) {d : Descriptor} (hp : s.port = some d)
    (hop : d.op = 0 ∨ 0x0A ≤ d.op.toNat) :
    s.engineTurn = .done ((s.latch (Descriptor.fields d)).raise .reservedOp) := by
  have hne : d.op ≠ opReada := fun h => not_mem_of_reserved hop (by simp [h])
  rw [← acceptReserved_of_ready h (r := Descriptor.fields d) hne]
  obtain ⟨hctl, -, -⟩ := h
  simp only [State.engineTurn, hctl, hp, decodeRequest_reserved hop]

/-- The step in which the engine accepts a reserved op code. -/
theorem step_reserved {s : State} (h : Ready s) {d : Descriptor} {rest : List Config.Agent} (hp : s.port = some d)
    (ht : s.env.turns = .engine :: rest) (hop : d.op = 0 ∨ 0x0A ≤ d.op.toNat) :
    step s = .next (((s.withEnv { s.env with turns := rest }).latch (Descriptor.fields d)).raise .reservedOp) :=
  (step_turn h.2.1 ht).trans
    (congrArg Plan.outcome (engineTurn_reserved (s := s.withEnv { s.env with turns := rest }) h hp hop))

/-- Settles O4: the step latches the request, logs its ACCEPT and marks the fault, and nothing else. -/
theorem reservedOpsFault : Obligations.ReservedOpsFault := by
  intro s d rest hop
  refine ⟨fun i => by rw [decodeRequest_reserved hop]; exact nofun, fun h hp ht => ?_⟩
  have hstep := step_reserved h hp ht hop
  obtain ⟨hctl, hfault, -⟩ := h
  exact ⟨_, hstep, by simp [State.raise_fault, hfault], by simp, by simpa using hctl, by simp,
    [.accept (Descriptor.fields d)], by simp, by simp⟩

end Sys2Proof.Safety

namespace Sys2Proof.Machine

/-! ### The response words (R93, R94) -/

theorem OpOutcome.code_ne_three (x : OpOutcome) : x.code ≠ 3 := by cases x <;> decide

theorem failCode_le_seven (k : Option Kind) : (failCode k).toNat ≤ 7 := by
  cases k with
  | none => decide
  | some k => cases k <;> decide

/-- The fields of `r0`. -/
theorem Response.r0_fields (r : Response) :
    r.r0.extractLsb' 0 2 = r.outcome.code ∧ r.r0.extractLsb' 2 2 = 0 ∧ r.r0.extractLsb' 4 4 = failCode r.failKind
      ∧ r.r0.extractLsb' 8 24 = r.failAddr := by
  have pastOutcome : ∀ start len, 2 ≤ start → r.r0.extractLsb' start len
      = (r.failAddr ++ failCode r.failKind ++ (0 : BitVec 2)).extractLsb' (start - 2) len :=
    fun _ _ h => BitVec.extractLsb'_append_eq_of_le h
  have pastZero : ∀ start len, 4 ≤ start → r.r0.extractLsb' start len
      = (r.failAddr ++ failCode r.failKind).extractLsb' (start - 2 - 2) len :=
    fun _ _ h => (pastOutcome _ _ (by omega)).trans (BitVec.extractLsb'_append_eq_of_le (by omega))
  exact ⟨BitVec.extractLsb'_append_eq_right,
    (pastOutcome 2 2 (by decide)).trans BitVec.extractLsb'_append_eq_right,
    (pastZero 4 4 (by decide)).trans BitVec.extractLsb'_append_eq_right,
    (pastZero 8 24 (by decide)).trans BitVec.extractLsb'_append_eq_left⟩

/-- Settles O6: each word is a concatenation of its fields. -/
theorem responseWordLayout : Obligations.ResponseWordLayout := by
  refine ⟨fun r => ?_, ⟨rfl, rfl, rfl⟩, ⟨rfl, rfl, rfl, rfl, rfl, rfl, rfl, rfl⟩, fun c => ⟨?_, ?_⟩⟩
  · obtain ⟨houtcome, hzero, hkind, haddr⟩ := r.r0_fields
    exact ⟨houtcome, hzero, hkind, haddr, rfl, BitVec.extractLsb'_append_eq_right, BitVec.extractLsb'_append_eq_left,
      r.outcome.code_ne_three, failCode_le_seven _⟩
  · exact congrArg OpOutcome.code
  · exact congrArg OpOutcome.code

end Sys2Proof.Machine
end

section
/-! PROOFS. The rules of one transaction on a free bus (40_sequencer.md R110 to R113): how many transport calls it makes and how
they end, and what it comes to when the device's check faults it, when every call is `Ok`, and when one is not. -/

namespace Sys2Proof.Machine

/-- The trace event of a transaction with this result (40_sequencer.md R114). -/
def Wire.event (o : Config.Opcodes) (w : Wire) (result : Option (List Byte)) : Event :=
  .xact w.kind (w.frame o).cmd (w.frame o).tx (w.frame o).rxlen result

/-- Failing a transaction changes what its failure leaves on the device, chip-select, the trace and the control state
(40_sequencer.md R110, R123). -/
theorem State.xactErr_eq (s : State) (w : Wire) (f : WireFrame) :
    ∃ c, s.xactErr w f = (((State.onFailure { s with cs := false } w).log (.xact w.kind f.cmd f.tx f.rxlen none)).withCtl c) :=
  State.fail_frame _ _ _ _

/-- The failure of a running request ends it (60_exceptions.md R226). -/
theorem State.fail_of_busy {s : State} {stack : List Frame} (h : s.ctl = .busy stack) (o : OpOutcome) (k : Kind) (a : Nat) :
    s.fail o k a = s.withCtl (.ending (.failed o k a)) := by
  rw [State.fail, h]

/-- Only the reply of a READ may fill the Scratch Buffer (45_managed_write.md R183). -/
theorem State.resume_scratch_of_kind (s : State) {w : Wire} (hw : w.kind ≠ .read) (rx : List Byte) :
    (s.resume w rx).scratch = s.scratch := by
  by_cases h : ∃ l below, s.ctl = .busy (.managedWrite .read l :: below)
  · obtain ⟨l, below, hc⟩ := h
    rw [State.resume, hc]
    cases w with
    | read a n => exact absurd rfl hw
    | _ => rfl
  · exact State.resume_scratch (fun l below hc => h ⟨l, below, hc⟩) w rx

/-- A successful transaction other than a READ leaves the Scratch Buffer as it was. -/
theorem State.xactOk_scratch (s : State) {w : Wire} (hw : w.kind ≠ .read) (f : WireFrame) :
    (s.xactOk w f).scratch = s.scratch := by
  obtain ⟨e, he⟩ := s.reply_frame w
  rw [State.xactOk, State.resume_scratch_of_kind _ hw, he]
  rfl

/-! ### The transport calls (R110, R111) -/

/-- A command without payload and reply makes one transport call. -/
theorem State.transfer_one (s : State) {f : WireFrame} (htx : f.tx = []) (hrx : f.rxlen = 0) : s.transfer f = s.drawOk := by
  simp [State.transfer, htx, hrx]

/-- A frame with a payload or a reply, not both. -/
def WireFrame.TwoCalls (f : WireFrame) : Prop := f.tx = [] ∧ f.rxlen ≠ 0 ∨ f.tx ≠ [] ∧ f.rxlen = 0

/-- It makes a second transport call after the `Ok` of the first. -/
theorem State.transfer_two (s : State) {f : WireFrame} (h : WireFrame.TwoCalls f) :
    s.transfer f = if s.drawOk.1 then s.drawOk.2.drawOk else s.drawOk := by
  obtain ⟨htx, hrx⟩ | ⟨htx, hrx⟩ := h <;> cases hok : s.drawOk.1 <;> simp [State.transfer, htx, hrx, hok]

end Sys2Proof.Machine

namespace Sys2Proof.Safety

open Sys2Proof.Machine

variable {s t : State} {w : Wire} {b c : Byte} {rest : List Byte}

theorem onFailure_trace (s : State) (w : Wire) : (s.onFailure w).trace = s.trace := by
  obtain ⟨e, d, h, -⟩ := onFailure_leaves s w
  rw [h]; rfl

theorem BusFrame.fault_eq (h : BusFrame s t) : t.fault = s.fault := by
  obtain ⟨-, -, -, -, -, -, -, -, -, -, hfault, -⟩ := h
  exact hfault

theorem xactErr_busFrame (s : State) (w : Wire) (b : WireFrame) : BusFrame s (s.xactErr w b) := by
  obtain ⟨c, hc⟩ := s.xactErr_eq w b
  obtain ⟨e, d, hd, -⟩ := onFailure_leaves { s with cs := false } w
  rw [hc, hd]
  exact ⟨rfl, rfl, rfl, rfl, rfl, rfl, rfl, rfl, rfl, rfl, rfl, rfl, rfl, rfl⟩

/-- A listed draw that is no `Ok` fails one transport call (R111). -/
theorem drawOk_of_not_okDraw (h : s.env.draws = b :: rest) (hb : okDraw b = false) :
    s.drawOk = (false, s.withEnv { s.env with draws := rest }) := by
  rw [State.drawOk_cons h]
  exact congrArg (·, _) hb

section twoCalls

variable {f : WireFrame} (h : WireFrame.TwoCalls f) (hd : s.env.draws = b :: c :: rest)
include h hd

theorem transfer_two_ok (hb : okDraw b = true) (hc : okDraw c = true) :
    s.transfer f = (true, s.withEnv { s.env with draws := rest }) := by
  rw [s.transfer_two h, drawOk_of_okDraw hd hb, if_pos rfl]
  exact drawOk_of_okDraw (s := s.withEnv { s.env with draws := c :: rest }) rfl hc

theorem transfer_two_fails (hbc : okDraw b = false ∨ okDraw c = false) :
    ∃ e, s.transfer f = (false, s.withEnv e) := by
  rw [s.transfer_two h]
  cases hb : okDraw b with
  | false => exact ⟨_, by rw [drawOk_of_not_okDraw hd hb, if_neg nofun]⟩
  | true =>
    have hc : okDraw c = false := hbc.resolve_left (by simp [hb])
    rw [drawOk_of_okDraw hd hb, if_pos rfl]
    exact ⟨_, drawOk_of_not_okDraw (s := s.withEnv { s.env with draws := c :: rest }) rfl hc⟩

end twoCalls

/-! ### The transaction -/

/-- The device's check comes first, whatever the transport calls would do (R113). -/
theorem exec_faulted {x : Fault} (h : BusFree s) (hcheck : s.dev.check s.params.capacity w = some x) :
    exec w.instr s = .next { s with fault := some x } := by
  obtain ⟨hf, hi⟩ := h
  rw [exec_wire]
  simp [State.xact, hf, hi, hcheck, State.raise_eq]

/-- A transaction other than a READ whose calls are all `Ok`: its effect on the device and its event, and nothing else but
the control state and the open choices (R110, R112). -/
theorem exec_succeeds {e : Env} (h : BusFree s) (hcheck : s.dev.check s.params.capacity w = none)
    (ht : s.transfer (w.frame s.params.ops) = (true, s.withEnv e)) (hw : w.kind ≠ .read) :
    ∃ t, exec w.instr s = .next t ∧ BusFrame s t ∧ t.scratch = s.scratch ∧ t.dev = s.dev.onSuccess w
      ∧ t.trace = s.trace ++ [w.event s.params.ops (some ((s.withEnv e).reply w).1)] := by
  obtain ⟨hdev, htrace, -⟩ := xactOk_effect (s.withEnv e) w (w.frame s.params.ops)
  exact ⟨_, (exec_wire w s).trans (congrArg Host.Outcome.next (State.xact_of_transfer h.1 h.2 hcheck ht)),
    xactOk_busFrame _ _ _, State.xactOk_scratch _ hw _, hdev, htrace⟩

/-- A running request's transaction with a failed call: what the failure leaves on the device, its event, and the request
ended with its kind and address (R110, R123, 60_exceptions.md R222). -/
theorem exec_fails {e : Env} {stack : List Frame} (h : BusFree s) (hc : s.ctl = .busy stack)
    (hcheck : s.dev.check s.params.capacity w = none)
    (ht : s.transfer (w.frame s.params.ops) = (false, s.withEnv e)) :
    ∃ t, exec w.instr s = .next t ∧ BusFrame s t ∧ t.scratch = s.scratch
      ∧ t.dev = (State.onFailure { s.withEnv e with cs := false } w).dev
      ∧ t.ctl = .ending (.failed .transportError w.kind w.addr)
      ∧ t.trace = s.trace ++ [w.event s.params.ops none] := by
  obtain ⟨hf, hi⟩ := h
  have hx : s.xact w = (s.withEnv e).xactErr w (w.frame s.params.ops) := by simp [State.xact, hf, hi, hcheck, ht]
  obtain ⟨e', d, hd, -⟩ := onFailure_leaves { s.withEnv e with cs := false } w
  have heq : (s.withEnv e).xactErr w (w.frame s.params.ops)
      = ((({ s.withEnv e with cs := false } : State).withEnv e').withDev d |>.log (w.event s.params.ops none)).withCtl
          (.ending (.failed .transportError w.kind w.addr)) := by
    rw [State.xactErr, hd]
    exact State.fail_of_busy (by exact hc) _ _ _
  refine ⟨_, (exec_wire w s).trans (congrArg Host.Outcome.next hx), xactErr_busFrame _ _ _, ?_⟩
  rw [heq, hd]
  exact ⟨rfl, rfl, rfl, rfl⟩

end Sys2Proof.Safety
end

section
/-! PROOFS. What a step adds to the event trace (10_state.md R34, 40_sequencer.md R114), said once: nothing, or one event; a
transaction event is that of the wire command which the settled head's bytes decode to. -/

namespace Sys2Proof.Machine

/-- The event is a transaction's. -/
def Event.isXact : Event → Bool
  | .xact _ _ _ _ _ => true
  | _ => false

/-- From `s` to `t` the trace gains nothing, or one event with property `P`. -/
def Logs (P : Event → Prop) (s t : State) : Prop := t.trace = s.trace ∨ ∃ e, P e ∧ t.trace = s.trace ++ [e]

variable {P : Event → Prop} {s t : State}

theorem Logs.events (h : Logs P s t) : ∃ new, t.trace = s.trace ++ new ∧ ∀ e ∈ new, P e := by
  obtain h | ⟨e, he, h⟩ := h
  · exact ⟨[], by simpa using h, nofun⟩
  · exact ⟨[e], h, by simpa using he⟩

end Sys2Proof.Machine

namespace Sys2Proof.Safety

open Sys2Proof.Machine

variable {P : Event → Prop} {s t : State}

/-- A transaction logs its own event, or, held or faulted, none (R110, R113). -/
theorem xact_logs (w : Wire) (h : ∀ result, P (w.event s.params.ops result)) : Logs P s (s.xact w) := by
  obtain ⟨-, hx⟩ | ⟨-, -, ⟨x, -, hx⟩ | ⟨-, e, hx | hx⟩⟩ := s.xact_cases w
  · exact .inl (congrArg State.trace hx :)
  · exact .inl (congrArg State.trace hx :)
  · exact .inr ⟨_, h _, by rw [hx]; exact (xactOk_effect _ _ _).2.1⟩
  · obtain ⟨c, hc⟩ := (s.withEnv e).xactErr_eq w (w.frame s.params.ops)
    exact .inr ⟨_, h none, by rw [hx, hc, State.withCtl_trace, State.log_trace, onFailure_trace]; rfl⟩

theorem accept_logs (h : ∀ e, e.isXact = false → P e) (r : Request) (ok : Bool) (f : Frame) : Logs P s (s.accept r ok f) := by
  obtain ⟨-, hx⟩ | ⟨-, -, hx⟩ | ⟨-, -, hx⟩ := s.accept_cases r ok f
  · exact .inl (congrArg State.trace hx :)
  · exact .inr ⟨.accept r, h _ rfl, by simp [hx]⟩
  · exact .inr ⟨.accept r, h _ rfl, by simp [hx]⟩

/-- An instruction logs its acceptance, or the event of the wire command it is. -/
theorem exec_logs {i : Instr} (hother : ∀ e, e.isXact = false → P e)
    (hwire : ∀ (w : Wire) result, i = w.instr → P (w.event s.params.ops result)) (h : exec i s = .next t) : Logs P s t := by
  have wire : ∀ w : Wire, i = w.instr → Logs P s t := by
    rintro w rfl
    rw [exec_wire] at h
    cases h
    exact xact_logs w fun result => hwire w result rfl
  cases i with
  | wireWren => exact wire .wren rfl
  | wireRdsr => exact wire .rdsr rfl
  | wireRdid => exact wire .rdid rfl
  | wireRead a n => exact wire (.read a n) rfl
  | wirePp a d => exact wire (.pp a d) rfl
  | wireSe a => exact wire (.se a) rfl
  | wireCe => exact wire .ce rfl
  | _ => cases h; exact accept_logs hother _ _ _

/-- The engine's external actions log a transaction only where the head's bytes decode to it. -/
theorem engineAction_logs (hother : ∀ e, e.isXact = false → P e)
    (hwire : ∀ f below w (w' : Wire) result, s.fault = none → s.ctl = .busy (f :: below) → s.nextWire f = some w →
      decodeWire s.params.ops (w.frame s.params.ops) = .ok w'.instr → P (w'.event s.params.ops result))
    (h : EngineAction s t) : Logs P s t := by
  cases h with
  | stop h => exact .inl rfl
  | post hf hc => exact .inr ⟨_, hother _ rfl, rfl⟩
  | entry hf hc => exact .inr ⟨_, hother _ rfl, rfl⟩
  | @deadline timeout t0 k ad below hf hc =>
    refine .inr ⟨.clk s.now, hother _ rfl, ?_⟩
    unfold State.readDeadline
    split
    · obtain ⟨c, hc⟩ := (s.log (.clk s.now)).fail_frame .timeout k ad
      rw [hc]; rfl
    · rfl
  | @async a n below hf hi hc =>
    obtain ⟨x, -, hx⟩ | ⟨-, e, hx | hx⟩ := s.startAsync_cases a n below
    · exact .inl (by rw [hx, State.raise_trace])
    · obtain ⟨c, hc⟩ := State.returnOk_frame (((s.withEnv e).beginAsync a n).log (.astart a n true)) below [] 0
      exact .inr ⟨.astart a n true, hother _ rfl, by rw [hx, hc]; rfl⟩
    · obtain ⟨c, hc⟩ :=
        State.fail_frame (State.log { s.withEnv e with cs := false } (.astart a n false)) .transportError .read a
      exact .inr ⟨.astart a n false, hother _ rfl, by rw [hx, hc]; rfl⟩
  | wire hf hi hc hw hd ht =>
    exact exec_logs hother (fun w' result hi => hwire _ _ _ w' result hf hc hw (hi ▸ hd)) ht

/-- The events of the engine's turn. -/
theorem engineTurn_logs (hother : ∀ e, e.isXact = false → P e)
    (hwire : ∀ stack f below w (w' : Wire) result, s.ctl = .busy stack → (settle stack s).fault = none →
      (settle stack s).ctl = .busy (f :: below) → (settle stack s).nextWire f = some w →
      decodeWire s.params.ops (w.frame s.params.ops) = .ok w'.instr → P (w'.event s.params.ops result))
    (h : s.engineTurn.outcome = .next t) : Logs P s t := by
  cases engineMove_of_turn h with
  | wait => exact .inl rfl
  | request hc hd hi =>
    refine exec_logs hother (fun w result hw => ?_) hi
    have hreq := decodeRequest_isRequest hd
    rw [hw] at hreq
    cases w <;> cases hreq
  | reserved d hc =>
    obtain ⟨-, hx⟩ | ⟨-, hx⟩ := s.acceptReserved_cases (Descriptor.fields d)
    · exact .inl (congrArg State.trace hx :)
    · exact .inr ⟨_, hother _ rfl, by rw [hx, State.raise_trace, State.latch_trace]⟩
  | post hc => exact .inr ⟨_, hother _ rfl, rfl⟩
  | @run stack _ hc hact =>
    obtain ⟨_, _, _, _, _, hs⟩ := settle_frame stack s
    have hlogs := engineAction_logs (P := P) hother (fun f below w w' result hf hu hw hd => by
      have hp : (settle stack s).params = s.params := by rw [hs]
      rw [hp] at hd ⊢
      exact hwire stack f below w w' result hc hf hu hw hd) hact
    rwa [Logs, show (settle stack s).trace = s.trace by rw [hs]] at hlogs

/-- The events of a step: the other agents log no transaction. -/
theorem step_logs (hother : ∀ e, e.isXact = false → P e)
    (hengine : s.takeTurn.2.engineTurn.outcome = .next t → Logs P s.takeTurn.2 t) (h : step s = .next t) :
    Logs P s t := by
  rw [step_eq (fault_none_of_step h)] at h
  cases hg : s.takeTurn.1 with
  | engine => rw [hg] at h; exact hengine h
  | dma =>
    rw [hg] at h; cases h
    obtain ⟨-, hx⟩ | ⟨e, c, hx⟩ := s.takeTurn.2.dmaStep_cases
    · exact .inl (congrArg State.trace hx :)
    · exact .inr ⟨.adone c, hother _ rfl, by rw [hx]; rfl⟩
  | device =>
    rw [hg] at h; cases h
    obtain ⟨e, m, hx, -⟩ := s.takeTurn.2.deviceStep_frame
    exact .inl (congrArg State.trace hx :)
  | clock => rw [hg] at h; cases h; exact .inl rfl
  | host =>
    rw [hg] at h; cases h
    obtain ⟨_, _, _, _, hx⟩ := s.takeTurn.2.hostMove_frame
    exact .inl (congrArg State.trace hx :)

end Sys2Proof.Safety
end

section
/-! PROOFS. The transactions of a consistent machine: their operands are in range (20_memory.md R63, 40_sequencer.md R125), and
only a request's first one can find the device busy (R124, 70_reset_and_hazards.md R268). -/

namespace Sys2Proof.Safety

open Sys2Proof.Machine
open Sys2Proof.Config (sectorSize pageSize)

variable {s t : State} {r : Request} {w : Wire} {stack below : List Frame} {f : Frame}

theorem Wire.instr_injective {w w' : Wire} (h : w.instr = w'.instr) : w = w' := by
  cases w <;> cases w' <;> cases h <;> rfl

/-! ### The stack of a consistent state -/

/-- Where a request runs, its stack is legal and the device is as it asks. -/
theorem Consistent.running (h : Consistent s) (hf : s.fault = none) (hc : s.ctl = .busy stack) :
    ∃ r, Live r s ∧ StackOk s r stack ∧ DeviceReady s stack := by
  have hctl := h.ctl hf
  rw [hc] at hctl
  obtain ⟨r, hreq, hlegal, hdev⟩ := hctl
  exact ⟨r, ⟨h.params, hreq, hf, h.scratch⟩, hlegal, hdev⟩

/-- What the internal computation leaves of a busy stack is one whose head stands at an external action. -/
theorem Settled.actionStack (h : Settled r s) (hc : s.ctl = .busy (f :: below)) : ActionStack r s f below := by
  obtain ⟨x, hx⟩ | ⟨g, rest, hx, ha⟩ := h.ctl
  · rw [hx] at hc; cases hc
  · rw [hx] at hc; cases hc; exact ha

/-- The stack of a synchronous READ is its one frame (30_encoding.md R90). -/
theorem StackOk.of_opRead (h : StackOk s r (f :: below)) (hop : r.op = opRead) : below = [] ∧ ∃ a n, f = .read a n := by
  induction below generalizing f with
  | nil =>
    obtain ⟨-, houter⟩ := h
    cases f with
    | read a n => exact ⟨rfl, a, n, rfl⟩
    | _ => exact absurd (houter.1.symm.trans hop) (by decide)
  | cons g rest ih =>
    obtain ⟨-, a, n, rfl⟩ := ih h.2.2
    obtain ⟨-, hcalls, -⟩ := h
    unfold Calls at hcalls
    split at hcalls <;> simp_all

/-- A READ that the internal computation leaves to be issued receives at least one byte (46_read_path.md R200). -/
theorem settle_read_pos (hs : StackOk s r stack) (hset : Settled r (settle stack s)) {a n : Nat}
    (hc : (settle stack s).ctl = .busy (.read a n :: below)) : 0 < n := by
  have hlegal := (hset.actionStack hc).legal
  obtain rfl := hlegal.below_nil fun _ hcalls => hcalls
  obtain ⟨-, hop, -⟩ := hlegal
  cases stack with
  | nil => exact hs.elim
  | cons g rest =>
    obtain ⟨rfl, b, m, rfl⟩ := hs.of_opRead hop
    simp only [settle] at hc
    split at hc
    · cases hc
    · cases hc; exact Nat.pos_of_ne_zero ‹_›

/-! ### Operands in range (O55) -/

/-- Operands that the device accepts, of a READ at least one byte, make the event of a transaction in range. -/
theorem InRange.event (h : InRange s.params.capacity s.dev w) (hwf : s.params.wf = true)
    (hread : ∀ a n, w = .read a n → 0 < n) (result : Option (List Byte)) :
    TransactionInRange s (w.event s.params.ops result) := by
  cases w with
  | wren => exact ⟨rfl, rfl, rfl⟩
  | rdsr => exact ⟨rfl, rfl, rfl⟩
  | rdid => exact ⟨rfl, rfl, rfl⟩
  | read a n => exact ⟨a, rfl, rfl, hread a n rfl, h⟩
  | pp a d =>
    obtain ⟨-, hpos, hpage, hcap⟩ := h
    exact ⟨a, rfl, rfl, hpos, hpage, hcap⟩
  | se a =>
    obtain ⟨-, halign, hcap⟩ := h
    have hmod := (params_wf hwf).1
    simp only [sectorSize] at halign
    exact ⟨a, rfl, rfl, rfl, halign, by omega⟩
  | ce => exact ⟨rfl, rfl, rfl⟩

/-- What the head of a settled stack issues as a READ receives at least one byte. -/
theorem nextWire_read_pos {u : State} {b : Addr} {n : Nat} (hw : u.nextWire f = some (.read b n))
    (hread : ∀ a m, f = .read a m → 0 < m) : 0 < n := by
  unfold State.nextWire at hw
  split at hw <;> cases hw
  · exact Nat.zero_lt_succ _
  · exact hread _ _ rfl

theorem transactionInRange_of_not_xact {e : Event} (he : e.isXact = false) : TransactionInRange s e := by
  cases e with
  | xact k cmd tx rx result => cases he
  | _ => trivial

/-- From a consistent state the engine's turn logs transactions in range only. -/
theorem engineTurn_inRange (h : Consistent s) (hf : s.fault = none) (ht : s.engineTurn.outcome = .next t) :
    Logs (TransactionInRange s) s t := by
  refine engineTurn_logs (fun _ => transactionInRange_of_not_xact) ?_ ht
  intro stack f below w w' result hc _ hu hw hd
  obtain ⟨r, hl, hlegal, hdev⟩ := h.running hf hc
  have hset := settle_settled stack s hl (returns_of_legal hlegal hdev)
  have hrange := (hset.actionStack hu).inRange hset.toLive hw
  have hread : ∀ a n, w = .read a n → 0 < n := fun b n hb =>
    nextWire_read_pos (hb ▸ hw) fun a m hfr => settle_read_pos hlegal hset (hfr ▸ hu)
  obtain ⟨_, _, _, _, _, hs⟩ := settle_frame stack s
  rw [hs] at hrange
  obtain rfl : w' = w := Wire.instr_injective (decodeWire_frame (params_wf h.params).2.2.2 hd)
  exact hrange.event h.params hread result

/-- Settles O55: the transaction is the settled head's, whose legal stack gives its operands. -/
theorem transactionsStayInRange : Obligations.TransactionsStayInRange := by
  intro s t h ht
  have hf : s.takeTurn.2.fault = none := by rw [State.takeTurn_fault, fault_none_of_step ht]
  have hturn := engineTurn_inRange (t := t) (withEnv_keeps h _) hf
  exact (step_logs (fun _ => transactionInRange_of_not_xact) hturn ht).events

/-! ### A busy device (O57) -/

/-- Only a busy device refuses a transaction as busy, and never an RDSR (R116, R124). -/
theorem check_busy {d : Device} {cap : Nat} (h : d.check cap w = some .deviceBusyAccess) :
    w ≠ .rdsr ∧ d.pending ≠ .none := by
  refine ⟨fun hw => ?_, fun hp => ?_⟩
  · subst hw
    cases h
  · have hready : d.busy = false := by simp [Device.busy, hp]
    cases w with
    | wren | rdsr | rdid => simp [Device.check, hready] at h
    | read | pp | se | ce => grind [Device.check, Device.writeCheck]

/-- A transaction marks `DeviceBusyAccess` only on a busy device, and an RDSR never does (R116, R124). -/
theorem xact_busy (hf : s.fault = none) (h : (s.xact w).fault = some .deviceBusyAccess) :
    w ≠ .rdsr ∧ s.dev.pending ≠ .none := by
  obtain ⟨-, hx⟩ | ⟨-, -, ⟨x, hcheck, hx⟩ | ⟨-, e, hx | hx⟩⟩ := s.xact_cases w
  · simp [hx, hf] at h
  · rw [hx] at h
    cases h
    exact check_busy hcheck
  · rw [hx, (xactOk_busFrame _ _ _).fault_eq] at h
    simp [hf] at h
  · rw [hx, (xactErr_busFrame _ _ _).fault_eq] at h
    simp [hf] at h

theorem accept_not_busy (hf : s.fault = none) (r : Request) (ok : Bool) (f : Frame) :
    (s.accept r ok f).fault ≠ some .deviceBusyAccess := by
  obtain ⟨-, hx⟩ | ⟨-, -, hx⟩ | ⟨-, -, hx⟩ := s.accept_cases r ok f <;> simp [hx, hf, State.raise_fault]

theorem acceptReserved_not_busy (hf : s.fault = none) (r : Request) :
    (s.acceptReserved r).fault ≠ some .deviceBusyAccess := by
  obtain ⟨-, hx⟩ | ⟨-, hx⟩ := s.acceptReserved_cases r <;> simp [hx, hf, State.raise_fault]

theorem request_not_busy (hf : s.fault = none) {i : Instr} (hi : isRequest i = true) (ht : exec i s = .next t) :
    t.fault ≠ some .deviceBusyAccess := by
  cases i with
  | mwrite | wnochk | pprog | serase | cerase | wready | read | reada | rdid => cases ht; exact accept_not_busy hf _ _ _
  | _ => cases hi

/-- The start of an asynchronous read marks `DeviceBusyAccess` only on a busy device (46_read_path.md R201). -/
theorem startAsync_busy (hf : s.fault = none) {a n : Nat}
    (h : (s.startAsync a n below).fault = some .deviceBusyAccess) : s.dev.pending ≠ .none := by
  obtain ⟨x, hcheck, hx⟩ | ⟨-, e, hx | hx⟩ := s.startAsync_cases a n below
  · simp only [hx, State.raise_fault, hf, Option.getD_none, Option.some.injEq] at h
    exact (check_busy (h ▸ hcheck)).2
  · obtain ⟨c, hc⟩ := State.returnOk_frame (((s.withEnv e).beginAsync a n).log (.astart a n true)) below [] 0
    rw [hx, hc] at h
    exact absurd (hf.symm.trans h) nofun
  · obtain ⟨c, hc⟩ :=
      State.fail_frame (State.log { s.withEnv e with cs := false } (.astart a n false)) .transportError .read a
    rw [hx, hc] at h
    exact absurd (hf.symm.trans h) nofun

theorem readDeadline_fault (s : State) (timeout t0 : Nat) (k : Kind) (ad : Nat) (below : List Frame) :
    (s.readDeadline timeout t0 k ad below).fault = s.fault := by
  unfold State.readDeadline
  split
  · obtain ⟨c, hc⟩ := (s.log (.clk s.now)).fail_frame .timeout k ad
    rw [hc]; rfl
  · rfl

/-- A frame that issues anything but an RDSR is no wait. -/
theorem isWait_of_nextWire (hw : s.nextWire f = some w) (hne : w ≠ .rdsr) : isWait f = false := by
  cases f with
  | waitReady pt timeout t0 k ad => cases pt <;> cases hw; exact absurd rfl hne
  | _ => rfl

/-- The engine's external action marks `DeviceBusyAccess` only on a busy device, from a head that does not poll it. -/
theorem engineAction_busy (ho : s.params.ops.distinct = true) (hf : s.fault = none) (h : EngineAction s t)
    (hb : t.fault = some .deviceBusyAccess) :
    s.dev.pending ≠ .none ∧ ∃ f below, s.ctl = .busy (f :: below) ∧ isWait f = false := by
  cases h with
  | stop => simp [hf] at hb
  | post => simp [hf] at hb
  | entry => rw [show (s.readEntry _ _ _ _).fault = s.fault from rfl, hf] at hb; cases hb
  | deadline => rw [readDeadline_fault, hf] at hb; cases hb
  | async _ _ hc => exact ⟨startAsync_busy hf hb, _, _, hc, rfl⟩
  | wire _ _ hc hw hd ht =>
    obtain rfl := decodeWire_frame ho hd
    rw [exec_wire] at ht
    cases ht
    obtain ⟨hne, hp⟩ := xact_busy hf hb
    exact ⟨hp, _, _, hc, isWait_of_nextWire hw hne⟩

/-- From a stack whose head does not wait, once its request has begun, no action finds the device busy (R266); a wait's own
next action is a poll or a clock read. -/
theorem DeviceReady.fresh (h : DeviceReady s stack) (hp : s.dev.pending ≠ .none)
    (hc : (settle stack s).ctl = .busy (f :: below)) (hw : isWait f = false) : freshStack stack = true := by
  cases stack with
  | nil => cases hc
  | cons g rest =>
    by_contra hfresh
    cases g with
    | waitReady pt timeout t0 k ad => cases hc; cases hw
    | _ => exact hp (h.2 rfl (by simpa using hfresh))

/-- A fresh stack is the one frame its request was accepted with. -/
theorem initialFrame_of_freshStack (h : freshStack stack = true) : ∃ f, stack = [f] ∧ initialFrame f = true := by
  unfold freshStack at h
  split at h
  · exact ⟨_, rfl, h⟩
  · cases h

/-- From a consistent state the engine's turn marks `DeviceBusyAccess` only at a request's first transaction (R268). -/
theorem engineTurn_busy (h : Consistent s) (hf : s.fault = none) (ht : s.engineTurn.outcome = .next t)
    (hb : t.fault = some .deviceBusyAccess) : ∃ f, s.ctl = .busy [f] ∧ initialFrame f = true := by
  cases engineMove_of_turn ht with
  | wait => simp [hf] at hb
  | request hc hd hi => exact absurd hb (request_not_busy hf (decodeRequest_isRequest hd) hi)
  | reserved d hc => exact absurd hb (acceptReserved_not_busy hf _)
  | post hc => simp [hf] at hb
  | @run stack _ hc hact =>
    obtain ⟨r, hl, hlegal, hdev⟩ := h.running hf hc
    have hset := settle_settled stack s hl (returns_of_legal hlegal hdev)
    obtain ⟨hp, f, below, hu, hw⟩ := engineAction_busy (params_wf hset.params).2.2.2 hset.fault hact hb
    obtain ⟨_, _, _, _, _, hs⟩ := settle_frame stack s
    rw [hs] at hp
    obtain ⟨g, rfl, hg⟩ := initialFrame_of_freshStack (hdev.fresh hp hu hw)
    exact ⟨g, hc, hg⟩

/-- Settles O57: no agent but the engine marks a fault, and within a request a head that does not wait finds the device
ready. -/
theorem busyAccessOnlyAtTheStart : Obligations.BusyAccessOnlyAtTheStart := by
  intro s t h hf ht hb
  rw [step_eq hf] at ht
  cases hg : s.takeTurn.1 with
  | engine =>
    rw [hg] at ht
    exact engineTurn_busy (s := s.takeTurn.2) (withEnv_keeps h _) hf ht hb
  | dma =>
    rw [hg] at ht; cases ht
    obtain ⟨-, hx⟩ | ⟨e, c, hx⟩ := s.takeTurn.2.dmaStep_cases <;> simp [hx, hf] at hb
  | device =>
    rw [hg] at ht; cases ht
    obtain ⟨e, m, hx, -⟩ := s.takeTurn.2.deviceStep_frame
    simp [hx, hf] at hb
  | clock => rw [hg] at ht; cases ht; simp [hf] at hb
  | host =>
    rw [hg] at ht; cases ht
    obtain ⟨_, _, _, _, hx⟩ := s.takeTurn.2.hostMove_frame
    simp [hx, hf] at hb

end Sys2Proof.Safety
end
section
/-! PROOFS. The seven wire commands as exec runs them on a free bus (40_sequencer.md R113 to R124). -/

namespace Sys2Proof.Machine

/-! ### The device's checks (R115 to R121, R124) -/

section checks

variable {d : Device} {cap : Nat}

/-- Every command but RDSR finds a busy device busy (R124). -/
theorem Device.check_of_busy (hp : d.pending ≠ .none) {w : Wire} (hw : w ≠ .rdsr) :
    d.check cap w = some .deviceBusyAccess := by
  have hbusy := d.busy_iff.mpr hp
  cases w with
  | rdsr => exact absurd rfl hw
  | _ => simp [Device.check, Device.writeCheck, hbusy]

variable (hp : d.pending = .none)
include hp

theorem Device.check_wren_none : d.check cap .wren = none := by simp [Device.check, Device.busy, hp]

theorem Device.check_rdid_none : d.check cap .rdid = none := by simp [Device.check, Device.busy, hp]

theorem Device.check_read_range {a : Addr} {n : Nat} (h : cap < a.toNat + n) :
    d.check cap (.read a n) = some .deviceDefined := by
  simp [Device.check, Device.busy, hp, h]

theorem Device.writeCheck_ready : d.writeCheck = if d.wel then none else some .noWriteEnable := by
  simp [Device.writeCheck, Device.busy, hp]

/-- A ready device without the latch takes no program or erase (R119 to R121). -/
theorem Device.check_noWriteEnable (hwel : d.wel = false) {w : Wire} (hw : w.kind = .pp ∨ w.kind = .se ∨ w.kind = .ce) :
    d.check cap w = some .noWriteEnable := by
  cases w with
  | pp | se | ce => simp [Device.check, d.writeCheck_ready hp, hwel]
  | _ => simp [Wire.kind] at hw

variable (hwel : d.wel = true)
include hwel

theorem Device.check_pp_none {a : Addr} {bs : List Byte} (hpos : 1 ≤ bs.length) (hlen : bs.length ≤ 256)
    (ha : a.toNat < cap) : d.check cap (.pp a bs) = none := by
  have hfits : ¬(bs.length = 0 ∨ Config.pageSize < bs.length) := by simp only [Config.pageSize]; omega
  simp only [Device.check, d.writeCheck_ready hp, hwel, if_true, if_neg hfits, if_neg (Nat.not_le.mpr ha)]

theorem Device.check_pp_range {a : Addr} {bs : List Byte} (h : bs.length = 0 ∨ 256 < bs.length ∨ cap ≤ a.toNat) :
    d.check cap (.pp a bs) = some .deviceDefined := by
  rw [← or_assoc] at h
  simp only [Device.check, d.writeCheck_ready hp, hwel, if_true]
  split_ifs with hlen ha
  · rfl
  · rfl
  · exact absurd (h.resolve_left hlen) ha

theorem Device.check_se_none {a : Addr} (halign : a.toNat % 4096 = 0) (ha : a.toNat < cap) :
    d.check cap (.se a) = none := by
  simp [Device.check, d.writeCheck_ready hp, hwel, halign, ha]

theorem Device.check_se_range {a : Addr} (h : a.toNat % 4096 ≠ 0 ∨ cap ≤ a.toNat) :
    d.check cap (.se a) = some .deviceDefined := by
  simp only [Device.check, d.writeCheck_ready hp, hwel, if_true, if_pos h]

theorem Device.check_ce_none : d.check cap .ce = none := by simp [Device.check, d.writeCheck_ready hp, hwel]

end checks

end Sys2Proof.Machine

namespace Sys2Proof.Safety

open Sys2Proof.Machine

/-! ### Every call `Ok` (R115 to R121) -/

/-- Settles O12: a WREN makes one call, and its effect is the latch. -/
theorem wireWrenSetsLatch : Obligations.WireWrenSetsLatch := fun s _b _rest h hp hd hb =>
  exec_succeeds (w := .wren) h (Device.check_wren_none hp) ((s.transfer_one rfl rfl).trans (drawOk_of_okDraw hd hb)) nofun

/-- Settles O13: the device checks nothing, and the reply is the status byte of the third draw. -/
theorem wireRdsrReportsBusy : Obligations.WireRdsrReportsBusy := by
  intro s b c v rest h hd hb hc
  have hreply : ((s.withEnv { s.env with draws := v :: rest }).reply .rdsr).1 = [statusByte s.dev.busy v] := rfl
  obtain ⟨t, hexec, hframe, hscratch, hdev, htrace⟩ :=
    exec_succeeds (w := .rdsr) h rfl (transfer_two_ok (.inl ⟨rfl, nofun⟩) hd hb hc) nofun
  rw [hreply] at htrace
  exact ⟨t, statusByte s.dev.busy v, hexec, hframe, hscratch, hdev, htrace,
    by rw [statusByte_bit0]; exact s.dev.busy_iff, statusByte_bit _ _⟩

/-- The two bytes of an identifier, high byte first, are the identifier (30_encoding.md R84). -/
theorem idOfReply_bytes (i : BitVec 16) : idOfReply [i.extractLsb' 8 8, i.extractLsb' 0 8] = i :=
  (BitVec.extractLsb'_append_extractLsb'_eq_extractLsb' (x := i) rfl).trans (BitVec.extractLsb'_eq_self)

/-- The two bytes of an identifier as a natural, the high byte first (R84, R117). -/
theorem toNat_bytes (i : BitVec 16) : (i.extractLsb' 8 8).toNat * 256 + (i.extractLsb' 0 8).toNat = i.toNat := by
  simp only [BitVec.extractLsb'_toNat]
  omega

/-- Settles O14: the reply is the two bytes of `DEVICE_ID`. -/
theorem wireRdidRepliesId : Obligations.WireRdidRepliesId := by
  intro s b c rest h hp hd hb hc
  obtain ⟨t, hexec, hframe, hscratch, hdev, htrace⟩ :=
    exec_succeeds (w := .rdid) h (Device.check_rdid_none hp) (transfer_two_ok (.inl ⟨rfl, nofun⟩) hd hb hc) nofun
  exact ⟨t, _, _, hexec, hframe, hscratch, hdev, htrace, toNat_bytes _, idOfReply_bytes _⟩

/-- Settles O16: a PP sends its payload in a second call, and its effect is the pending program. -/
theorem wirePpPends : Obligations.WirePpPends := by
  intro s a d b c rest h hp hwel hpos hlen ha hd hb hc
  have htwo : WireFrame.TwoCalls ((Wire.pp a d).frame s.params.ops) := .inr ⟨List.ne_nil_of_length_pos hpos, rfl⟩
  exact exec_succeeds (w := .pp a d) h (Device.check_pp_none hp hwel hpos hlen ha) (transfer_two_ok htwo hd hb hc) nofun

/-- Settles O17: an erase makes one call, and its effect is the pending erase. -/
theorem wireErasesPend : Obligations.WireErasesPend := by
  intro s a b rest h hp hwel hd hb
  have hok := drawOk_of_okDraw hd hb
  exact ⟨fun halign ha => exec_succeeds (w := .se a) h (Device.check_se_none hp hwel halign ha)
      ((s.transfer_one rfl rfl).trans hok) nofun,
    exec_succeeds (w := .ce) h (Device.check_ce_none hp hwel) ((s.transfer_one rfl rfl).trans hok) nofun⟩

/-! ### The start of an asynchronous read (46_read_path.md R201) -/

/-- The engine's turn at a settled stack is its head's external action (10_state.md R21). -/
theorem engineTurn_settled {s : State} {stack below : List Frame} {f : Frame} (hc : s.ctl = .busy stack)
    (hf : (settle stack s).fault = none) (hu : (settle stack s).ctl = .busy (f :: below)) :
    s.engineTurn = s.act (settle stack s) f below := by
  simp [State.engineTurn, hc, State.proceed, hf, hu]

/-- The step of the engine at a stack that settles in `u` (R21). -/
theorem step_settled {s u : State} {stack below : List Frame} {f : Frame} {turns : List Config.Agent}
    (hf : s.fault = none) (ht : s.env.turns = .engine :: turns) (hc : s.ctl = .busy stack)
    (hu : settle stack (s.withEnv { s.env with turns := turns }) = u) (huf : u.fault = none)
    (huc : u.ctl = .busy (f :: below)) :
    step s = ((s.withEnv { s.env with turns := turns }).act u f below).outcome := by
  subst hu
  exact (step_turn hf ht).trans (congrArg Plan.outcome (engineTurn_settled (s := s.withEnv _) hc huf huc))

/-- At `RA_CMD` with at least one byte to read, the step is the start of the asynchronous read. -/
theorem step_startAsync {s : State} {a n : Nat} {below : List Frame} {turns : List Config.Agent} (h : BusFree s)
    (ht : s.env.turns = .engine :: turns) (hc : s.ctl = .busy (.readAsync a n :: below)) (hn : 1 ≤ n) :
    step s = .next ((s.withEnv { s.env with turns := turns }).startAsync a n below) := by
  obtain ⟨hf, hi⟩ := h
  have hsettle : settle (.readAsync a n :: below) (s.withEnv { s.env with turns := turns })
      = s.withEnv { s.env with turns := turns } := by
    simp only [settle, if_neg (Nat.ne_of_gt hn), ← hc]
    rfl
  rw [step_settled hf ht hc hsettle hf hc]
  simp [State.act, hi, Plan.outcome]

/-- A failed command phase ends the running request with nothing in flight (R201). -/
theorem startAsync_fails {s : State} {stack below : List Frame} {a : Addr} {n : Nat} {b : Byte} {rest : List Byte}
    (hc : s.ctl = .busy stack) (hcheck : s.dev.check s.params.capacity (.read a n) = none)
    (hd : s.env.draws = b :: rest) (hb : okDraw b = false) :
    s.startAsync a.toNat n below
      = (State.log { s.withEnv { s.env with draws := rest } with cs := false } (.astart a.toNat n false)).withCtl
          (.ending (.failed .transportError .read a.toNat)) := by
  simp only [State.startAsync, BitVec.ofNat_toNat, BitVec.setWidth_eq, hcheck, drawOk_of_not_okDraw hd hb]
  exact State.fail_of_busy (by exact hc) _ _ _

/-! ### A command the device cannot take (R113) -/

/-- Settles O18: each check, and where it fails the transaction is its fault mark. -/
theorem deviceChecksComeFirst : Obligations.DeviceChecksComeFirst := by
  intro s a n d h
  refine ⟨fun hp i hi => ?_, fun hp hcap => exec_faulted (w := .read a n) h (Device.check_read_range hp hcap),
    fun hp hwel i hi => ?_, fun hp hwel hbad => exec_faulted (w := .pp a d) h (Device.check_pp_range hp hwel hbad),
    fun hp hwel hbad => exec_faulted (w := .se a) h (Device.check_se_range hp hwel hbad), fun below rest ht hc hn => ?_⟩
  · have busy : ∀ w : Wire, w ≠ .rdsr → exec w.instr s = .next { s with fault := some .deviceBusyAccess } :=
      fun w hw => exec_faulted h (Device.check_of_busy hp hw)
    simp only [List.mem_cons, List.not_mem_nil, or_false] at hi
    obtain rfl | rfl | rfl | rfl | rfl | rfl := hi
    · exact busy .wren nofun
    · exact busy .rdid nofun
    · exact busy (.read a n) nofun
    · exact busy (.pp a d) nofun
    · exact busy (.se a) nofun
    · exact busy .ce nofun
  · have noLatch : ∀ w : Wire, w.kind = .pp ∨ w.kind = .se ∨ w.kind = .ce →
        exec w.instr s = .next { s with fault := some .noWriteEnable } :=
      fun w hw => exec_faulted h (Device.check_noWriteEnable hp hwel hw)
    simp only [List.mem_cons, List.not_mem_nil, or_false] at hi
    obtain rfl | rfl | rfl := hi
    · exact noLatch (.pp a d) (.inl rfl)
    · exact noLatch (.se a) (.inr (.inl rfl))
    · exact noLatch .ce (.inr (.inr rfl))
  · have start : ∀ x, s.dev.check s.params.capacity (.read a n) = some x →
        step s = .next { s with env := { s.env with turns := rest }, fault := some x } := fun x hx => by
      rw [step_startAsync h ht hc hn]
      simp [State.startAsync, hx, State.raise_eq, h.1, State.withEnv]
    exact ⟨fun hp => start _ (Device.check_of_busy hp nofun), fun hp hcap => start _ (Device.check_read_range hp hcap)⟩

/-! ### A failed call (R123) -/

/-- Settles O19: of the failures R123 lists, only WREN's changes the device; a failed start of an asynchronous read draws
nothing more and ends the request. -/
theorem failedReadsLeaveTheDevice : Obligations.FailedReadsLeaveTheDevice := by
  intro s stack a n b c rest h hc hd
  refine ⟨fun hbc => ?_, fun hbc hp => ?_, fun hbc hp hn hcap => ?_, fun hb hp => ?_, ?_⟩
  · obtain ⟨e, he⟩ := transfer_two_fails (f := Wire.frame s.params.ops .rdsr) (.inl ⟨rfl, nofun⟩) hd hbc
    exact exec_fails (w := .rdsr) (e := e) h hc rfl he
  · obtain ⟨e, he⟩ := transfer_two_fails (f := Wire.frame s.params.ops .rdid) (.inl ⟨rfl, nofun⟩) hd hbc
    exact exec_fails (w := .rdid) (e := e) h hc (Device.check_rdid_none hp) he
  · obtain ⟨e, he⟩ := transfer_two_fails (f := Wire.frame s.params.ops (.read a n)) (.inl ⟨rfl, Nat.ne_of_gt hn⟩) hd hbc
    exact exec_fails (w := .read a n) (e := e) h hc (Device.check_read_none hp hcap) he
  · have hone := (s.transfer_one (f := Wire.frame s.params.ops .wren) rfl rfl).trans (drawOk_of_not_okDraw hd hb)
    exact exec_fails (w := .wren) h hc (Device.check_wren_none hp) hone
  · intro below turns hb hp hn hcap hst ht
    subst hst
    have hstart := startAsync_fails (s := s.withEnv { s.env with turns := turns }) (below := below) hc
      (Device.check_read_none hp hcap) hd hb
    refine ⟨_, (step_startAsync h ht hc hn).trans (congrArg Host.Outcome.next hstart), rfl, h.2, fun hbus => ?_,
      [.astart a.toNat n false], rfl, by simp⟩
    obtain ⟨-, hdma, -⟩ := hbus
    simpa [h.2] using hdma

/-- Outside the range of a failed program or erase the array is as it was, and what stays pending is over that range. -/
theorem FailureLeaves.outside {s : State} {w : Wire} {d : Device} {lo n : Nat} (h : FailureLeaves s w d)
    (hwf : s.dev.array.wf = true) (hp : s.dev.pending = .none) (hr : failRange s.params.capacity w = some (lo, n)) :
    (d.pending = .none ∨ d.pending = .havoc lo (lo + n))
      ∧ ∀ x, ¬(lo ≤ x ∧ x < lo + n) → d.array.read x = s.dev.array.read x := by
  obtain ⟨ha, hpend⟩ | ⟨lo', n', bs, hr', hlen, ha, hpend⟩ := h
  · exact ⟨.inl (hpend.trans hp), fun x _ => by rw [ha]⟩
  · rw [hr'] at hr
    cases hr
    exact ⟨hpend, fun x hx => by rw [ha, Memory.read_writeRange hwf, hlen, if_neg hx]⟩

/-- A failed program or erase of a running request ends it and may change the bytes of its range only (R123). -/
theorem exec_fails_write {s : State} {w : Wire} {e : Env} {stack : List Frame} {lo n : Nat} (h : BusFree s)
    (hc : s.ctl = .busy stack) (hp : s.dev.pending = .none) (hwf : s.dev.array.wf = true)
    (hcheck : s.dev.check s.params.capacity w = none)
    (ht : s.transfer (w.frame s.params.ops) = (false, s.withEnv e)) (hr : failRange s.params.capacity w = some (lo, n)) :
    ∃ t, exec w.instr s = .next t ∧ BusFrame s t ∧ t.scratch = s.scratch
      ∧ t.ctl = .ending (.failed .transportError w.kind w.addr) ∧ t.trace = s.trace ++ [w.event s.params.ops none]
      ∧ (t.dev.pending = .none ∨ t.dev.pending = .havoc lo (lo + n))
      ∧ ∀ x, ¬(lo ≤ x ∧ x < lo + n) → t.dev.array.read x = s.dev.array.read x := by
  obtain ⟨t, hexec, hframe, hscratch, hdev, hctl, htrace⟩ := exec_fails h hc hcheck ht
  obtain ⟨e', d, hd, hleaves⟩ := onFailure_leaves { s.withEnv e with cs := false } w
  rw [hd] at hdev
  obtain ⟨hpend, hread⟩ := FailureLeaves.outside hleaves hwf hp hr
  rw [State.withDev_dev] at hdev
  exact ⟨t, hexec, hframe, hscratch, hctl, htrace, hdev ▸ hpend, hdev ▸ hread⟩

/-- Settles O20: the range of each is the page, the sector or the flash. -/
theorem failedProgramsStayInTheirRange : Obligations.FailedProgramsStayInTheirRange := by
  intro s stack a d b c rest h hc hp hwel hwf hd
  have hone : okDraw b = false → s.drawOk = _ := drawOk_of_not_okDraw hd
  refine ⟨fun hbc hpos hlen ha => ?_, fun hb halign ha => ?_, fun hb => ?_⟩
  · obtain ⟨e, he⟩ := transfer_two_fails (f := (Wire.pp a d).frame s.params.ops)
      (.inr ⟨List.ne_nil_of_length_pos hpos, rfl⟩) hd hbc
    obtain ⟨t, hexec, hframe, hscratch, hctl, htrace, hpend, hread⟩ :=
      exec_fails_write (w := .pp a d) h hc hp hwf (Device.check_pp_none hp hwel hpos hlen ha) he rfl
    exact ⟨t, hexec, hframe, hscratch, hctl, htrace, hpend, fun x hx => hread x (by simp only [Config.pageSize]; omega)⟩
  · obtain ⟨t, hexec, hframe, hscratch, hctl, htrace, hpend, hread⟩ :=
      exec_fails_write (w := .se a) h hc hp hwf (Device.check_se_none hp hwel halign ha)
        ((s.transfer_one rfl rfl).trans (hone hb)) rfl
    exact ⟨t, hexec, hframe, hscratch, hctl, htrace, hpend, fun x hx => hread x (by simp only [Config.sectorSize]; omega)⟩
  · obtain ⟨t, hexec, hframe, hscratch, hctl, htrace, hpend, hread⟩ :=
      exec_fails_write (w := .ce) h hc hp hwf (Device.check_ce_none hp hwel)
        ((s.transfer_one rfl rfl).trans (hone hb)) rfl
    rw [Nat.zero_add] at hpend hread
    exact ⟨t, hexec, hframe, hscratch, hctl, htrace, hpend, fun x hx => hread x (by omega)⟩

/-! ### The step of a transaction (10_state.md R21) -/

/-- A settled head that issues a transaction runs what its bytes decode to (R110). -/
theorem act_wire {s u : State} {f : Frame} {below : List Frame} {w : Wire} {i : Instr} (hi : s.inflight = false)
    (hw : u.nextWire f = some w) (hd : decodeWire u.params.ops (w.frame u.params.ops) = .ok i) :
    s.act u f below = .run i u := by
  unfold State.act
  split
  · cases hw
  · cases hw
  · cases hw
  · simp [hw, hi, hd]

/-- The frame of a transaction, but for a READ of nothing, decodes to its own wire command (R87, R125). -/
theorem decodeWire_frame_self {o : Config.Opcodes} (ho : o.distinct = true) {w : Wire} (hw : ∀ a, w ≠ .read a 0) :
    decodeWire o (w.frame o) = .ok w.instr := by
  refine decodeWire_of_wireFormat ho ?_
  cases w with
  | pp a d =>
    have h := WireFormat.pp (o := o) (a.extractLsb' 16 8) (a.extractLsb' 8 8) (a.extractLsb' 0 8) d
    rwa [addrOfBytes_addr24] at h
  | read a n => exact wireFormat_frame o (decide_eq_true (Nat.pos_of_ne_zero fun hn => hw a (hn ▸ rfl)))
  | wren | rdsr | rdid | se | ce => exact wireFormat_frame o rfl

/-- Settles O29: the engine's turn settles, and its head's transaction is the external action. -/
theorem stepRunsTheWireCommand : Obligations.StepRunsTheWireCommand := by
  intro s u stack f below w rest hf hi ht hc hu huf huc hw
  have hrun : ∀ i, decodeWire u.params.ops (w.frame u.params.ops) = .ok i → step s = exec i u := fun i hd => by
    rw [step_settled hf ht hc hu huf huc, act_wire (by exact hi) hw hd]
    rfl
  exact ⟨hrun, fun ho hread => hrun _ (decodeWire_frame_self ho hread)⟩

end Sys2Proof.Safety
end
section
/-! PROOFS. The engine's step in a wait (41_status_poller.md R141 to R144): a clock read or a poll, and where each leads. -/

namespace Sys2Proof.Safety

open Sys2Proof.Machine
open Sys2Proof.Config (Agent)

variable {s : State} {pt : WrPoint} {timeout t0 ad : Nat} {k : Kind} {below : List Frame}

/-! ### One turn of the engine -/

/-- A wait has no internal computation: its head stands at its next external action (10_state.md R21). -/
theorem settle_wait (hc : s.ctl = .busy (.waitReady pt timeout t0 k ad :: below)) :
    settle (.waitReady pt timeout t0 k ad :: below) s = s := by
  rw [settle, ← hc]
  rfl

theorem engineTurn_wait (hf : s.fault = none) (hc : s.ctl = .busy (.waitReady pt timeout t0 k ad :: below)) :
    s.engineTurn = s.act s (.waitReady pt timeout t0 k ad) below := by
  have hsettle := settle_wait hc
  rw [engineTurn_settled hc (by rw [hsettle]; exact hf) (by rw [hsettle]; exact hc), hsettle]

/-- The engine's step in a wait (41_status_poller.md R141). -/
theorem step_wait {turns : List Agent} (hf : s.fault = none) (ht : s.env.turns = .engine :: turns)
    (hc : s.ctl = .busy (.waitReady pt timeout t0 k ad :: below)) :
    step s = ((s.withEnv { s.env with turns := turns }).act (s.withEnv { s.env with turns := turns })
      (.waitReady pt timeout t0 k ad) below).outcome :=
  step_settled hf ht hc (settle_wait hc) hf hc

/-- Past the deadline the clock read ends the request with `Timeout`, before it the next poll follows (R143). -/
theorem readDeadline_eq (hc : s.ctl = .busy (.waitReady .clk timeout t0 k ad :: below)) :
    s.readDeadline timeout t0 k ad below = (s.log (.clk s.now)).withCtl
      (if timeout ≤ s.now - t0 then .ending (.failed .timeout k ad) else .busy (.waitReady .poll timeout t0 k ad :: below)) := by
  rw [State.readDeadline, State.fail_of_busy (s := s.log (.clk s.now)) hc, deadlinePassed]
  by_cases hpassed : timeout ≤ s.now - t0
  · rw [if_pos hpassed, if_pos (decide_eq_true hpassed)]
  · rw [if_neg hpassed, if_neg (by simpa using hpassed)]

/-- Settles O31: at both control points the engine's turn is the clock read. -/
theorem waitReadsTheClock : Obligations.WaitReadsTheClock := by
  intro s timeout t0 k ad below rest hf ht
  refine ⟨fun hc => step_wait hf ht hc, fun hc => ?_⟩
  rw [step_wait hf ht hc]
  exact congrArg Host.Outcome.next (readDeadline_eq (s := s.withEnv _) hc)

/-- The wait has returned `Ok` to its caller, or ended its WREADY with `Ok` (R141). -/
def WaitReturned (below : List Frame) (t : State) : Prop :=
  (below ≠ [] ∧ t.ctl = .busy below) ∨ (below = [] ∧ t.ctl = .ending (.ok [] 0))

theorem returnOk_waitReturned (s : State) (below : List Frame) : WaitReturned below (s.returnOk below [] 0) := by
  obtain ⟨hnil, hret⟩ | ⟨hne, hret⟩ := s.returnOk_cases below [] 0
  · exact .inr ⟨hnil, congrArg State.ctl hret⟩
  · exact .inl ⟨hne, congrArg State.ctl hret⟩

/-- After a poll whose calls are all `Ok` the clock read follows while the device is busy, else the wait returns (R141). -/
theorem xactOk_rdsr_ctl (hc : s.ctl = .busy (.waitReady .poll timeout t0 k ad :: below)) (f : WireFrame) :
    (s.dev.pending ≠ .none ∧ (s.xactOk .rdsr f).ctl = .busy (.waitReady .clk timeout t0 k ad :: below))
      ∨ (s.dev.pending = .none ∧ WaitReturned below (s.xactOk .rdsr f)) := by
  obtain ⟨e, he⟩ := xactOk_eq s .rdsr f
  have hready : readyReply (s.reply .rdsr).1 = !s.dev.busy := congrArg (!·) (statusByte_bit0 _ _)
  rw [he, State.resume]
  simp only [State.log_ctl, State.withDev_ctl, State.withEnv_ctl, hc, Wire.kind, hready]
  cases hbusy : s.dev.busy with
  | true => exact .inl ⟨s.dev.busy_iff.mp hbusy, rfl⟩
  | false => exact .inr ⟨by simpa [hbusy] using s.dev.busy_iff, returnOk_waitReturned _ _⟩

/-- A poll whose calls are all `Ok` changes nothing but the trace and the control state (R141). -/
theorem exec_rdsr_wait {b c v : Byte} {more : List Byte} (h : BusFree s)
    (hc : s.ctl = .busy (.waitReady .poll timeout t0 k ad :: below)) (hd : s.env.draws = b :: c :: v :: more)
    (hb : okDraw b = true) (hb' : okDraw c = true) :
    ∃ t sr, exec .wireRdsr s = .next t ∧ BusFrame s t ∧ t.scratch = s.scratch ∧ t.dev = s.dev
      ∧ t.trace = s.trace ++ [.xact .rdsr [s.params.ops.rdsr] [] 1 (some [sr])]
      ∧ ((s.dev.pending ≠ .none ∧ t.ctl = .busy (.waitReady .clk timeout t0 k ad :: below))
        ∨ (s.dev.pending = .none ∧ WaitReturned below t)) := by
  obtain ⟨t, sr, hexec, hframe, hscratch, hdev, htrace, -, -⟩ := wireRdsrReportsBusy s b c v more h hd hb hb'
  refine ⟨t, sr, hexec, hframe, hscratch, hdev, htrace, ?_⟩
  have hcalls := transfer_two_ok (f := Wire.frame s.params.ops .rdsr) (.inl ⟨rfl, nofun⟩) hd hb hb'
  obtain rfl := Host.Outcome.next.inj ((exec_wire .rdsr s).symm.trans hexec)
  rw [State.xact_of_transfer h.1 h.2 rfl hcalls]
  exact xactOk_rdsr_ctl (s := s.withEnv { s.env with draws := v :: more }) hc _

/-- Settles O32: the poll is an RDSR, and its reply's bit 0 is the device's busy bit. -/
theorem pollDecidesOnBusyBit : Obligations.PollDecidesOnBusyBit := by
  intro s timeout t0 k ad below rest b c v more hwf h ht hc hd hb hb'
  have hstep := (stepRunsTheWireCommand s _ _ _ below .rdsr rest h.1 h.2 ht hc (settle_wait (by exact hc)) h.1 hc rfl).2
    (params_wf hwf).2.2.2 nofun
  obtain ⟨t, sr, hexec, hframe, hscratch, hdev, htrace, hctl⟩ :=
    exec_rdsr_wait (s := s.withEnv { s.env with turns := rest }) h hc hd hb hb'
  obtain ⟨-, -, -, -, -, -, -, hcommitted, -, -, -, -, hnow, -⟩ := hframe
  refine ⟨t, sr, hstep.trans hexec, htrace, hdev, hnow, hscratch, hcommitted, ?_⟩
  obtain ⟨hbusy, hclk⟩ | ⟨hready, ⟨hne, hret⟩ | ⟨hnil, hret⟩⟩ := hctl
  · exact ⟨fun _ => hclk, fun hp => absurd hp hbusy, fun hp => absurd hp hbusy⟩
  · exact ⟨fun hp => absurd hready hp, fun _ _ => hret, fun _ hnil => absurd hnil hne⟩
  · exact ⟨fun hp => absurd hready hp, fun _ hne => absurd hnil hne, fun _ _ => hret⟩

end Sys2Proof.Safety
end

section
/-! PROOFS. A proof rule for the weakly fair agents (10_state.md R37, 46_read_path.md R202; log entries 9 and 29): a run whose
states have a rank that no step raises, and that some fair agent's step lowers, reaches its goal. -/

namespace Sys2Proof.Safety

open Sys2Proof.Machine
open Sys2Proof.Config (Agent fairAgents)

/-- The run from `s` reaches `Q`, and until then `P` holds. -/
def Leads (P Q : State → Prop) (s : State) : Prop :=
  ∃ n t, runs n s = .next t ∧ Q t ∧ ∀ j < n, ∀ u, runs j s = .next u → P u

/-- A run goes on with what its first step leaves. -/
theorem runs_succ_of_step {s t : State} (h : step s = .next t) (k : Nat) : runs (k + 1) s = runs k t := by
  rw [runs_step, h]

theorem Leads.now {P Q : State → Prop} {s : State} (h : Q s) : Leads P Q s := ⟨0, s, rfl, h, nofun⟩

theorem Leads.of_step {P Q : State → Prop} {s t : State} (hP : P s) (hs : step s = .next t) (h : Leads P Q t) :
    Leads P Q s := by
  obtain ⟨n, u, hrun, hQ, hbefore⟩ := h
  refine ⟨n + 1, u, (runs_succ_of_step hs n).trans hrun, hQ, fun j hj v hv => ?_⟩
  cases j with
  | zero => cases hv; exact hP
  | succ j => exact hbefore j (by omega) v ((runs_succ_of_step hs j).symm.trans hv)

section rule

variable {α : Type} {W : α → State → Prop} {Q : State → Prop} {rank : α → Nat} {needs : α → Agent}

/-- A step from a state that `W` describes by `v` reaches the goal, or leaves a state that `W` describes with a lower rank, or
with the same rank and the same needed agent, which has not had the turn. -/
def Progress (W : α → State → Prop) (Q : State → Prop) (rank : α → Nat) (needs : α → Agent) : Prop :=
  ∀ v s, W v s → ∃ t, step s = .next t ∧ (Q t ∨ ∃ v', W v' t ∧
    (rank v' < rank v ∨ (rank v' = rank v ∧ needs v' = needs v ∧ s.takeTurn.1 ≠ needs v)))

/-- Until the needed agent has its turn, `k` steps ahead, the rank falls or the goal is reached. -/
theorem leads_of_turn (hstep : Progress W Q rank needs) {m : Nat} {a : Agent}
    (lower : ∀ v s, W v s → rank v < m → Leads (∃ v, W v ·) Q s) (k : Nat) {v : α} {s : State} (h : W v s)
    (hrank : rank v = m) (hneeds : needs v = a)
    (hturn : (∀ t, runs k s ≠ .next t) ∨ ∃ t, runs k s = .next t ∧ t.takeTurn.1 = a) : Leads (∃ v, W v ·) Q s := by
  obtain ⟨t, hs, hgoal | ⟨v', hv', hless | ⟨hsame, hkeeps, hother⟩⟩⟩ := hstep v s h
  · exact .of_step ⟨v, h⟩ hs (.now hgoal)
  · exact .of_step ⟨v, h⟩ hs (lower v' t hv' (hrank ▸ hless))
  · cases k with
    | zero =>
      obtain hstop | ⟨u, hu, ha⟩ := hturn
      · exact absurd rfl (hstop s)
      · cases hu
        exact absurd (ha.trans hneeds.symm) hother
    | succ k =>
      rw [runs_succ_of_step hs] at hturn
      exact .of_step ⟨v, h⟩ hs (leads_of_turn hstep lower k hv' (hsame.trans hrank) (hkeeps.trans hneeds) hturn)

/-- The rule: where every step makes progress and the agents it needs are fair, the goal is reached. -/
theorem leads_of_progress (hfair : ∀ v, needs v ∈ fairAgents) (hstep : Progress W Q rank needs) {v : α} {s : State}
    (h : W v s) : Leads (∃ v, W v ·) Q s := by
  induction hm : rank v using Nat.strong_induction_on generalizing v s with
  | _ m ih =>
    obtain ⟨k, hturn⟩ := run_gives_turn s (hfair v)
    exact leads_of_turn hstep (fun v' t hv' hlt => ih (rank v') hlt hv' rfl) k h hm rfl hturn

end rule

end Sys2Proof.Safety
end

section
/-! PROOFS. A wait as a small transition system (41_status_poller.md R141 to R146): every step of the machine ends the wait or
moves it as `WaitMove` says, and no move takes it further from its end. -/

namespace Sys2Proof.Safety

open Sys2Proof.Machine
open Sys2Proof.Config (Agent fairAgents)

/-- What decides how a wait goes on: its control point, its entry time, the clock, and whether a payload in flight holds its
polls (40_sequencer.md R110). -/
structure WaitView where
  pt : WrPoint
  t0 : Nat
  now : Nat
  held : Bool

/-- In `s` the engine stands in a wait, above the frames `below`, as `v` says; a payload in flight has its DMA job (R41). -/
structure Waiting (timeout : Nat) (k : Kind) (ad : Nat) (below : List Frame) (v : WaitView) (s : State) : Prop where
  params : s.params.wf = true
  fault : s.fault = none
  ctl : s.ctl = .busy (.waitReady v.pt timeout v.t0 k ad :: below)
  now : s.now = v.now
  held : s.inflight = v.held
  job : v.held = true → s.dma ≠ .none

/-- How a wait ends (R146): ready, the deadline, or a failed poll. -/
structure WaitEnded (k : Kind) (ad : Nat) (below : List Frame) (t : State) : Prop where
  fault : t.fault = none
  ctl : WaitReturned below t ∨ t.ctl = .ending (.failed .timeout k ad) ∨ t.ctl = .ending (.failed .transportError .rdsr 0)

/-- What a turn of each agent may make of a wait that it does not end. -/
inductive WaitMove (timeout : Nat) : Agent → WaitView → WaitView → Prop
  /-- The clock is read at entry (R142). -/
  | entry {t0 now held} : WaitMove timeout .engine ⟨.t0, t0, now, held⟩ ⟨.poll, now, now, held⟩
  /-- The poll is held (40_sequencer.md R110). -/
  | hold {t0 now} : WaitMove timeout .engine ⟨.poll, t0, now, true⟩ ⟨.poll, t0, now, true⟩
  /-- The device is busy (R141). -/
  | busy {t0 now} : WaitMove timeout .engine ⟨.poll, t0, now, false⟩ ⟨.clk, t0, now, false⟩
  /-- The deadline has not passed (R143). -/
  | retry {t0 now held} (h : ¬timeout ≤ now - t0) : WaitMove timeout .engine ⟨.clk, t0, now, held⟩ ⟨.poll, t0, now, held⟩
  /-- The payload lands, and the hold is lifted (46_read_path.md R202). -/
  | landed {pt t0 now held} : WaitMove timeout .dma ⟨pt, t0, now, held⟩ ⟨pt, t0, now, false⟩
  /-- Time passes (10_state.md R37). -/
  | tick {pt t0 now held} : WaitMove timeout .clock ⟨pt, t0, now, held⟩ ⟨pt, t0, now + 1, held⟩
  /-- The device and the host do not move it. -/
  | device {v} : WaitMove timeout .device v v
  | host {v} : WaitMove timeout .host v v

variable {timeout ad : Nat} {k : Kind} {below : List Frame} {v : WaitView} {s : State}

/-- The turn of an agent in a wait ends it or is one of its moves. -/
def TurnWaits (timeout : Nat) (k : Kind) (ad : Nat) (below : List Frame) (g : Agent) (v : WaitView) (t : State) : Prop :=
  WaitEnded k ad below t ∨ ∃ v', Waiting timeout k ad below v' t ∧ WaitMove timeout g v v'

/-! ### The engine's turn -/

/-- The clock read at entry. -/
theorem Waiting.readEntry {t0 now : Nat} {held : Bool} (h : Waiting timeout k ad below ⟨.t0, t0, now, held⟩ s) :
    Waiting timeout k ad below ⟨.poll, now, now, held⟩ (s.readEntry timeout k ad below) := by
  obtain ⟨hparams, hfault, -, rfl, hheld, hjob⟩ := h
  exact ⟨hparams, hfault, rfl, rfl, hheld, hjob⟩

/-- The clock read after a busy poll ends the wait exactly where the deadline has passed. -/
theorem Waiting.readDeadline {t0 now : Nat} {held : Bool} (h : Waiting timeout k ad below ⟨.clk, t0, now, held⟩ s) :
    (timeout ≤ now - t0 ∧ WaitEnded k ad below (s.readDeadline timeout t0 k ad below))
      ∨ (¬timeout ≤ now - t0 ∧ Waiting timeout k ad below ⟨.poll, t0, now, held⟩ (s.readDeadline timeout t0 k ad below)) := by
  obtain ⟨hparams, hfault, hctl, hnow, hheld, hjob⟩ := h
  rw [readDeadline_eq hctl, hnow]
  by_cases hpassed : timeout ≤ now - t0
  · exact .inl ⟨hpassed, hfault, .inr (.inl (if_pos hpassed))⟩
  · exact .inr ⟨hpassed, hparams, hfault, if_neg hpassed, hnow, hheld, hjob⟩

/-- A poll on a free bus changes what a transaction may (40_sequencer.md R110, R112). -/
theorem xact_rdsr_busFrame (h : BusFree s) : BusFrame s (s.xact .rdsr) := by
  obtain ⟨hf, hi⟩ := h
  obtain ⟨hskip, -⟩ | ⟨-, -, ⟨x, hcheck, -⟩ | ⟨-, e, hx | hx⟩⟩ := s.xact_cases .rdsr
  · simp [hi, hf] at hskip
  · cases hcheck
  · rw [hx]; exact xactOk_busFrame (s.withEnv e) _ _
  · rw [hx]; exact xactErr_busFrame (s.withEnv e) _ _

/-- It ends the wait, or finds the device busy (R141). -/
theorem xact_rdsr_ctl {t0 : Nat} (h : BusFree s) (hc : s.ctl = .busy (.waitReady .poll timeout t0 k ad :: below)) :
    WaitReturned below (s.xact .rdsr) ∨ (s.xact .rdsr).ctl = .ending (.failed .transportError .rdsr 0)
      ∨ (s.xact .rdsr).ctl = .busy (.waitReady .clk timeout t0 k ad :: below) := by
  obtain ⟨hf, hi⟩ := h
  obtain ⟨hskip, -⟩ | ⟨-, -, ⟨x, hcheck, -⟩ | ⟨-, e, hx | hx⟩⟩ := s.xact_cases .rdsr
  · simp [hi, hf] at hskip
  · cases hcheck
  · rw [hx]
    obtain ⟨-, hclk⟩ | ⟨-, hret⟩ := xactOk_rdsr_ctl (s := s.withEnv e) hc (Wire.frame s.params.ops .rdsr)
    · exact .inr (.inr hclk)
    · exact .inl hret
  · rw [hx]
    exact .inr (.inl (congrArg State.ctl (State.fail_of_busy (by exact hc) _ _ _)))

theorem Waiting.xact_rdsr {t0 now : Nat} (h : Waiting timeout k ad below ⟨.poll, t0, now, false⟩ s) :
    WaitEnded k ad below (s.xact .rdsr) ∨ Waiting timeout k ad below ⟨.clk, t0, now, false⟩ (s.xact .rdsr) := by
  obtain ⟨hp, -, -, hi, -, -, -, -, -, -, hf, -, hn, -⟩ := xact_rdsr_busFrame ⟨h.fault, h.held⟩
  have hfault := hf.trans h.fault
  obtain hret | hfail | hclk := xact_rdsr_ctl ⟨h.fault, h.held⟩ h.ctl
  · exact .inl ⟨hfault, .inl hret⟩
  · exact .inl ⟨hfault, .inr (.inr hfail)⟩
  · exact .inr ⟨(congrArg Config.Params.wf hp).trans h.params, hfault, hclk, hn.trans h.now, hi.trans h.held, nofun⟩

/-- The engine's turn at a poll on a free bus is the RDSR (40_sequencer.md R125). -/
theorem Waiting.engineTurn_poll {t0 now : Nat} (h : Waiting timeout k ad below ⟨.poll, t0, now, false⟩ s) :
    s.engineTurn.outcome = .next (s.xact .rdsr) := by
  rw [engineTurn_wait h.fault h.ctl, act_wire h.held rfl (decodeWire_frame_self (params_wf h.params).2.2.2 (w := .rdsr) nofun)]
  exact exec_wire .rdsr s

/-- The engine's turn at the clock read after a busy poll. -/
theorem Waiting.engineTurn_clk {t0 now : Nat} {held : Bool} (h : Waiting timeout k ad below ⟨.clk, t0, now, held⟩ s) :
    s.engineTurn.outcome = .next (s.readDeadline timeout t0 k ad below) := by
  rw [engineTurn_wait h.fault h.ctl]
  rfl

theorem Waiting.engineTurn (h : Waiting timeout k ad below v s) :
    ∃ t, s.engineTurn.outcome = .next t ∧ TurnWaits timeout k ad below .engine v t := by
  obtain ⟨pt, t0, now, held⟩ := v
  cases pt with
  | t0 => exact ⟨_, by rw [engineTurn_wait h.fault h.ctl]; rfl, .inr ⟨_, h.readEntry, .entry⟩⟩
  | clk =>
    refine ⟨_, h.engineTurn_clk, ?_⟩
    obtain ⟨-, hend⟩ | ⟨hbefore, hpoll⟩ := h.readDeadline
    · exact .inl hend
    · exact .inr ⟨_, hpoll, .retry hbefore⟩
  | poll =>
    cases held with
    | true =>
      have hheld : s.engineTurn = .done s := by
        rw [engineTurn_wait h.fault h.ctl]
        simp [State.act, State.nextWire, h.held]
      exact ⟨s, congrArg Plan.outcome hheld, .inr ⟨_, h, .hold⟩⟩
    | false => exact ⟨_, h.engineTurn_poll, h.xact_rdsr.imp_right fun hclk => ⟨_, hclk, .busy⟩⟩

/-! ### The other agents -/

theorem Waiting.withEnv (h : Waiting timeout k ad below v s) (e : Env) : Waiting timeout k ad below v (s.withEnv e) :=
  ⟨h.params, h.fault, h.ctl, h.now, h.held, h.job⟩

theorem Waiting.dmaStep (h : Waiting timeout k ad below v s) :
    Waiting timeout k ad below { v with held := false } s.dmaStep := by
  obtain ⟨hnone, hx⟩ | ⟨e, c, hx⟩ := s.dmaStep_cases
  · have hfree : v.held = false := by simpa using mt h.job (not_not_intro hnone)
    rw [hx]
    exact ⟨h.params, h.fault, h.ctl, h.now, h.held.trans hfree, nofun⟩
  · rw [hx]
    exact ⟨h.params, h.fault, h.ctl, h.now, rfl, nofun⟩

theorem Waiting.deviceStep (h : Waiting timeout k ad below v s) : Waiting timeout k ad below v s.deviceStep := by
  obtain ⟨e, m, hx, -⟩ := s.deviceStep_frame
  rw [hx]
  exact ⟨h.params, h.fault, h.ctl, h.now, h.held, h.job⟩

theorem Waiting.tickClock (h : Waiting timeout k ad below v s) :
    Waiting timeout k ad below { v with now := v.now + 1 } s.tickClock :=
  ⟨h.params, h.fault, h.ctl, congrArg (· + 1) h.now, h.held, h.job⟩

theorem Waiting.hostMove (h : Waiting timeout k ad below v s) : Waiting timeout k ad below v s.hostMove := by
  obtain ⟨_, _, _, _, hx⟩ := s.hostMove_frame
  rw [hx]
  exact ⟨h.params, h.fault, h.ctl, h.now, h.held, h.job⟩

/-- A step of the machine ends the wait or is one of its moves (R146). -/
theorem Waiting.step_turnWaits (h : Waiting timeout k ad below v s) :
    ∃ t, step s = .next t ∧ TurnWaits timeout k ad below s.takeTurn.1 v t := by
  have h' : Waiting timeout k ad below v s.takeTurn.2 := h.withEnv _
  rw [step_eq h.fault]
  cases s.takeTurn.1 with
  | engine => exact h'.engineTurn
  | dma => exact ⟨_, rfl, .inr ⟨_, h'.dmaStep, .landed⟩⟩
  | device => exact ⟨_, rfl, .inr ⟨_, h'.deviceStep, .device⟩⟩
  | clock => exact ⟨_, rfl, .inr ⟨_, h'.tickClock, .tick⟩⟩
  | host => exact ⟨_, rfl, .inr ⟨_, h'.hostMove, .host⟩⟩

/-! ### The distance from the end -/

/-- How far the wait is from its end: the hold, the rest of the time, the control points to come. -/
def WaitView.rank (timeout : Nat) (v : WaitView) : Nat :=
  (if v.held then 1 else 0) +
    match v.pt with
    | .t0 => timeout + 3
    | .poll => v.t0 + timeout - v.now + 2
    | .clk => if v.t0 + timeout ≤ v.now then 1 else v.t0 + timeout - v.now + 2

/-- Whose turn brings it nearer: the DMA agent's to lift the hold, the Engine's to read the clock at entry and, once the time
has passed, to poll and to see the deadline, the Clock's before. -/
def WaitView.needs (timeout : Nat) (v : WaitView) : Agent :=
  if v.held then .dma else if v.pt = .t0 ∨ v.t0 + timeout ≤ v.now then .engine else .clock

theorem WaitView.needs_fair (timeout : Nat) (v : WaitView) : v.needs timeout ∈ fairAgents := by
  unfold WaitView.needs
  split_ifs <;> decide

/-- No move takes a wait further from its end, and the needed agent's turn brings it nearer. -/
theorem WaitMove.progress {g : Agent} {v v' : WaitView} (h : WaitMove timeout g v v') :
    v'.rank timeout < v.rank timeout
      ∨ (v'.rank timeout = v.rank timeout ∧ v'.needs timeout = v.needs timeout ∧ g ≠ v.needs timeout) := by
  cases h with
  | entry => left; simp [WaitView.rank]
  | hold => right; simp [WaitView.needs]
  | @busy t0 now =>
    by_cases hpassed : t0 + timeout ≤ now
    · left; simp [WaitView.rank, hpassed]
    · right; simp [WaitView.rank, WaitView.needs, hpassed]
  | @retry t0 now held hbefore =>
    have hbefore : ¬t0 + timeout ≤ now := by omega
    right; cases held <;> simp [WaitView.rank, WaitView.needs, hbefore]
  | @landed pt t0 now held =>
    cases held with
    | true => left; cases pt <;> simp [WaitView.rank]
    | false => exact .inr ⟨rfl, rfl, by grind [WaitView.needs]⟩
  | @tick pt t0 now held =>
    by_cases hrunning : pt ≠ .t0 ∧ now < t0 + timeout
    · left; simp only [WaitView.rank]; cases pt <;> grind
    · right; simp only [WaitView.rank, WaitView.needs]; cases pt <;> grind
  | device => exact .inr ⟨rfl, rfl, fun hg => absurd (hg ▸ v.needs_fair timeout) (by decide)⟩
  | host => exact .inr ⟨rfl, rfl, fun hg => absurd (hg ▸ v.needs_fair timeout) (by decide)⟩

/-- Every wait ends, under every draw and every order of turns (R146). -/
theorem Waiting.ends (h : Waiting timeout k ad below v s) :
    Leads (∃ v, Waiting timeout k ad below v ·) (WaitEnded k ad below) s := by
  refine leads_of_progress (WaitView.needs_fair timeout) (rank := WaitView.rank timeout) (fun v s h => ?_) h
  obtain ⟨t, hs, hend | ⟨v', hv', hmove⟩⟩ := h.step_turnWaits
  · exact ⟨t, hs, .inl hend⟩
  · exact ⟨t, hs, .inr ⟨v', hv', hmove.progress⟩⟩

end Sys2Proof.Safety
end

section
/-! PROOFS. The engine's turn from any running stack (10_state.md R21, R22): it has a next state, and never one that stands in a
wait just above the stack it began with. A wait is entered above the frame that has sent its command, and that frame then
stands at another control point. -/

namespace Sys2Proof.Safety

open Sys2Proof.Machine

/-- The transactions a frame begins with where the internal computation has just called it: the read of a managed write's
chunk, the write-enable of an erase or a program. -/
def opens : Frame → Bool
  | .managedWrite .read _ => true
  | .eraseSector .wren _ => true
  | .programPage .wren _ _ _ _ => true
  | _ => false

/-- What the internal computation from `stack` leaves of `s`: a fault raised, the request ended, a frame of the stack as its
head, or one just called. A READ it leaves to be issued receives at least one byte. -/
inductive Computed (stack : List Frame) (s u : State) : Prop
  | raised (hf : u.fault ≠ none) (hc : u.ctl = s.ctl)
  | ended (x : Exit) (hc : u.ctl = .ending x)
  | kept (f : Frame) (below : List Frame) (hs : f :: below <:+ stack) (hr : ∀ a, f ≠ .read a 0)
      (hc : u.ctl = .busy (f :: below))
  | called (f : Frame) (below : List Frame) (ho : opens f = true) (hc : u.ctl = .busy (f :: below))

/-- `ret` goes on with `stack` (the `ret` of Machine/Engine.lean). -/
def Computes (stack : List Frame) (ret : State → State) : Prop := ∀ s, Computed stack s (ret s)

variable {stack below : List Frame} {ret : State → State} {s s' u : State}

/-- The computation goes on from a state with the same control state. -/
theorem Computed.from_ctl (h : Computed stack s' u) (hc : s'.ctl = s.ctl) : Computed stack s u := by
  cases h with
  | raised hf hu => exact .raised hf (hu.trans hc)
  | ended x hu => exact .ended x hu
  | kept f below hs hr hu => exact .kept f below hs hr hu
  | called f below ho hu => exact .called f below ho hu

/-- The frames below a head that returns are frames of the whole stack. -/
theorem Computed.cons (h : Computed stack s u) (f : Frame) : Computed (f :: stack) s u := by
  cases h with
  | raised hf hu => exact .raised hf hu
  | ended x hu => exact .ended x hu
  | kept g below hs hr hu => exact .kept g below (hs.trans (List.suffix_cons f stack)) hr hu
  | called g below ho hu => exact .called g below ho hu

theorem Computed.raise (stack : List Frame) (s : State) (r : Fault) : Computed stack s (s.raise r) := by
  rw [State.raise_eq]
  exact .raised nofun rfl

theorem Computed.startPage (stack : List Frame) (s : State) (src : Source) (si a n : Nat) (callers : List Frame) :
    Computed stack s (s.startPage src si a n callers) := by
  unfold State.startPage
  split
  · exact .raise _ _ _
  · exact .called _ _ rfl rfl

theorem Computed.wnLoop (hret : Computes stack ret) (l : WnLocals) (below : List Frame) (s : State) :
    Computed stack s (wnLoop l below ret s) := by
  unfold Machine.wnLoop
  split
  · exact hret s
  · exact .startPage _ _ _ _ _ _ _

theorem Computed.wnAdv (hret : Computes stack ret) (l : WnLocals) (below : List Frame) (s : State) :
    Computed stack s (wnAdv l below ret s) := by
  refine (Computed.wnLoop hret _ _ _).from_ctl ?_
  split <;> rfl

theorem Computed.mwChunk (hret : Computes stack ret) (l : MwLocals) (below : List Frame) (s : State) :
    Computed stack s (mwChunk l below ret s) := by
  unfold Machine.mwChunk
  split
  · exact hret s
  · exact .called _ _ rfl rfl

theorem Computed.mwAdv (hret : Computes stack ret) (l : MwLocals) (below : List Frame) (s : State) :
    Computed stack s (mwAdv l below ret s) :=
  (Computed.mwChunk hret _ _ _).from_ctl rfl

theorem Computed.mwProg (hret : Computes stack ret) (l : MwLocals) (below : List Frame) (s : State) :
    Computed stack s (mwProg l below ret s) :=
  .wnLoop (.mwAdv hret l below) _ _ _

theorem Computed.mwMerge (hret : Computes stack ret) (l : MwLocals) (below : List Frame) (s : State) :
    Computed stack s (mwMerge l below ret s) :=
  (Computed.mwProg hret _ _ _).from_ctl rfl

theorem Computed.mwScan (hret : Computes stack ret) (l : MwLocals) (below : List Frame) (s : State) :
    Computed stack s (mwScan l below ret s) := by
  unfold Machine.mwScan
  split
  · exact .raise _ _ _
  · split
    · exact .called _ _ rfl rfl
    · exact .mwProg hret _ _ _

/-- The internal computation from any stack (R21). -/
theorem settle_computed (stack : List Frame) : Computes stack (settle stack) := by
  induction stack with
  | nil => exact fun s => .ended _ rfl
  | cons f below ih =>
    intro s
    have stay : (∀ a, f ≠ .read a 0) → Computed (f :: below) s (s.withCtl (.busy (f :: below))) :=
      fun hr => .kept f below (List.suffix_refl _) hr rfl
    have ret : Computes (f :: below) (settle below) := fun t => (ih t).cons f
    cases f with
    | managedWrite pt l =>
      cases pt with
      | chunk => exact .mwChunk ret l below s
      | read => exact stay nofun
      | scan => exact .mwScan ret l below s
      | erase => exact .mwMerge ret l below s
      | merge => exact .mwMerge ret l below s
      | prog => exact .mwAdv ret l below s
      | adv => exact .mwAdv ret l below s
    | writeNoCheck pt l =>
      cases pt with
      | loop => exact .wnLoop ret l below s
      | page => exact .wnAdv ret l below s
      | adv => exact .wnAdv ret l below s
    | programPage pt src si a n =>
      cases pt with
      | wren =>
        simp only [settle]
        split
        · exact ret s
        · exact .startPage _ _ _ _ _ _ _
      | cmd =>
        simp only [settle]
        split
        · exact .raise _ _ _
        · exact stay nofun
      | wait => exact ret s
    | eraseSector pt a =>
      cases pt with
      | wren => exact stay nofun
      | cmd => exact stay nofun
      | wait => exact ret s
    | eraseChip pt =>
      cases pt with
      | wren => exact stay nofun
      | cmd => exact stay nofun
      | wait => exact ret s
    | waitReady pt timeout t0 k ad => exact stay nofun
    | read a n =>
      simp only [settle]
      split
      · exact ret s
      · next hn => exact stay fun b hb => by cases hb; exact hn rfl
    | readAsync a n =>
      simp only [settle]
      split
      · exact (ret _).from_ctl rfl
      · exact stay nofun
    | readId => exact stay nofun

/-! ### Where an external action goes on -/

/-- Where the external action of the head `f` goes on: the frame in its place, its caller, the end of the request, or a wait
above it, which its program or erase command enters (R22). -/
inductive GoesOn (f : Frame) (below : List Frame) : Ctl → Prop
  | same (f' : Frame) (h : isWait f' = isWait f) : GoesOn f below (.busy (f' :: below))
  | returned (h : opens f = false) : GoesOn f below (.busy below)
  | ended (x : Exit) : GoesOn f below (.ending x)
  | waits (g f' : Frame) (h : atCommand f = true) (h' : atCommand f' = false) : GoesOn f below (.busy (g :: f' :: below))

variable {f : Frame}

theorem GoesOn.stays (hc : s.ctl = .busy (f :: below)) : GoesOn f below s.ctl := hc ▸ .same f rfl

theorem GoesOn.returnOk (h : opens f = false) (s : State) (rx : List Byte) (id : BitVec 16) :
    GoesOn f below (s.returnOk below rx id).ctl := by
  obtain ⟨-, hx⟩ | ⟨-, hx⟩ := s.returnOk_cases below rx id
  · rw [hx]; exact .ended _
  · rw [hx]; exact .returned h

theorem GoesOn.fail (hc : s.ctl = .busy (f :: below)) (o : OpOutcome) (k : Kind) (a : Nat) :
    GoesOn f below (s.fail o k a).ctl := by
  rw [State.fail_of_busy hc]
  exact .ended _

/-- With the reply of its transaction the head goes on (40_sequencer.md R110). -/
theorem resume_goesOn (hc : s.ctl = .busy (f :: below)) (w : Wire) (rx : List Byte) :
    GoesOn f below (s.resume w rx).ctl := by
  unfold State.resume
  rw [hc]
  dsimp only
  split
  · exact .same _ rfl
  · exact .same _ rfl
  · exact .waits _ _ rfl rfl
  · exact .same _ rfl
  · exact .waits _ _ rfl rfl
  · exact .same _ rfl
  · exact .waits _ _ rfl rfl
  · split
    · exact .returnOk rfl _ _ _
    · exact .same _ rfl
  · exact .returnOk rfl _ _ _
  · exact .returnOk rfl _ _ _
  · exact .stays hc

theorem xact_goesOn (hc : s.ctl = .busy (f :: below)) (w : Wire) : GoesOn f below (s.xact w).ctl := by
  obtain ⟨-, hx⟩ | ⟨-, -, ⟨x, -, hx⟩ | ⟨-, e, hx | hx⟩⟩ := s.xact_cases w
  · rw [hx]; exact .stays hc
  · rw [hx]; exact .stays hc
  · obtain ⟨e', hok⟩ := xactOk_eq (s.withEnv e) w (w.frame s.params.ops)
    rw [hx, hok]
    exact resume_goesOn (by exact hc) _ _
  · obtain ⟨e', d, hfail, -⟩ := onFailure_leaves { s.withEnv e with cs := false } w
    rw [hx, State.xactErr, hfail]
    exact .fail (by exact hc) _ _ _

theorem readDeadline_goesOn {timeout t0 ad : Nat} {k : Kind} (hc : s.ctl = .busy (.waitReady .clk timeout t0 k ad :: below)) :
    GoesOn (.waitReady .clk timeout t0 k ad) below (s.readDeadline timeout t0 k ad below).ctl := by
  rw [readDeadline_eq hc, State.withCtl_ctl]
  split
  · exact .ended _
  · exact .same _ rfl

theorem startAsync_goesOn {a n : Nat} (hc : s.ctl = .busy (.readAsync a n :: below)) :
    GoesOn (.readAsync a n) below (s.startAsync a n below).ctl := by
  obtain ⟨x, -, hx⟩ | ⟨-, e, hx | hx⟩ := s.startAsync_cases a n below
  · rw [hx, State.raise_ctl]; exact .stays hc
  · rw [hx]; exact .returnOk rfl _ _ _
  · rw [hx]; exact .fail (by exact hc) _ _ _

/-- The external action of a settled head goes on in one of these ways, and the frame the engine builds is a command: it has a
next state (40_sequencer.md R125). -/
theorem act_goesOn (ho : u.params.ops.distinct = true) (hi : s.inflight = false) (hr : ∀ a, f ≠ .read a 0)
    (hc : u.ctl = .busy (f :: below)) : ∃ t, (s.act u f below).outcome = .next t ∧ GoesOn f below t.ctl := by
  unfold State.act
  split
  · exact ⟨_, rfl, .same _ rfl⟩
  · exact ⟨_, rfl, readDeadline_goesOn hc⟩
  · rw [if_neg (by simp [hi])]
    exact ⟨_, rfl, startAsync_goesOn hc⟩
  · split
    · exact ⟨u, rfl, .stays hc⟩
    · next w hw =>
      have hread : ∀ a, w ≠ .read a 0 := fun b hb => absurd (nextWire_read_pos (hb ▸ hw) fun a m hf =>
        Nat.pos_of_ne_zero fun hm => hr a (hm ▸ hf)) (Nat.lt_irrefl 0)
      rw [if_neg (by simp [hi]), decodeWire_frame_self ho hread]
      exact ⟨_, exec_wire w u, xact_goesOn hc w⟩

/-- Where a fault was raised on the way, the turn leaves the head where it is (60_exceptions.md R224). -/
theorem proceed_goesOn (ho : u.params.ops.distinct = true) (hi : s.inflight = false) (hr : ∀ a, f ≠ .read a 0)
    (hc : u.ctl = .busy (f :: below)) : ∃ t, (s.proceed u).outcome = .next t ∧ GoesOn f below t.ctl := by
  unfold State.proceed
  split
  · exact ⟨u, rfl, .stays hc⟩
  · rw [hc]
    exact act_goesOn ho hi hr hc

/-! ### Not back into the wait -/

/-- The engine stands in a wait just above `stack`. -/
def WaitsAbove (stack : List Frame) (c : Ctl) : Prop := ∃ f, isWait f = true ∧ c = .busy (f :: stack)

/-- Going on with a frame of the stack leads to a wait above what is below that frame, or above that frame at another control
point. -/
theorem GoesOn.not_waitsAbove_of_suffix {c : Ctl} (h : GoesOn f below c) (hs : f :: below <:+ stack) :
    ¬WaitsAbove stack c := by
  rintro ⟨g, -, rfl⟩
  have hlen := hs.length_le
  cases h with
  | same f' h => simp at hlen
  | returned h => simp at hlen
  | waits g f' h h' =>
    have hsame := hs.eq_of_length rfl
    cases hsame
    simp [h] at h'

/-- Nor does going on with a frame just called: it sends no program or erase command before its write-enable. -/
theorem GoesOn.not_waitsAbove_of_opens {c : Ctl} (h : GoesOn f below c) (ho : opens f = true) : ¬WaitsAbove stack c := by
  rintro ⟨g, hg, rfl⟩
  have hf : isWait f = false ∧ atCommand f = false := by
    unfold opens at ho
    split at ho
    · exact ⟨rfl, rfl⟩
    · exact ⟨rfl, rfl⟩
    · exact ⟨rfl, rfl⟩
    · cases ho
  cases h with
  | same f' h => simp [hf.1, hg] at h
  | returned h => simp [ho] at h
  | waits g f' h h' => simp [hf.2] at h

/-- From any running stack the engine's turn has a next state, which stands in no wait just above that stack. -/
theorem engineTurn_not_waitsAbove (hwf : s.params.wf = true) (hi : s.inflight = false) (hc : s.ctl = .busy stack) :
    ∃ t, s.engineTurn.outcome = .next t ∧ ¬WaitsAbove stack t.ctl := by
  have hparams : (settle stack s).params = s.params := by
    obtain ⟨_, _, _, _, _, hs⟩ := settle_frame stack s
    rw [hs]
  have ho : (settle stack s).params.ops.distinct = true := hparams ▸ (params_wf hwf).2.2.2
  have hturn : s.engineTurn = s.proceed (settle stack s) := by simp [State.engineTurn, hc]
  rw [hturn]
  cases settle_computed stack s with
  | raised hf hu =>
    refine ⟨settle stack s, by simp [State.proceed, Option.isSome_iff_ne_none, hf, Plan.outcome], ?_⟩
    rintro ⟨f, -, h⟩
    exact List.cons_ne_self f stack (Ctl.busy.inj (hc.symm.trans (hu.symm.trans h))).symm
  | ended x hx =>
    unfold State.proceed
    split
    · exact ⟨_, rfl, by rintro ⟨f, -, h⟩; cases hx.symm.trans h⟩
    · rw [hx]
      exact ⟨_, rfl, by rintro ⟨f, -, h⟩; cases h⟩
  | kept f below hs hr hx =>
    obtain ⟨t, ht, hgo⟩ := proceed_goesOn ho hi hr hx
    exact ⟨t, ht, hgo.not_waitsAbove_of_suffix hs⟩
  | called f below hopens hx =>
    obtain ⟨t, ht, hgo⟩ := proceed_goesOn ho hi (by rintro a rfl; cases hopens) hx
    exact ⟨t, ht, hgo.not_waitsAbove_of_opens hopens⟩

end Sys2Proof.Safety
end

section
/-! PROOFS. Every wait ends (41_status_poller.md R146): after the timeout's clock steps within two turns of the engine, and in
every run. -/

namespace Sys2Proof.Safety

open Sys2Proof.Machine
open Sys2Proof.Config (Agent)

variable {timeout ad : Nat} {k : Kind} {below : List Frame} {v : WaitView} {s : State}

/-- A run through clock turns only lets time pass (10_state.md R37). -/
theorem Waiting.runs_clock {rest : List Agent} (n : Nat) (h : Waiting timeout k ad below v s)
    (ht : s.env.turns = List.replicate n .clock ++ rest) :
    ∃ t, runs n s = .next t ∧ Waiting timeout k ad below { v with now := v.now + n } t ∧ t.env.turns = rest := by
  induction n generalizing s v with
  | zero => exact ⟨s, rfl, h, ht⟩
  | succ n ih =>
    let e : Env := { s.env with turns := List.replicate n .clock ++ rest }
    have hs : step s = .next (s.withEnv e).tickClock := step_turn h.fault ht
    obtain ⟨t, hrun, hwait, hrest⟩ := ih (h.withEnv e).tickClock rfl
    refine ⟨t, (runs_succ_of_step hs n).trans hrun, ?_, hrest⟩
    rwa [Nat.add_right_comm, Nat.add_assoc] at hwait

/-- Where a wait has ended the engine stands in no wait just above the frames that were below it. -/
theorem WaitEnded.not_waitsAbove (h : WaitEnded k ad below s) : ¬WaitsAbove below s.ctl := by
  rintro ⟨f, -, hf⟩
  obtain (⟨-, hc⟩ | ⟨-, hc⟩) | hc | hc := h.ctl <;> rw [hc] at hf <;> cases hf

/-- Nor does it after its next turn: it has posted the response, or has gone on from the caller. -/
theorem WaitEnded.engineTurn (h : WaitEnded k ad below s) (hwf : s.params.wf = true) (hi : s.inflight = false) :
    ∃ t, s.engineTurn.outcome = .next t ∧ ¬WaitsAbove below t.ctl := by
  have posts : ∀ x, s.ctl = .ending x → ∃ t, s.engineTurn.outcome = .next t ∧ ¬WaitsAbove below t.ctl := fun x hx => by
    rw [State.engineTurn, hx]
    exact ⟨_, rfl, by rintro ⟨f, -, hf⟩; cases hf⟩
  obtain (⟨-, hc⟩ | ⟨-, hc⟩) | hc | hc := h.ctl
  · exact engineTurn_not_waitsAbove hwf hi hc
  · exact posts _ hc
  · exact posts _ hc
  · exact posts _ hc

/-- After a poll the engine's next turn leaves the wait where the deadline has passed by then (R143). -/
theorem Waiting.leaves_after_poll {t0 now : Nat} {rest : List Agent}
    (h : Waiting timeout k ad below ⟨.poll, t0, now, false⟩ s) (hpassed : timeout ≤ now - t0)
    (ht : s.env.turns = .engine :: .engine :: rest) : ∃ t, runs 2 s = .next t ∧ ¬WaitsAbove below t.ctl := by
  have hu : Waiting timeout k ad below ⟨.poll, t0, now, false⟩ (s.withEnv { s.env with turns := .engine :: rest }) :=
    h.withEnv _
  obtain ⟨hp, -, -, hi, -⟩ := xact_rdsr_busFrame ⟨hu.fault, hu.held⟩
  obtain ⟨d, j, hdrawn⟩ := State.xact_drawn (s.withEnv { s.env with turns := .engine :: rest }) .rdsr
  have hpoll := (step_turn h.fault ht).trans hu.engineTurn_poll
  have hresult := hu.xact_rdsr
  generalize State.xact _ .rdsr = x at hp hi hdrawn hpoll hresult
  have hxt : x.env.turns = .engine :: rest := by rw [hdrawn]; rfl
  have hnext : ∀ {t}, (x.withEnv { x.env with turns := rest }).engineTurn.outcome = .next t → x.fault = none →
      runs 2 s = .next t := fun hturn hf => by
    rw [runs_succ_of_step hpoll, runs_succ_of_step ((step_turn hf hxt).trans hturn), runs_zero]
  obtain hend | hclk := hresult
  · obtain ⟨t, hturn, hleft⟩ := WaitEnded.engineTurn (s := x.withEnv { x.env with turns := rest }) ⟨hend.fault, hend.ctl⟩
      ((congrArg Config.Params.wf hp).trans h.params) (hi.trans h.held)
    exact ⟨t, hnext hturn hend.fault, hleft⟩
  · have hx := hclk.withEnv { x.env with turns := rest }
    obtain ⟨-, hend⟩ | ⟨hbefore, -⟩ := hx.readDeadline
    · exact ⟨_, hnext hx.engineTurn_clk hclk.fault, hend.not_waitsAbove⟩
    · exact absurd hpassed hbefore

/-- Settles O33: after the clock's steps the second turn of the engine sees the deadline, if the first has not left the wait;
and in a fair run the wait's distance from its end falls. -/
theorem everyWaitEnds : Obligations.EveryWaitEnds := by
  constructor
  · intro s timeout t0 k ad below rest hwf ⟨hf, hi⟩ hle hc ht
    have hwait : Waiting timeout k ad below ⟨.poll, t0, s.now, false⟩ s := ⟨hwf, hf, hc, rfl, hi, nofun⟩
    obtain ⟨u, hrun, hu, hturns⟩ := hwait.runs_clock timeout ht
    obtain ⟨t, htwo, hleft⟩ := hu.leaves_after_poll (show timeout ≤ s.now + timeout - t0 by omega) hturns
    exact ⟨t, (runs_add hrun 2).trans htwo, fun pt timeout' t0' k' ad' hw => hleft ⟨_, rfl, hw⟩⟩
  · intro s pt timeout t0 k ad below hwf hf ⟨_, hdma, _⟩ hc
    have hwait : Waiting timeout k ad below ⟨pt, t0, s.now, s.inflight⟩ s :=
      ⟨hwf, hf, hc, rfl, rfl, fun hi => by rw [hdma, if_pos hi]; nofun⟩
    obtain ⟨n, t, hrun, hend, hbefore⟩ := hwait.ends
    refine ⟨n, t, hrun, hend.fault, or_assoc.mp hend.ctl, fun j hj u hu => ?_⟩
    obtain ⟨v, hv⟩ := hbefore j hj u hu
    exact ⟨v.pt, v.t0, hv.ctl⟩

end Sys2Proof.Safety
end

section
/-! PROOFS. Rules for whole requests: runs to the first idle state, and the engine's turn at a head's transaction (10_state.md
R21, 40_sequencer.md R110). -/

namespace Sys2Proof.Machine

/-- A ready device has no step (40_sequencer.md R122). -/
theorem State.deviceStep_of_ready {s : State} (hp : s.dev.pending = .none) : s.deviceStep = s := by
  simp [State.deviceStep, hp]

end Sys2Proof.Machine

namespace Sys2Proof.Safety

open Sys2Proof.Machine

/-! ### Runs to the first idle state -/

/-- Where every step from a running state with `I` keeps `I` or leaves an idle state with `Q`, the first idle state has
`Q`. -/
theorem Finishes.of_step {I Q : State → Prop} {s u : State} (hbusy : ∀ s, I s → s.ctl ≠ .idle)
    (hstep : ∀ s t, I s → step s = .next t → I t ∨ (t.ctl = .idle ∧ Q t)) (h : I s)
    (hfin : Finishes s u) : Q u := by
  obtain ⟨k, hrun, hidle, hbefore⟩ := hfin
  induction k generalizing s with
  | zero => cases hrun; exact absurd hidle (hbusy _ h)
  | succ k ih =>
    rw [runs_step] at hrun
    cases hs : step s with
    | fault r => rw [hs] at hrun; cases hrun
    | refused r => rw [hs] at hrun; cases hrun
    | next t =>
      rw [hs] at hrun
      have hlater : ∀ j < k, ∀ v, runs j t = .next v → v.ctl ≠ .idle := fun j hj v hv =>
        hbefore (j + 1) (by omega) v ((runs_succ_of_step hs j).trans hv)
      obtain ht | ⟨ht, hq⟩ := hstep s t h hs
      · exact ih ht hrun hlater
      · cases k with
        | zero => cases hrun; exact hq
        | succ k => exact absurd ht (hlater 0 (Nat.succ_pos k) t rfl)

/-- An idle state is its own first idle state. -/
theorem Finishes.eq_of_idle {s u : State} (h : s.ctl = .idle) (hfin : Finishes s u) : u = s := by
  obtain ⟨k, hrun, -, hbefore⟩ := hfin
  cases k with
  | zero => cases hrun; rfl
  | succ k => exact absurd h (hbefore 0 (Nat.succ_pos k) s rfl)

/-! ### The engine's turn at a transaction -/

/-- The engine's turn at a head without internal computation is the head's transaction, held while a payload is in flight
(40_sequencer.md R110). -/
theorem engineTurn_xact {s : State} {f : Frame} {below : List Frame} {w : Wire} (hf : s.fault = none)
    (ho : s.params.ops.distinct = true) (hc : s.ctl = .busy (f :: below)) (hsettle : settle (f :: below) s = s)
    (hw : s.nextWire f = some w) (hread : ∀ a, w ≠ .read a 0) : s.engineTurn.outcome = .next (s.xact w) := by
  rw [engineTurn_settled hc (by rwa [hsettle]) (by rwa [hsettle]), hsettle]
  cases hi : s.inflight with
  | false => rw [act_wire hi hw (decodeWire_frame_self ho hread)]; exact exec_wire w s
  | true =>
    have hheld : s.act s f below = .done s := by
      unfold State.act
      split
      · cases hw
      · cases hw
      · cases hw
      · simp [hw, hi]
    simp [hheld, Plan.outcome, State.xact, hi]

/-- A failed transaction of a running request ends it (60_exceptions.md R222, R226). -/
theorem xactErr_ctl {s : State} {stack : List Frame} (hc : s.ctl = .busy stack) (w : Wire) (b : WireFrame) :
    (s.xactErr w b).ctl = .ending (.failed .transportError w.kind w.addr) := by
  obtain ⟨env, d, hfail, -⟩ := onFailure_leaves { s with cs := false } w
  rw [State.xactErr, hfail]
  exact congrArg State.ctl (State.fail_of_busy (by exact hc) _ _ _)

end Sys2Proof.Safety
end

section
/-! PROOFS. The two erase procedures side by side (42_erase_controller.md R151, R153): their frames, their commands, what they
leave pending, and where the engine goes on from each of their control points. -/

namespace Sys2Proof.Safety

open Sys2Proof.Machine

/-- The erase procedures: `EraseSector(a)` (R151) and `EraseChip()` (R153). -/
inductive Erase where
  | sector (a : Addr)
  | chip

namespace Erase

/-- The procedure's frame at a control point (10_state.md R22). -/
def frame : Erase → CmdPoint → Frame
  | sector a, pt => .eraseSector pt a.toNat
  | chip, pt => .eraseChip pt

/-- The command it sends after its write-enable. -/
def wire : Erase → Wire
  | sector a => .se a
  | chip => .ce

/-- The timeout of its wait (00_scope.md R10). -/
def timeout (p : Config.Params) : Erase → Nat
  | sector _ => p.tSE
  | chip => p.tCE

/-- The frame of the wait it calls (R151, R153). -/
def wait (e : Erase) (p : Config.Params) (pt : WrPoint) (t0 : Nat) : Frame :=
  .waitReady pt (e.timeout p) t0 e.wire.kind e.wire.addr

/-- What its command leaves pending (40_sequencer.md R120, R121). -/
def pending : Erase → Pending
  | sector a => .se a.toNat
  | chip => .ce

/-- The array with its range erased (20_memory.md R57, R58). -/
def result (cap : Nat) (m : Memory) : Erase → Memory
  | sector a => m.erase a.toNat (a.toNat + Config.sectorSize)
  | chip => m.erase 0 cap

/-- Its operand is one the device accepts (40_sequencer.md R120). -/
def Fits (cap : Nat) : Erase → Prop
  | sector a => a.toNat % 4096 = 0 ∧ a.toNat < cap
  | chip => True

variable {e : Erase} {s : State} {below : List Frame} {d : Device}

/-- Before its command it has no internal computation (10_state.md R21). -/
theorem settle_sending {pt : CmdPoint} (hpt : pt ≠ .wait) (hc : s.ctl = .busy (e.frame pt :: below)) :
    settle (e.frame pt :: below) s = s := by
  have hstay : s.withCtl (.busy (e.frame pt :: below)) = s := by rw [← hc]; rfl
  cases pt with
  | wren | cmd => cases e <;> exact hstay
  | wait => exact absurd rfl hpt

/-- Its wait over, it returns (R151, R153). -/
theorem settle_returned (e : Erase) (s : State) : settle (e.frame .wait :: below) s = settle below s := by cases e <;> rfl

theorem nextWire_wren (s : State) : s.nextWire (e.frame .wren) = some .wren := by cases e <;> rfl

theorem nextWire_cmd (s : State) : s.nextWire (e.frame .cmd) = some e.wire := by
  cases e with
  | sector a => simp [State.nextWire, frame, wire]
  | chip => rfl

theorem check_none {cap : Nat} (h : e.Fits cap) (hp : d.pending = .none) (hwel : d.wel = true) :
    d.check cap e.wire = none := by
  cases e with
  | sector a => exact Device.check_se_none hp hwel h.1 h.2
  | chip => exact Device.check_ce_none hp hwel

theorem wire_ne_read (e : Erase) (a : Addr) : e.wire ≠ .read a 0 := by cases e <;> nofun

theorem onSuccess_wire (e : Erase) (d : Device) : d.onSuccess e.wire = { d with pending := e.pending, wel := false } := by
  cases e <;> rfl

theorem pending_ne_none : e.pending ≠ .none := by cases e <;> nofun

/-- Its command has neither payload nor reply (30_encoding.md R81). -/
theorem transfer_wire (s : State) (o : Config.Opcodes) : s.transfer (e.wire.frame o) = s.drawOk := by
  cases e <;> exact s.transfer_one rfl rfl

/-- The Device agent's step on its pending erase (40_sequencer.md R122). -/
theorem deviceStep_pending (hp : s.dev.pending = e.pending) :
    s.deviceStep = s.withDev (s.dev.settled (e.result s.params.capacity s.dev.array)) := by
  cases e <;> simp [State.deviceStep, hp, pending, result]

/-- After its write-enable it stands at its command, the latch set (R151, R153). -/
theorem xactOk_wren (hc : s.ctl = .busy (e.frame .wren :: below)) (f : WireFrame) :
    s.xactOk .wren f = { s with
      ctl := .busy (e.frame .cmd :: below)
      cs := false
      dev := { s.dev with wel := true }
      trace := s.trace ++ [.xact .wren f.cmd f.tx f.rxlen (some [])] } := by
  cases e <;> simp only [State.xactOk, State.reply, State.resume, State.log_ctl, State.withDev_ctl, hc] <;> rfl

/-- After its command it waits, the erase pending and the latch consumed (R151, R153). -/
theorem xactOk_wire (hc : s.ctl = .busy (e.frame .cmd :: below)) (f : WireFrame) :
    s.xactOk e.wire f = { s with
      ctl := .busy (e.wait s.params .t0 0 :: e.frame .wait :: below)
      cs := false
      dev := { s.dev with pending := e.pending, wel := false }
      trace := s.trace ++ [.xact e.wire.kind f.cmd f.tx f.rxlen (some [])] } := by
  cases e <;> simp only [State.xactOk, wire, State.reply, State.resume, State.log_ctl, State.withDev_ctl, hc] <;> rfl

/-- Its wait over, a request's engine posts `Ok` (60_exceptions.md R226). -/
theorem engineTurn_returned (hf : s.fault = none) (hc : s.ctl = .busy [e.frame .wait]) :
    s.engineTurn = .done ((s.withCtl (.ending (.ok [] 0))).post (.ok [] 0)) := by
  have hsettle : settle [e.frame .wait] s = s.withCtl (.ending (.ok [] 0)) := e.settle_returned s
  simp [State.engineTurn, hc, hsettle, State.proceed, hf]

end Erase

end Sys2Proof.Safety
end

section
/-! PROOFS. SERASE and CERASE under every schedule (42_erase_controller.md R151, R153): the stages of an erase request, which
every step of every agent keeps until the response is posted. -/

namespace Sys2Proof.Safety

open Sys2Proof.Machine

/-! ### The stages -/

/-- The erase has landed: nothing is pending and the range of the array `m` is erased. -/
def Erase.Landed (e : Erase) (p : Config.Params) (m : Memory) (d : Device) : Prop :=
  d.pending = .none ∧ d.array = e.result p.capacity m

/-- The erase has been sent: it is still pending on the array `m`, or it has landed (40_sequencer.md R122). -/
def Erase.Sent (e : Erase) (p : Config.Params) (m : Memory) (d : Device) : Prop :=
  (d.pending = e.pending ∧ d.array = m) ∨ e.Landed p m d

/-- What an erase request that began with the array `m` has made of the device, by where the engine stands. -/
inductive EraseStage (e : Erase) (p : Config.Params) (m : Memory) : Ctl → Device → Prop
  /-- At the write-enable. -/
  | enable {d : Device} (hp : d.pending = .none) (ha : d.array = m) : EraseStage e p m (.busy [e.frame .wren]) d
  /-- At the command, the latch set (70_reset_and_hazards.md R265). -/
  | command {d : Device} (hp : d.pending = .none) (ha : d.array = m) (hwel : d.wel = true) :
      EraseStage e p m (.busy [e.frame .cmd]) d
  /-- In the wait. -/
  | wait {d : Device} (pt : WrPoint) (t0 : Nat) (h : e.Sent p m d) :
      EraseStage e p m (.busy [e.wait p pt t0, e.frame .wait]) d
  /-- The wait has found the device ready (41_status_poller.md R141). -/
  | returned {d : Device} (h : e.Landed p m d) : EraseStage e p m (.busy [e.frame .wait]) d
  /-- The request has ended, with anything but `Ok`. -/
  | failed {d : Device} (o : OpOutcome) (k : Kind) (ad : Nat) (ho : o ≠ .ok) :
      EraseStage e p m (.ending (.failed o k ad)) d

/-- An erase request runs, from the parameters `p` and the array `m`. -/
structure Erasing (e : Erase) (p : Config.Params) (m : Memory) (s : State) : Prop where
  params : s.params = p
  fault : s.fault = none
  stage : EraseStage e p m s.ctl s.dev

/-- What the posted response says of the device. -/
def EraseAnswered (e : Erase) (p : Config.Params) (m : Memory) (s : State) : Prop :=
  s.resp.record.outcome = .ok → e.Landed p m s.dev

variable {e : Erase} {p : Config.Params} {m : Memory} {s t : State} {c : Ctl} {d : Device}

theorem EraseStage.not_idle (h : EraseStage e p m c d) : c ≠ .idle := by cases h <;> nofun

/-- A change of neither the parameters, the mark, the control state nor the device keeps the stage. -/
theorem Erasing.congr (h : Erasing e p m s) (hp : t.params = s.params) (hf : t.fault = s.fault) (hc : t.ctl = s.ctl)
    (hd : t.dev = s.dev) : Erasing e p m t :=
  ⟨hp.trans h.params, hf.trans h.fault, by rw [hc, hd]; exact h.stage⟩

/-! ### The engine -/

/-- A transaction that the device takes keeps the stages, if its success does: its failure ends the request
(60_exceptions.md R222). -/
theorem Erasing.xact {stack : List Frame} {w : Wire} (h : Erasing e p m s) (hc : s.ctl = .busy stack)
    (hcheck : s.dev.check s.params.capacity w = none)
    (hok : ∀ env f, EraseStage e p m ((s.withEnv env).xactOk w f).ctl (s.dev.onSuccess w)) : Erasing e p m (s.xact w) := by
  obtain ⟨-, hx⟩ | ⟨-, -, ⟨x, hfault, -⟩ | ⟨-, env, hx | hx⟩⟩ := s.xact_cases w
  · rw [hx]; exact h
  · rw [hcheck] at hfault; cases hfault
  · have hframe := xactOk_busFrame (s.withEnv env) w (w.frame s.params.ops)
    have hdev := (xactOk_effect (s.withEnv env) w (w.frame s.params.ops)).1
    rw [hx]
    exact ⟨hframe.1.trans h.params, hframe.fault_eq.trans h.fault, hdev ▸ hok env _⟩
  · have hframe := xactErr_busFrame (s.withEnv env) w (w.frame s.params.ops)
    have hend := xactErr_ctl (s := s.withEnv env) hc w (w.frame s.params.ops)
    rw [hx]
    exact ⟨hframe.1.trans h.params, hframe.fault_eq.trans h.fault, hend ▸ .failed _ _ _ nofun⟩

/-- A poll of the request's wait (41_status_poller.md R141). -/
theorem xactOk_rdsr_stage {t0 : Nat} (hc : s.ctl = .busy [e.wait p .poll t0, e.frame .wait])
    (h : e.Sent p m s.dev) (f : WireFrame) : EraseStage e p m (s.xactOk .rdsr f).ctl s.dev := by
  obtain ⟨-, hclk⟩ | ⟨hready, ⟨-, hret⟩ | ⟨hnil, -⟩⟩ := xactOk_rdsr_ctl hc f
  · rw [hclk]; exact .wait .clk t0 h
  · rw [hret]; exact .returned (h.resolve_left fun hpend => Erase.pending_ne_none (hpend.1.symm.trans hready))
  · cases hnil

/-- The engine's turn in the request's wait keeps the stages: a clock read or a poll (41_status_poller.md R141). -/
theorem Erasing.engineTurn_wait {pt : WrPoint} {t0 : Nat} (h : Erasing e p m s) (hwf : p.wf = true)
    (hc : s.ctl = .busy [e.wait p pt t0, e.frame .wait]) (hsent : e.Sent p m s.dev)
    (ht : s.engineTurn.outcome = .next t) : Erasing e p m t := by
  cases pt with
  | t0 =>
    rw [Safety.engineTurn_wait h.fault hc] at ht
    cases ht
    exact ⟨h.params, h.fault, .wait .poll s.now hsent⟩
  | clk =>
    have hread : s.engineTurn = .done (s.readDeadline (e.timeout p) t0 e.wire.kind e.wire.addr [e.frame .wait]) :=
      Safety.engineTurn_wait h.fault hc
    rw [hread, readDeadline_eq hc] at ht
    cases ht
    refine ⟨h.params, h.fault, ?_⟩
    rw [State.withCtl_ctl]
    split
    · exact .failed _ _ _ nofun
    · exact .wait .poll t0 hsent
  | poll =>
    have ho := (params_wf (h.params ▸ hwf)).2.2.2
    rw [engineTurn_xact h.fault ho hc (settle_wait hc) rfl nofun] at ht
    cases ht
    exact h.xact hc rfl fun env f => xactOk_rdsr_stage (s := s.withEnv env) hc hsent f

/-- The engine's turn keeps the stages, or posts the response. -/
theorem Erasing.engineTurn (h : Erasing e p m s) (hwf : p.wf = true) (hfits : e.Fits p.capacity)
    (ht : s.engineTurn.outcome = .next t) : Erasing e p m t ∨ (t.ctl = .idle ∧ EraseAnswered e p m t) := by
  obtain ⟨rfl, hf, hstage⟩ := id h
  have ho := (params_wf hwf).2.2.2
  generalize hctl : s.ctl = c at hstage
  cases hstage with
  | enable hp ha =>
    rw [engineTurn_xact hf ho hctl (Erase.settle_sending nofun hctl) (Erase.nextWire_wren s) nofun] at ht
    cases ht
    refine .inl (h.xact hctl (Device.check_wren_none hp) fun env f => ?_)
    rw [Erase.xactOk_wren (s := s.withEnv env) hctl f]
    exact .command hp ha rfl
  | command hp ha hwel =>
    rw [engineTurn_xact hf ho hctl (Erase.settle_sending nofun hctl) (Erase.nextWire_cmd s) e.wire_ne_read] at ht
    cases ht
    refine .inl (h.xact hctl (Erase.check_none hfits hp hwel) fun env f => ?_)
    rw [Erase.xactOk_wire (s := s.withEnv env) hctl f, e.onSuccess_wire]
    exact .wait _ _ (.inl ⟨rfl, ha⟩)
  | wait pt t0 hsent => exact .inl (h.engineTurn_wait hwf hctl hsent ht)
  | returned hland =>
    rw [Erase.engineTurn_returned hf hctl] at ht
    cases ht
    exact .inr ⟨rfl, fun _ => hland⟩
  | failed o k ad hne =>
    rw [State.engineTurn, hctl] at ht
    cases ht
    exact .inr ⟨rfl, fun hok => absurd hok hne⟩

/-! ### The other agents -/

theorem Erasing.withEnv (h : Erasing e p m s) (env : Env) : Erasing e p m (s.withEnv env) := h.congr rfl rfl rfl rfl

theorem Erasing.dmaStep (h : Erasing e p m s) : Erasing e p m s.dmaStep := by
  obtain ⟨-, hx⟩ | ⟨env, c, hx⟩ := s.dmaStep_cases
  · rw [hx]; exact h
  · rw [hx]; exact h.congr rfl rfl rfl rfl

theorem Erasing.hostMove (h : Erasing e p m s) : Erasing e p m s.hostMove := by
  obtain ⟨_, _, _, _, hx⟩ := s.hostMove_frame
  rw [hx]; exact h.congr rfl rfl rfl rfl

/-- The device has nothing to do but the pending erase, in the wait (40_sequencer.md R122). -/
theorem Erasing.deviceStep (h : Erasing e p m s) : Erasing e p m s.deviceStep := by
  have ready : s.dev.pending = .none → Erasing e p m s.deviceStep := fun hp => by
    rw [State.deviceStep_of_ready hp]; exact h
  obtain ⟨rfl, hf, hstage⟩ := id h
  generalize hctl : s.ctl = c at hstage
  cases hstage with
  | enable hp ha => exact ready hp
  | command hp ha hwel => exact ready hp
  | returned hland => exact ready hland.1
  | failed o k ad hne =>
    obtain ⟨env, m', hx, -⟩ := s.deviceStep_frame
    rw [hx]
    refine ⟨rfl, hf, ?_⟩
    rw [State.withDev_ctl, State.withEnv_ctl, hctl]
    exact .failed o k ad hne
  | wait pt t0 hsent =>
    obtain ⟨hp, ha⟩ | hland := hsent
    · rw [Erase.deviceStep_pending hp]
      refine ⟨rfl, hf, ?_⟩
      rw [State.withDev_ctl, hctl]
      exact .wait pt t0 (.inr ⟨rfl, congrArg (e.result _) ha⟩)
    · exact ready hland.1

/-! ### A step -/

/-- A step keeps the stages, or posts the response. -/
theorem Erasing.step (h : Erasing e p m s) (hwf : p.wf = true) (hfits : e.Fits p.capacity)
    (ht : Machine.step s = .next t) : Erasing e p m t ∨ (t.ctl = .idle ∧ EraseAnswered e p m t) := by
  have h' : Erasing e p m s.takeTurn.2 := h.withEnv _
  rw [step_eq h.fault] at ht
  cases hg : s.takeTurn.1 with
  | engine => rw [hg] at ht; exact h'.engineTurn hwf hfits ht
  | dma => rw [hg] at ht; cases ht; exact .inl h'.dmaStep
  | device => rw [hg] at ht; cases ht; exact .inl h'.deviceStep
  | clock => rw [hg] at ht; cases ht; exact .inl (h'.congr rfl rfl rfl rfl)
  | host => rw [hg] at ht; cases ht; exact .inl h'.hostMove

/-- An erase request's posted response says `Ok` only of a landed erase (R151, R153). -/
theorem Erasing.answered (h : Erasing e p m s) (hwf : p.wf = true) (hfits : e.Fits p.capacity) (hfin : Finishes s t) :
    EraseAnswered e p m t :=
  Finishes.of_step (Q := EraseAnswered e p m) (fun _ h => h.stage.not_idle) (fun _ _ h ht => h.step hwf hfits ht) h hfin

/-- Settles O47: a refused SERASE leaves an idle state without a response, an accepted one runs through the stages. -/
theorem sectorEraseOkMeansErased : Obligations.SectorEraseOkMeansErased := by
  intro s t u a hs hready hp ht hfin hvalid hok
  obtain ⟨hidle, hfault, hresp⟩ := id hready
  by_cases hpre : serasePre s.params a = true
  · obtain ⟨halign, hcap⟩ : a.toNat % 4096 = 0 ∧ a.toNat < s.params.capacity := by simpa [serasePre] using hpre
    rw [(eraseAndWaitRequestsAccepted s a 0 hready).1 halign hcap] at ht
    cases ht
    have hbegin : Erasing (.sector a) s.params s.dev.array (accepted s { s.incoming with op := 0x04, addr := a }
        (.eraseSector .wren a.toNat)) := ⟨rfl, hfault, .enable hp rfl⟩
    obtain ⟨hpend, harray⟩ := hbegin.answered hs.params ⟨halign, hcap⟩ hfin hok
    refine ⟨hpend, fun x => ?_⟩
    rw [harray]
    exact Memory.read_erase hs.array.1 _ _ x
  · have hrefused : exec (.serase a) s = .next ((s.latch { s.incoming with op := opSerase, addr := a }).raise
        .contractViolation) := by
      rw [exec, execSerase, Bool.eq_false_iff.mpr hpre, State.accept_faults]
      exact (s.canAccept_iff _).mpr ⟨hidle, hfault, hresp, nofun⟩
    rw [hrefused] at ht
    cases ht
    rw [hfin.eq_of_idle (by rw [State.raise_ctl]; exact hidle), State.raise_resp] at hvalid
    exact absurd (hresp.symm.trans hvalid) nofun

end Sys2Proof.Safety
end

section
/-! PROOFS. SERASE and CERASE under a prompt schedule (42_erase_controller.md R150 to R153): one lemma per step, and the run
they make up. -/

namespace Sys2Proof.Safety

open Sys2Proof.Machine
open Sys2Proof.Config (Agent)
open Sys2Proof.Laws.OpField (op_assemble)

/-- `s` with the engine at `c`, the device `d`, the events `es` added to the trace, chip-select released, and these turns and
draws to come. -/
def after (s : State) (c : Ctl) (d : Device) (es : List Event) (turns : List Agent) (draws : List Byte) : State :=
  { s with ctl := c, cs := false, dev := d, trace := s.trace ++ es, env := { s.env with turns := turns, draws := draws } }

theorem after_after (s : State) (c c' : Ctl) (d d' : Device) (es es' : List Event) (turns turns' : List Agent)
    (draws draws' : List Byte) :
    after (after s c d es turns draws) c' d' es' turns' draws' = after s c' d' (es ++ es') turns' draws' := by
  simp [after]

variable {s : State} {f : Frame} {below : List Frame} {w : Wire} {rest : List Agent} {e : Erase} {b c v : Byte}
  {more : List Byte}

/-- The engine's step at the request port (10_state.md R43). -/
theorem step_fetches {d : Descriptor} {i : Instr} (hf : s.fault = none) (ht : s.env.turns = .engine :: rest)
    (hc : s.ctl = .idle) (hport : s.port = some d) (hd : decodeRequest d = .ok i) :
    step s = exec i (s.withEnv { s.env with turns := rest }) := by
  rw [step_turn hf ht]
  simp [State.turn, State.engineTurn, hc, hport, hd, Plan.outcome]

/-- The fields of an assembled descriptor at the request port (30_encoding.md R92, R95). -/
theorem incoming_assemble {op : Byte} {a : Addr} {n t : Word} {d : List Byte} (hport : s.port = some (assemble op a n t d)) :
    s.incoming = ⟨op, a, n, t, d⟩ := by
  rw [State.incoming, hport]
  simp only [Descriptor.fields, op_assemble, addr_assemble]
  rfl

/-- The engine's step at a transaction whose transport calls are all `Ok` (40_sequencer.md R110). -/
theorem step_xactOk (h : BusFree s) (hwf : s.params.wf = true) (ht : s.env.turns = .engine :: rest)
    (hc : s.ctl = .busy (f :: below)) (hw : s.nextWire f = some w) (hread : ∀ a, w ≠ .read a 0)
    (hsettle : ∀ t : State, t.ctl = .busy (f :: below) → settle (f :: below) t = t)
    (hcheck : s.dev.check s.params.capacity w = none)
    (htransfer : (s.withEnv { s.env with turns := rest }).transfer (w.frame s.params.ops)
      = (true, s.withEnv { s.env with turns := rest, draws := more })) :
    step s = .next ((s.withEnv { s.env with turns := rest, draws := more }).xactOk w (w.frame s.params.ops)) := by
  let s' : State := s.withEnv { s.env with turns := rest }
  have hturn : s'.engineTurn.outcome = .next (s'.xact w) :=
    engineTurn_xact h.1 (params_wf hwf).2.2.2 hc (hsettle s' hc) hw hread
  exact (step_turn h.1 ht).trans (hturn.trans (congrArg Host.Outcome.next
    (State.xact_of_transfer (s := s') h.1 h.2 hcheck htransfer)))

/-! ### The erase procedures -/

/-- The write-enable (42_erase_controller.md R151, R153). -/
theorem Erase.step_wren (h : BusFree s) (hwf : s.params.wf = true) (ht : s.env.turns = .engine :: rest)
    (hd : s.env.draws = b :: more) (hb : okDraw b = true) (hc : s.ctl = .busy (e.frame .wren :: below))
    (hp : s.dev.pending = .none) :
    step s = .next (after s (.busy (e.frame .cmd :: below)) { s.dev with wel := true } [wrenEvent s] rest more) := by
  rw [step_xactOk h hwf ht hc (e.nextWire_wren s) nofun (fun _ => Erase.settle_sending nofun) (Device.check_wren_none hp)
    ((State.transfer_one _ rfl rfl).trans (drawOk_of_okDraw hd hb))]
  exact congrArg Host.Outcome.next (Erase.xactOk_wren (s := s.withEnv { s.env with turns := rest, draws := more }) hc _)

/-- The erase command (R151, R153). -/
theorem Erase.step_cmd (h : BusFree s) (hwf : s.params.wf = true) (ht : s.env.turns = .engine :: rest)
    (hd : s.env.draws = b :: more) (hb : okDraw b = true) (hc : s.ctl = .busy (e.frame .cmd :: below))
    (hp : s.dev.pending = .none) (hwel : s.dev.wel = true) (hfits : e.Fits s.params.capacity) :
    step s = .next (after s (.busy (e.wait s.params .t0 0 :: e.frame .wait :: below))
      { s.dev with pending := e.pending, wel := false } [e.wire.event s.params.ops (some [])] rest more) := by
  rw [step_xactOk h hwf ht hc (e.nextWire_cmd s) e.wire_ne_read (fun _ => Erase.settle_sending nofun)
    (Erase.check_none hfits hp hwel) ((Erase.transfer_wire _ _).trans (drawOk_of_okDraw hd hb))]
  exact congrArg Host.Outcome.next (Erase.xactOk_wire (s := s.withEnv { s.env with turns := rest, draws := more }) hc _)

/-- The erase lands (40_sequencer.md R122). -/
theorem Erase.step_lands (hf : s.fault = none) (hcs : s.cs = false) (ht : s.env.turns = .device :: rest)
    (hp : s.dev.pending = e.pending) :
    step s = .next (after s s.ctl (s.dev.settled (e.result s.params.capacity s.dev.array)) [] rest s.env.draws) := by
  rw [step_turn hf ht, after, List.append_nil, ← hcs]
  exact congrArg Host.Outcome.next (Erase.deviceStep_pending (s := s.withEnv _) hp)

/-- Its wait over, the request's response is posted (60_exceptions.md R226). -/
theorem Erase.step_returned (hf : s.fault = none) (ht : s.env.turns = .engine :: rest) (hc : s.ctl = .busy [e.frame .wait]) :
    step s = .next { answered s ⟨.ok, none, 0, BitVec.ofNat 32 s.committed, [], 0⟩ with
      env := { s.env with turns := rest } } := by
  rw [step_turn hf ht, State.turn, Erase.engineTurn_returned (s := s.withEnv { s.env with turns := rest }) hf hc]
  rfl

/-! ### The wait -/

section wait

variable {pt : WrPoint} {timeout t0 ad : Nat} {k : Kind} {caller : Frame}

/-- The clock read at entry (41_status_poller.md R142). -/
theorem step_entry (hf : s.fault = none) (hcs : s.cs = false) (ht : s.env.turns = .engine :: rest)
    (hc : s.ctl = .busy (.waitReady .t0 timeout t0 k ad :: below)) :
    step s = .next (after s (.busy (.waitReady .poll timeout s.now k ad :: below)) s.dev [.clk s.now] rest s.env.draws) := by
  rw [(waitReadsTheClock s timeout t0 k ad below rest hf ht).1 hc, after, ← hcs]

/-- A poll that finds the device ready returns to the caller (41_status_poller.md R141). -/
theorem xactOk_rdsr_ready (hc : s.ctl = .busy (.waitReady .poll timeout t0 k ad :: caller :: below))
    (hp : s.dev.pending = .none) (hd : s.env.draws = v :: more) (b : WireFrame) :
    s.xactOk .rdsr b = after s (.busy (caller :: below)) s.dev
      [.xact .rdsr b.cmd b.tx b.rxlen (some [statusByte false v])] s.env.turns more := by
  have hready : readyReply [statusByte false v] = true := congrArg (!·) (statusByte_bit0 false v)
  have hbusy : s.dev.busy = false := by simp [Device.busy, hp]
  have hreply : s.reply .rdsr = ([statusByte false v], s.withEnv { s.env with draws := more }) := by
    simp [State.reply, State.drawByte_cons hd, hbusy]
  simp only [State.xactOk, hreply, State.resume, State.log_ctl, State.withDev_ctl, State.withEnv_ctl, hc, Wire.kind,
    hready, if_true]
  rfl

theorem step_poll_ready (h : BusFree s) (hwf : s.params.wf = true) (ht : s.env.turns = .engine :: rest)
    (hd : s.env.draws = b :: c :: v :: more) (hb : okDraw b = true) (hb' : okDraw c = true)
    (hc : s.ctl = .busy (.waitReady .poll timeout t0 k ad :: caller :: below)) (hp : s.dev.pending = .none) :
    step s = .next (after s (.busy (caller :: below)) s.dev
      [.xact .rdsr [s.params.ops.rdsr] [] 1 (some [statusByte false v])] rest more) := by
  rw [step_xactOk h hwf ht hc rfl nofun (fun _ => settle_wait) rfl
    (transfer_two_ok (s := s.withEnv _) (.inl ⟨rfl, nofun⟩) hd hb hb')]
  exact congrArg Host.Outcome.next
    (xactOk_rdsr_ready (s := s.withEnv { s.env with turns := rest, draws := v :: more }) hc hp rfl _)

end wait

/-! ### The runs -/

/-- A run and one more step, each given by what it leaves. -/
theorem runs_then {n : Nat} {c c' : Ctl} {d d' : Device} {es es' : List Event} {turns turns' : List Agent}
    {draws draws' : List Byte} (h : runs n s = .next (after s c d es turns draws))
    (h' : step (after s c d es turns draws) = .next (after (after s c d es turns draws) c' d' es' turns' draws')) :
    runs (n + 1) s = .next (after s c' d' (es ++ es') turns' draws') := by
  rw [runs_succ h, h', after_after]

/-- An erase whose calls are all `Ok` and which lands before its wait begins returns to its frame after five steps
(42_erase_controller.md R151, R153). -/
theorem Erase.runs_prompt {b1 b2 b3 b4 : Byte} (h : BusFree s) (hwf : s.params.wf = true) (hfits : e.Fits s.params.capacity)
    (hp : s.dev.pending = .none) (hc : s.ctl = .busy (e.frame .wren :: below))
    (ht : s.env.turns = .engine :: .engine :: .device :: .engine :: .engine :: rest)
    (hd : s.env.draws = b1 :: b2 :: b3 :: b4 :: v :: more) (hok : ∀ b ∈ [b1, b2, b3, b4], okDraw b = true) :
    runs 5 s = .next (after s (.busy (e.frame .wait :: below)) ⟨e.result s.params.capacity s.dev.array, .none, false⟩
      [wrenEvent s, e.wire.event s.params.ops (some []), .clk s.now,
        .xact .rdsr [s.params.ops.rdsr] [] 1 (some [statusByte false v])] rest more) := by
  simp only [List.forall_mem_cons] at hok
  obtain ⟨hb1, hb2, hb3, hb4, -⟩ := hok
  have hwren : runs 1 s = _ := (runs_succ (runs_zero s)).trans (Erase.step_wren h hwf ht hd hb1 hc hp)
  have hcmd := runs_then hwren (Erase.step_cmd h hwf rfl rfl hb2 rfl hp rfl hfits)
  have hlands := runs_then hcmd (Erase.step_lands h.1 rfl rfl rfl)
  have hentry := runs_then hlands (step_entry h.1 rfl rfl rfl)
  exact runs_then hentry (step_poll_ready h hwf rfl rfl hb3 hb4 rfl rfl)

/-- An erase request that has been accepted, under a prompt schedule: `Ok`, and the range erased. -/
theorem Erase.request_runs {b1 b2 b3 b4 : Byte} {r : Request} (h : BusFree s) (hwf : s.params.wf = true)
    (hfits : e.Fits s.params.capacity) (hp : s.dev.pending = .none)
    (hd : s.env.draws = b1 :: b2 :: b3 :: b4 :: v :: more) (hok : ∀ b ∈ [b1, b2, b3, b4], okDraw b = true)
    (hacc : step s = .next (accepted (s.withEnv { s.env with
      turns := [.engine, .engine, .device, .engine, .engine, .engine] ++ rest }) r (e.frame .wren))) :
    ∃ t, runs 7 s = .next t ∧ t.ctl = .idle ∧ t.resp = ⟨true, ⟨.ok, none, 0, 0, [], 0⟩⟩
      ∧ t.dev = ⟨e.result s.params.capacity s.dev.array, .none, false⟩
      ∧ t.trace = s.trace ++ [.accept r, wrenEvent s, e.wire.event s.params.ops (some []), .clk s.now,
        .xact .rdsr [s.params.ops.rdsr] [] 1 (some [statusByte false v]), .resp ⟨.ok, none, 0, 0, [], 0⟩] := by
  let s₁ : State := accepted (s.withEnv { s.env with
    turns := [.engine, .engine, .device, .engine, .engine, .engine] ++ rest }) r (e.frame .wren)
  have hrun := Erase.runs_prompt (s := s₁) h hwf hfits hp rfl rfl hd hok
  have hpost := (runs_succ hrun).trans (Erase.step_returned (s := after _ _ _ _ _ _) h.1 rfl rfl)
  exact ⟨_, (runs_succ_of_step hacc 6).trans hpost, rfl, rfl, rfl,
    (List.append_assoc _ _ _).trans (List.append_assoc _ _ _)⟩

/-- Settles O42: each request is accepted with its procedure's frame, and its prompt run erases its range. -/
theorem eraseRequestsRun : Obligations.EraseRequestsRun := by
  intro s a rest b1 b2 b3 b4 v more hwf h hi hp hm ht hd hok
  obtain ⟨hctl, hf, -⟩ := id h
  let s' : State := s.withEnv { s.env with turns := [.engine, .engine, .device, .engine, .engine, .engine] ++ rest }
  refine ⟨fun halign hcap hport => ?_, fun hport => ?_⟩
  · have hdecode : decodeRequest (assemble 0x04 a 0 0 []) = .ok (.serase a) := by
      rw [decodeRequest_serase (op_assemble _ _ _ _ _), addr_assemble]
    have hfetch : step s = .next (accepted s' ⟨0x04, a, 0, 0, []⟩ (.eraseSector .wren a.toNat)) := by
      rw [step_fetches hf ht hctl hport hdecode]
      refine ((eraseAndWaitRequestsAccepted s' a 0 h).1 halign hcap).trans ?_
      rw [incoming_assemble (s := s') hport]
    obtain ⟨t, hrun, hidle, hresp, hdev, htrace⟩ :=
      Erase.request_runs (e := .sector a) ⟨hf, hi⟩ hwf ⟨halign, hcap⟩ hp hd hok hfetch
    exact ⟨t, _, hrun, hidle, hresp, by rw [hdev], by rw [hdev], htrace,
      fun x => by rw [hdev]; exact Memory.read_erase hm _ _ x⟩
  · have hdecode : decodeRequest (assemble 0x05 0 0 0 []) = .ok .cerase := decodeRequest_cerase (op_assemble _ _ _ _ _)
    have hfetch : step s = .next (accepted s' ⟨0x05, 0, 0, 0, []⟩ (.eraseChip .wren)) := by
      rw [step_fetches hf ht hctl hport hdecode]
      refine ((eraseAndWaitRequestsAccepted s' a 0 h).2.1).trans ?_
      rw [incoming_assemble (s := s') hport]
    obtain ⟨t, hrun, hidle, hresp, hdev, htrace⟩ :=
      Erase.request_runs (e := .chip) ⟨hf, hi⟩ hwf trivial hp hd hok hfetch
    exact ⟨t, _, hrun, hidle, hresp, by rw [hdev], by rw [hdev], htrace,
      fun x => by rw [hdev]; simpa [Erase.result] using Memory.read_erase hm 0 s.params.capacity x⟩

end Sys2Proof.Safety
end

section
/-! PROOFS. The write-enable immediately before every program and erase (70_reset_and_hazards.md R265): only the success of a
WREN brings the engine to a program or erase command, and there nothing but that command adds to the trace. -/

namespace Sys2Proof.Safety

open Sys2Proof.Machine

variable {s t : State} {r : Request} {w : Wire} {stack below : List Frame} {f : Frame}

/-! ### Stacks that stand at a command -/

/-- Only the head of a legal stack can stand at a program or erase command: every other frame has called one. -/
theorem StackOk.below_not_atCommand (h : StackOk s r (f :: below)) : ∀ g ∈ below, atCommand g = false := by
  induction below generalizing f with
  | nil => nofun
  | cons g rest ih => exact List.forall_mem_cons.mpr ⟨h.2.1.caller_not_atCommand, ih h.2.2⟩

/-- The internal computation never leads to a program or erase command: the engine stood there before. -/
theorem settle_atCommand (hs : StackOk s r stack) (hset : Settled r (settle stack s))
    (hc : (settle stack s).ctl = .busy (f :: below)) (hcmd : atCommand f = true) : stack = f :: below := by
  cases settle_computed stack s with
  | raised hf => exact absurd hset.fault hf
  | ended x hx => rw [hx] at hc; cases hc
  | called g rest hopens hx =>
    rw [hx] at hc
    cases hc
    unfold opens at hopens
    split at hopens
    · cases hcmd
    · cases hcmd
    · cases hcmd
    · cases hopens
  | kept g rest hsuffix _ hx =>
    rw [hx] at hc
    cases hc
    cases stack with
    | nil => exact hs.elim
    | cons g rest =>
      obtain heq | hbelow := List.suffix_cons_iff.mp hsuffix
      · exact heq.symm
      · simp [hs.below_not_atCommand f (hbelow.subset List.mem_cons_self)] at hcmd

/-! ### Where `WrenLast` holds -/

theorem WrenLast.congr (h : WrenLast s) (hp : t.params = s.params) (hf : t.fault = s.fault) (hc : t.ctl = s.ctl)
    (hi : t.inflight = s.inflight) (htr : t.trace = s.trace) : WrenLast t := by
  simpa only [WrenLast, wrenEvent, hp, hf, hc, hi, htr] using h

/-- It asks nothing of a state whose engine stands at no program or erase command, or has marked a fault. -/
theorem WrenLast.of_not_atCommand (h : ∀ f below, t.fault = none → t.ctl = .busy (f :: below) → atCommand f = false) :
    WrenLast t := fun f below hf hc hcmd => by simp [h f below hf hc] at hcmd

theorem WrenLast.of_fault {x : Fault} (h : t.fault = some x) : WrenLast t :=
  .of_not_atCommand fun _ _ hf => by simp [h] at hf

/-- The internal computation keeps it. -/
theorem WrenLast.settle (h : WrenLast s) (hf : s.fault = none) (hc : s.ctl = .busy stack) (hs : StackOk s r stack)
    (hset : Settled r (settle stack s)) : WrenLast (settle stack s) := by
  intro f below _ hu hcmd
  obtain ⟨hi, hlast⟩ := h f below hf (settle_atCommand hs hset hu hcmd ▸ hc) hcmd
  obtain ⟨_, _, _, _, _, he⟩ := settle_frame stack s
  rw [he]
  exact ⟨hi, hlast⟩

/-! ### The engine's actions -/

/-- Of the transactions only a WREN leads to a program or erase command (42_erase_controller.md R151, R153,
43_page_programmer.md R161). -/
theorem resume_atCommand {s₀ : State} {rx : List Byte} {rest : List Frame} {g : Frame} (hc : s.ctl = .busy (f :: below))
    (hbelow : ∀ g ∈ below, atCommand g = false) (hw : s₀.nextWire f = some w)
    (hg : (s.resume w rx).ctl = .busy (g :: rest)) (hcmd : atCommand g = true) : w = .wren := by
  have returns : ∀ rdata id, (s.returnOk below rdata id).ctl ≠ .busy (g :: rest) := fun rdata id hret => by
    obtain ⟨-, hx⟩ | ⟨-, hx⟩ := s.returnOk_cases below rdata id <;> rw [hx] at hret <;> cases hret
    simp [hbelow g List.mem_cons_self] at hcmd
  unfold State.resume at hg
  rw [hc] at hg
  cases f with
  | managedWrite pt l => cases pt <;> cases hw; cases hg; cases hcmd
  | writeNoCheck pt l => cases hw
  | programPage pt src si a n | eraseSector pt a | eraseChip pt =>
    cases pt with
    | wren => cases hw; rfl
    | cmd => cases hw; cases hg; cases hcmd
    | wait => cases hw
  | waitReady pt timeout t0 k ad =>
    cases pt with
    | t0 => cases hw
    | clk => cases hw
    | poll =>
      cases hw
      simp only [Wire.kind] at hg
      split at hg
      · exact absurd hg (returns _ _)
      · cases hg; cases hcmd
  | read a n => cases hw; exact absurd hg (returns _ _)
  | readAsync a n => cases hw
  | readId => cases hw; exact absurd hg (returns _ _)

/-- A transaction of the head leaves the engine at a program or erase command as the success of a WREN only. -/
theorem xact_wrenLast (hf : s.fault = none) (hi : s.inflight = false) (hc : s.ctl = .busy (f :: below))
    (hbelow : ∀ g ∈ below, atCommand g = false) (hw : s.nextWire f = some w) : WrenLast (s.xact w) := by
  obtain ⟨hheld, -⟩ | ⟨-, -, ⟨x, -, hx⟩ | ⟨-, e, hx | hx⟩⟩ := s.xact_cases w
  · simp [hi, hf] at hheld
  · rw [hx]; exact .of_fault rfl
  · rw [hx]
    intro g rest _ hg hcmd
    obtain ⟨hp, -, -, hinflight, -⟩ := xactOk_busFrame (s.withEnv e) w (w.frame s.params.ops)
    have htrace := (xactOk_effect (s.withEnv e) w (w.frame s.params.ops)).2.1
    obtain ⟨e', hresume⟩ := xactOk_eq (s.withEnv e) w (w.frame s.params.ops)
    rw [hresume] at hg
    obtain rfl := resume_atCommand (by exact hc) hbelow hw hg hcmd
    refine ⟨hinflight.trans hi, ?_⟩
    rw [htrace, List.getLast?_concat, wrenEvent, hp]
    rfl
  · rw [hx]
    refine .of_not_atCommand fun g rest _ hg => ?_
    rw [xactErr_ctl (s := s.withEnv e) hc] at hg
    cases hg

/-- The engine's external action at a settled stack keeps it. -/
theorem engineAction_wrenLast (hs : Settled r s) (h : WrenLast s) (ht : EngineAction s t) : WrenLast t := by
  cases ht with
  | stop => exact h
  | post hf hc => exact .of_not_atCommand nofun
  | entry hf hc => exact .of_not_atCommand fun _ _ _ hg => by cases hg; rfl
  | deadline hf hc =>
    refine .of_not_atCommand fun g rest _ hg => ?_
    rw [readDeadline_eq hc, State.withCtl_ctl] at hg
    split at hg <;> cases hg
    rfl
  | @async a n below hf hi hc =>
    obtain rfl := (hs.actionStack hc).legal.below_nil fun _ hcalls => hcalls
    obtain ⟨x, -, hx⟩ | ⟨-, e, hx | hx⟩ := s.startAsync_cases a n []
    · rw [hx]; exact .of_fault (State.raise_fault _ _)
    · rw [hx, State.returnOk]
      exact .of_not_atCommand fun g rest _ hg => absurd hg nofun
    · rw [hx, State.fail_of_busy (by exact hc)]
      exact .of_not_atCommand fun g rest _ hg => absurd hg nofun
  | wire hf hi hc hw hd ht =>
    obtain rfl := decodeWire_frame (params_wf hs.params).2.2.2 hd
    rw [exec_wire] at ht
    cases ht
    exact xact_wrenLast hf hi hc (hs.actionStack hc).legal.below_not_atCommand hw

/-! ### Acceptance -/

theorem accept_wrenLast (h : WrenLast s) (req : Request) (ok : Bool) (hcmd : atCommand f = false) :
    WrenLast (s.accept req ok f) := by
  obtain ⟨-, hx⟩ | ⟨-, -, hx⟩ | ⟨-, -, hx⟩ := s.accept_cases req ok f
  · rw [hx]; exact h
  · rw [hx]; exact .of_not_atCommand fun g rest _ hg => by cases hg; exact hcmd
  · rw [hx]; exact .of_fault (State.raise_fault _ _)

theorem acceptReserved_wrenLast (h : WrenLast s) (req : Request) : WrenLast (s.acceptReserved req) := by
  obtain ⟨-, hx⟩ | ⟨-, hx⟩ := s.acceptReserved_cases req
  · rw [hx]; exact h
  · rw [hx]; exact .of_fault (State.raise_fault _ _)

theorem request_wrenLast (h : WrenLast s) {i : Instr} (hi : isRequest i = true) (ht : exec i s = .next t) : WrenLast t := by
  cases i with
  | mwrite | wnochk | pprog | serase | cerase | wready | read | reada | rdid =>
    cases ht; exact accept_wrenLast h _ _ rfl
  | _ => cases hi

/-! ### A step -/

theorem engineTurn_wrenLast (hs : Consistent s) (h : WrenLast s) (hf : s.fault = none)
    (ht : s.engineTurn.outcome = .next t) : WrenLast t := by
  cases engineMove_of_turn ht with
  | wait => exact h
  | request hc hd hi => exact request_wrenLast h (decodeRequest_isRequest hd) hi
  | reserved d hc => exact acceptReserved_wrenLast h _
  | post hc => exact .of_not_atCommand nofun
  | run hc hact =>
    obtain ⟨r, hl, hlegal, hdev⟩ := hs.running hf hc
    have hset := settle_settled _ s hl (returns_of_legal hlegal hdev)
    exact engineAction_wrenLast hset (h.settle hf hc hlegal hset) hact

/-- At a program or erase command no payload is in flight, so the DMA agent has nothing to log there (R41). -/
theorem dmaStep_wrenLast (hbus : BusOk s) (hf : s.fault = none) (h : WrenLast s) : WrenLast s.dmaStep := by
  intro f below _ hc hcmd
  have hctl : s.dmaStep.ctl = s.ctl := by
    obtain ⟨-, hx⟩ | ⟨e, c, hx⟩ := s.dmaStep_cases <;> exact (congrArg State.ctl hx :)
  obtain ⟨hi, hlast⟩ := h f below hf (hctl ▸ hc) hcmd
  have hdma : s.dma = .none := by rw [hbus.2.1, hi]; rfl
  have hidle : s.dmaStep = s := by simp [State.dmaStep, hdma]
  rw [hidle]
  exact ⟨hi, hlast⟩

theorem turn_wrenLast (hs : Consistent s) (h : WrenLast s) (hf : s.fault = none) (g : Config.Agent)
    (ht : (s.turn g).outcome = .next t) : WrenLast t := by
  cases g with
  | engine => exact engineTurn_wrenLast hs h hf ht
  | dma => cases ht; exact dmaStep_wrenLast hs.bus hf h
  | clock => cases ht; exact h.congr rfl rfl rfl rfl rfl
  | device =>
    cases ht
    obtain ⟨e, m, hx, -⟩ := s.deviceStep_frame
    rw [hx]; exact h.congr rfl rfl rfl rfl rfl
  | host =>
    cases ht
    obtain ⟨_, _, _, _, hx⟩ := s.hostMove_frame
    rw [hx]; exact h.congr rfl rfl rfl rfl rfl

/-! ### The programs and erases that are issued -/

/-- The event is a program's or an erase's. -/
def IsWrite : Event → Prop
  | .xact k _ _ _ _ => k = .pp ∨ k = .se ∨ k = .ce
  | _ => False

theorem not_isWrite_of_not_xact {e : Event} (he : e.isXact = false) : ¬IsWrite e := by
  cases e with
  | xact k cmd tx rx result => cases he
  | _ => exact id

/-- A program or an erase is issued from its command point only (40_sequencer.md R125). -/
theorem atCommand_of_nextWire (hw : s.nextWire f = some w) (hk : w.kind = .pp ∨ w.kind = .se ∨ w.kind = .ce) :
    atCommand f = true := by
  cases w with
  | pp a d | se a | ce =>
    unfold State.nextWire at hw
    split at hw <;> cases hw
    rfl
  | _ => simp [Wire.kind] at hk

/-- From a consistent state the engine's turn logs a program or an erase right after its write-enable only. -/
theorem engineTurn_logs_write (hs : Consistent s) (h : WrenLast s) (hf : s.fault = none)
    (ht : s.engineTurn.outcome = .next t) :
    Logs (fun e => IsWrite e → s.trace.getLast? = some (wrenEvent s)) s t := by
  refine engineTurn_logs (fun e he hwrite => absurd hwrite (not_isWrite_of_not_xact he)) ?_ ht
  intro stack f below w w' result hc hfault hu hw hd hwrite
  obtain ⟨r, hl, hlegal, hdev⟩ := hs.running hf hc
  have hset := settle_settled stack s hl (returns_of_legal hlegal hdev)
  obtain rfl : w' = w := Wire.instr_injective (decodeWire_frame (params_wf hs.params).2.2.2 hd)
  have hcmd := atCommand_of_nextWire hw hwrite
  obtain rfl := settle_atCommand hlegal hset hu hcmd
  exact (h f below hf hc hcmd).2

/-- Settles O56: only a WREN leads to a program or erase command, which is then the next transaction. -/
theorem writeEnableImmediatelyBefore : Obligations.WriteEnableImmediatelyBefore := by
  intro s t hs h ht
  have hf := fault_none_of_step ht
  have hs' : Consistent s.takeTurn.2 := withEnv_keeps hs _
  have h' : WrenLast s.takeTurn.2 := h.congr rfl rfl rfl rfl rfl
  refine ⟨?_, fun k cmd tx rx result htrace hk => ?_⟩
  · rw [step_eq hf] at ht
    exact turn_wrenLast hs' h' hf _ ht
  · have hlogs : Logs (fun e => IsWrite e → s.trace.getLast? = some (wrenEvent s)) s t :=
      step_logs (fun e he hwrite => absurd hwrite (not_isWrite_of_not_xact he)) (engineTurn_logs_write hs' h' hf) ht
    obtain hsame | ⟨e, he, hadd⟩ := hlogs
    · simp [hsame] at htrace
    · obtain rfl : e = .xact k cmd tx rx result := by simpa using hadd.symm.trans htrace
      exact he hk

end Sys2Proof.Safety
end

section
/-! PROOFS. Rules for whole requests, continued: the engine's step at a transaction its internal computation leads to, at the
end of a request, and at a write or read it accepts (10_state.md R21, R43, 60_exceptions.md R226). -/

namespace Sys2Proof.Safety

open Sys2Proof.Machine
open Sys2Proof.Config (Agent)
open Sys2Proof.Laws.OpField (op_assemble)

variable {s : State} {stack below : List Frame} {f : Frame} {rest : List Agent}

/-- The engine's step at a stack whose internal computation ends at a transaction with every transport call `Ok`
(40_sequencer.md R110). -/
theorem step_settled_xactOk {w : Wire} {more : List Byte} (h : BusFree s) (hwf : s.params.wf = true)
    (ht : s.env.turns = .engine :: rest) (hc : s.ctl = .busy stack)
    (hsettle : ∀ e, settle stack (s.withEnv e) = (s.withEnv e).withCtl (.busy (f :: below)))
    (hw : s.nextWire f = some w) (hread : ∀ a, w ≠ .read a 0) (hcheck : s.dev.check s.params.capacity w = none)
    (htransfer : ∀ t : State, t.env.draws = s.env.draws →
      t.transfer (w.frame s.params.ops) = (true, t.withEnv { t.env with draws := more })) :
    step s = .next (((s.withEnv { s.env with turns := rest, draws := more }).withCtl (.busy (f :: below))).xactOk w
      (w.frame s.params.ops)) := by
  obtain ⟨hf, hi⟩ := h
  rw [(stepRunsTheWireCommand s _ stack f below w rest hf hi ht hc (hsettle _) hf rfl hw).2 (params_wf hwf).2.2.2 hread,
    exec_wire]
  exact congrArg Host.Outcome.next (State.xact_of_transfer
    (s := (s.withEnv { s.env with turns := rest }).withCtl (.busy (f :: below))) hf hi hcheck (htransfer _ rfl))

/-- The engine's step at a stack whose internal computation ends the request posts the response (60_exceptions.md R226). -/
theorem step_posts {u : State} {x : Exit} (hf : s.fault = none) (ht : s.env.turns = .engine :: rest)
    (hc : s.ctl = .busy stack) (hsettle : settle stack (s.withEnv { s.env with turns := rest }) = u)
    (huf : u.fault = none) (huc : u.ctl = .ending x) : step s = .next (u.post x) := by
  rw [step_turn hf ht]
  simp [State.turn, State.engineTurn, hc, hsettle, State.proceed, huf, huc, Plan.outcome]

/-! ### Acceptance (10_state.md R43) -/

section acceptance

variable {a : Addr} {n t : Word} {d : List Byte} (h : Ready s) (ht : s.env.turns = .engine :: rest)
include h ht

/-- The engine's step at the port of an assembled descriptor is the acceptance of its request. -/
theorem step_accepts {op : Byte} {i : Instr} {r : Request} (hport : s.port = some (assemble op a n t d))
    (hdecode : decodeRequest (assemble op a n t d) = .ok i)
    (hexec : exec i (s.withEnv { s.env with turns := rest })
      = .next (accepted (s.withEnv { s.env with turns := rest }) r f))
    (hr : (s.withEnv { s.env with turns := rest }).incoming = ⟨op, a, n, t, d⟩ → r = ⟨op, a, n, t, d⟩) :
    step s = .next (accepted (s.withEnv { s.env with turns := rest }) ⟨op, a, n, t, d⟩ f) := by
  obtain ⟨hctl, hf, -⟩ := h
  rw [step_fetches hf ht hctl hport hdecode, hexec, hr (incoming_assemble hport)]

section writes

variable (hd : d.length = n.toNat) (hcap : a.toNat + n.toNat ≤ s.params.capacity)
include hd hcap

theorem step_accepts_mwrite (hport : s.port = some (assemble opMwrite a n t d)) :
    step s = .next (accepted (s.withEnv { s.env with turns := rest }) ⟨opMwrite, a, n, t, d⟩
      (.managedWrite .chunk ⟨a.toNat, 0, n.toNat, 0, 0, 0, false⟩)) := by
  have hdecode := decodeRequest_mwrite (op_assemble opMwrite a n t d)
  rw [addr_assemble] at hdecode
  have hexec := (writeRequestsAccepted (s.withEnv { s.env with turns := rest }) a n d h hd hcap).1
  exact step_accepts h ht hport hdecode hexec fun hin => by rw [hin]

theorem step_accepts_wnochk (hport : s.port = some (assemble opWnochk a n t d)) :
    step s = .next (accepted (s.withEnv { s.env with turns := rest }) ⟨opWnochk, a, n, t, d⟩
      (.writeNoCheck .loop ⟨.req, a.toNat, 0, n.toNat, 0⟩)) := by
  have hdecode := decodeRequest_wnochk (op_assemble opWnochk a n t d)
  rw [addr_assemble] at hdecode
  have hexec := (writeRequestsAccepted (s.withEnv { s.env with turns := rest }) a n d h hd hcap).2.1
  exact step_accepts h ht hport hdecode hexec fun hin => by rw [hin]

theorem step_accepts_pprog (hpage : a.toNat % 256 + n.toNat ≤ 256)
    (hport : s.port = some (assemble opPprog a n t d)) :
    step s = .next (accepted (s.withEnv { s.env with turns := rest }) ⟨opPprog, a, n, t, d⟩
      (.programPage .wren .req 0 a.toNat n.toNat)) := by
  have hdecode := decodeRequest_pprog (op_assemble opPprog a n t d)
  rw [addr_assemble] at hdecode
  have hexec := (writeRequestsAccepted (s.withEnv { s.env with turns := rest }) a n d h hd hcap).2.2
    (le_of_add_le_right hpage) hpage
  exact step_accepts h ht hport hdecode hexec fun hin => by rw [hin]

end writes

section reads

variable (hcap : a.toNat + n.toNat ≤ s.params.capacity)
include hcap

theorem step_accepts_read (hport : s.port = some (assemble opRead a n t d)) :
    step s = .next (accepted (s.withEnv { s.env with turns := rest }) ⟨opRead, a, n, t, d⟩
      (.read a.toNat n.toNat)) := by
  have hdecode := decodeRequest_read (op_assemble opRead a n t d)
  rw [addr_assemble] at hdecode
  have hexec := (readRequestsAccepted (s.withEnv { s.env with turns := rest }) a n h).1 hcap
  exact step_accepts h ht hport hdecode hexec fun hin => by rw [hin]

theorem step_accepts_reada (hcmpl : s.cmpl.valid = false) (hport : s.port = some (assemble opReada a n t d)) :
    step s = .next (accepted (s.withEnv { s.env with turns := rest }) ⟨opReada, a, n, t, d⟩
      (.readAsync a.toNat n.toNat)) := by
  have hdecode := decodeRequest_reada (op_assemble opReada a n t d)
  rw [addr_assemble] at hdecode
  have hexec := (readRequestsAccepted (s.withEnv { s.env with turns := rest }) a n h).2.1 hcap hcmpl
  exact step_accepts h ht hport hdecode hexec fun hin => by rw [hin]

end reads

end acceptance

end Sys2Proof.Safety
end

section
/-! PROOFS. Zero-length writes and reads (43_page_programmer.md R163, 44_page_split_writer.md R175, 45_managed_write.md R188,
46_read_path.md R205): their acceptance, and the internal computation that ends them. -/

namespace Sys2Proof.Safety

open Sys2Proof.Machine
open Sys2Proof.Config (Agent)

variable {s : State} {a : Addr} {op : Byte} {rest : List Agent}

/-- The internal computation of a request with this op and first frame ends it at once, a READA's with its completion record
(46_read_path.md R201). -/
def EndsAtOnce (op : Byte) (f : Frame) : Prop :=
  ∀ t : State, settle [f] t
    = { t with ctl := .ending (.ok [] 0), cmpl := if op = opReada then ⟨true, ⟨.ok, []⟩⟩ else t.cmpl }

/-- A zero-length write or read inside the flash is accepted with a frame that ends at once. -/
theorem step_accepts_zeroLength (h : Ready s) (hcmpl : s.cmpl.valid = false) (ha : a.toNat ≤ s.params.capacity)
    (ht : s.env.turns = .engine :: rest) (hop : op ∈ [opMwrite, opWnochk, opPprog, opRead, opReada])
    (hport : s.port = some (assemble op a 0 0 [])) :
    ∃ f, EndsAtOnce op f
      ∧ step s = .next (accepted (s.withEnv { s.env with turns := rest }) ⟨op, a, 0, 0, []⟩ f) := by
  have hpage : a.toNat % 256 ≤ 256 := (Nat.mod_lt _ (by decide)).le
  simp only [List.mem_cons, List.not_mem_nil, or_false] at hop
  obtain rfl | rfl | rfl | rfl | rfl := hop
  · exact ⟨_, fun _ => rfl, step_accepts_mwrite h ht rfl ha hport⟩
  · exact ⟨_, fun _ => rfl, step_accepts_wnochk h ht rfl ha hport⟩
  · exact ⟨_, fun _ => rfl, step_accepts_pprog h ht rfl ha hpage hport⟩
  · exact ⟨_, fun _ => rfl, step_accepts_read h ht ha hport⟩
  · exact ⟨_, fun _ => rfl, step_accepts_reada h ht ha hcmpl hport⟩

/-- Settles O40: the second turn's internal computation ends the request, and the turn posts its response. -/
theorem zeroLengthRequestsComplete : Obligations.ZeroLengthRequestsComplete := by
  intro s a op rest h hcmpl ha ht hop hport
  obtain ⟨f, hends, hacc⟩ := step_accepts_zeroLength h hcmpl ha ht hop hport
  obtain ⟨-, hf, -⟩ := h
  let s₁ : State := accepted (s.withEnv { s.env with turns := .engine :: rest }) ⟨op, a, 0, 0, []⟩ f
  have hpost := step_posts (s := s₁) hf rfl rfl (hends _) hf rfl
  exact ⟨_, (runs_succ_of_step hacc 1).trans ((runs_succ (runs_zero s₁)).trans hpost), rfl, rfl, rfl, rfl,
    List.append_assoc _ _ _, rfl⟩

end Sys2Proof.Safety
end

section
/-! PROOFS. PPROG and WNOCHK of one page under a prompt schedule (43_page_programmer.md R161, 44_page_split_writer.md
R171): one lemma per step of `ProgramPage`, the run they make up, and the two requests that are that run. -/

namespace Sys2Proof.Safety

open Sys2Proof.Machine
open Sys2Proof.Config (Agent)

variable {s : State} {stack below : List Frame} {src : Source} {si n : Nat} {a : Addr} {d : List Byte}
  {rest : List Agent} {b c v : Byte} {more : List Byte}

/-! ### `ProgramPage` (43_page_programmer.md R161) -/

/-- After its write-enable it stands at its command, the latch set. -/
theorem xactOk_programPage_wren (hc : s.ctl = .busy (.programPage .wren src si a.toNat n :: below)) (f : WireFrame) :
    s.xactOk .wren f = { s with
      ctl := .busy (.programPage .cmd src si a.toNat n :: below)
      cs := false
      dev := { s.dev with wel := true }
      trace := s.trace ++ [.xact .wren f.cmd f.tx f.rxlen (some [])] } := by
  simp only [State.xactOk, State.reply, State.resume, State.log_ctl, State.withDev_ctl, hc]
  rfl

/-- After its command it waits, the program pending and the latch consumed. -/
theorem xactOk_programPage_pp (hc : s.ctl = .busy (.programPage .cmd src si a.toNat n :: below)) (f : WireFrame) :
    s.xactOk (.pp a d) f = { s with
      ctl := .busy (.waitReady .t0 s.params.tPP 0 .pp a.toNat :: .programPage .wait src si a.toNat n :: below)
      cs := false
      dev := { s.dev with pending := .pp a.toNat d, wel := false }
      trace := s.trace ++ [.xact .pp f.cmd f.tx f.rxlen (some [])] } := by
  simp only [State.xactOk, State.reply, State.resume, State.log_ctl, State.withDev_ctl, hc]
  rfl

/-- The write-enable, from any stack whose internal computation calls `ProgramPage`. -/
theorem step_programPage_wren (h : BusFree s) (hwf : s.params.wf = true) (ht : s.env.turns = .engine :: rest)
    (hd : s.env.draws = b :: more) (hb : okDraw b = true) (hc : s.ctl = .busy stack)
    (hsettle : ∀ e, settle stack (s.withEnv e)
      = (s.withEnv e).withCtl (.busy (.programPage .wren src si a.toNat n :: below)))
    (hp : s.dev.pending = .none) :
    step s = .next (after s (.busy (.programPage .cmd src si a.toNat n :: below)) { s.dev with wel := true } [wrenEvent s]
      rest more) := by
  rw [step_settled_xactOk h hwf ht hc hsettle rfl nofun (Device.check_wren_none hp)
    fun t hdraws => (t.transfer_one rfl rfl).trans (drawOk_of_okDraw (hdraws.trans hd) hb)]
  exact congrArg Host.Outcome.next (xactOk_programPage_wren rfl _)

/-- The program command, its payload the source's bytes. -/
theorem step_programPage_cmd (h : BusFree s) (hwf : s.params.wf = true) (ht : s.env.turns = .engine :: rest)
    (hd : s.env.draws = b :: c :: more) (hb : okDraw b = true) (hb' : okDraw c = true)
    (hc : s.ctl = .busy (.programPage .cmd src si a.toNat n :: below)) (hsrc : s.sourceBytes src si n = some d)
    (hp : s.dev.pending = .none) (hwel : s.dev.wel = true) (hpos : 1 ≤ d.length) (hlen : d.length ≤ 256)
    (ha : a.toNat < s.params.capacity) :
    step s = .next (after s
      (.busy (.waitReady .t0 s.params.tPP 0 .pp a.toNat :: .programPage .wait src si a.toNat n :: below))
      { s.dev with pending := .pp a.toNat d, wel := false } [(Wire.pp a d).event s.params.ops (some [])] rest more) := by
  have hsettle (e : Env) : settle (.programPage .cmd src si a.toNat n :: below) (s.withEnv e)
      = (s.withEnv e).withCtl (.busy (.programPage .cmd src si a.toNat n :: below)) := by
    simp [settle, show (s.withEnv e).sourceBytes src si n = some d from hsrc]
  have hwire : s.nextWire (.programPage .cmd src si a.toNat n) = some (.pp a d) := by simp [State.nextWire, hsrc]
  have htwo : WireFrame.TwoCalls ((Wire.pp a d).frame s.params.ops) := .inr ⟨List.ne_nil_of_length_pos hpos, rfl⟩
  rw [step_settled_xactOk h hwf ht hc hsettle hwire nofun (Device.check_pp_none hp hwel hpos hlen ha)
    fun t hdraws => transfer_two_ok htwo (hdraws.trans hd) hb hb']
  exact congrArg Host.Outcome.next (xactOk_programPage_pp rfl _)

/-- The program lands (40_sequencer.md R122). -/
theorem step_pp_lands (hf : s.fault = none) (hcs : s.cs = false) (ht : s.env.turns = .device :: rest)
    (hp : s.dev.pending = .pp a.toNat d) :
    step s = .next (after s s.ctl (s.dev.settled (s.dev.array.program a.toNat 0 d)) [] rest s.env.draws) := by
  rw [step_device_pp hf ht hp, after, List.append_nil, ← hcs]
  rfl

/-- A page program whose calls are all `Ok` and which lands before its wait begins returns to its frame after five steps. -/
theorem runs_programPage_prompt {b1 b2 b3 b4 b5 : Byte} (h : BusFree s) (hwf : s.params.wf = true) (hc : s.ctl = .busy stack)
    (hsettle : ∀ e, settle stack (s.withEnv e)
      = (s.withEnv e).withCtl (.busy (.programPage .wren src si a.toNat n :: below)))
    (hsrc : s.sourceBytes src si n = some d) (hp : s.dev.pending = .none) (hpos : 1 ≤ d.length) (hlen : d.length ≤ 256)
    (ha : a.toNat < s.params.capacity) (ht : s.env.turns = .engine :: .engine :: .device :: .engine :: .engine :: rest)
    (hd : s.env.draws = b1 :: b2 :: b3 :: b4 :: b5 :: v :: more) (hok : ∀ b ∈ [b1, b2, b3, b4, b5], okDraw b = true) :
    runs 5 s = .next (after s (.busy (.programPage .wait src si a.toNat n :: below))
      ⟨s.dev.array.program a.toNat 0 d, .none, false⟩
      [wrenEvent s, (Wire.pp a d).event s.params.ops (some []), .clk s.now,
        .xact .rdsr [s.params.ops.rdsr] [] 1 (some [statusByte false v])] rest more) := by
  simp only [List.forall_mem_cons] at hok
  obtain ⟨hb1, hb2, hb3, hb4, hb5, -⟩ := hok
  have hwren : runs 1 s = _ := (runs_succ (runs_zero s)).trans (step_programPage_wren h hwf ht hd hb1 hc hsettle hp)
  have hcmd := runs_then hwren (step_programPage_cmd h hwf rfl rfl hb2 hb3 rfl hsrc hp rfl hpos hlen ha)
  have hlands := runs_then hcmd (step_pp_lands h.1 rfl rfl rfl)
  have hentry := runs_then hlands (step_entry h.1 rfl rfl rfl)
  exact runs_then hentry (step_poll_ready h hwf rfl rfl hb4 hb5 rfl rfl)

/-! ### The requests -/

/-- The request with first frame `f` programs one page chunk of `n` bytes at `a`, and counts `k` bytes when it is done
(43_page_programmer.md R160, 44_page_split_writer.md R171, R174). -/
structure OnePage (f : Frame) (a n k : Nat) (below : List Frame) : Prop where
  calls (t : State) : settle [f] t = t.withCtl (.busy (.programPage .wren .req 0 a n :: below))
  returns (t : State) : settle (.programPage .wait .req 0 a n :: below) t = (t.addCommitted k).withCtl (.ending (.ok [] 0))

/-- PPROG is one page program, and counts nothing (43_page_programmer.md R160). -/
theorem OnePage.pprog {a n : Nat} (hn : 1 ≤ n) : OnePage (.programPage .wren .req 0 a n) a n 0 [] where
  calls t := by simp [settle, Nat.ne_of_gt hn, State.startPage, State.sourceBytes]
  returns _ := rfl

/-- WNOCHK of one page calls one page program, and counts its length (44_page_split_writer.md R171, R174). -/
theorem OnePage.wnochk {a n : Nat} (hn : 1 ≤ n) (hpage : a % 256 + n ≤ 256) :
    OnePage (.writeNoCheck .loop ⟨.req, a, 0, n, 0⟩) a n n [.writeNoCheck .page ⟨.req, a, 0, n, n⟩] where
  calls t := by
    have hchunk : min n (256 - a % 256) = n := by omega
    simp [settle, wnLoop, Nat.ne_of_gt hn, hchunk, State.startPage, State.sourceBytes]
  returns t := by simp [settle, wnAdv, wnLoop]

/-- A request of one page that has been accepted, under a prompt schedule: `Ok`, and the chunk programmed. -/
theorem OnePage.request_runs {f : Frame} {k : Nat} {r : Request} {b1 b2 b3 b4 b5 : Byte}
    (hpage : OnePage f a.toNat d.length k below) (h : BusFree s) (hwf : s.params.wf = true) (hp : s.dev.pending = .none)
    (hr : r.data = d) (hpos : 1 ≤ d.length) (hfits : a.toNat % 256 + d.length ≤ 256)
    (hcap : a.toNat + d.length ≤ s.params.capacity) (hd : s.env.draws = b1 :: b2 :: b3 :: b4 :: b5 :: v :: more)
    (hok : ∀ b ∈ [b1, b2, b3, b4, b5], okDraw b = true)
    (hacc : step s = .next (accepted (s.withEnv { s.env with
      turns := [.engine, .engine, .device, .engine, .engine, .engine] ++ rest }) r f)) :
    ∃ t, runs 7 s = .next t ∧ t.ctl = .idle ∧ t.resp = ⟨true, ⟨.ok, none, 0, BitVec.ofNat 32 k, [], 0⟩⟩
      ∧ t.dev = ⟨s.dev.array.program a.toNat 0 d, .none, false⟩
      ∧ t.trace = s.trace ++ [.accept r, wrenEvent s, (Wire.pp a d).event s.params.ops (some []), .clk s.now,
        .xact .rdsr [s.params.ops.rdsr] [] 1 (some [statusByte false v]),
        .resp ⟨.ok, none, 0, BitVec.ofNat 32 k, [], 0⟩] := by
  let s₁ : State := accepted (s.withEnv { s.env with
    turns := [.engine, .engine, .device, .engine, .engine, .engine] ++ rest }) r f
  have hsrc : s₁.sourceBytes .req 0 d.length = some d :=
    congrArg some ((congrArg (List.take d.length) hr).trans List.take_length)
  have hrun := runs_programPage_prompt (s := s₁) h hwf rfl (fun _ => hpage.calls _) hsrc hp hpos (by omega)
    (show a.toNat < s.params.capacity by omega) rfl hd hok
  have hpost := (runs_succ hrun).trans (step_posts (s := after _ _ _ _ _ _) h.1 rfl rfl (hpage.returns _) h.1 rfl)
  refine ⟨_, (runs_succ_of_step hacc 6).trans hpost, rfl, ?_, rfl, ?_⟩
  · simp [Exit.response, after, s₁, accepted]
  · simp [Exit.response, after, s₁, accepted, wrenEvent]

/-- Settles O43: each request is accepted with a frame that programs one page, and its prompt run lands the program. -/
theorem pageProgramRequestsRun : Obligations.PageProgramRequestsRun := by
  intro s op a n d rest b1 b2 b3 b4 b5 v more c hwf h hi hp hm hd hpos hfits hcap hport hop ht hdraws hok
  obtain ⟨f, k, below, hpage, hc, hacc⟩ : ∃ f k below, OnePage f a.toNat d.length k below ∧ c = BitVec.ofNat 32 k
      ∧ step s = .next (accepted (s.withEnv { s.env with
        turns := [.engine, .engine, .device, .engine, .engine, .engine] ++ rest }) ⟨op, a, n, 0, d⟩ f) := by
    obtain ⟨rfl, rfl⟩ | ⟨rfl, rfl⟩ := hop
    · exact ⟨_, 0, _, .pprog hpos, rfl, hd ▸ step_accepts_pprog h ht hd (hd ▸ hcap) (hd ▸ hfits) hport⟩
    · exact ⟨_, _, _, .wnochk hpos hfits, by simp [hd], hd ▸ step_accepts_wnochk h ht hd (hd ▸ hcap) hport⟩
  obtain ⟨t, hrun, hidle, hresp, hdev, htrace⟩ :=
    hpage.request_runs ⟨h.2.1, hi⟩ hwf hp rfl hpos hfits hcap hdraws hok hacc
  rw [← hc] at hresp htrace
  exact ⟨t, _, hrun, hidle, hresp, by rw [hdev], by rw [hdev], htrace,
    fun x => by rw [hdev]; simpa using Memory.read_program hm a.toNat 0 d hfits x⟩

end Sys2Proof.Safety
end

section
/-! PROOFS. The page-splitting writer's internal computation (44_page_split_writer.md R171): the next page chunk, or the
writer's return, from its loop and after a page; and the engine's step that each of the two leads to. -/

namespace Sys2Proof.Machine

open Config (pageSize)

/-! ### The writer's locals -/

/-- The locals with the next page chunk: up to the end of its page, or what remains (44_page_split_writer.md R172). -/
def WnLocals.split (l : WnLocals) : WnLocals := { l with chunk := min l.n (pageSize - l.a % pageSize) }

/-- The locals after a finished chunk (R171). -/
def WnLocals.advance (l : WnLocals) : WnLocals :=
  { l with a := l.a + l.chunk, si := l.si + l.chunk, n := l.n - l.chunk }

/-- `ProgramPage` as the writer calls it for its chunk (R171). -/
def WnLocals.page (l : WnLocals) (pt : CmdPoint) : Frame := .programPage pt l.src l.si l.a l.chunk

/-- A chunk that is not the last ends at its page's end (R172). -/
theorem WnLocals.advance_aligned {l : WnLocals} (hchunk : l.chunk = min l.n (256 - l.a % 256)) (h : l.chunk < l.n) :
    l.advance.a % 256 = 0 := by
  simp only [WnLocals.advance]
  omega

/-! ### The internal computation -/

/-- What the end of a chunk adds to `committed`: the outermost writer counts it (R174). -/
def WnLocals.counted (l : WnLocals) (below : List Frame) : Nat := if below.isEmpty then l.chunk else 0

variable {l : WnLocals} {below : List Frame} {s : State} {bs : List Byte}

/-- With its bytes readable `ProgramPage` stands at its write-enable (43_page_programmer.md R161). -/
theorem State.startPage_of_source {src : Source} {si a n : Nat} (hsrc : s.sourceBytes src si n = some bs) :
    s.startPage src si a n below = s.withCtl (.busy (.programPage .wren src si a n :: below)) := by
  simp [State.startPage, hsrc]

/-- With bytes left, the loop calls `ProgramPage` for the next chunk (R171). -/
theorem wnLoop_next (ret : State → State) (hn : 0 < l.n) (hsrc : s.sourceBytes l.src l.si l.split.chunk = some bs) :
    wnLoop l below ret s = s.withCtl (.busy (l.split.page .wren :: .writeNoCheck .page l.split :: below)) :=
  (if_neg (Nat.ne_of_gt hn)).trans (State.startPage_of_source hsrc)

/-- Without bytes left it returns (R171). -/
theorem wnLoop_returns (ret : State → State) (hn : l.n = 0) : wnLoop l below ret s = ret s := if_pos hn

/-- After a page the writer counts its chunk, advances and loops (R171). -/
theorem settle_page (l : WnLocals) (below : List Frame) (s : State) :
    settle (.writeNoCheck .page l :: below) s
      = wnLoop l.advance below (settle below) (s.addCommitted (l.counted below)) := by
  cases below <;> rfl

/-- After its last page it returns to its caller. -/
theorem settle_lastPage (h : l.n ≤ l.chunk) (s : State) :
    settle (.writeNoCheck .page l :: below) s = settle below (s.addCommitted (l.counted below)) :=
  (settle_page l below s).trans (wnLoop_returns _ (Nat.sub_eq_zero_of_le h))

/-- After a page that is not the last it goes on with the next. -/
theorem settle_nextPage (h : l.chunk < l.n) (hsrc : s.sourceBytes l.src l.advance.si l.advance.split.chunk = some bs) :
    settle (.writeNoCheck .page l :: below) s = (s.addCommitted (l.counted below)).withCtl
      (.busy (l.advance.split.page .wren :: .writeNoCheck .page l.advance.split :: below)) :=
  (settle_page l below s).trans
    (wnLoop_next (s := s.addCommitted (l.counted below)) _ (Nat.sub_pos_of_lt h) hsrc)

end Sys2Proof.Machine

namespace Sys2Proof.Safety

open Sys2Proof.Machine
open Sys2Proof.Config (Agent)

/-! ### The last chunk (44_page_split_writer.md R174, 45_managed_write.md R187) -/

/-- The internal computation from `stack` ends the request with `Ok` and counts `k` bytes on the way. -/
def EndsCounting (k : Nat) (stack : List Frame) : Prop :=
  ∀ s, settle stack s = (s.addCommitted k).withCtl (.ending (.ok [] 0))

/-- The last page of an unchecked write counts its chunk. -/
theorem endsCounting_lastPage {w : WnLocals} (h : w.n ≤ w.chunk) : EndsCounting w.chunk [.writeNoCheck .page w] :=
  settle_lastPage h

/-- The last page of a managed write's last chunk counts the sector chunk, not the page. -/
theorem endsCounting_lastSector {w : WnLocals} {l : MwLocals} (hw : w.n ≤ w.chunk) (hl : l.n ≤ l.chunk) :
    EndsCounting l.chunk [.writeNoCheck .page w, .managedWrite .prog l] :=
  fun s => (settle_lastPage hw s).trans (if_pos (Nat.sub_eq_zero_of_le hl))

/-- Settles O37: from each of the stacks the internal computation ends the request, and the turn posts its response. -/
theorem lastChunkPostsCommitted : Obligations.LastChunkPostsCommitted := by
  intro s stack k rest hf ht hc hstack
  have hends : EndsCounting k stack := by
    obtain ⟨_, _, _, _, w, l, rfl, hw, hl, rfl⟩ | ⟨_, _, _, _, w, rfl, hw, rfl⟩ | ⟨⟨_, _, _, _, rfl⟩, rfl⟩
      | ⟨⟨_, rfl⟩, rfl⟩ | ⟨rfl, rfl⟩ := hstack
    · exact endsCounting_lastSector hw hl
    · exact endsCounting_lastPage hw
    · exact fun _ => rfl
    · exact fun _ => rfl
    · exact fun _ => rfl
  exact step_posts hf ht hc (hends _) hf rfl

/-! ### The next page (44_page_split_writer.md R171, R172, R174) -/

variable {s : State} {src : Source} {si a n : Nat} {below : List Frame}

/-- The Scratch Buffer's bytes are readable where all its cells are written, the request's always (10_state.md R27). -/
theorem sourceBytes_of_written (si n : Nat) (h : src = .scratch → ∀ c ∈ s.scratch, c ≠ none) :
    ∃ bs, s.sourceBytes src si n = some bs := by
  cases src with
  | req => exact ⟨_, rfl⟩
  | scratch =>
    obtain ⟨bs, hbs, -⟩ := State.scratchSlice_some (h rfl) si n
    exact ⟨bs, hbs⟩

/-- After the write-enable `ProgramPage` stands at its command, the latch set, at any natural address (43_page_programmer.md
R161). -/
theorem xactOk_page_wren (hc : s.ctl = .busy (.programPage .wren src si a n :: below)) (f : WireFrame) :
    s.xactOk .wren f = { s with
      ctl := .busy (.programPage .cmd src si a n :: below)
      cs := false
      dev := { s.dev with wel := true }
      trace := s.trace ++ [.xact .wren f.cmd f.tx f.rxlen (some [])] } := by
  simp only [State.xactOk, State.reply, State.resume, State.log_ctl, State.withDev_ctl, hc]
  rfl

/-- The engine's step at a stack whose internal computation calls `ProgramPage`, in a state `u` with a free bus and a ready
device, is the write-enable (43_page_programmer.md R161). -/
theorem step_page_wren {u : State} {stack : List Frame} {rest : List Agent} {b : Byte} {more : List Byte} (h : BusFree s)
    (ht : s.env.turns = .engine :: rest) (hc : s.ctl = .busy stack)
    (hsettle : settle stack (s.withEnv { s.env with turns := rest }) = u)
    (huc : u.ctl = .busy (.programPage .wren src si a n :: below)) (hu : BusFree u) (hwf : u.params.wf = true)
    (hp : u.dev.pending = .none) (hd : u.env.draws = b :: more) (hb : okDraw b = true) :
    step s = .next { u with
      ctl := .busy (.programPage .cmd src si a n :: below)
      cs := false
      dev := { u.dev with wel := true }
      trace := u.trace ++ [wrenEvent u]
      env := { u.env with draws := more } } := by
  obtain ⟨hf, hi⟩ := h
  obtain ⟨huf, hui⟩ := hu
  have hcall := (u.transfer_one (f := Wire.frame u.params.ops .wren) rfl rfl).trans (drawOk_of_okDraw hd hb)
  have hw : u.nextWire (.programPage .wren src si a n) = some .wren := rfl
  rw [(stepRunsTheWireCommand s u stack _ below .wren rest hf hi ht hc hsettle huf huc hw).2 (params_wf hwf).2.2.2 nofun,
    exec_wire, State.xact_of_transfer huf hui (Device.check_wren_none hp) hcall]
  exact congrArg Host.Outcome.next (xactOk_page_wren (s := u.withEnv { u.env with draws := more }) huc _)

/-- The chunk that follows a page's end is a whole page or what remains (R172). -/
theorem split_of_aligned {l : WnLocals} (h : l.a % 256 = 0) : l.split = { l with chunk := min l.n 256 } := by
  simp [WnLocals.split, Config.pageSize, h]

/-- Settles O39: the internal computation counts the chunk where the writer is the outermost frame and calls `ProgramPage`
for the next, whose first action is its write-enable. -/
theorem nextPageAdvances : Obligations.NextPageAdvances := by
  intro s src si a n l below rest b more hwf h hp ht hc hbelow hscratch hchunk hmore hd hb
  have haligned := WnLocals.advance_aligned hchunk hmore
  obtain ⟨bs, hbs⟩ := sourceBytes_of_written (s := s) (src := l.src) l.advance.si l.advance.split.chunk
    fun hsrc => (hscratch hsrc).2.1
  have hlocals : l.advance.split = ⟨l.src, l.a + l.chunk, l.si + l.chunk, l.n - l.chunk, min (l.n - l.chunk) 256⟩ :=
    split_of_aligned haligned
  have hsettle := settle_nextPage (below := below) (s := s.withEnv { s.env with turns := rest }) hmore hbs
  rw [hlocals] at hsettle
  refine ⟨_, step_page_wren h ht hc hsettle rfl h hwf hp hd hb, haligned, rfl, fun hnil => ?_, fun hne => ?_, rfl, rfl⟩
  · rw [hnil]; rfl
  · obtain hnil | ⟨m, rfl⟩ := hbelow
    · exact absurd hnil hne
    · rfl

end Sys2Proof.Safety
end

section
/-! PROOFS. What a page program leaves of the flash (40_sequencer.md R119, R122, R123): pending, landed or failed, it changes
no byte outside its page. -/

namespace Sys2Proof.Machine

/-- What the device may still do with the pending operation stays inside the page of this number: a page program, or the
havoc of a failed one (40_sequencer.md R119, R123). -/
def Pending.InPage (page : Nat) : Pending → Prop
  | .none => True
  | .pp a _ => a / 256 = page
  | .havoc lo hi => page * 256 ≤ lo ∧ hi ≤ page * 256 + 256
  | .se _ => False
  | .ce => False

/-- From the array `m` to the array `m'` no byte outside the page of this number has changed. -/
def Memory.SameOutside (page : Nat) (m m' : Memory) : Prop := ∀ x, x / 256 ≠ page → m'.read x = m.read x

theorem Memory.SameOutside.program {m : Memory} (h : m.wf = true) (a : Nat) (bs : List Byte) :
    m.SameOutside (a / 256) (m.program a 0 bs) := fun x hx =>
  Memory.read_program_outside h a 0 bs (by simp only [Config.pageSize]; omega)

theorem Memory.SameOutside.writeRange {m : Memory} (h : m.wf = true) {page lo : Nat} {bs : List Byte}
    (hin : ∀ x, lo ≤ x → x < lo + bs.length → x / 256 = page) : m.SameOutside page (m.writeRange lo bs) :=
  fun x hx => by
    rw [Memory.read_writeRange h, if_neg fun hx' => hx (hin x hx'.1 hx'.2)]

/-- The Device agent's step on such an operation (40_sequencer.md R122). -/
theorem State.deviceStep_inPage {s : State} {page : Nat} (hm : s.dev.array.wf = true) (h : s.dev.pending.InPage page) :
    ∃ e m, s.deviceStep = (s.withEnv e).withDev { array := m, pending := .none, wel := s.dev.wel }
      ∧ s.dev.array.SameOutside page m := by
  unfold State.deviceStep
  split
  case h_1 hp => exact ⟨s.env, s.dev.array, by rw [← hp]; rfl, fun _ _ => rfl⟩
  case h_2 a bs hp =>
    rw [hp] at h
    exact ⟨s.env, _, rfl, h ▸ .program hm a bs⟩
  case h_3 hp => rw [hp] at h; exact h.elim
  case h_4 hp => rw [hp] at h; exact h.elim
  case h_5 lo hi hp =>
    rw [hp] at h
    obtain ⟨hlo, hhi⟩ : page * 256 ≤ lo ∧ hi ≤ page * 256 + 256 := h
    obtain ⟨e, he⟩ := s.drawBytes_env (hi - lo)
    have hlen := s.length_drawBytes (hi - lo)
    exact ⟨e, _, by rw [he]; rfl, .writeRange hm fun x _ _ => by omega⟩

end Sys2Proof.Machine

namespace Sys2Proof.Safety

open Sys2Proof.Machine

/-- A failed transaction whose range, if it has one, lies in the page leaves the other pages as they were (R123). -/
theorem FailureLeaves.inPage {s : State} {w : Wire} {d : Device} {page : Nat} (h : FailureLeaves s w d)
    (hm : s.dev.array.wf = true) (hp : s.dev.pending.InPage page)
    (hw : ∀ lo n, failRange s.params.capacity w = some (lo, n) → page * 256 ≤ lo ∧ lo + n ≤ page * 256 + 256) :
    d.pending.InPage page ∧ s.dev.array.SameOutside page d.array := by
  obtain ⟨ha, hpend⟩ | ⟨lo, n, bs, hrange, rfl, ha, hpend⟩ := h
  · rw [ha, hpend]
    exact ⟨hp, fun _ _ => rfl⟩
  · obtain ⟨hlo, hhi⟩ := hw _ _ hrange
    rw [ha]
    refine ⟨?_, .writeRange hm fun x _ _ => by omega⟩
    obtain hpend | hpend := hpend <;> rw [hpend]
    · trivial
    · exact ⟨hlo, hhi⟩

/-- The range of a failed program is its page. -/
theorem failRange_pp {cap lo n : Nat} {a : Addr} {bs : List Byte} (h : failRange cap (.pp a bs) = some (lo, n)) :
    a.toNat / 256 * 256 ≤ lo ∧ lo + n ≤ a.toNat / 256 * 256 + 256 := by
  simp only [failRange, Option.some.injEq, Prod.mk.injEq, Config.pageSize] at h
  omega

end Sys2Proof.Safety
end

section
/-! PROOFS. WNOCHK under every schedule (44_page_split_writer.md R171 to R174): what an unchecked write has made of the flash
wherever its engine stands, which every step of every agent keeps until the response is posted. -/

namespace Sys2Proof.Safety

open Sys2Proof.Machine

/-! ### The request and its chunks -/

/-- An unchecked write: the parameters and the array it begins with, its address and its bytes. -/
structure UncheckedWrite where
  params : Config.Params
  old : Memory
  addr : Nat
  data : List Byte

namespace UncheckedWrite

variable {W : UncheckedWrite} {l : WnLocals} {m : Memory} {dev : Device}

/-- What R223 asks of it. -/
structure Fits (W : UncheckedWrite) : Prop where
  params : W.params.wf = true
  capacity : W.addr + W.data.length ≤ W.params.capacity
  length : W.data.length < 2 ^ 32

/-- The byte at `x` once its first `i` bytes are written: the AND of old and new there, the old byte elsewhere (20_memory.md
R56). -/
def byte (W : UncheckedWrite) (i x : Nat) : Byte :=
  if W.addr ≤ x ∧ x < W.addr + i then W.old.read x &&& W.data.getD (x - W.addr) erased else W.old.read x

theorem byte_of_mem {i x : Nat} (hlo : W.addr ≤ x) (hhi : x < W.addr + i) :
    W.byte i x = W.old.read x &&& W.data.getD (x - W.addr) erased := if_pos ⟨hlo, hhi⟩

theorem byte_of_not_mem {i x : Nat} (h : x < W.addr ∨ W.addr + i ≤ x) : W.byte i x = W.old.read x := if_neg (by omega)

/-- The array holds its first `i` bytes, and is otherwise as it was. -/
def Written (W : UncheckedWrite) (i : Nat) (m : Memory) : Prop := ∀ x, m.read x = W.byte i x

theorem written_old (W : UncheckedWrite) : W.Written 0 W.old := fun x => (byte_of_not_mem (lt_or_ge x W.addr)).symm

/-- The writer's locals between two chunks: the place in the request, at a page's start but for the first chunk (R171,
R172). -/
structure Position (W : UncheckedWrite) (l : WnLocals) : Prop where
  src : l.src = .req
  addr : l.a = W.addr + l.si
  rest : l.si + l.n = W.data.length
  aligned : 0 < l.n → l.si = 0 ∨ l.a % 256 = 0

/-- The writer's locals in a chunk (R172). -/
structure Chunk (W : UncheckedWrite) (l : WnLocals) : Prop extends Position W l where
  pos : 0 < l.n
  chunk : l.chunk = min l.n (256 - l.a % 256)

theorem Position.split (h : Position W l) (hn : 0 < l.n) : Chunk W l.split := ⟨⟨h.1, h.2, h.3, h.4⟩, hn, rfl⟩

theorem Chunk.advance (h : Chunk W l) : Position W l.advance := by
  obtain ⟨⟨hsrc, haddr, hrest, -⟩, hpos, hchunk⟩ := h
  refine ⟨hsrc, ?_, ?_, fun hn => .inr (l.advance_aligned hchunk (Nat.lt_of_sub_pos hn))⟩
  · simp only [WnLocals.advance]; omega
  · simp only [WnLocals.advance]; omega

/-- The bytes that a chunk programs. -/
def payload (W : UncheckedWrite) (l : WnLocals) : List Byte := (W.data.drop l.si).take l.chunk

theorem Chunk.length_payload (h : Chunk W l) : (W.payload l).length = l.chunk := by
  obtain ⟨⟨-, -, hrest, -⟩, -, hchunk⟩ := h
  simp only [payload, List.length_take, List.length_drop]
  omega

/-- They are the request's bytes at the chunk's addresses. -/
theorem Chunk.getD_payload (h : Chunk W l) {x : Nat} (hlo : l.a ≤ x) (hhi : x < l.a + l.chunk) :
    (W.payload l).getD (x - l.a) erased = W.data.getD (x - W.addr) erased := by
  have haddr := h.addr
  rw [payload, List.getD_eq_getElem?_getD, List.getElem?_take_of_lt (by omega), List.getElem?_drop,
    ← List.getD_eq_getElem?_getD, show l.si + (x - l.a) = x - W.addr by omega]

/-- A chunk writes no byte but its own. -/
theorem Chunk.byte_outside (h : Chunk W l) {x : Nat} (hx : ¬(l.a ≤ x ∧ x < l.a + l.chunk)) :
    W.byte (l.si + l.chunk) x = W.byte l.si x := by
  have haddr := h.addr
  have hiff : (W.addr ≤ x ∧ x < W.addr + (l.si + l.chunk)) ↔ W.addr ≤ x ∧ x < W.addr + l.si := by omega
  simp only [byte, hiff]

/-- A chunk lies in its page (R172). -/
theorem Chunk.in_page (h : Chunk W l) {x : Nat} (hlo : l.a ≤ x) (hhi : x < l.a + l.chunk) : x / 256 = l.a / 256 := by
  have := h.chunk
  omega

/-- The program of a chunk writes its bytes (20_memory.md R56). -/
theorem Chunk.written_program (h : Chunk W l) (hwf : m.wf = true) (hm : W.Written l.si m) :
    W.Written (l.si + l.chunk) (m.program l.a 0 (W.payload l)) := fun x => by
  have hchunk := h.chunk
  have haddr := h.addr
  rw [Memory.read_program hwf _ _ _ (by rw [h.length_payload]; simp only [Config.pageSize]; omega), h.length_payload,
    Nat.add_zero, hm x]
  by_cases hx : l.a ≤ x ∧ x < l.a + l.chunk
  · rw [if_pos hx, h.getD_payload hx.1 hx.2, byte_of_not_mem (by omega), byte_of_mem (by omega) (by omega)]
  · rw [if_neg hx, h.byte_outside hx]

/-! ### The device -/

/-- A chunk's program has been sent: it is still pending, or it has landed (40_sequencer.md R122). -/
def Sent (W : UncheckedWrite) (l : WnLocals) (dev : Device) : Prop :=
  (dev.pending = .pp l.a (W.payload l) ∧ W.Written l.si dev.array)
    ∨ (dev.pending = .none ∧ W.Written (l.si + l.chunk) dev.array)

/-- Outside the page of the chunk that failed the array holds the chunks before it, and will (R174). -/
def Spared (W : UncheckedWrite) (l : WnLocals) (dev : Device) : Prop :=
  dev.pending.InPage (l.a / 256) ∧ ∀ x, x / 256 ≠ l.a / 256 → dev.array.read x = W.byte l.si x

theorem Spared.of_same {dev' : Device} (h : W.Spared l dev) (hp : dev'.pending.InPage (l.a / 256))
    (hm : dev.array.SameOutside (l.a / 256) dev'.array) : W.Spared l dev' := by
  obtain ⟨-, hbytes⟩ := h
  exact ⟨hp, fun x hx => (hm x hx).trans (hbytes x hx)⟩

theorem spared_of_written (hp : dev.pending = .none) (hm : W.Written l.si dev.array) : W.Spared l dev :=
  ⟨by rw [hp]; trivial, fun x _ => hm x⟩

theorem Sent.spared (h : W.Sent l dev) (hl : Chunk W l) : W.Spared l dev := by
  obtain ⟨hp, hm⟩ | ⟨hp, hm⟩ := h
  · exact ⟨by rw [hp]; rfl, fun x _ => hm x⟩
  · exact ⟨by rw [hp]; trivial, fun x hx => (hm x).trans (hl.byte_outside fun hin => hx (hl.in_page hin.1 hin.2))⟩

/-! ### The stages -/

/-- What an unchecked write has made of `committed` and the device, by where the engine stands. -/
inductive Stage (W : UncheckedWrite) : Ctl → Nat → Device → Prop
  /-- At the loop, with its first `si` bytes written. -/
  | loop {l : WnLocals} {dev : Device} (hl : Position W l) (hp : dev.pending = .none) (hm : W.Written l.si dev.array) :
      Stage W (.busy [.writeNoCheck .loop l]) l.si dev
  /-- At a chunk's write-enable. -/
  | enable {l : WnLocals} {dev : Device} (hl : Chunk W l) (hp : dev.pending = .none) (hm : W.Written l.si dev.array) :
      Stage W (.busy [l.page .wren, .writeNoCheck .page l]) l.si dev
  /-- At its command, the latch set (70_reset_and_hazards.md R265). -/
  | command {l : WnLocals} {dev : Device} (hl : Chunk W l) (hp : dev.pending = .none) (hm : W.Written l.si dev.array)
      (hwel : dev.wel = true) :
      Stage W (.busy [l.page .cmd, .writeNoCheck .page l]) l.si dev
  /-- In its wait. -/
  | wait {l : WnLocals} {dev : Device} (hl : Chunk W l) (pt : WrPoint) (timeout t0 : Nat) (k : Kind) (ad : Nat)
      (h : W.Sent l dev) :
      Stage W (.busy [.waitReady pt timeout t0 k ad, l.page .wait, .writeNoCheck .page l]) l.si dev
  /-- Its wait has found the device ready (41_status_poller.md R141). -/
  | returned {l : WnLocals} {dev : Device} (hl : Chunk W l) (hp : dev.pending = .none)
      (hm : W.Written (l.si + l.chunk) dev.array) :
      Stage W (.busy [l.page .wait, .writeNoCheck .page l]) l.si dev
  /-- The request has ended with `Ok`. -/
  | finished {dev : Device} (hp : dev.pending = .none) (hm : W.Written W.data.length dev.array) :
      Stage W (.ending (.ok [] 0)) W.data.length dev
  /-- It has ended with anything else, in the chunk `l`. -/
  | failed {l : WnLocals} {dev : Device} (hl : Chunk W l) (o : OpOutcome) (k : Kind) (ad : Nat) (ho : o ≠ .ok)
      (h : W.Spared l dev) :
      Stage W (.ending (.failed o k ad)) l.si dev

theorem Stage.not_idle {c : Ctl} {k : Nat} (h : Stage W c k dev) : c ≠ .idle := by cases h <;> nofun

/-- What an unchecked write's posted response says of the device. -/
def Answered (W : UncheckedWrite) (s : State) : Prop :=
  (s.resp.record.outcome = .ok → s.dev.pending = .none ∧ s.resp.record.committed = BitVec.ofNat 32 W.data.length
    ∧ W.Written W.data.length s.dev.array)
  ∧ (s.resp.record.outcome ≠ .ok → ∃ l, Chunk W l ∧ s.resp.record.committed.toNat = l.si ∧ W.Spared l s.dev)

end UncheckedWrite

open UncheckedWrite

/-- The machine runs the request. -/
structure Serves (W : UncheckedWrite) (s : State) : Prop where
  params : s.params = W.params
  fault : s.fault = none
  req : ∃ r, s.req = some r ∧ r.data = W.data

/-- The machine runs the request and stands at one of its stages. -/
structure Writing (W : UncheckedWrite) (s : State) : Prop extends Serves W s where
  stage : Stage W s.ctl s.committed s.dev

variable {W : UncheckedWrite} {l : WnLocals} {s t : State} {stack below : List Frame}

theorem Serves.sourceBytes (h : Serves W s) (hl : Position W l) :
    s.sourceBytes l.src l.si l.chunk = some (W.payload l) := by
  obtain ⟨r, hr, hd⟩ := h.req
  simp [State.sourceBytes, State.requestSlice, hl.src, hr, hd, payload]

/-- A transaction leaves the request running. -/
theorem Serves.of_busFrame (h : Serves W s) (ht : BusFrame s t) : Serves W t := by
  obtain ⟨hparams, -, hreq, -, -, -, -, -, -, -, hfault, -⟩ := ht
  exact ⟨hparams.trans h.params, hfault.trans h.fault, hreq ▸ h.req⟩

theorem BusFrame.committed_eq (h : BusFrame s t) : t.committed = s.committed := by
  obtain ⟨-, -, -, -, -, -, -, hcommitted, -⟩ := h
  exact hcommitted

/-! ### The internal computation (R171) -/

/-- From the loop the write goes on with its next chunk, or ends. -/
theorem Serves.wnLoop (h : Serves W s) (hl : Position W l) (hk : s.committed = l.si) (hp : s.dev.pending = .none)
    (hm : W.Written l.si s.dev.array) : Writing W (wnLoop l [] (settle []) s) := by
  have hrest := hl.rest
  by_cases hn : 0 < l.n
  · have hchunk := hl.split hn
    rw [wnLoop_next _ hn (h.sourceBytes hchunk.toPosition)]
    exact ⟨⟨h.params, h.fault, h.req⟩, hk ▸ Stage.enable hchunk hp hm⟩
  · have hdone : l.si = W.data.length := by omega
    rw [wnLoop_returns _ (Nat.eq_zero_of_not_pos hn)]
    refine ⟨⟨h.params, h.fault, h.req⟩, ?_⟩
    rw [hdone] at hm hk
    exact hk ▸ Stage.finished hp hm

/-- The internal computation goes from stage to stage (10_state.md R21). -/
theorem Writing.settle (h : Writing W s) (hc : s.ctl = .busy stack) : Writing W (settle stack s) := by
  obtain ⟨hserves, hstage⟩ := id h
  have stay : s.withCtl (.busy stack) = s := by rw [← hc]; rfl
  rw [hc] at hstage
  generalize hk : s.committed = k at hstage
  cases hstage with
  | loop hl hp hm => exact hserves.wnLoop hl hk hp hm
  | @enable l _ hl hp hm =>
    have hpos : l.chunk ≠ 0 := by have := hl.pos; have := hl.chunk; omega
    have hsettle : Machine.settle [l.page .wren, .writeNoCheck .page l] s = s :=
      (if_neg hpos).trans ((State.startPage_of_source (hserves.sourceBytes hl.toPosition)).trans stay)
    rw [hsettle]; exact h
  | @command l _ hl hp hm hwel =>
    have hsettle : Machine.settle [l.page .cmd, .writeNoCheck .page l] s = s := by
      simp only [Machine.settle, WnLocals.page, hserves.sourceBytes hl.toPosition]
      exact stay
    rw [hsettle]; exact h
  | wait hl pt timeout t0 k ad hsent => rw [settle_wait hc]; exact h
  | @returned l _ hl hp hm =>
    have hsettle : Machine.settle [l.page .wait, .writeNoCheck .page l] s
        = Machine.wnLoop l.advance [] (Machine.settle []) (s.addCommitted l.chunk) := settle_page l [] s
    rw [hsettle]
    exact Serves.wnLoop (s := s.addCommitted l.chunk) ⟨hserves.params, hserves.fault, hserves.req⟩ hl.advance
      (congrArg (· + l.chunk) hk) hp hm

/-! ### The engine's external actions -/

/-- The posted response says what the stage says. -/
theorem Writing.post {x : Exit} (h : Writing W s) (hlen : W.data.length < 2 ^ 32) (hc : s.ctl = .ending x) :
    Answered W (s.post x) := by
  have hstage := h.stage
  rw [hc] at hstage
  generalize hk : s.committed = k at hstage
  cases hstage with
  | finished hp hm => exact ⟨fun _ => ⟨hp, congrArg (BitVec.ofNat 32) hk, hm⟩, fun hne => absurd rfl hne⟩
  | @failed l _ hl o k ad ho hspared =>
    refine ⟨fun hok => absurd hok ho, fun _ => ⟨l, hl, ?_, hspared⟩⟩
    have hsi : l.si < 2 ^ 32 := by have := hl.rest; omega
    have hcount : (s.post (.failed o k ad)).resp.record.committed = BitVec.ofNat 32 l.si := congrArg (BitVec.ofNat 32) hk
    rw [hcount, BitVec.toNat_ofNat, Nat.mod_eq_of_lt hsi]

/-- Where the engine waits, it waits for a chunk's program. -/
theorem Writing.of_wait {pt : WrPoint} {timeout t0 ad : Nat} {k : Kind} (h : Writing W s)
    (hc : s.ctl = .busy (.waitReady pt timeout t0 k ad :: below)) :
    ∃ l, Chunk W l ∧ W.Sent l s.dev ∧ s.committed = l.si ∧ below = [l.page .wait, .writeNoCheck .page l] := by
  have hstage := h.stage
  rw [hc] at hstage
  generalize hk : s.committed = k at hstage
  cases hstage with
  | @wait l _ hl _ _ _ _ _ hsent => exact ⟨l, hl, hsent, rfl, rfl⟩

/-- A failed transaction leaves the device as its failure does (R123). -/
theorem xactErr_leaves (s : State) (w : Wire) (f : WireFrame) : FailureLeaves s w (s.xactErr w f).dev := by
  obtain ⟨c, hc⟩ := s.xactErr_eq w f
  obtain ⟨e, dev, hfail, hdev⟩ := onFailure_leaves { s with cs := false } w
  rw [hc, hfail]
  exact hdev

/-- A transaction that the device takes keeps the stages, where its success and its failure do (40_sequencer.md R110). -/
theorem Writing.xact {w : Wire} (h : Writing W s) (hc : s.ctl = .busy stack)
    (hcheck : s.dev.check s.params.capacity w = none)
    (hok : ∀ env f, Stage W ((s.withEnv env).xactOk w f).ctl s.committed (s.dev.onSuccess w))
    (herr : ∀ dev, FailureLeaves s w dev → Stage W (.ending (.failed .transportError w.kind w.addr)) s.committed dev) :
    Writing W (s.xact w) := by
  obtain ⟨-, hx⟩ | ⟨-, -, ⟨x, hfault, -⟩ | ⟨-, env, hx | hx⟩⟩ := s.xact_cases w
  · rw [hx]; exact h
  · rw [hcheck] at hfault; cases hfault
  · have hframe := xactOk_busFrame (s.withEnv env) w (w.frame s.params.ops)
    have hdev := (xactOk_effect (s.withEnv env) w (w.frame s.params.ops)).1
    rw [hx]
    exact ⟨h.toServes.of_busFrame hframe, by rw [hframe.committed_eq, hdev]; exact hok env _⟩
  · have hframe := xactErr_busFrame (s.withEnv env) w (w.frame s.params.ops)
    have hend := xactErr_ctl (s := s.withEnv env) hc w (w.frame s.params.ops)
    have hleaves := xactErr_leaves (s.withEnv env) w (w.frame s.params.ops)
    rw [hx]
    exact ⟨h.toServes.of_busFrame hframe, by rw [hframe.committed_eq, hend]; exact herr _ hleaves⟩

/-- The bytes of a transaction decode to its own command (40_sequencer.md R125). -/
theorem xact_of_decoded {w : Wire} {i : Instr} (ho : s.params.ops.distinct = true) (hw : ∀ a, w ≠ .read a 0)
    (hd : decodeWire s.params.ops (w.frame s.params.ops) = .ok i) (ht : exec i s = .next t) : t = s.xact w := by
  obtain rfl : i = w.instr := Except.ok.inj (hd.symm.trans (decodeWire_frame_self ho hw))
  exact (Host.Outcome.next.inj ((exec_wire w s).symm.trans ht)).symm

/-- After its command `ProgramPage` waits (43_page_programmer.md R161). -/
theorem xactOk_page_pp_ctl {src : Source} {si a n : Nat} {b : Addr} {d : List Byte}
    (hc : s.ctl = .busy (.programPage .cmd src si a n :: below)) (f : WireFrame) :
    (s.xactOk (.pp b d) f).ctl
      = .busy (.waitReady .t0 s.params.tPP 0 .pp a :: .programPage .wait src si a n :: below) := by
  simp only [State.xactOk, State.reply, State.resume, State.log_ctl, State.withDev_ctl, hc]
  rfl

/-- The write-enable of a chunk. -/
theorem Writing.xact_wren (h : Writing W s) (hm : s.dev.array.wf = true) (hl : Chunk W l)
    (hc : s.ctl = .busy [l.page .wren, .writeNoCheck .page l]) (hk : s.committed = l.si) (hp : s.dev.pending = .none)
    (hw : W.Written l.si s.dev.array) : Writing W (s.xact .wren) := by
  refine h.xact hc (Device.check_wren_none hp) (fun env f => ?_) fun dev hleaves => ?_
  · rw [xactOk_page_wren (s := s.withEnv env) hc f, hk]
    exact .command hl hp hw rfl
  · obtain ⟨hpage, hsame⟩ := hleaves.inPage (page := l.a / 256) hm (by rw [hp]; trivial) nofun
    rw [hk]
    exact .failed hl _ _ _ nofun ((spared_of_written hp hw).of_same hpage hsame)

/-- Its program command. -/
theorem Writing.xact_pp (h : Writing W s) (hfits : W.Fits) (hm : s.dev.array.wf = true) (hl : Chunk W l)
    (hc : s.ctl = .busy [l.page .cmd, .writeNoCheck .page l]) (hk : s.committed = l.si) (hp : s.dev.pending = .none)
    (hw : W.Written l.si s.dev.array) (hwel : s.dev.wel = true) :
    Writing W (s.xact (.pp (BitVec.ofNat 24 l.a) (W.payload l))) := by
  have hlen := hl.length_payload
  obtain ⟨-, -, hcap24, -⟩ := params_wf hfits.params
  have hcap := hfits.capacity
  obtain ⟨⟨-, haddr, hrest, -⟩, hpos, hchunk⟩ := id hl
  have ha : (BitVec.ofNat 24 l.a).toNat = l.a := toNat_ofNat24 (by omega)
  have hcheck : s.dev.check s.params.capacity (.pp (BitVec.ofNat 24 l.a) (W.payload l)) = none :=
    Device.check_pp_none hp hwel (by omega) (by omega) (by rw [ha, h.params]; omega)
  refine h.xact hc hcheck (fun env f => ?_) fun dev hleaves => ?_
  · rw [xactOk_page_pp_ctl (s := s.withEnv env) hc f, hk]
    exact .wait hl _ _ _ _ _ (.inl ⟨congrArg (Pending.pp · _) ha, hw⟩)
  · obtain ⟨hpage, hsame⟩ := hleaves.inPage (page := l.a / 256) hm (by rw [hp]; trivial)
      fun lo n hr => by have := failRange_pp hr; rwa [ha] at this
    rw [hk]
    exact .failed hl _ _ _ nofun ((spared_of_written hp hw).of_same hpage hsame)

/-- A poll of its wait (41_status_poller.md R141). -/
theorem Writing.xact_rdsr {timeout t0 ad : Nat} {k : Kind} (h : Writing W s) (hm : s.dev.array.wf = true)
    (hc : s.ctl = .busy (.waitReady .poll timeout t0 k ad :: below)) : Writing W (s.xact .rdsr) := by
  obtain ⟨l, hl, hsent, hk, rfl⟩ := h.of_wait hc
  refine h.xact hc rfl (fun env f => ?_) fun dev hleaves => ?_
  · rw [hk]
    obtain ⟨-, hclk⟩ | ⟨hready, ⟨-, hret⟩ | ⟨hnil, -⟩⟩ := xactOk_rdsr_ctl (s := s.withEnv env) hc f
    · rw [hclk]; exact .wait hl _ _ _ _ _ hsent
    · rw [hret]
      obtain ⟨hpend, -⟩ | ⟨-, hw⟩ := hsent
      · exact absurd (hpend.symm.trans hready) nofun
      · exact .returned hl hready hw
    · cases hnil
  · have hspared := hsent.spared hl
    obtain ⟨hpage, hsame⟩ := hleaves.inPage hm hspared.1 nofun
    rw [hk]
    exact .failed hl _ _ _ nofun (hspared.of_same hpage hsame)

/-- The head's transaction keeps the stages (40_sequencer.md R110). -/
theorem Writing.wire {f : Frame} {w : Wire} {i : Instr} (h : Writing W s) (hfits : W.Fits) (hm : s.dev.array.wf = true)
    (hc : s.ctl = .busy (f :: below)) (hw : s.nextWire f = some w)
    (hd : decodeWire s.params.ops (w.frame s.params.ops) = .ok i) (ht : exec i s = .next t) : Writing W t := by
  obtain ⟨hserves, hstage⟩ := id h
  have ho : s.params.ops.distinct = true := hserves.params ▸ (params_wf hfits.params).2.2.2
  rw [hc] at hstage
  generalize hk : s.committed = k at hstage
  cases hstage with
  | loop hl hp hw' => cases hw
  | returned hl hp hw' => cases hw
  | enable hl hp hw' =>
    obtain rfl : Wire.wren = w := Option.some.inj hw
    exact xact_of_decoded (w := .wren) ho nofun hd ht ▸ h.xact_wren hm hl hc hk hp hw'
  | command hl hp hw' hwel =>
    rw [WnLocals.page, State.nextWire, hserves.sourceBytes hl.toPosition] at hw
    obtain rfl := Option.some.inj hw
    exact xact_of_decoded (w := .pp _ _) ho nofun hd ht ▸ h.xact_pp hfits hm hl hc hk hp hw' hwel
  | wait hl pt timeout t0 k ad hsent =>
    cases pt with
    | t0 => cases hw
    | clk => cases hw
    | poll =>
      obtain rfl : Wire.rdsr = w := Option.some.inj hw
      exact xact_of_decoded (w := .rdsr) ho nofun hd ht ▸ h.xact_rdsr hm hc

/-- The engine's external action keeps the stages, or posts the response. -/
theorem Writing.action (h : Writing W s) (hfits : W.Fits) (hm : s.dev.array.wf = true) (ht : EngineAction s t) :
    Writing W t ∨ (t.ctl = .idle ∧ Answered W t) := by
  cases ht with
  | stop => exact .inl h
  | post hf hc => exact .inr ⟨rfl, h.post hfits.length hc⟩
  | entry hf hc =>
    obtain ⟨l, hl, hsent, hk, rfl⟩ := h.of_wait hc
    exact .inl ⟨⟨h.params, h.fault, h.req⟩, hk ▸ Stage.wait hl _ _ _ _ _ hsent⟩
  | @deadline timeout t0 k ad _ hf hc =>
    obtain ⟨l, hl, hsent, hk, rfl⟩ := h.of_wait hc
    rw [readDeadline_eq hc]
    refine .inl ⟨⟨h.params, h.fault, h.req⟩, ?_⟩
    rw [State.withCtl_ctl]
    split
    · exact hk ▸ Stage.failed hl _ _ _ nofun (hsent.spared hl)
    · exact hk ▸ Stage.wait hl _ _ _ _ _ hsent
  | async hf hi hc =>
    have hstage := h.stage
    rw [hc] at hstage
    cases hstage
  | wire hf hi hc hw hd ht => exact .inl (h.wire hfits hm hc hw hd ht)

/-- The engine's turn keeps the stages, or posts the response. -/
theorem Writing.engineTurn (h : Writing W s) (hfits : W.Fits) (hm : s.dev.array.wf = true)
    (ht : s.engineTurn.outcome = .next t) : Writing W t ∨ (t.ctl = .idle ∧ Answered W t) := by
  cases engineMove_of_turn ht with
  | wait => exact .inl h
  | request hc => exact absurd hc h.stage.not_idle
  | reserved d hc => exact absurd hc h.stage.not_idle
  | post hc => exact .inr ⟨rfl, h.post hfits.length hc⟩
  | @run stack _ hc hact =>
    obtain ⟨_, _, _, _, _, hs⟩ := settle_frame stack s
    exact (h.settle hc).action hfits (by rw [hs]; exact hm) hact

/-! ### The other agents -/

/-- A change of neither the request, the fault mark, the control state, `committed` nor the device keeps the stage. -/
theorem Writing.congr (h : Writing W s) (hp : t.params = s.params) (hf : t.fault = s.fault) (hr : t.req = s.req)
    (hc : t.ctl = s.ctl) (hk : t.committed = s.committed) (hd : t.dev = s.dev) : Writing W t :=
  ⟨⟨hp.trans h.params, hf.trans h.fault, hr ▸ h.req⟩, by rw [hc, hk, hd]; exact h.stage⟩

theorem Writing.dmaStep (h : Writing W s) : Writing W s.dmaStep := by
  obtain ⟨-, hx⟩ | ⟨env, c, hx⟩ := s.dmaStep_cases
  · rw [hx]; exact h
  · rw [hx]; exact h.congr rfl rfl rfl rfl rfl rfl

theorem Writing.hostMove (h : Writing W s) : Writing W s.hostMove := by
  obtain ⟨_, _, _, _, hx⟩ := s.hostMove_frame
  rw [hx]; exact h.congr rfl rfl rfl rfl rfl rfl

/-- The device has nothing to do but the chunk's program, or what a failed chunk has left (40_sequencer.md R122, R123). -/
theorem Writing.deviceStep (h : Writing W s) (hm : s.dev.array.wf = true) : Writing W s.deviceStep := by
  have ready : s.dev.pending = .none → Writing W s.deviceStep := fun hp => by rw [State.deviceStep_of_ready hp]; exact h
  obtain ⟨hserves, hstage⟩ := id h
  generalize hc : s.ctl = c at hstage
  generalize hk : s.committed = k at hstage
  cases hstage with
  | loop hl hp hw => exact ready hp
  | enable hl hp hw => exact ready hp
  | command hl hp hw hwel => exact ready hp
  | returned hl hp hw => exact ready hp
  | finished hp hw => exact ready hp
  | wait hl pt timeout t0 k ad hsent =>
    obtain ⟨hp, hw⟩ | ⟨hp, -⟩ := hsent
    · rw [State.deviceStep, hp]
      refine ⟨⟨h.params, h.fault, h.req⟩, ?_⟩
      rw [State.withDev_ctl, State.withDev_committed, hc, hk]
      exact .wait hl _ _ _ _ _ (.inr ⟨rfl, hl.written_program hm hw⟩)
    · exact ready hp
  | failed hl o k ad ho hspared =>
    obtain ⟨env, m, hx, hsame⟩ := State.deviceStep_inPage hm hspared.1
    rw [hx]
    refine ⟨⟨h.params, h.fault, h.req⟩, ?_⟩
    rw [State.withDev_ctl, State.withDev_committed, State.withEnv_ctl, State.withEnv_committed, hc, hk]
    exact .failed hl o k ad ho (hspared.of_same trivial hsame)

/-! ### A step, a run -/

/-- A step keeps the stages, or posts the response. -/
theorem Writing.step (h : Writing W s) (hfits : W.Fits) (hm : s.dev.array.wf = true) (ht : Machine.step s = .next t) :
    Writing W t ∨ (t.ctl = .idle ∧ Answered W t) := by
  have h' : Writing W s.takeTurn.2 := h.congr rfl rfl rfl rfl rfl rfl
  rw [step_eq h.fault] at ht
  cases hg : s.takeTurn.1 with
  | engine => rw [hg] at ht; exact h'.engineTurn hfits hm ht
  | dma => rw [hg] at ht; cases ht; exact .inl h'.dmaStep
  | device => rw [hg] at ht; cases ht; exact .inl (h'.deviceStep hm)
  | clock => rw [hg] at ht; cases ht; exact .inl (h'.congr rfl rfl rfl rfl rfl rfl)
  | host => rw [hg] at ht; cases ht; exact .inl h'.hostMove

/-- An unchecked write's posted response says what has become of its bytes (R173, R174). -/
theorem Writing.answered (h : Writing W s) (hs : Consistent s) (hfits : W.Fits) (hfin : Finishes s t) : Answered W t := by
  refine Finishes.of_step (I := fun s => Consistent s ∧ Writing W s) (fun _ h => h.2.stage.not_idle) (fun s t h ht => ?_)
    ⟨hs, h⟩ hfin
  obtain ⟨hcons, hwriting⟩ := h
  exact (hwriting.step hfits hcons.array.1 ht).imp_left fun ht' => ⟨stepKeepsConsistency s t hcons ht, ht'⟩

/-- A refused unchecked write leaves an idle state without a response (60_exceptions.md R223). -/
theorem wnochk_refused {a : Addr} {n : Word} {d : List Byte} (h : Ready s) (hpre : writePre s.params a n d = false)
    (ht : exec (.wnochk a n d) s = .next t) : t.ctl = .idle ∧ t.resp.valid = false := by
  obtain ⟨hidle, hfault, hresp⟩ := h
  have hrefused : exec (.wnochk a n d) s
      = .next ((s.latch { s.incoming with op := opWnochk, addr := a, len := n, data := d }).raise .contractViolation) := by
    rw [exec, execWnochk, hpre, State.accept_faults]
    exact (s.canAccept_iff _).mpr ⟨hidle, hfault, hresp, nofun⟩
  rw [hrefused] at ht
  cases ht
  rw [State.raise_ctl, State.raise_resp]
  exact ⟨hidle, hresp⟩

/-- An accepted unchecked write stands at the loop, with nothing written (R171). -/
theorem wnochk_begins {a : Addr} {n : Word} {d : List Byte} (h : Ready s) (hp : s.dev.pending = .none)
    (hlen : d.length = n.toNat) (hcap : a.toNat + n.toNat ≤ s.params.capacity) (ht : exec (.wnochk a n d) s = .next t) :
    Writing ⟨s.params, s.dev.array, a.toNat, d⟩ t := by
  obtain ⟨-, hacc, -⟩ := writeRequestsAccepted s a n d h hlen hcap
  obtain ⟨-, hfault, -⟩ := h
  obtain rfl := Host.Outcome.next.inj (hacc.symm.trans ht)
  have hstart : Position ⟨s.params, s.dev.array, a.toNat, d⟩ ⟨.req, a.toNat, 0, n.toNat, 0⟩ :=
    ⟨rfl, rfl, (Nat.zero_add _).trans hlen.symm, fun _ => .inl rfl⟩
  exact ⟨⟨rfl, hfault, _, rfl, rfl⟩, .loop hstart hp (written_old _)⟩

/-- Settles O48: a refused WNOCHK leaves an idle state without a response, an accepted one runs through the stages. -/
theorem uncheckedWriteAndsItsBytes : Obligations.UncheckedWriteAndsItsBytes := by
  intro s t u a n d hs hready hp ht hfin hvalid c
  cases hpre : writePre s.params a n d with
  | false =>
    obtain ⟨hidle, hresp⟩ := wnochk_refused hready hpre ht
    rw [hfin.eq_of_idle hidle] at hvalid
    exact absurd (hresp.symm.trans hvalid) nofun
  | true =>
    obtain ⟨hlen, hcap⟩ : d.length = n.toNat ∧ a.toNat + n.toNat ≤ s.params.capacity := by
      simpa [writePre, inCapacity] using hpre
    have hfits : Fits ⟨s.params, s.dev.array, a.toNat, d⟩ := ⟨hs.params, hlen ▸ hcap, hlen ▸ n.isLt⟩
    obtain ⟨hok, herr⟩ := (wnochk_begins hready hp hlen hcap ht).answered (request_keeps hs rfl ht) hfits hfin
    refine ⟨fun h => ?_, fun h => ?_⟩
    · obtain ⟨hpend, hcount, hw⟩ := hok h
      exact ⟨hpend, by simpa [hlen] using hcount, hw⟩
    · obtain ⟨l, ⟨⟨-, haddr, hrest, haligned⟩, hpos, -⟩, hcount, -, hspared⟩ := herr h
      have hc : c = l.si := hcount
      simp only [hc] at haddr hrest ⊢
      refine ⟨by omega, by omega, fun x hlo hhi => ?_, fun x hout hx => ?_⟩
      · exact (hspared x (by omega)).trans (byte_of_mem hlo hhi)
      · exact (hspared x (by rwa [haddr])).trans (byte_of_not_mem hout)

end Sys2Proof.Safety
end

section
/-! PROOFS. ManagedWrite's internal computation (45_managed_write.md R181 to R187): the next sector chunk or the return, the
scan's two paths, and the programming of the chunk. -/

namespace Sys2Proof.Machine

/-! ### Cells and bytes -/

/-- Cells that hold bytes read as these bytes. -/
theorem writtenBytes_map_some (bs : List Byte) : writtenBytes (bs.map some) = some bs := by
  induction bs with
  | nil => rfl
  | cons v t ih => simp [writtenBytes, ih]

/-- A slice of a Scratch Buffer that holds bytes is that slice of the bytes (10_state.md R27). -/
theorem State.scratchSlice_of_bytes {s : State} {bs : List Byte} (h : s.scratch = bs.map some) (lo n : Nat) :
    s.scratchSlice lo n = some ((bs.drop lo).take n) := by
  rw [State.scratchSlice, h, ← List.map_drop, ← List.map_take, writtenBytes_map_some]

/-- The erase-needed test on a slice (45_managed_write.md R184). -/
theorem eraseNeeded_slice_iff {bs : List Byte} {lo n : Nat} (h : lo + n ≤ bs.length) :
    eraseNeeded ((bs.drop lo).take n) = true ↔ ∃ i, lo ≤ i ∧ i < lo + n ∧ bs[i]? ≠ some 0xFF := by
  have hcell (i : Nat) (hi : i < n) : ((bs.drop lo).take n)[i]? = bs[lo + i]? := by
    rw [List.getElem?_take_of_lt hi, List.getElem?_drop]
  simp only [eraseNeeded, List.any_eq_true, bne_iff_ne]
  constructor
  · rintro ⟨v, hv, hne⟩
    obtain ⟨i, hi, rfl⟩ := List.mem_iff_getElem.mp hv
    have hin : i < n := by rw [List.length_take] at hi; omega
    refine ⟨lo + i, by omega, by omega, ?_⟩
    rw [← hcell i hin, List.getElem?_eq_getElem hi]
    exact fun heq => hne (Option.some.inj heq)
  · rintro ⟨i, hlo, hhi, hne⟩
    have hib : i < bs.length := by omega
    refine ⟨bs[i], List.mem_iff_getElem?.mpr ⟨i - lo, ?_⟩, fun heq => hne ?_⟩
    · rw [hcell _ (by omega), show lo + (i - lo) = i by omega, List.getElem?_eq_getElem hib]
    · rw [List.getElem?_eq_getElem hib, heq]

/-- A slice of the latched request's data (10_state.md R23). -/
theorem State.requestSlice_of_req {s : State} {r : Request} (h : s.req = some r) (i n : Nat) :
    s.requestSlice i n = (r.data.drop i).take n := by
  simp only [State.requestSlice, h]

/-- Overwriting every cell leaves the new bytes (45_managed_write.md R183). -/
theorem overwrite_all {cells : List (Option Byte)} {bs : List Byte} (h : cells.length = bs.length) :
    overwrite cells 0 bs = bs.map some := by
  simp [overwrite, ← h]

/-! ### The locals -/

/-- The locals with the next sector chunk: up to the end of its sector, or what remains (45_managed_write.md R182). -/
def MwLocals.split (l : MwLocals) : MwLocals :=
  { l with sec := l.a / 4096, off := l.a % 4096, chunk := min (4096 - l.a % 4096) l.n }

/-- The locals after a finished chunk (R187). -/
def MwLocals.advance (l : MwLocals) : MwLocals := { l with a := l.a + l.chunk, di := l.di + l.chunk, n := l.n - l.chunk }

/-- The writer that programs the chunk from the request (R186). -/
def MwLocals.direct (l : MwLocals) : WnLocals := { src := .req, a := l.a, si := l.di, n := l.chunk, chunk := 0 }

/-- The writer that programs the whole sector from the Scratch Buffer (R185). -/
def MwLocals.rewrite (l : MwLocals) : WnLocals := { src := .scratch, a := l.sec * 4096, si := 0, n := 4096, chunk := 0 }

/-! ### The internal computation -/

variable {l : MwLocals} {below : List Frame} {s : State} {bs : List Byte}

/-- With bytes left, the next chunk begins with the read of its sector (R182). -/
theorem mwChunk_next (ret : State → State) (hn : 0 < l.n) :
    mwChunk l below ret s = s.withCtl (.busy (.managedWrite .read l.split :: below)) := if_neg (Nat.ne_of_gt hn)

/-- Without bytes left it returns (R181). -/
theorem mwChunk_returns (ret : State → State) (hn : l.n = 0) : mwChunk l below ret s = ret s := if_pos hn

/-- The chunk done, the managed write counts it and advances (R187). -/
theorem settle_prog (l : MwLocals) (below : List Frame) (s : State) :
    settle (.managedWrite .prog l :: below) s = mwChunk l.advance below (settle below) (s.addCommitted l.chunk) := rfl

/-- The scan calls the erase or programs the chunk from the request (R184, R186). -/
theorem settle_scan (hbs : s.scratchSlice l.off l.chunk = some bs) :
    settle (.managedWrite .scan l :: below) s = if eraseNeeded bs = true then s.withCtl
        (.busy (.eraseSector .wren (l.sec * 4096) :: .managedWrite .erase { l with need := true } :: below))
      else wnLoop l.direct (.managedWrite .prog { l with need := false } :: below)
        (mwAdv { l with need := false } below (settle below)) s := by
  simp only [settle, mwScan, hbs]
  rfl

/-- The erase done, the request's bytes are merged and the sector is programmed (R185). -/
theorem settle_erased (h : l.need = true) (a : Nat) :
    settle (.eraseSector .wait a :: .managedWrite .erase l :: below) s = wnLoop l.rewrite
      (.managedWrite .prog l :: below) (mwAdv l below (settle below))
      (s.withScratch (overwrite s.scratch l.off (s.requestSlice l.di l.chunk))) := by
  simp only [settle, mwMerge, mwProg, h]
  rfl

/-! ### The transactions -/

/-- The reply of its READ is written to the Scratch Buffer, and the scan is next (R183). -/
theorem xactOk_sectorRead (hc : s.ctl = .busy (.managedWrite .read l :: below)) (b : Addr) (f : WireFrame) :
    s.xactOk (.read b 4096) f = { s with
      ctl := .busy (.managedWrite .scan l :: below)
      scratch := overwrite s.scratch 0 (s.dev.array.readRange b.toNat 4096)
      cs := false
      trace := s.trace ++ [.xact .read f.cmd f.tx f.rxlen (some (s.dev.array.readRange b.toNat 4096))] } := by
  simp only [State.xactOk, State.reply, State.resume, State.log_ctl, State.withDev_ctl, hc]
  rfl

/-- After its write-enable `EraseSector` stands at its command, the latch set, at any natural address (42_erase_controller.md
R151). -/
theorem xactOk_sector_wren {a : Nat} (hc : s.ctl = .busy (.eraseSector .wren a :: below)) (f : WireFrame) :
    s.xactOk .wren f = { s with
      ctl := .busy (.eraseSector .cmd a :: below)
      cs := false
      dev := { s.dev with wel := true }
      trace := s.trace ++ [.xact .wren f.cmd f.tx f.rxlen (some [])] } := by
  simp only [State.xactOk, State.reply, State.resume, State.log_ctl, State.withDev_ctl, hc]
  rfl

end Sys2Proof.Machine
end

section
/-! PROOFS. What a transaction may leave of one sector (40_sequencer.md R119 to R123): pending, landed or failed, it changes no
byte outside it. -/

namespace Sys2Proof.Machine

/-- What the device may still do with the pending operation stays inside the sector of this number: a page program, the erase
of the sector, or the havoc of a failed one (40_sequencer.md R119, R120, R123). -/
def Pending.InSector (sec : Nat) : Pending → Prop
  | .none => True
  | .pp a _ => a / 4096 = sec
  | .se a => a = sec * 4096
  | .havoc lo hi => sec * 4096 ≤ lo ∧ hi ≤ sec * 4096 + 4096
  | .ce => False

/-- From the array `m` to the array `m'` no byte outside the sector of this number has changed. -/
def Memory.SameOutsideSector (sec : Nat) (m m' : Memory) : Prop := ∀ x, x / 4096 ≠ sec → m'.read x = m.read x

variable {m : Memory} {sec : Nat}

theorem Memory.SameOutsideSector.program (h : m.wf = true) {a : Nat} (ha : a / 4096 = sec) (bs : List Byte) :
    m.SameOutsideSector sec (m.program a 0 bs) := fun x hx =>
  Memory.SameOutside.program h a bs x (by omega)

theorem Memory.SameOutsideSector.erase (h : m.wf = true) (sec : Nat) :
    m.SameOutsideSector sec (m.erase (sec * 4096) (sec * 4096 + 4096)) := fun x hx => by
  rw [Memory.read_erase h, if_neg (by omega)]

theorem Memory.SameOutsideSector.writeRange (h : m.wf = true) {lo : Nat} {bs : List Byte}
    (hin : ∀ x, lo ≤ x → x < lo + bs.length → x / 4096 = sec) : m.SameOutsideSector sec (m.writeRange lo bs) :=
  fun x hx => by rw [Memory.read_writeRange h, if_neg fun hx' => hx (hin x hx'.1 hx'.2)]

/-- The Device agent's step on such an operation (40_sequencer.md R122). -/
theorem State.deviceStep_inSector {s : State} (hm : s.dev.array.wf = true) (h : s.dev.pending.InSector sec) :
    ∃ e m, s.deviceStep = (s.withEnv e).withDev { array := m, pending := .none, wel := s.dev.wel }
      ∧ s.dev.array.SameOutsideSector sec m := by
  unfold State.deviceStep
  split
  case h_1 hp => exact ⟨s.env, s.dev.array, by rw [← hp]; rfl, fun _ _ => rfl⟩
  case h_2 a bs hp =>
    rw [hp] at h
    exact ⟨s.env, _, rfl, .program hm h bs⟩
  case h_3 a hp =>
    rw [hp] at h
    obtain rfl : a = sec * 4096 := h
    exact ⟨s.env, _, rfl, .erase hm sec⟩
  case h_4 hp => rw [hp] at h; exact h.elim
  case h_5 lo hi hp =>
    rw [hp] at h
    obtain ⟨hlo, hhi⟩ : sec * 4096 ≤ lo ∧ hi ≤ sec * 4096 + 4096 := h
    have hlen := s.length_drawBytes (hi - lo)
    obtain ⟨e, he⟩ := s.drawBytes_env (hi - lo)
    exact ⟨e, _, by rw [he]; rfl, .writeRange hm fun x _ _ => by omega⟩

end Sys2Proof.Machine

namespace Sys2Proof.Safety

open Sys2Proof.Machine

/-- A failed transaction whose range, if it has one, lies in the sector leaves the other sectors as they were (R123). -/
theorem FailureLeaves.inSector {s : State} {w : Wire} {d : Device} {sec : Nat} (h : FailureLeaves s w d)
    (hm : s.dev.array.wf = true) (hp : s.dev.pending.InSector sec)
    (hw : ∀ lo n, failRange s.params.capacity w = some (lo, n) → sec * 4096 ≤ lo ∧ lo + n ≤ sec * 4096 + 4096) :
    d.pending.InSector sec ∧ s.dev.array.SameOutsideSector sec d.array := by
  obtain ⟨ha, hpend⟩ | ⟨lo, n, bs, hrange, rfl, ha, hpend⟩ := h
  · rw [ha, hpend]
    exact ⟨hp, fun _ _ => rfl⟩
  · obtain ⟨hlo, hhi⟩ := hw _ _ hrange
    rw [ha]
    refine ⟨?_, .writeRange hm fun x _ _ => by omega⟩
    obtain hpend | hpend := hpend <;> rw [hpend]
    · trivial
    · exact ⟨hlo, hhi⟩

end Sys2Proof.Safety
end

section
/-! PROOFS. What a managed write sends to the device (45_managed_write.md R184 to R186): the erase of its chunk's sector and
the page programs, each with the array it begins with and the array it leaves. -/

namespace Sys2Proof.Safety.ManagedWrite

open Sys2Proof.Machine

variable {W : UncheckedWrite} {l : MwLocals} {w : WnLocals} {m : Memory} {s : State} {cells : List (Option Byte)}
  {i lo hi n : Nat}

/-! ### The array -/

/-- The byte at `x` once the first `i` bytes of the write are stored: the request's byte there, the old byte elsewhere
(45_managed_write.md R189). -/
def byte (W : UncheckedWrite) (i x : Nat) : Byte :=
  if W.addr ≤ x ∧ x < W.addr + i then W.data.getD (x - W.addr) erased else W.old.read x

theorem byte_of_mem {x : Nat} (hlo : W.addr ≤ x) (hhi : x < W.addr + i) :
    byte W i x = W.data.getD (x - W.addr) erased := if_pos ⟨hlo, hhi⟩

theorem byte_of_not_mem {x : Nat} (h : x < W.addr ∨ W.addr + i ≤ x) : byte W i x = W.old.read x := if_neg (by omega)

/-- These bytes over the `n` addresses from `lo` on. -/
def image (W : UncheckedWrite) (i lo n : Nat) : List Byte := (List.range n).map fun j => byte W i (lo + j)

theorem length_image : (image W i lo n).length = n := by simp [image]

theorem getElem?_image {j : Nat} (hj : j < n) : (image W i lo n)[j]? = some (byte W i (lo + j)) := by
  simp [image, hj]

/-- A list of at most `n` values with the value of `f` at each index below `n`. -/
theorem eq_map_range {α : Type} {f : Nat → α} {xs : List α} (hlen : xs.length ≤ n) (h : ∀ j < n, xs[j]? = some (f j)) :
    xs = (List.range n).map f := by
  refine List.ext_getElem? fun j => ?_
  by_cases hj : j < n
  · simp [h j hj, hj]
  · rw [List.getElem?_eq_none (by omega), List.getElem?_eq_none (by simp; omega)]

/-- The array holds the first `i` bytes, and is otherwise as it was. -/
def Stored (W : UncheckedWrite) (i : Nat) (m : Memory) : Prop := ∀ x, m.read x = byte W i x

/-- It does but in `[lo, hi)`, which is erased. -/
def StoredBut (W : UncheckedWrite) (i lo hi : Nat) (m : Memory) : Prop :=
  ∀ x, m.read x = if lo ≤ x ∧ x < hi then erased else byte W i x

theorem stored_old (W : UncheckedWrite) : Stored W 0 W.old := fun x => (byte_of_not_mem (lt_or_ge x W.addr)).symm

theorem Stored.readRange (h : Stored W i m) (lo n : Nat) : m.readRange lo n = image W i lo n :=
  eq_map_range (Memory.length_readRange _ _ _).le fun j hj => by rw [Memory.getElem?_readRange _ _ _ _ hj, h]

theorem StoredBut.stored (h : StoredBut W i lo hi m) (hle : hi ≤ lo) : Stored W i m := fun x => by
  rw [h x, if_neg (by omega)]

/-! ### The chunks (45_managed_write.md R182) -/

/-- The locals between two chunks: the place in the request, at a sector's start but for the first chunk (R182, R187). -/
structure Position (W : UncheckedWrite) (l : MwLocals) : Prop where
  addr : l.a = W.addr + l.di
  rest : l.di + l.n = W.data.length
  aligned : 0 < l.n → l.di = 0 ∨ l.a % 4096 = 0

/-- The locals in a chunk (R182). -/
structure Chunk (W : UncheckedWrite) (l : MwLocals) : Prop extends Position W l where
  pos : 0 < l.n
  sec : l.sec = l.a / 4096
  off : l.off = l.a % 4096
  chunk : l.chunk = min (4096 - l.a % 4096) l.n

theorem Position.split (h : Position W l) (hn : 0 < l.n) : Chunk W l.split := ⟨⟨h.1, h.2, h.3⟩, hn, rfl, rfl, rfl⟩

/-- The erase-needed flag is no part of it. -/
theorem Chunk.withNeed (h : Chunk W l) (need : Bool) : Chunk W { l with need := need } :=
  ⟨⟨h.addr, h.rest, h.aligned⟩, h.pos, h.sec, h.off, h.chunk⟩

theorem Chunk.advance (h : Chunk W l) : Position W l.advance := by
  obtain ⟨⟨haddr, hrest, -⟩, hpos, -, -, hchunk⟩ := h
  refine ⟨?_, ?_, fun hn => .inr ?_⟩ <;> simp only [MwLocals.advance] at * <;> omega

/-- A chunk's sector lies inside the flash (00_scope.md R9). -/
theorem Chunk.sector_le (h : Chunk W l) (hfits : W.Fits) : l.sec * 4096 + 4096 ≤ W.params.capacity := by
  obtain ⟨hmod, -, -, -⟩ := params_wf hfits.params
  have hcap := hfits.capacity
  obtain ⟨⟨haddr, hrest, -⟩, hpos, hsec, -, -⟩ := h
  omega

/-- Its sector's address on the wire. -/
theorem Chunk.toNat_sector (h : Chunk W l) (hfits : W.Fits) : (BitVec.ofNat 24 (l.sec * 4096)).toNat = l.sec * 4096 := by
  obtain ⟨-, -, hcap24, -⟩ := params_wf hfits.params
  have hle := h.sector_le hfits
  exact toNat_ofNat24 (by omega)

/-- A chunk stores no byte but its own. -/
theorem Chunk.byte_outside (h : Chunk W l) {x : Nat} (hx : ¬(l.a ≤ x ∧ x < l.a + l.chunk)) :
    byte W (l.di + l.chunk) x = byte W l.di x := by
  have haddr := h.addr
  have hiff : (W.addr ≤ x ∧ x < W.addr + (l.di + l.chunk)) ↔ W.addr ≤ x ∧ x < W.addr + l.di := by omega
  simp only [byte, hiff]

/-- It lies in its sector (R182). -/
theorem Chunk.in_sector (h : Chunk W l) {x : Nat} (hx : l.a ≤ x ∧ x < l.a + l.chunk) : x / 4096 = l.sec := by
  obtain ⟨-, -, hsec, -, hchunk⟩ := h
  omega

/-- Its bytes are the request's. -/
theorem Chunk.byte_inside (h : Chunk W l) {j : Nat} (hj : j < l.chunk) :
    W.data[l.di + j]? = some (byte W (l.di + l.chunk) (l.a + j)) := by
  obtain ⟨⟨haddr, hrest, -⟩, -, -, -, hchunk⟩ := h
  rw [byte_of_mem (by omega) (by omega), show l.a + j - W.addr = l.di + j by omega, List.getD_eq_getElem?_getD,
    List.getElem?_eq_getElem (by omega)]
  rfl

/-- An array that is wrong in the chunk's sector alone, where it is erased, agrees outside the sector with the one before. -/
theorem StoredBut.outside (h : StoredBut W (l.di + l.chunk) lo hi m) (hl : Chunk W l) (hlo : l.sec * 4096 ≤ lo)
    (hhi : hi ≤ l.sec * 4096 + 4096) {x : Nat} (hx : x / 4096 ≠ l.sec) : m.read x = byte W l.di x := by
  rw [h x, if_neg (by omega), hl.byte_outside fun hin => hx (hl.in_sector hin)]

/-- Where the chunk's old bytes are erased, the array is what its program begins with (20_memory.md R56). -/
theorem Stored.blank (h : Stored W l.di m) (hl : Chunk W l) (hblank : ∀ x, l.a ≤ x → x < l.a + l.chunk → m.read x = erased) :
    StoredBut W (l.di + l.chunk) l.a (l.a + l.chunk) m := fun x => by
  by_cases hx : l.a ≤ x ∧ x < l.a + l.chunk
  · rw [if_pos hx, hblank x hx.1 hx.2]
  · rw [if_neg hx, hl.byte_outside hx, h x]

/-- The erase of its sector (20_memory.md R57). -/
theorem Stored.erase (h : Stored W l.di m) (hm : m.wf = true) (hl : Chunk W l) :
    StoredBut W (l.di + l.chunk) (l.sec * 4096) (l.sec * 4096 + 4096) (m.erase (l.sec * 4096) (l.sec * 4096 + 4096)) :=
  fun x => by
    rw [Memory.read_erase hm]
    by_cases hx : l.sec * 4096 ≤ x ∧ x < l.sec * 4096 + 4096
    · rw [if_pos hx, if_pos hx]
    · rw [if_neg hx, if_neg hx, h x, hl.byte_outside fun hin => hx (by have := hl.in_sector hin; omega)]

/-- A program inside its page on erased bytes stores its payload (20_memory.md R56). -/
theorem StoredBut.program {a k : Nat} (h : StoredBut W i a hi m) (hm : m.wf = true) (hpage : a % 256 + k ≤ 256)
    (hk : a + k ≤ hi) : StoredBut W i (a + k) hi (m.program a 0 (image W i a k)) := fun x => by
  rw [Memory.read_program hm _ _ _ (by rw [length_image]; exact hpage), length_image, Nat.add_zero, h x]
  by_cases hx : a ≤ x ∧ x < a + k
  · rw [if_pos hx, if_pos ⟨hx.1, by omega⟩, if_neg (by omega), List.getD_eq_getElem?_getD, getElem?_image (by omega),
      show a + (x - a) = x by omega]
    exact BitVec.allOnes_and
  · rw [if_neg hx]
    exact if_congr (by omega) rfl rfl

/-! ### The source of a program (43_page_programmer.md R161) -/

/-- The byte at an index of the source: of the request, or of the cells of the Scratch Buffer. -/
def sourceByte (W : UncheckedWrite) (cells : List (Option Byte)) : Source → Nat → Option Byte
  | .req, j => W.data[j]?
  | .scratch, j => cells[j]?.join

/-- The writer is at work in the chunk's sector, and its source holds what the array is to hold (45_managed_write.md R185,
R186). -/
structure Programs (W : UncheckedWrite) (l : MwLocals) (cells : List (Option Byte)) (w : WnLocals) : Prop where
  lo : l.sec * 4096 ≤ w.a
  hi : w.a + w.n ≤ l.sec * 4096 + 4096
  source : ∀ j < w.n, sourceByte W cells w.src (w.si + j) = some (byte W (l.di + l.chunk) (w.a + j))

theorem Programs.sourceBytes (h : Programs W l s.scratch w) (hs : Serves W s) (hn : n ≤ w.n) :
    s.sourceBytes w.src w.si n = some (image W (l.di + l.chunk) w.a n) := by
  have hbytes := h.source
  cases hsrc : w.src with
  | req =>
    obtain ⟨r, hr, hd⟩ := hs.req
    rw [State.sourceBytes, State.requestSlice_of_req hr, hd]
    refine congrArg some (eq_map_range (List.length_take_le _ _) fun j hj => ?_)
    rw [List.getElem?_take_of_lt hj, List.getElem?_drop, ← hbytes j (by omega), hsrc, sourceByte]
  | scratch =>
    have hslice : (s.scratch.drop w.si).take n = (image W (l.di + l.chunk) w.a n).map some := by
      rw [image, List.map_map]
      refine eq_map_range (List.length_take_le _ _) fun j hj => ?_
      rw [List.getElem?_take_of_lt hj, List.getElem?_drop]
      have hcell := hbytes j (by omega)
      rw [hsrc] at hcell
      exact Option.join_eq_some_iff.mp hcell
    rw [State.sourceBytes, State.scratchSlice, hslice, writtenBytes_map_some]

theorem Programs.advance (h : Programs W l cells w) (hn : w.chunk ≤ w.n) : Programs W l cells w.advance := by
  obtain ⟨hlo, hhi, hbytes⟩ := h
  refine ⟨?_, ?_, fun j hj => ?_⟩ <;> simp only [WnLocals.advance] at *
  · omega
  · omega
  · rw [Nat.add_assoc, hbytes (w.chunk + j) (by omega), Nat.add_assoc]

/-- The direct path takes the chunk from the request (R186). -/
theorem Chunk.programs_direct (h : Chunk W l) : Programs W l cells l.direct := by
  obtain ⟨-, -, hsec, -, hchunk⟩ := id h
  refine ⟨?_, ?_, fun j hj => h.byte_inside hj⟩ <;> simp only [MwLocals.direct] <;> omega

/-- The Scratch Buffer holds the chunk's sector as the write has it (R183). -/
def Copied (W : UncheckedWrite) (l : MwLocals) (cells : List (Option Byte)) : Prop :=
  cells = (image W l.di (l.sec * 4096) 4096).map some

/-- The erase path takes the whole sector from the Scratch Buffer, the request's bytes merged (R185). -/
theorem Chunk.programs_rewrite (h : Chunk W l) (hc : Copied W l cells) :
    Programs W l (overwrite cells l.off ((W.data.drop l.di).take l.chunk)) l.rewrite := by
  have hlen : ((W.data.drop l.di).take l.chunk).length = l.chunk := by
    have := h.rest; have := h.chunk; simp only [List.length_take, List.length_drop]; omega
  have hcells : cells.length = 4096 := by rw [hc, List.length_map, length_image]
  obtain ⟨-, -, hsec, hoff, hchunk⟩ := id h
  refine ⟨le_rfl, le_rfl, fun j hj => ?_⟩
  replace hj : j < 4096 := hj
  simp only [MwLocals.rewrite, sourceByte, Nat.zero_add]
  rw [getElem?_overwrite (by omega), hlen]
  by_cases hj' : l.off ≤ j ∧ j < l.off + l.chunk
  · rw [if_pos hj', List.getElem?_take_of_lt (by omega), List.getElem?_drop, h.byte_inside (by omega),
      show l.a + (j - l.off) = l.sec * 4096 + j by omega]
    rfl
  · rw [if_neg hj', hc, List.getElem?_map, getElem?_image hj, h.byte_outside (by omega)]
    rfl

end Sys2Proof.Safety.ManagedWrite
end

section
/-! PROOFS. The tasks of a managed write (45_managed_write.md R184 to R186): the erase of a sector and the program of a page
side by side, what each sends, leaves pending and makes of the array, and that it stays inside the chunk's sector. -/

namespace Sys2Proof.Safety.ManagedWrite

open Sys2Proof.Machine

/-- What a managed write has the device do for its chunk: the erase of the sector (R184), or the program of the writer's page
chunk (R185, R186). -/
inductive Task where
  | erase
  | page (w : WnLocals)

namespace Task

/-- The procedure's frame at a control point (10_state.md R22). -/
def frame (l : MwLocals) : Task → CmdPoint → Frame
  | erase, pt => .eraseSector pt (l.sec * 4096)
  | page w, pt => w.page pt

/-- The frames that have called it. -/
def callers (l : MwLocals) : Task → List Frame
  | erase => [.managedWrite .erase l]
  | page w => [.writeNoCheck .page w, .managedWrite .prog l]

/-- The command it sends after its write-enable. -/
def wire (W : UncheckedWrite) (l : MwLocals) : Task → Wire
  | erase => .se (BitVec.ofNat 24 (l.sec * 4096))
  | page w => .pp (BitVec.ofNat 24 w.a) (image W (l.di + l.chunk) w.a w.chunk)

/-- What its command leaves pending (40_sequencer.md R119, R120). -/
def pending (W : UncheckedWrite) (l : MwLocals) : Task → Pending
  | erase => .se (l.sec * 4096)
  | page w => .pp w.a (image W (l.di + l.chunk) w.a w.chunk)

/-- The array it begins with: the chunks before; for a page what has been programmed, the rest of the range erased. -/
def Before (W : UncheckedWrite) (l : MwLocals) : Task → Memory → Prop
  | erase => Stored W l.di
  | page w => StoredBut W (l.di + l.chunk) w.a (w.a + w.n)

/-- The array it leaves. -/
def After (W : UncheckedWrite) (l : MwLocals) : Task → Memory → Prop
  | erase => StoredBut W (l.di + l.chunk) (l.sec * 4096) (l.sec * 4096 + 4096)
  | page w => StoredBut W (l.di + l.chunk) (w.a + w.chunk) (w.a + w.n)

/-- It stands in the chunk: an erase with the sector in the Scratch Buffer (R183, R184), or a page chunk of a writer that
programs the chunk (44_page_split_writer.md R172). -/
def Fits (W : UncheckedWrite) (l : MwLocals) (cells : List (Option Byte)) : Task → Prop
  | erase => l.need = true ∧ Copied W l cells
  | page w => Programs W l cells w ∧ 0 < w.n ∧ w.chunk = min w.n (256 - w.a % 256)

variable {W : UncheckedWrite} {l : MwLocals} {k : Task} {s : State} {m : Memory} {d : Device} {cells : List (Option Byte)}

/-- Before its command it has no internal computation (10_state.md R21). -/
theorem settle_sending {pt : CmdPoint} (hpt : pt ≠ .wait) (hs : Serves W s) (hk : k.Fits W l s.scratch)
    (hc : s.ctl = .busy (k.frame l pt :: k.callers l)) : settle (k.frame l pt :: k.callers l) s = s := by
  have hstay : s.withCtl (.busy (k.frame l pt :: k.callers l)) = s := by rw [← hc]; rfl
  cases k with
  | erase =>
    cases pt with
    | wren | cmd => exact hstay
    | wait => exact absurd rfl hpt
  | page w =>
    obtain ⟨hprog, hpos, hchunk⟩ := hk
    have hsrc := hprog.sourceBytes hs (n := w.chunk) (by omega)
    have hne : w.chunk ≠ 0 := by omega
    cases pt with
    | wren => exact (if_neg hne).trans ((State.startPage_of_source hsrc).trans hstay)
    | cmd =>
      simp only [settle, frame, WnLocals.page, hsrc]
      exact hstay
    | wait => exact absurd rfl hpt

theorem nextWire_wren (s : State) : s.nextWire (k.frame l .wren) = some .wren := by cases k <;> rfl

theorem nextWire_cmd (hs : Serves W s) (hk : k.Fits W l s.scratch) : s.nextWire (k.frame l .cmd) = some (k.wire W l) := by
  cases k with
  | erase => rfl
  | page w =>
    obtain ⟨hprog, hpos, hchunk⟩ := hk
    simp only [State.nextWire, frame, WnLocals.page, hprog.sourceBytes hs (n := w.chunk) (by omega)]
    rfl

theorem nextWire_wait (s : State) : s.nextWire (k.frame l .wait) = none := by cases k <;> rfl

theorem wire_ne_read (a : Addr) : k.wire W l ≠ .read a 0 := by cases k <;> nofun

theorem wire_kind_ne_read : (k.wire W l).kind ≠ .read := by cases k <;> nofun

/-- After its write-enable it stands at its command (42_erase_controller.md R151, 43_page_programmer.md R161). -/
theorem xactOk_wren_ctl (hc : s.ctl = .busy (k.frame l .wren :: k.callers l)) (f : WireFrame) :
    (s.xactOk .wren f).ctl = .busy (k.frame l .cmd :: k.callers l) := by
  cases k with
  | erase => rw [xactOk_sector_wren hc]; rfl
  | page w => rw [xactOk_page_wren hc]; rfl

/-- After its command it waits (R151, R161). -/
theorem xactOk_wire_ctl (hc : s.ctl = .busy (k.frame l .cmd :: k.callers l)) (f : WireFrame) : ∃ timeout kind ad,
    (s.xactOk (k.wire W l) f).ctl = .busy (.waitReady .t0 timeout 0 kind ad :: k.frame l .wait :: k.callers l) := by
  cases k with
  | erase =>
    refine ⟨s.params.tSE, .se, l.sec * 4096, ?_⟩
    simp only [State.xactOk, wire, State.reply, State.resume, State.log_ctl, State.withDev_ctl, hc]
    rfl
  | page w => exact ⟨s.params.tPP, .pp, w.a, xactOk_page_pp_ctl hc f⟩

/-- The page's address on the wire. -/
theorem toNat_page {w : WnLocals} (hk : (page w).Fits W l cells) (hl : Chunk W l) (hfits : W.Fits) :
    (BitVec.ofNat 24 w.a).toNat = w.a := by
  obtain ⟨-, -, hcap24, -⟩ := params_wf hfits.params
  have hle := hl.sector_le hfits
  obtain ⟨⟨-, hhi, -⟩, hpos, -⟩ := hk
  exact toNat_ofNat24 (by omega)

/-- The device takes its command (40_sequencer.md R119, R120). -/
theorem check_none (hk : k.Fits W l cells) (hl : Chunk W l) (hfits : W.Fits) (hp : d.pending = .none) (hwel : d.wel = true) :
    d.check W.params.capacity (k.wire W l) = none := by
  have hle := hl.sector_le hfits
  cases k with
  | erase =>
    have ha := hl.toNat_sector hfits
    exact Device.check_se_none hp hwel (by omega) (by omega)
  | page w =>
    have ha := toNat_page hk hl hfits
    obtain ⟨⟨-, hhi, -⟩, hpos, hchunk⟩ := hk
    exact Device.check_pp_none hp hwel (by rw [length_image]; omega) (by rw [length_image]; omega) (by omega)

theorem onSuccess_wire (hk : k.Fits W l cells) (hl : Chunk W l) (hfits : W.Fits) (d : Device) :
    d.onSuccess (k.wire W l) = { d with pending := k.pending W l, wel := false } := by
  cases k with
  | erase => exact congrArg (fun a => { d with pending := .se a, wel := false }) (hl.toNat_sector hfits)
  | page w =>
    exact congrArg (fun a => { d with pending := .pp a (image W (l.di + l.chunk) w.a w.chunk), wel := false })
      (toNat_page hk hl hfits)

theorem pending_ne_none : k.pending W l ≠ .none := by cases k <;> nofun

/-- Its pending operation lands, and leaves its array (40_sequencer.md R122). -/
theorem deviceStep_pending (hk : k.Fits W l cells) (hl : Chunk W l) (hm : s.dev.array.wf = true)
    (hp : s.dev.pending = k.pending W l) (hb : k.Before W l s.dev.array) :
    ∃ m, s.deviceStep = s.withDev (s.dev.settled m) ∧ k.After W l m := by
  cases k with
  | erase => exact ⟨_, by rw [State.deviceStep, hp]; rfl, Stored.erase hb hm hl⟩
  | page w =>
    obtain ⟨hprog, hpos, hchunk⟩ := hk
    exact ⟨_, by rw [State.deviceStep, hp]; rfl, StoredBut.program hb hm (by omega) (by omega)⟩

/-! ### Inside the sector -/

theorem Before.outside (hb : k.Before W l m) (hk : k.Fits W l cells) (hl : Chunk W l) {x : Nat} (hx : x / 4096 ≠ l.sec) :
    m.read x = byte W l.di x := by
  cases k with
  | erase => exact hb x
  | page w => exact StoredBut.outside hb hl hk.1.lo hk.1.hi hx

theorem After.outside (ha : k.After W l m) (hk : k.Fits W l cells) (hl : Chunk W l) {x : Nat} (hx : x / 4096 ≠ l.sec) :
    m.read x = byte W l.di x := by
  cases k with
  | erase => exact StoredBut.outside ha hl le_rfl le_rfl hx
  | page w => exact StoredBut.outside ha hl (hk.1.lo.trans (Nat.le_add_right _ _)) hk.1.hi hx

theorem pending_inSector (hk : k.Fits W l cells) : (k.pending W l).InSector l.sec := by
  cases k with
  | erase => rfl
  | page w =>
    obtain ⟨⟨hlo, hhi, -⟩, hpos, -⟩ := hk
    show w.a / 4096 = l.sec
    omega

/-- The range its failure leaves to the device (40_sequencer.md R123). -/
theorem failRange_inSector (hk : k.Fits W l cells) (hl : Chunk W l) (hfits : W.Fits) {cap lo n : Nat}
    (hr : failRange cap (k.wire W l) = some (lo, n)) : l.sec * 4096 ≤ lo ∧ lo + n ≤ l.sec * 4096 + 4096 := by
  cases k with
  | erase =>
    have ha := hl.toNat_sector hfits
    simp only [wire, failRange, Option.some.injEq, Prod.mk.injEq, Config.sectorSize] at hr
    omega
  | page w =>
    have hpage := failRange_pp hr
    rw [toNat_page hk hl hfits] at hpage
    obtain ⟨⟨hlo, hhi, -⟩, hpos, -⟩ := hk
    have hfirst : l.sec * 16 ≤ w.a / 256 := by omega
    have hlast : w.a / 256 < l.sec * 16 + 16 := by omega
    obtain ⟨hpagelo, hpagehi⟩ := hpage
    constructor <;> linarith

end Task

end Sys2Proof.Safety.ManagedWrite
end

section
/-! PROOFS. MWRITE under every schedule (45_managed_write.md R181 to R192): what a managed write has made of the flash and the
Scratch Buffer wherever its engine stands, which every step of every agent keeps until the response is posted. -/

namespace Sys2Proof.Safety.ManagedWrite

open Sys2Proof.Machine

/-! ### The stages -/

section stages

variable {W : UncheckedWrite} {l : MwLocals} {k : Task} {dev : Device} {cells : List (Option Byte)}

/-- A task's command has been sent: it is still pending, or it has landed (40_sequencer.md R122). -/
def Sent (W : UncheckedWrite) (l : MwLocals) (k : Task) (dev : Device) : Prop :=
  (dev.pending = k.pending W l ∧ k.Before W l dev.array) ∨ (dev.pending = .none ∧ k.After W l dev.array)

/-- Outside the chunk's sector the array holds the chunks before it, and will (45_managed_write.md R192). -/
def Spared (W : UncheckedWrite) (l : MwLocals) (dev : Device) : Prop :=
  dev.pending.InSector l.sec ∧ ∀ x, x / 4096 ≠ l.sec → dev.array.read x = byte W l.di x

theorem Spared.of_same {dev' : Device} (h : Spared W l dev) (hp : dev'.pending.InSector l.sec)
    (hm : dev.array.SameOutsideSector l.sec dev'.array) : Spared W l dev' := by
  obtain ⟨-, hbytes⟩ := h
  exact ⟨hp, fun x hx => (hm x hx).trans (hbytes x hx)⟩

/-- A failed transaction whose range lies in the sector spares the others (40_sequencer.md R123). -/
theorem Spared.of_failure {s : State} {w : Wire} {d : Device} (h : Spared W l s.dev) (hm : s.dev.array.wf = true)
    (hleaves : FailureLeaves s w d)
    (hw : ∀ lo n, failRange s.params.capacity w = some (lo, n) → l.sec * 4096 ≤ lo ∧ lo + n ≤ l.sec * 4096 + 4096) :
    Spared W l d := by
  obtain ⟨hp, hsame⟩ := hleaves.inSector hm h.1 hw
  exact h.of_same hp hsame

theorem spared_of_ready (hp : dev.pending = .none) (hm : ∀ x, x / 4096 ≠ l.sec → dev.array.read x = byte W l.di x) :
    Spared W l dev := ⟨by rw [hp]; trivial, hm⟩

theorem Sent.spared (h : Sent W l k dev) (hk : k.Fits W l cells) (hl : Chunk W l) : Spared W l dev := by
  obtain ⟨hp, hm⟩ | ⟨hp, hm⟩ := h
  · exact ⟨by rw [hp]; exact Task.pending_inSector hk, fun x hx => hm.outside hk hl hx⟩
  · exact spared_of_ready hp fun x hx => hm.outside hk hl hx

/-- What a managed write has made of `committed`, the Scratch Buffer and the device, by where the engine stands. -/
inductive Stage (W : UncheckedWrite) : Ctl → Nat → List (Option Byte) → Device → Prop
  /-- Before a chunk, with its first `di` bytes stored (R181). -/
  | start {l : MwLocals} {cells : List (Option Byte)} {dev : Device} (hl : Position W l) (hp : dev.pending = .none)
      (hm : Stored W l.di dev.array) : Stage W (.busy [.managedWrite .chunk l]) l.di cells dev
  /-- At the read of the chunk's sector (R183). -/
  | read {l : MwLocals} {cells : List (Option Byte)} {dev : Device} (hl : Chunk W l) (hp : dev.pending = .none)
      (hm : Stored W l.di dev.array) : Stage W (.busy [.managedWrite .read l]) l.di cells dev
  /-- At the scan, the sector in the Scratch Buffer (R184). -/
  | scan {l : MwLocals} {cells : List (Option Byte)} {dev : Device} (hl : Chunk W l) (hp : dev.pending = .none)
      (hm : Stored W l.di dev.array) (hcells : Copied W l cells) : Stage W (.busy [.managedWrite .scan l]) l.di cells dev
  /-- At a task's write-enable. -/
  | enable {l : MwLocals} {k : Task} {cells : List (Option Byte)} {dev : Device} (hl : Chunk W l) (hk : k.Fits W l cells)
      (hp : dev.pending = .none) (hm : k.Before W l dev.array) :
      Stage W (.busy (k.frame l .wren :: k.callers l)) l.di cells dev
  /-- At its command, the latch set (70_reset_and_hazards.md R265). -/
  | command {l : MwLocals} {k : Task} {cells : List (Option Byte)} {dev : Device} (hl : Chunk W l) (hk : k.Fits W l cells)
      (hp : dev.pending = .none) (hm : k.Before W l dev.array) (hwel : dev.wel = true) :
      Stage W (.busy (k.frame l .cmd :: k.callers l)) l.di cells dev
  /-- In its wait. -/
  | wait {l : MwLocals} {k : Task} {cells : List (Option Byte)} {dev : Device} (hl : Chunk W l) (hk : k.Fits W l cells)
      (pt : WrPoint) (timeout t0 : Nat) (kind : Kind) (ad : Nat) (h : Sent W l k dev) :
      Stage W (.busy (.waitReady pt timeout t0 kind ad :: k.frame l .wait :: k.callers l)) l.di cells dev
  /-- Its wait has found the device ready (41_status_poller.md R141). -/
  | returned {l : MwLocals} {k : Task} {cells : List (Option Byte)} {dev : Device} (hl : Chunk W l) (hk : k.Fits W l cells)
      (hp : dev.pending = .none) (hm : k.After W l dev.array) :
      Stage W (.busy (k.frame l .wait :: k.callers l)) l.di cells dev
  /-- The request has ended with `Ok`. -/
  | finished {cells : List (Option Byte)} {dev : Device} (hp : dev.pending = .none) (hm : Stored W W.data.length dev.array) :
      Stage W (.ending (.ok [] 0)) W.data.length cells dev
  /-- It has ended with anything else, in the chunk `l`. -/
  | failed {l : MwLocals} {cells : List (Option Byte)} {dev : Device} (hl : Chunk W l) (o : OpOutcome) (kind : Kind)
      (ad : Nat) (ho : o ≠ .ok) (h : Spared W l dev) : Stage W (.ending (.failed o kind ad)) l.di cells dev

theorem Stage.not_idle {c : Ctl} {n : Nat} (h : Stage W c n cells dev) : c ≠ .idle := by cases h <;> nofun

end stages

/-- What a managed write's posted response says of the device (R189, R192). -/
def Answered (W : UncheckedWrite) (s : State) : Prop :=
  (s.resp.record.outcome = .ok → s.dev.pending = .none ∧ s.resp.record.committed = BitVec.ofNat 32 W.data.length
    ∧ Stored W W.data.length s.dev.array)
  ∧ (s.resp.record.outcome ≠ .ok → ∃ l, Chunk W l ∧ s.resp.record.committed.toNat = l.di ∧ Spared W l s.dev)

/-- The machine runs the request and stands at one of its stages. -/
structure Running (W : UncheckedWrite) (s : State) : Prop extends Serves W s where
  stage : Stage W s.ctl s.committed s.scratch s.dev

variable {W : UncheckedWrite} {l : MwLocals} {w : WnLocals} {k : Task} {s t : State} {stack below : List Frame}

/-! ### The internal computation -/

/-- Before a chunk the write goes on with the read of the next sector, or ends (R181, R182). -/
theorem next_chunk (h : Serves W s) (hl : Position W l) (hd : s.committed = l.di) (hp : s.dev.pending = .none)
    (hm : Stored W l.di s.dev.array) : Running W (mwChunk l [] (settle []) s) := by
  have hrest := hl.rest
  by_cases hn : 0 < l.n
  · rw [mwChunk_next _ hn]
    exact ⟨⟨h.params, h.fault, h.req⟩, hd ▸ Stage.read (hl.split hn) hp hm⟩
  · have hdone : l.di = W.data.length := by omega
    rw [mwChunk_returns _ (Nat.eq_zero_of_not_pos hn)]
    refine ⟨⟨h.params, h.fault, h.req⟩, ?_⟩
    rw [hdone] at hm hd
    exact hd ▸ Stage.finished hp hm

/-- A writer with bytes left goes on with its next page (44_page_split_writer.md R171). -/
theorem next_page (ret : State → State) (h : Serves W s) (hl : Chunk W l) (hw : Programs W l s.scratch w) (hn : 0 < w.n)
    (hd : s.committed = l.di) (hp : s.dev.pending = .none)
    (hm : StoredBut W (l.di + l.chunk) w.a (w.a + w.n) s.dev.array) :
    Running W (wnLoop w [.managedWrite .prog l] ret s) := by
  have hsrc := hw.sourceBytes h (n := w.split.chunk) (min_le_left _ _)
  have hk : (Task.page w.split).Fits W l s.scratch := ⟨⟨hw.lo, hw.hi, hw.source⟩, hn, rfl⟩
  rw [wnLoop_next _ hn hsrc]
  exact ⟨⟨h.params, h.fault, h.req⟩, hd ▸ Stage.enable hl hk hp hm⟩

/-- The scan finds the chunk erased, or calls the erase (45_managed_write.md R184). -/
theorem scanned (h : Serves W s) (hl : Chunk W l) (hd : s.committed = l.di) (hp : s.dev.pending = .none)
    (hm : Stored W l.di s.dev.array) (hcells : Copied W l s.scratch) : Running W (settle [.managedWrite .scan l] s) := by
  obtain ⟨-, hpos, hsec, hoff, hchunk⟩ := id hl
  rw [settle_scan (s.scratchSlice_of_bytes hcells _ _)]
  split
  case isTrue hneed =>
    exact ⟨⟨h.params, h.fault, h.req⟩, hd ▸ Stage.enable (k := .erase) (hl.withNeed true) ⟨rfl, hcells⟩ hp hm⟩
  case isFalse hneed =>
    refine next_page _ h (hl.withNeed false) (hl.withNeed false).programs_direct (by simp only [MwLocals.direct]; omega) hd hp
      (hm.blank hl fun x hlo hhi => ?_)
    rw [eraseNeeded_slice_iff (by rw [length_image]; omega)] at hneed
    by_contra hne
    refine hneed ⟨x - l.sec * 4096, by omega, by omega, ?_⟩
    rw [getElem?_image (by omega), show l.sec * 4096 + (x - l.sec * 4096) = x by omega, ← hm x]
    exact fun heq => hne (Option.some.inj heq)

/-- A task done, the write goes on: the sector is programmed after the erase, a page after a page, a chunk after the last
(R185, R187). -/
theorem task_done (h : Serves W s) (hl : Chunk W l) (hk : k.Fits W l s.scratch) (hd : s.committed = l.di)
    (hp : s.dev.pending = .none) (hm : k.After W l s.dev.array) :
    Running W (settle (k.frame l .wait :: k.callers l) s) := by
  cases k with
  | erase =>
    obtain ⟨hneed, hcells⟩ := hk
    obtain ⟨r, hr, hdata⟩ := h.req
    rw [Task.frame, Task.callers, settle_erased hneed, State.requestSlice_of_req hr, hdata]
    exact next_page (s := s.withScratch _) _ ⟨h.params, h.fault, h.req⟩ hl (hl.programs_rewrite hcells)
      (by decide : 0 < 4096) hd hp hm
  | page w =>
    obtain ⟨hprog, hpos, hchunk⟩ := hk
    have hsettle : settle ((Task.page w).frame l .wait :: (Task.page w).callers l) s
        = wnLoop w.advance [.managedWrite .prog l] (settle [.managedWrite .prog l]) s :=
      settle_page w [.managedWrite .prog l] s
    have hend : w.a + w.chunk + (w.n - w.chunk) = w.a + w.n := by omega
    rw [hsettle]
    by_cases hmore : w.chunk < w.n
    · refine next_page _ h hl (hprog.advance hmore.le) (Nat.sub_pos_of_lt hmore) hd hp ?_
      simp only [WnLocals.advance, hend]
      exact hm
    · rw [wnLoop_returns _ (Nat.sub_eq_zero_of_le (not_lt.mp hmore)), settle_prog]
      exact next_chunk (s := s.addCommitted l.chunk) ⟨h.params, h.fault, h.req⟩ hl.advance (congrArg (· + l.chunk) hd) hp
        (StoredBut.stored hm (by omega))

/-- The internal computation goes from stage to stage (10_state.md R21). -/
theorem Running.settle (h : Running W s) (hc : s.ctl = .busy stack) : Running W (settle stack s) := by
  obtain ⟨hserves, hstage⟩ := id h
  have stay : s.withCtl (.busy stack) = s := by rw [← hc]; rfl
  generalize hd : s.committed = n at hstage
  generalize hs : s.scratch = cells at hstage
  rw [hc] at hstage
  cases hstage with
  | start hl hp hm => exact next_chunk hserves hl hd hp hm
  | read hl hp hm => exact stay.symm ▸ h
  | scan hl hp hm hcells => exact scanned hserves hl hd hp hm (hs ▸ hcells)
  | enable hl hk hp hm => rw [Task.settle_sending (pt := .wren) nofun hserves (hs ▸ hk) hc]; exact h
  | command hl hk hp hm hwel => rw [Task.settle_sending (pt := .cmd) nofun hserves (hs ▸ hk) hc]; exact h
  | wait hl hk pt timeout t0 kind ad hsent => rw [settle_wait hc]; exact h
  | returned hl hk hp hm => exact task_done hserves hl (hs ▸ hk) hd hp hm

end Sys2Proof.Safety.ManagedWrite
end

section
/-! PROOFS. MWRITE under every schedule, continued (45_managed_write.md R183 to R192): the engine's external actions, the other
agents, and what the posted response says. -/

namespace Sys2Proof.Safety.ManagedWrite

open Sys2Proof.Machine

variable {W : UncheckedWrite} {l : MwLocals} {k : Task} {s t : State} {stack below : List Frame}

/-! ### The engine's external actions -/

/-- The posted response says what the stage says. -/
theorem Running.post {x : Exit} (h : Running W s) (hlen : W.data.length < 2 ^ 32) (hc : s.ctl = .ending x) :
    Answered W (s.post x) := by
  have hstage := h.stage
  rw [hc] at hstage
  generalize hd : s.committed = n at hstage
  generalize s.scratch = cells at hstage
  cases hstage with
  | finished hp hm => exact ⟨fun _ => ⟨hp, congrArg (BitVec.ofNat 32) hd, hm⟩, fun hne => absurd rfl hne⟩
  | @failed l _ _ hl o kind ad ho hspared =>
    refine ⟨fun hok => absurd hok ho, fun _ => ⟨l, hl, ?_, hspared⟩⟩
    have hdi : l.di < 2 ^ 32 := by have := hl.rest; omega
    have hcount : (s.post (.failed o kind ad)).resp.record.committed = BitVec.ofNat 32 l.di :=
      congrArg (BitVec.ofNat 32) hd
    rw [hcount, BitVec.toNat_ofNat, Nat.mod_eq_of_lt hdi]

/-- Where the engine waits, it waits for a task, and it starts no asynchronous read. -/
theorem Stage.head {f : Frame} {c : Ctl} {n : Nat} {cells : List (Option Byte)} {dev : Device}
    (h : Stage W c n cells dev) (hc : c = .busy (f :: below)) :
    (∀ a n, f ≠ .readAsync a n) ∧ (isWait f = true → ∃ l k, Chunk W l ∧ Task.Fits W l cells k ∧ Sent W l k dev ∧ n = l.di
      ∧ below = k.frame l .wait :: k.callers l) := by
  have task (l : MwLocals) (k : Task) (pt : CmdPoint) : (∀ a n, k.frame l pt ≠ .readAsync a n)
      ∧ ¬isWait (k.frame l pt) = true := by cases k <;> exact ⟨nofun, nofun⟩
  cases h with
  | start | read | scan => cases hc; exact ⟨nofun, nofun⟩
  | enable | command | returned => cases hc; exact (task _ _ _).imp_right fun hnot hwait => absurd hwait hnot
  | wait hl hk pt timeout t0 kind ad hsent => cases hc; exact ⟨nofun, fun _ => ⟨_, _, hl, hk, hsent, rfl, rfl⟩⟩
  | finished | failed => cases hc

theorem Running.of_wait {pt : WrPoint} {timeout t0 ad : Nat} {kind : Kind} (h : Running W s)
    (hc : s.ctl = .busy (.waitReady pt timeout t0 kind ad :: below)) :
    ∃ l k, Chunk W l ∧ Task.Fits W l s.scratch k ∧ Sent W l k s.dev ∧ s.committed = l.di
      ∧ below = k.frame l .wait :: k.callers l := (h.stage.head hc).2 rfl

/-- A transaction of the chunk `l` that the device takes keeps the stages, where its success does and its failure stays in the
sector (40_sequencer.md R110, R123). -/
theorem Running.xact {w : Wire} (h : Running W s) (hm : s.dev.array.wf = true) (hl : Chunk W l) (hd : s.committed = l.di)
    (hspared : Spared W l s.dev) (hc : s.ctl = .busy stack) (hcheck : s.dev.check s.params.capacity w = none)
    (hrange : ∀ lo n, failRange s.params.capacity w = some (lo, n) → l.sec * 4096 ≤ lo ∧ lo + n ≤ l.sec * 4096 + 4096)
    (hok : ∀ env f, Stage W ((s.withEnv env).xactOk w f).ctl l.di ((s.withEnv env).xactOk w f).scratch
      (s.dev.onSuccess w)) : Running W (s.xact w) := by
  obtain ⟨-, hx⟩ | ⟨-, -, ⟨x, hfault, -⟩ | ⟨-, env, hx | hx⟩⟩ := s.xact_cases w
  · rw [hx]; exact h
  · rw [hcheck] at hfault; cases hfault
  · have hframe := xactOk_busFrame (s.withEnv env) w (w.frame s.params.ops)
    have hdev := (xactOk_effect (s.withEnv env) w (w.frame s.params.ops)).1
    rw [hx]
    exact ⟨h.toServes.of_busFrame hframe, by rw [hframe.committed_eq, hdev]; exact hd ▸ hok env _⟩
  · have hframe := xactErr_busFrame (s.withEnv env) w (w.frame s.params.ops)
    have hend := xactErr_ctl (s := s.withEnv env) hc w (w.frame s.params.ops)
    have hleaves := xactErr_leaves (s.withEnv env) w (w.frame s.params.ops)
    have hfailed := Spared.of_failure (s := s.withEnv env) hspared hm hleaves hrange
    rw [hx]
    exact ⟨h.toServes.of_busFrame hframe, by rw [hframe.committed_eq, hend]; exact hd ▸ .failed hl _ _ _ nofun hfailed⟩

/-- The read of the chunk's sector (45_managed_write.md R183). -/
theorem Running.xact_read (h : Running W s) (hfits : W.Fits) (hm : s.dev.array.wf = true) (hcells : s.scratch.length = 4096)
    (hl : Chunk W l) (hc : s.ctl = .busy [.managedWrite .read l]) (hd : s.committed = l.di) (hp : s.dev.pending = .none)
    (hw : Stored W l.di s.dev.array) : Running W (s.xact (.read (BitVec.ofNat 24 (l.sec * 4096)) 4096)) := by
  have ha := hl.toNat_sector hfits
  have hcheck : s.dev.check s.params.capacity (.read (BitVec.ofNat 24 (l.sec * 4096)) 4096) = none :=
    Device.check_read_none hp (by rw [ha, h.params]; exact hl.sector_le hfits)
  refine h.xact hm hl hd (spared_of_ready hp fun x _ => hw x) hc hcheck nofun fun env f => ?_
  rw [xactOk_sectorRead (s := s.withEnv env) hc, ha]
  refine .scan hl hp hw ((overwrite_all ?_).trans (congrArg (List.map some) (hw.readRange _ _)))
  exact hcells.trans (Memory.length_readRange _ _ _).symm

/-- The write-enable of a task. -/
theorem Running.xact_wren (h : Running W s) (hm : s.dev.array.wf = true) (hl : Chunk W l) (hk : k.Fits W l s.scratch)
    (hc : s.ctl = .busy (k.frame l .wren :: k.callers l)) (hd : s.committed = l.di) (hp : s.dev.pending = .none)
    (hw : k.Before W l s.dev.array) : Running W (s.xact .wren) := by
  refine h.xact hm hl hd (spared_of_ready hp fun x hx => hw.outside hk hl hx) hc (Device.check_wren_none hp) nofun
    fun env f => ?_
  rw [Task.xactOk_wren_ctl (s := s.withEnv env) hc, State.xactOk_scratch (w := .wren) _ nofun]
  exact .command hl hk hp hw rfl

/-- Its command. -/
theorem Running.xact_command (h : Running W s) (hfits : W.Fits) (hm : s.dev.array.wf = true) (hl : Chunk W l)
    (hk : k.Fits W l s.scratch) (hc : s.ctl = .busy (k.frame l .cmd :: k.callers l)) (hd : s.committed = l.di)
    (hp : s.dev.pending = .none) (hw : k.Before W l s.dev.array) (hwel : s.dev.wel = true) :
    Running W (s.xact (k.wire W l)) := by
  have hcheck : s.dev.check s.params.capacity (k.wire W l) = none := h.params ▸ Task.check_none hk hl hfits hp hwel
  refine h.xact hm hl hd (spared_of_ready hp fun x hx => hw.outside hk hl hx) hc hcheck
    (fun lo n => Task.failRange_inSector hk hl hfits) fun env f => ?_
  obtain ⟨timeout, kind, ad, hwait⟩ := Task.xactOk_wire_ctl (s := s.withEnv env) (W := W) hc f
  rw [hwait, State.xactOk_scratch _ Task.wire_kind_ne_read, Task.onSuccess_wire hk hl hfits]
  exact .wait hl hk _ _ _ _ _ (.inl ⟨rfl, hw⟩)

/-- A poll of its wait (41_status_poller.md R141). -/
theorem Running.xact_rdsr {timeout t0 ad : Nat} {kind : Kind} (h : Running W s) (hm : s.dev.array.wf = true)
    (hc : s.ctl = .busy (.waitReady .poll timeout t0 kind ad :: below)) : Running W (s.xact .rdsr) := by
  obtain ⟨l, k, hl, hk, hsent, hd, rfl⟩ := h.of_wait hc
  refine h.xact hm hl hd (hsent.spared hk hl) hc rfl nofun fun env f => ?_
  rw [State.xactOk_scratch (w := .rdsr) _ nofun]
  obtain ⟨-, hclk⟩ | ⟨hready, ⟨-, hret⟩ | ⟨hnil, -⟩⟩ := xactOk_rdsr_ctl (s := s.withEnv env) hc f
  · rw [hclk]; exact .wait hl hk _ _ _ _ _ hsent
  · rw [hret]
    obtain ⟨hpend, -⟩ | ⟨-, hw⟩ := hsent
    · exact absurd (hpend.symm.trans hready) Task.pending_ne_none
    · exact .returned hl hk hready hw
  · cases hnil

/-- The head's transaction keeps the stages (40_sequencer.md R110). -/
theorem Running.wire {f : Frame} {w : Wire} {i : Instr} (h : Running W s) (hfits : W.Fits) (hm : s.dev.array.wf = true)
    (hcells : s.scratch.length = 4096) (hc : s.ctl = .busy (f :: below)) (hw : s.nextWire f = some w)
    (hdec : decodeWire s.params.ops (w.frame s.params.ops) = .ok i) (ht : exec i s = .next t) : Running W t := by
  obtain ⟨hserves, hstage⟩ := id h
  have ho : s.params.ops.distinct = true := hserves.params ▸ (params_wf hfits.params).2.2.2
  have runs {w' : Wire} (hw' : s.nextWire f = some w') (hread : ∀ a, w' ≠ .read a 0) : t = s.xact w' := by
    obtain rfl := Option.some.inj (hw.symm.trans hw')
    exact xact_of_decoded ho hread hdec ht
  generalize hd : s.committed = n at hstage
  generalize hs : s.scratch = cells at hstage
  rw [hc] at hstage
  cases hstage with
  | start hl hp hw' => cases hw
  | scan hl hp hw' hcopied => cases hw
  | returned hl hk hp hw' => rw [Task.nextWire_wait] at hw; cases hw
  | read hl hp hw' =>
    rw [runs rfl nofun]
    exact h.xact_read hfits hm hcells hl hc hd hp hw'
  | enable hl hk hp hw' =>
    rw [runs (Task.nextWire_wren s) nofun]
    exact h.xact_wren hm hl (hs ▸ hk) hc hd hp hw'
  | command hl hk hp hw' hwel =>
    rw [runs (Task.nextWire_cmd hserves (hs ▸ hk)) Task.wire_ne_read]
    exact h.xact_command hfits hm hl (hs ▸ hk) hc hd hp hw' hwel
  | wait hl hk pt timeout t0 kind ad hsent =>
    cases pt with
    | t0 => cases hw
    | clk => cases hw
    | poll =>
      rw [runs (w' := .rdsr) rfl nofun]
      exact h.xact_rdsr hm hc

/-- The engine's external action keeps the stages, or posts the response. -/
theorem Running.action (h : Running W s) (hfits : W.Fits) (hm : s.dev.array.wf = true) (hcells : s.scratch.length = 4096)
    (ht : EngineAction s t) : Running W t ∨ (t.ctl = .idle ∧ Answered W t) := by
  cases ht with
  | stop => exact .inl h
  | post hf hc => exact .inr ⟨rfl, h.post hfits.length hc⟩
  | entry hf hc =>
    obtain ⟨l, k, hl, hk, hsent, hd, rfl⟩ := h.of_wait hc
    exact .inl ⟨⟨h.params, h.fault, h.req⟩, hd ▸ Stage.wait hl hk _ _ _ _ _ hsent⟩
  | @deadline timeout t0 kind ad _ hf hc =>
    obtain ⟨l, k, hl, hk, hsent, hd, rfl⟩ := h.of_wait hc
    rw [readDeadline_eq hc]
    refine .inl ⟨⟨h.params, h.fault, h.req⟩, ?_⟩
    rw [State.withCtl_ctl]
    split
    · exact hd ▸ Stage.failed hl _ _ _ nofun (hsent.spared hk hl)
    · exact hd ▸ Stage.wait hl hk _ _ _ _ _ hsent
  | async hf hi hc => exact absurd rfl ((h.stage.head hc).1 _ _)
  | wire hf hi hc hw hdec ht => exact .inl (h.wire hfits hm hcells hc hw hdec ht)

/-- The engine's turn keeps the stages, or posts the response. -/
theorem Running.engineTurn (h : Running W s) (hcons : Consistent s) (hfits : W.Fits)
    (ht : s.engineTurn.outcome = .next t) : Running W t ∨ (t.ctl = .idle ∧ Answered W t) := by
  cases engineMove_of_turn ht with
  | wait => exact .inl h
  | request hc => exact absurd hc h.stage.not_idle
  | reserved d hc => exact absurd hc h.stage.not_idle
  | post hc => exact .inr ⟨rfl, h.post hfits.length hc⟩
  | @run stack _ hc hact =>
    obtain ⟨r, hlive, hstack, hready⟩ := hcons.running h.fault hc
    have hsettled := settle_settled stack s hlive (returns_of_legal hstack hready)
    obtain ⟨_, _, _, _, _, hs⟩ := settle_frame stack s
    exact (h.settle hc).action hfits (by rw [hs]; exact hcons.array.1) hsettled.scratch hact

/-! ### The other agents -/

/-- A change of neither the request, the fault mark, the control state, `committed`, the Scratch Buffer nor the device keeps
the stage. -/
theorem Running.congr (h : Running W s) (hp : t.params = s.params) (hf : t.fault = s.fault) (hr : t.req = s.req)
    (hc : t.ctl = s.ctl) (hd : t.committed = s.committed) (hs : t.scratch = s.scratch) (hdev : t.dev = s.dev) :
    Running W t :=
  ⟨⟨hp.trans h.params, hf.trans h.fault, hr ▸ h.req⟩, by rw [hc, hd, hs, hdev]; exact h.stage⟩

theorem Running.dmaStep (h : Running W s) : Running W s.dmaStep := by
  obtain ⟨-, hx⟩ | ⟨env, c, hx⟩ := s.dmaStep_cases
  · rw [hx]; exact h
  · rw [hx]; exact h.congr rfl rfl rfl rfl rfl rfl rfl

theorem Running.hostMove (h : Running W s) : Running W s.hostMove := by
  obtain ⟨_, _, _, _, hx⟩ := s.hostMove_frame
  rw [hx]; exact h.congr rfl rfl rfl rfl rfl rfl rfl

/-- The device has nothing to do but the task's operation, or what a failed chunk has left (40_sequencer.md R122, R123). -/
theorem Running.deviceStep (h : Running W s) (hm : s.dev.array.wf = true) : Running W s.deviceStep := by
  have ready (hp : s.dev.pending = .none) : Running W s.deviceStep := by rw [State.deviceStep_of_ready hp]; exact h
  obtain ⟨hserves, hstage⟩ := id h
  generalize hc : s.ctl = c at hstage
  generalize hd : s.committed = n at hstage
  generalize hs : s.scratch = cells at hstage
  cases hstage with
  | start hl hp hw => exact ready hp
  | read hl hp hw => exact ready hp
  | scan hl hp hw hcells => exact ready hp
  | enable hl hk hp hw => exact ready hp
  | command hl hk hp hw hwel => exact ready hp
  | returned hl hk hp hw => exact ready hp
  | finished hp hw => exact ready hp
  | wait hl hk pt timeout t0 kind ad hsent =>
    obtain ⟨hp, hw⟩ | ⟨hp, -⟩ := hsent
    · obtain ⟨m, hx, hafter⟩ := Task.deviceStep_pending hk hl hm hp hw
      rw [hx]
      refine ⟨⟨h.params, h.fault, h.req⟩, ?_⟩
      rw [State.withDev_ctl, State.withDev_committed, State.withDev_scratch, hc, hd, hs]
      exact .wait hl hk _ _ _ _ _ (.inr ⟨rfl, hafter⟩)
    · exact ready hp
  | failed hl o kind ad ho hspared =>
    obtain ⟨env, m, hx, hsame⟩ := State.deviceStep_inSector hm hspared.1
    rw [hx]
    refine ⟨⟨h.params, h.fault, h.req⟩, ?_⟩
    rw [State.withDev_ctl, State.withDev_committed, State.withEnv_ctl, State.withEnv_committed, hc, hd]
    exact .failed hl o kind ad ho (hspared.of_same trivial hsame)

/-! ### A step, a run -/

/-- A step keeps the stages, or posts the response. -/
theorem Running.step (h : Running W s) (hcons : Consistent s) (hfits : W.Fits) (ht : Machine.step s = .next t) :
    Running W t ∨ (t.ctl = .idle ∧ Answered W t) := by
  have h' : Running W s.takeTurn.2 := h.congr rfl rfl rfl rfl rfl rfl rfl
  rw [step_eq h.fault] at ht
  cases hg : s.takeTurn.1 with
  | engine => rw [hg] at ht; exact h'.engineTurn (withEnv_keeps hcons _) hfits ht
  | dma => rw [hg] at ht; cases ht; exact .inl h'.dmaStep
  | device => rw [hg] at ht; cases ht; exact .inl (h'.deviceStep hcons.array.1)
  | clock => rw [hg] at ht; cases ht; exact .inl (h'.congr rfl rfl rfl rfl rfl rfl rfl)
  | host => rw [hg] at ht; cases ht; exact .inl h'.hostMove

/-- A managed write's posted response says what has become of its bytes (R189, R192). -/
theorem Running.answered (h : Running W s) (hs : Consistent s) (hfits : W.Fits) (hfin : Finishes s t) : Answered W t := by
  refine Finishes.of_step (I := fun s => Consistent s ∧ Running W s) (fun _ h => h.2.stage.not_idle) (fun s t h ht => ?_)
    ⟨hs, h⟩ hfin
  obtain ⟨hcons, hrunning⟩ := h
  exact (hrunning.step hcons hfits ht).imp_left fun ht' => ⟨stepKeepsConsistency s t hcons ht, ht'⟩

end Sys2Proof.Safety.ManagedWrite
end

section
/-! PROOFS. What MWRITE has made of the flash when its response is posted, `Ok` or not (45_managed_write.md R187, R189, R192). -/

namespace Sys2Proof.Safety

open Sys2Proof.Machine
open ManagedWrite

variable {s t u : State} {a : Addr} {n : Word} {d : List Byte}

/-- A refused managed write leaves an idle state without a response (60_exceptions.md R223). -/
theorem mwrite_refused (h : Ready s) (hpre : writePre s.params a n d = false) (ht : exec (.mwrite a n d) s = .next t) :
    t.ctl = .idle ∧ t.resp.valid = false := by
  obtain ⟨hidle, hfault, hresp⟩ := h
  have hrefused : exec (.mwrite a n d) s
      = .next ((s.latch { s.incoming with op := opMwrite, addr := a, len := n, data := d }).raise .contractViolation) := by
    rw [exec, execMwrite, hpre, State.accept_faults]
    exact (s.canAccept_iff _).mpr ⟨hidle, hfault, hresp, nofun⟩
  rw [hrefused] at ht
  cases ht
  rw [State.raise_ctl, State.raise_resp]
  exact ⟨hidle, hresp⟩

/-- An accepted managed write stands before its first chunk, with nothing stored (45_managed_write.md R181). -/
theorem mwrite_begins (h : Ready s) (hp : s.dev.pending = .none) (hlen : d.length = n.toNat)
    (hcap : a.toNat + n.toNat ≤ s.params.capacity) (ht : exec (.mwrite a n d) s = .next t) :
    Running ⟨s.params, s.dev.array, a.toNat, d⟩ t := by
  obtain ⟨hacc, -, -⟩ := writeRequestsAccepted s a n d h hlen hcap
  obtain ⟨-, hfault, -⟩ := h
  obtain rfl := Host.Outcome.next.inj (hacc.symm.trans ht)
  have hstart : Position ⟨s.params, s.dev.array, a.toNat, d⟩ ⟨a.toNat, 0, n.toNat, 0, 0, 0, false⟩ :=
    ⟨rfl, (Nat.zero_add _).trans hlen.symm, fun _ => .inl rfl⟩
  exact ⟨⟨rfl, hfault, _, rfl, rfl⟩, .start hstart hp (stored_old _)⟩

/-- A managed write whose first idle state has a response has met its precondition, and the response says what has become of
its bytes. -/
theorem mwrite_answered (hs : Consistent s) (h : Ready s) (hp : s.dev.pending = .none) (ht : exec (.mwrite a n d) s = .next t)
    (hfin : Finishes t u) (hvalid : u.resp.valid = true) :
    d.length = n.toNat ∧ Answered ⟨s.params, s.dev.array, a.toNat, d⟩ u := by
  cases hpre : writePre s.params a n d with
  | false =>
    obtain ⟨hidle, hresp⟩ := mwrite_refused h hpre ht
    rw [hfin.eq_of_idle hidle] at hvalid
    exact absurd (hresp.symm.trans hvalid) nofun
  | true =>
    obtain ⟨hlen, hcap⟩ : d.length = n.toNat ∧ a.toNat + n.toNat ≤ s.params.capacity := by
      simpa [writePre, inCapacity] using hpre
    exact ⟨hlen, (mwrite_begins h hp hlen hcap ht).answered (request_keeps hs rfl ht)
      ⟨hs.params, hlen ▸ hcap, hlen ▸ n.isLt⟩ hfin⟩

/-- Settles O49: the last stage before an `Ok` has every byte stored. -/
theorem managedWriteOkStoresItsBytes : Obligations.ManagedWriteOkStoresItsBytes := by
  intro s t u a n d hs hready hp ht hfin hvalid hok
  obtain ⟨hlen, hstored, -⟩ := mwrite_answered hs hready hp ht hfin hvalid
  obtain ⟨hpend, hcount, hbytes⟩ := hstored hok
  exact ⟨hpend, by simpa [hlen] using hcount, hbytes⟩

/-- Settles O50: the stage at which the request fails has the chunks before stored and spares every sector but the failing
chunk's. -/
theorem managedWriteFailureKeepsOtherSectors : Obligations.ManagedWriteFailureKeepsOtherSectors := by
  intro s t u a n d hs hready hp ht hfin hvalid herr c
  obtain ⟨hlen, -, hfailed⟩ := mwrite_answered hs hready hp ht hfin hvalid
  obtain ⟨l, ⟨⟨haddr, hrest, haligned⟩, hpos, hsec, -, -⟩, hcount, -, hspared⟩ := hfailed herr
  have hc : c = l.di := hcount
  simp only [hc] at haddr hrest ⊢
  refine ⟨by omega, by omega, fun x hlo hhi => ?_, fun x hout hx => ?_⟩
  · exact (hspared x (by omega)).trans (byte_of_mem hlo hhi)
  · exact (hspared x (by rwa [hsec, haddr])).trans (byte_of_not_mem hout)

end Sys2Proof.Safety
end

section
/-! PROOFS. The steps of a managed write under a prompt schedule (45_managed_write.md R182 to R187): the sector read, the scan's
two paths, the merge, the next chunk, and the run of a chunk inside one erased page. -/

namespace Sys2Proof.Safety

open Sys2Proof.Machine
open Sys2Proof.Config (Agent)

variable {s u : State} {stack below : List Frame} {f : Frame} {l : MwLocals} {rest : List Agent} {b c : Byte}
  {more : List Byte}

/-! ### The engine's step from a computed state -/

section computed

variable (h : BusFree s) (ht : s.env.turns = .engine :: rest) (hc : s.ctl = .busy stack)
  (hsettle : settle stack (s.withEnv { s.env with turns := rest }) = u) (hu : BusFree u) (hwf : u.params.wf = true)
include h ht hc hsettle hu hwf

/-- The engine's step at a stack whose internal computation ends, in the state `u`, at a transaction with every transport call
`Ok` (40_sequencer.md R110). -/
theorem step_computed_xactOk {w : Wire} {e : Env} (huc : u.ctl = .busy (f :: below)) (hw : u.nextWire f = some w)
    (hread : ∀ a, w ≠ .read a 0) (hcheck : u.dev.check u.params.capacity w = none)
    (htransfer : u.transfer (w.frame u.params.ops) = (true, u.withEnv e)) :
    step s = .next ((u.withEnv e).xactOk w (w.frame u.params.ops)) := by
  obtain ⟨hf, hi⟩ := h
  obtain ⟨huf, hui⟩ := hu
  rw [(stepRunsTheWireCommand s u stack f below w rest hf hi ht hc hsettle huf huc hw).2 (params_wf hwf).2.2.2 hread,
    exec_wire, State.xact_of_transfer huf hui hcheck htransfer]

variable (hp : u.dev.pending = .none)
include hp

/-- The read of a sector inside the flash: its bytes into the Scratch Buffer, and the scan next (45_managed_write.md R183). -/
theorem step_sectorRead (huc : u.ctl = .busy (.managedWrite .read l :: below))
    (hcap : l.sec * 4096 + 4096 ≤ u.params.capacity) (hd : u.env.draws = b :: c :: more) (hb : okDraw b = true)
    (hb' : okDraw c = true) :
    step s = .next (after (u.withScratch (overwrite u.scratch 0 (u.dev.array.readRange (l.sec * 4096) 4096)))
      (.busy (.managedWrite .scan l :: below)) u.dev
      [.xact .read (u.params.ops.read :: addr24 (BitVec.ofNat 24 (l.sec * 4096))) [] 4096
        (some (u.dev.array.readRange (l.sec * 4096) 4096))] u.env.turns more) := by
  have ha : (BitVec.ofNat 24 (l.sec * 4096)).toNat = l.sec * 4096 :=
    toNat_ofNat24 (by have := (params_wf hwf).2.2.1; omega)
  have hcheck : u.dev.check u.params.capacity (.read (BitVec.ofNat 24 (l.sec * 4096)) 4096) = none :=
    Device.check_read_none hp (by rw [ha]; exact hcap)
  rw [step_computed_xactOk h ht hc hsettle hu hwf huc rfl nofun hcheck (transfer_receives rfl nofun hd hb hb'),
    xactOk_sectorRead (s := u.withEnv { u.env with draws := more }) huc, ha]
  rfl

/-- The write-enable of a sector erase (42_erase_controller.md R151). -/
theorem step_sector_wren {a : Nat} (huc : u.ctl = .busy (.eraseSector .wren a :: below)) (hd : u.env.draws = b :: more)
    (hb : okDraw b = true) :
    step s = .next { u with
      ctl := .busy (.eraseSector .cmd a :: below)
      cs := false
      dev := { u.dev with wel := true }
      trace := u.trace ++ [wrenEvent u]
      env := { u.env with draws := more } } := by
  have hcall := (u.transfer_one (f := Wire.frame u.params.ops .wren) rfl rfl).trans (drawOk_of_okDraw hd hb)
  rw [step_computed_xactOk h ht hc hsettle hu hwf huc rfl nofun (Device.check_wren_none hp) hcall]
  exact congrArg Host.Outcome.next (xactOk_sector_wren (s := u.withEnv { u.env with draws := more }) huc _)

end computed

/-- A sector that begins inside the flash ends inside it (00_scope.md R9). -/
theorem sector_le_capacity {p : Config.Params} {a : Nat} (hwf : p.wf = true) (ha : a < p.capacity) :
    a / 4096 * 4096 + 4096 ≤ p.capacity := by
  have := (params_wf hwf).1
  omega

/-! ### The sector read (45_managed_write.md R182, R183, R187) -/

/-- Settles O34: from `MW_CHUNK` the internal computation leads to the sector's READ, which the device answers in full. -/
theorem chunkBeginsWithSectorRead : Obligations.ChunkBeginsWithSectorRead := by
  intro s l rest b c more hwf h hp ht hc hn ha hs hd hb hb'
  have hstep := step_sectorRead h ht hc (mwChunk_next (below := []) _ hn) h hwf hp rfl (sector_le_capacity hwf ha) hd hb hb'
  exact ⟨_, _, hstep, rfl, rfl, rfl, Memory.length_readRange _ _ _, fun i hi => Memory.getElem?_readRange _ _ _ _ hi,
    overwrite_all (hs.trans (Memory.length_readRange _ _ _).symm), rfl⟩

/-- Settles O38: the last page's end counts and advances, and the internal computation leads to the next sector's READ. -/
theorem nextChunkAdvances : Obligations.NextChunkAdvances := by
  intro s src si a n w l rest b c more hwf h hp ht hc hw hl ha hd hb hb'
  have hsettle (t : State) : settle [.programPage .wait src si a n, .writeNoCheck .page w, .managedWrite .prog l] t
      = (t.addCommitted l.chunk).withCtl (.busy [.managedWrite .read l.advance.split]) :=
    (settle_lastPage hw t).trans (mwChunk_next (s := t.addCommitted l.chunk) _ (Nat.sub_pos_of_lt hl))
  have hstep := step_sectorRead h ht hc (hsettle _) h hwf hp rfl (sector_le_capacity hwf ha) hd hb hb'
  exact ⟨_, _, hstep, rfl, rfl, rfl, Memory.length_readRange _ _ _, fun i hi => Memory.getElem?_readRange _ _ _ _ hi,
    fun hs => overwrite_all (hs.trans (Memory.length_readRange _ _ _).symm), rfl⟩

/-! ### The scan (45_managed_write.md R184, R186) -/

/-- Settles O35: the scan of the chunk's bytes leads to the sector erase or to the chunk's first page, and the step is the
write-enable of either. -/
theorem scanDecidesErase : Obligations.ScanDecidesErase := by
  intro s l rest b more hwf h hp ht hc hlen hwritten hpos hfits hd hb
  obtain ⟨bs, -, hbs⟩ := writtenBytes_some hwritten
  have hcell (i : Nat) : s.scratch[i]? = some (some 0xFF) ↔ bs[i]? = some 0xFF := by simp [hbs]
  have hbslen : bs.length = 4096 := by rw [hbs, List.length_map] at hlen; exact hlen
  have hneeded := eraseNeeded_slice_iff (bs := bs) (lo := l.off) (n := l.chunk) (by omega)
  have hsettle := settle_scan (below := [])
    (State.scratchSlice_of_bytes (s := s.withEnv { s.env with turns := rest }) hbs l.off l.chunk)
  simp only [ne_eq, hcell]
  by_cases hneed : eraseNeeded ((bs.drop l.off).take l.chunk) = true
  · rw [if_pos hneed] at hsettle
    have hstep := step_sector_wren h ht hc hsettle h hwf hp rfl hd hb
    obtain ⟨i, hlo, hhi, hne⟩ := hneeded.mp hneed
    exact ⟨_, hstep, rfl, rfl, rfl, rfl, fun _ => rfl, fun hall => absurd (hall i hlo hhi) hne⟩
  · rw [if_neg hneed, wnLoop_next (l := l.direct) _ hpos rfl] at hsettle
    have hstep := step_page_wren h ht hc hsettle rfl h hwf hp hd hb
    exact ⟨_, hstep, rfl, rfl, rfl, rfl, fun hex => absurd (hneeded.mpr hex) hneed, fun _ => rfl⟩

/-! ### The merge (45_managed_write.md R185) -/

/-- The erase done, the engine stands at the first page of the Scratch Buffer, the request's bytes merged. -/
theorem settle_merged {r : Request} (hneed : l.need = true) (hr : s.req = some r) (hw : ∀ x ∈ s.scratch, x ≠ none) :
    settle [.eraseSector .wait (l.sec * 4096), .managedWrite .erase l] s
      = (s.withScratch (overwrite s.scratch l.off ((r.data.drop l.di).take l.chunk))).withCtl
        (.busy [.programPage .wren .scratch 0 (l.sec * 4096) 256,
          .writeNoCheck .page ⟨.scratch, l.sec * 4096, 0, 4096, 256⟩, .managedWrite .prog l]) := by
  have hfirst : l.rewrite.split = ⟨.scratch, l.sec * 4096, 0, 4096, 256⟩ :=
    split_of_aligned (show l.sec * 4096 % 256 = 0 by omega)
  obtain ⟨bs, hbs⟩ := sourceBytes_of_written (src := l.rewrite.src) l.rewrite.si l.rewrite.split.chunk
    (s := s.withScratch (overwrite s.scratch l.off ((r.data.drop l.di).take l.chunk))) fun _ => overwrite_written hw
  rw [settle_erased hneed, State.requestSlice_of_req hr, wnLoop_next _ (by decide : 0 < 4096) hbs, hfirst]
  rfl

/-- Settles O36: the end of the erase's wait leads through the merge to the first page of the Scratch Buffer. -/
theorem erasePathRewritesTheSector : Obligations.ErasePathRewritesTheSector := by
  intro s r l rest b more hwf h hp ht hc hneed hr hlen hwritten hfits hdata hd hb
  have hstep := step_page_wren h ht hc (settle_merged (by exact hneed) (by exact hr) (by exact hwritten)) rfl h hwf hp hd hb
  have hslice : ((r.data.drop l.di).take l.chunk).length = l.chunk := by
    rw [List.length_take, List.length_drop]; omega
  refine ⟨_, hstep, rfl, rfl, fun i hi => (getElem?_overwrite (by exact hslice.symm ▸ hlen ▸ hfits) i).trans ?_, rfl⟩
  rw [hslice]
  split
  case isTrue hin => rw [List.getElem?_take_of_lt (by omega), List.getElem?_drop]
  case isFalse => rfl

/-! ### A chunk inside one erased page (45_managed_write.md R181, R186, R190) -/

variable {a : Addr} {d : List Byte}

/-- The locals in a chunk of `n` bytes at `a`, the write's only one (45_managed_write.md R182). -/
def onlyChunk (a n : Nat) : MwLocals := ⟨a, 0, n, a / 4096, a % 4096, n, false⟩

/-- The frames that have called the program of its only page. -/
def onlyPage (a n : Nat) : List Frame := [.writeNoCheck .page ⟨.req, a, 0, n, n⟩, .managedWrite .prog (onlyChunk a n)]

/-- A write inside one page begins with the read of its only chunk's sector (R182). -/
theorem settle_chunk_only {a n : Nat} (hn : 1 ≤ n) (hpage : a % 256 + n ≤ 256) (s : State) :
    settle [.managedWrite .chunk ⟨a, 0, n, 0, 0, 0, false⟩] s
      = s.withCtl (.busy [.managedWrite .read (onlyChunk a n)]) := by
  have hsplit : MwLocals.split ⟨a, 0, n, 0, 0, 0, false⟩ = onlyChunk a n := by
    simp only [MwLocals.split, onlyChunk, MwLocals.mk.injEq, true_and, and_true]
    omega
  exact hsplit ▸ mwChunk_next (l := ⟨a, 0, n, 0, 0, 0, false⟩) _ hn

/-- The scan of erased bytes inside one page calls `ProgramPage` for them (R184, R186). -/
theorem settle_scan_only {m : Memory} {a n : Nat} (hs : s.scratch = (m.readRange (a / 4096 * 4096) 4096).map some)
    (hn : 1 ≤ n) (hpage : a % 256 + n ≤ 256) (hblank : ∀ x, a ≤ x → x < a + n → m.read x = 0xFF) :
    settle [.managedWrite .scan (onlyChunk a n)] s
      = s.withCtl (.busy (.programPage .wren .req 0 a n :: onlyPage a n)) := by
  have hneed : ¬eraseNeeded (((m.readRange (a / 4096 * 4096) 4096).drop (a % 4096)).take n) = true := by
    rw [eraseNeeded_slice_iff (by rw [Memory.length_readRange]; omega)]
    rintro ⟨i, hlo, hhi, hne⟩
    rw [Memory.getElem?_readRange _ _ _ _ (by omega), hblank _ (by omega) (by omega)] at hne
    exact hne rfl
  have hsplit : (onlyChunk a n).direct.split = ⟨.req, a, 0, n, n⟩ := by
    simp only [onlyChunk, MwLocals.direct, WnLocals.split, Config.pageSize, WnLocals.mk.injEq, true_and]
    omega
  refine (settle_scan (s.scratchSlice_of_bytes hs _ _)).trans ((if_neg hneed).trans ?_)
  rw [wnLoop_next (l := (onlyChunk a n).direct) _ hn rfl, hsplit]
  rfl

/-- From the scan of erased bytes inside one page the prompt run programs the page, which lands, and posts `Ok`. -/
theorem runs_onlyPage {r : Request} {k : Word} {v b1 b2 b3 b4 b5 : Byte} (h : BusFree s) (hwf : s.params.wf = true)
    (hc : s.ctl = .busy [.managedWrite .scan (onlyChunk a.toNat d.length)])
    (hs : s.scratch = (s.dev.array.readRange (a.toNat / 4096 * 4096) 4096).map some) (hr : s.req = some r) (hrd : r.data = d)
    (hp : s.dev.pending = .none) (hpos : 1 ≤ d.length) (hpage : a.toNat % 256 + d.length ≤ 256)
    (ha : a.toNat < s.params.capacity) (hblank : ∀ x, a.toNat ≤ x → x < a.toNat + d.length → s.dev.array.read x = 0xFF)
    (ht : s.env.turns = .engine :: .engine :: .device :: .engine :: .engine :: .engine :: rest)
    (hd : s.env.draws = b1 :: b2 :: b3 :: b4 :: b5 :: v :: more) (hok : ∀ b ∈ [b1, b2, b3, b4, b5], okDraw b = true)
    (hk : BitVec.ofNat 32 (s.committed + d.length) = k) :
    ∃ t, runs 6 s = .next t ∧ t.ctl = .idle ∧ t.resp = ⟨true, ⟨.ok, none, 0, k, [], 0⟩⟩
      ∧ t.dev.array = s.dev.array.program a.toNat 0 d
      ∧ t.trace = s.trace ++ [wrenEvent s, (Wire.pp a d).event s.params.ops (some []), .clk s.now,
        .xact .rdsr [s.params.ops.rdsr] [] 1 (some [statusByte false v]),
        .resp ⟨.ok, none, 0, k, [], 0⟩] := by
  subst hk
  have hsrc : s.sourceBytes .req 0 d.length = some d := by
    rw [State.sourceBytes, State.requestSlice_of_req hr, hrd, List.drop_zero, List.take_length]
  have hrun := runs_programPage_prompt h hwf hc (fun e => settle_scan_only (s := s.withEnv e) hs hpos hpage hblank) hsrc hp
    hpos (by omega) ha ht hd hok
  have hend : EndsCounting d.length (onlyPage a.toNat d.length) := endsCounting_lastSector le_rfl le_rfl
  have hpost := (runs_succ hrun).trans (step_posts (s := after _ _ _ _ _ _) h.1 rfl rfl (hend _) h.1 rfl)
  exact ⟨_, hpost, rfl, rfl, rfl, List.append_assoc _ _ _⟩

/-- Settles O46: the accepted write reads its sector, the scan finds its bytes erased, and the prompt program of its only page
lands and ends it. -/
theorem managedWriteDirectRuns : Obligations.ManagedWriteDirectRuns := by
  intro s a n d rest b1 b2 b3 b4 b5 b6 b7 v more hwf h hi hp hm hs hd hpos hpage hcap hblank hport ht hdraws hok
  simp only [List.forall_mem_cons (a := b1), List.forall_mem_cons (a := b2)] at hok
  obtain ⟨hb1, hb2, hok⟩ := hok
  have hfree : BusFree s := ⟨h.2.1, hi⟩
  have ha : a.toNat < s.params.capacity := by omega
  have haccept := step_accepts_mwrite h ht hd (hd ▸ hcap) hport
  rw [← hd] at haccept
  let s₁ : State := accepted (s.withEnv { s.env with
    turns := [.engine, .engine, .engine, .device, .engine, .engine, .engine] ++ rest }) ⟨opMwrite, a, n, 0, d⟩
    (.managedWrite .chunk ⟨a.toNat, 0, d.length, 0, 0, 0, false⟩)
  have hread := step_sectorRead (s := s₁) hfree rfl rfl (settle_chunk_only hpos hpage _) hfree hwf hp rfl
    (sector_le_capacity (p := s.params) hwf ha) hdraws hb1 hb2
  have hcells := overwrite_all (hs.trans (Memory.length_readRange s.dev.array (a.toNat / 4096 * 4096) 4096).symm)
  obtain ⟨t, hrun, hidle, hresp, harray, htrace⟩ := runs_onlyPage (s := after (s₁.withScratch _) _ _ _ _ _) (rest := rest)
    hfree hwf rfl hcells rfl rfl hp hpos hpage ha hblank rfl rfl hok (show BitVec.ofNat 32 (0 + d.length) = n by simp [hd])
  refine ⟨t, s.dev.array.readRange (a.toNat / 4096 * 4096) 4096, statusByte false v,
    (runs_succ_of_step haccept 7).trans ((runs_succ_of_step hread 6).trans hrun), hidle, hresp,
    htrace.trans ((List.append_assoc _ _ _).trans (List.append_assoc _ _ _)), fun x => ?_⟩
  have hlanded : t.dev.array = s.dev.array.program a.toNat 0 d := harray
  rw [hlanded, Memory.read_program hm a.toNat 0 d hpage x, Nat.add_zero]
  split
  case isTrue hx => exact (congrArg (· &&& _) (hblank x hx.1 hx.2)).trans BitVec.allOnes_and
  case isFalse => rfl

end Sys2Proof.Safety
end

section
/-! PROOFS. A payload in flight holds the bus (10_state.md R28, 40_sequencer.md R110, 46_read_path.md R205): no agent's step
then begins a transaction or another asynchronous read. -/

namespace Sys2Proof.Machine

/-- The event marks the start of a transaction or of an asynchronous read. -/
def Event.opensBus : Event → Bool
  | .xact _ _ _ _ _ => true
  | .astart _ _ _ => true
  | _ => false

theorem Event.ne_of_not_opensBus {e : Event} (h : e.opensBus = false) :
    (∀ k cmd tx rx r, e ≠ .xact k cmd tx rx r) ∧ ∀ a n ok, e ≠ .astart a n ok := by
  constructor
  · rintro k cmd tx rx r rfl; cases h
  · rintro a n ok rfl; cases h

end Sys2Proof.Machine

namespace Sys2Proof.Safety

open Sys2Proof.Machine

variable {s t : State}

/-- From `s` to `t` no transaction and no asynchronous read was started. -/
abbrev LeavesBusAlone (s t : State) : Prop := Logs (·.opensBus = false) s t

theorem accept_leavesBusAlone (r : Request) (ok : Bool) (f : Frame) : LeavesBusAlone s (s.accept r ok f) := by
  obtain ⟨-, hx⟩ | ⟨-, -, hx⟩ | ⟨-, -, hx⟩ := s.accept_cases r ok f
  · exact .inl (congrArg State.trace hx :)
  · exact .inr ⟨.accept r, rfl, by rw [hx]; rfl⟩
  · exact .inr ⟨.accept r, rfl, by rw [hx, State.raise_trace]; rfl⟩

/-- A request op is accepted or waits: either way it issues no transaction (10_state.md R43). -/
theorem request_leavesBusAlone {i : Instr} (hi : isRequest i = true) (ht : exec i s = .next t) : LeavesBusAlone s t := by
  cases i with
  | mwrite | wnochk | pprog | serase | cerase | wready | read | reada | rdid => cases ht; exact accept_leavesBusAlone _ _ _
  | _ => cases hi

/-- What the engine does in a computed state while the bus is held: it posts a response, reads the clock, or waits. -/
theorem engineAction_leavesBusAlone (hi : s.inflight = true) (h : EngineAction s t) : LeavesBusAlone s t := by
  cases h with
  | stop h => exact .inl rfl
  | post hf hc => exact .inr ⟨_, rfl, rfl⟩
  | entry hf hc => exact .inr ⟨_, rfl, rfl⟩
  | deadline hf hc => exact .inr ⟨.clk s.now, rfl, by rw [readDeadline_eq hc]; rfl⟩
  | async hf hfree hc => cases hi.symm.trans hfree
  | wire hf hfree hc hw hd ht => cases hi.symm.trans hfree

theorem engineTurn_leavesBusAlone (hi : s.inflight = true) (h : s.engineTurn.outcome = .next t) : LeavesBusAlone s t := by
  cases engineMove_of_turn h with
  | wait => exact .inl rfl
  | request hc hd hexec => exact request_leavesBusAlone (decodeRequest_isRequest hd) hexec
  | reserved d hc =>
    obtain ⟨-, hx⟩ | ⟨-, hx⟩ := s.acceptReserved_cases (Descriptor.fields d)
    · exact .inl (congrArg State.trace hx :)
    · exact .inr ⟨.accept _, rfl, by rw [hx, State.raise_trace, State.latch_trace]⟩
  | post hc => exact .inr ⟨_, rfl, rfl⟩
  | @run stack _ hc hact =>
    obtain ⟨_, _, _, _, _, hs⟩ := settle_frame stack s
    have hcomputed : (settle stack s).inflight = true ∧ (settle stack s).trace = s.trace := by
      rw [hs]; exact ⟨hi, rfl⟩
    obtain ⟨hheld, htrace⟩ := hcomputed
    have hlogs := engineAction_leavesBusAlone hheld hact
    rwa [LeavesBusAlone, Logs, htrace] at hlogs

/-- The agents other than the engine log at most the end of an asynchronous read. -/
theorem turn_leavesBusAlone (hi : s.inflight = true) (g : Config.Agent) (h : (s.turn g).outcome = .next t) :
    LeavesBusAlone s t := by
  cases g with
  | engine => exact engineTurn_leavesBusAlone hi h
  | dma =>
    cases h
    obtain ⟨-, hx⟩ | ⟨e, c, hx⟩ := s.dmaStep_cases
    · exact .inl (congrArg State.trace hx :)
    · exact .inr ⟨.adone c, rfl, by rw [hx]; rfl⟩
  | device =>
    cases h
    obtain ⟨e, m, hx, -⟩ := s.deviceStep_frame
    exact .inl (congrArg State.trace hx :)
  | clock => cases h; exact .inl rfl
  | host =>
    cases h
    obtain ⟨_, _, _, _, hx⟩ := s.hostMove_frame
    exact .inl (congrArg State.trace hx :)

/-- Settles O21: whichever agent has the turn, the one event it may log opens nothing on the bus. -/
theorem noTransactionWhileInFlight : Obligations.NoTransactionWhileInFlight := by
  intro s t hi h
  rw [step_eq (fault_none_of_step h)] at h
  obtain ⟨new, htrace, hnew⟩ := (turn_leavesBusAlone (s := s.takeTurn.2) hi s.takeTurn.1 h).events
  exact ⟨new, htrace, fun e he => Event.ne_of_not_opensBus (hnew e he)⟩

end Sys2Proof.Safety
end

section
/-! PROOFS. The life of an asynchronous transfer (46_read_path.md R201, R202): only the DMA agent's turn ends the job, and
that turn, which comes in every run that goes on, posts the completion record. -/

namespace Sys2Proof.Safety

open Sys2Proof.Machine

variable {s t : State}

/-! ### The engine ends no job -/

theorem accept_dma (r : Request) (ok : Bool) (f : Frame) : (s.accept r ok f).dma = s.dma := by
  obtain ⟨-, hx⟩ | ⟨-, -, hx⟩ | ⟨-, -, hx⟩ := s.accept_cases r ok f
  · rw [hx]
  · rw [hx]; rfl
  · rw [hx, State.raise_dma]; rfl

theorem xact_dma (w : Wire) : (s.xact w).dma = s.dma := by
  obtain ⟨-, hx⟩ | ⟨-, -, ⟨x, -, hx⟩ | ⟨-, e, hx | hx⟩⟩ := s.xact_cases w
  · rw [hx]
  · rw [hx]
  · obtain ⟨_, _, _, _, hok⟩ := (s.withEnv e).xactOk_frame w (w.frame s.params.ops)
    rw [hx, hok]; rfl
  · obtain ⟨-, -, -, -, -, -, -, -, -, -, -, hdma, -⟩ := xactErr_busFrame (s.withEnv e) w (w.frame s.params.ops)
    rw [hx]; exact hdma

/-- No instruction touches the DMA agent's job: an asynchronous read is started by the engine itself (R201). -/
theorem exec_dma {i : Instr} (h : exec i s = .next t) : t.dma = s.dma := by
  cases i with
  | wireWren | wireRdsr | wireRdid | wireRead | wirePp | wireSe | wireCe => cases h; exact xact_dma _
  | _ => cases h; exact accept_dma _ _ _

theorem startAsync_dma {a n : Nat} {below : List Frame} (h : s.dma ≠ .none) : (s.startAsync a n below).dma ≠ .none := by
  obtain ⟨r, -, hx⟩ | ⟨-, e, hx | hx⟩ := s.startAsync_cases a n below
  · rwa [hx, State.raise_dma]
  · obtain ⟨c, hc⟩ := State.returnOk_frame (((s.withEnv e).beginAsync a n).log (.astart a n true)) below [] 0
    rw [hx, hc]; nofun
  · obtain ⟨c, hc⟩ :=
      State.fail_frame (State.log { s.withEnv e with cs := false } (.astart a n false)) .transportError .read a
    rw [hx, hc]; exact h

theorem engineAction_keeps_job (h : EngineAction s t) (hjob : s.dma ≠ .none) : t.dma ≠ .none := by
  cases h with
  | stop h => exact hjob
  | post hf hc => exact hjob
  | entry hf hc => exact hjob
  | deadline hf hc => rw [readDeadline_eq hc]; exact hjob
  | async hf hi hc => exact startAsync_dma hjob
  | wire hf hi hc hw hd ht => rwa [exec_dma ht]

theorem engineTurn_keeps_job (h : s.engineTurn.outcome = .next t) (hjob : s.dma ≠ .none) : t.dma ≠ .none := by
  cases engineMove_of_turn h with
  | wait => exact hjob
  | request hc hd hexec => rwa [exec_dma hexec]
  | reserved d hc =>
    obtain ⟨-, hx⟩ | ⟨-, hx⟩ := s.acceptReserved_cases (Descriptor.fields d)
    · rwa [hx]
    · rw [hx, State.raise_dma]; exact hjob
  | post hc => exact hjob
  | @run stack _ hc hact =>
    obtain ⟨_, _, _, _, _, hs⟩ := settle_frame stack s
    exact engineAction_keeps_job hact (by rw [hs]; exact hjob)

/-! ### The DMA agent ends it -/

/-- The transfer is over: no job, the hold lifted, the completion record posted (R202). -/
structure TransferDone (t : State) : Prop where
  job : t.dma = .none
  free : t.inflight = false
  posted : t.cmpl.valid = true

theorem dmaStep_transferDone (hjob : s.dma ≠ .none) : TransferDone s.dmaStep := by
  obtain ⟨hnone, -⟩ | ⟨e, c, hx⟩ := s.dmaStep_cases
  · exact absurd hnone hjob
  · rw [hx]; exact ⟨rfl, rfl, rfl⟩

/-- A transfer in flight ends at the DMA agent's turn, and goes on at every other. -/
theorem step_transfer (h : step s = .next t) (hjob : s.dma ≠ .none) :
    (s.takeTurn.1 = .dma ∧ TransferDone t) ∨ (s.takeTurn.1 ≠ .dma ∧ t.dma ≠ .none) := by
  rw [step_eq (fault_none_of_step h)] at h
  cases hg : s.takeTurn.1 with
  | dma => rw [hg] at h; cases h; exact .inl ⟨rfl, dmaStep_transferDone (s := s.takeTurn.2) hjob⟩
  | engine => rw [hg] at h; exact .inr ⟨nofun, engineTurn_keeps_job h hjob⟩
  | device =>
    rw [hg] at h; cases h
    obtain ⟨e, m, hx, -⟩ := s.takeTurn.2.deviceStep_frame
    exact .inr ⟨nofun, by rw [hx]; exact hjob⟩
  | clock => rw [hg] at h; cases h; exact .inr ⟨nofun, hjob⟩
  | host =>
    rw [hg] at h; cases h
    obtain ⟨_, _, _, _, hx⟩ := s.takeTurn.2.hostMove_frame
    exact .inr ⟨nofun, by rw [hx]; exact hjob⟩

/-- In a run that goes on and in which no transfer ends, a transfer in flight stays in flight. -/
theorem transfer_goes_on (hjob : s.dma ≠ .none) (hopen : ∀ k t, runs k s = .next t → ¬TransferDone t) 
    (hruns : ∀ k, ∃ t, runs k s = .next t) (k : Nat) (t : State) (ht : runs k s = .next t) : t.dma ≠ .none := by
  induction k generalizing t with
  | zero => cases ht; exact hjob
  | succ k ih =>
    obtain ⟨u, hu⟩ := hruns k
    obtain ⟨-, hdone⟩ | ⟨-, hstill⟩ := step_transfer ((runs_succ hu).symm.trans ht) (ih u hu)
    · exact absurd hdone (hopen _ t ht)
    · exact hstill

/-- A transfer in flight ends, unless the machine stops before (R202): the run gives the DMA agent its turn. -/
theorem transfer_ends (hjob : s.dma ≠ .none) :
    ∃ k, (∀ t, runs k s ≠ .next t) ∨ ∃ t, runs k s = .next t ∧ TransferDone t := by
  by_contra! hnever
  have hruns : ∀ k, ∃ t, runs k s = .next t := fun k => by simpa using (hnever k).1
  have hopen : ∀ k t, runs k s = .next t → ¬TransferDone t := fun k => (hnever k).2
  obtain ⟨k, hstop | ⟨t, ht, hturn⟩⟩ := run_gives_turn s (a := .dma) (by decide)
  · obtain ⟨t, ht⟩ := hruns k
    exact hstop t ht
  · obtain ⟨u, hu⟩ := hruns (k + 1)
    obtain ⟨-, hdone⟩ | ⟨hother, -⟩ :=
      step_transfer ((runs_succ ht).symm.trans hu) (transfer_goes_on hjob hopen hruns k t ht)
    · exact hopen _ u hu hdone
    · exact hother hturn

/-! ### The completion record -/

theorem readRange_eq_map (m : Memory) (a n : Nat) : m.readRange a n = (List.range n).map fun i => m.read (a + i) :=
  ManagedWrite.eq_map_range (m.length_readRange a n).le fun j hj => m.getElem?_readRange a n j hj

section completion

variable {a n : Nat} {b : Byte} {more : List Byte} (hjob : s.dma = .rx a n) (hd : s.env.draws = b :: more)
include hjob hd

theorem dmaStep_of_okDraw (hb : okDraw b = true) :
    s.dmaStep = (s.withEnv { s.env with draws := more }).endAsync ⟨.ok, s.dev.array.readRange a n⟩ := by
  simp [State.dmaStep, hjob, drawOk_of_okDraw hd hb]

theorem dmaStep_of_not_okDraw (hb : okDraw b = false) :
    s.dmaStep = (s.withEnv { s.env with draws := more }).endAsync ⟨.transportError, []⟩ := by
  simp [State.dmaStep, hjob, drawOk_of_not_okDraw hd hb]

end completion

/-- Settles O25: the DMA agent's turn takes one draw and posts the record it decides, and no other turn ends the job. -/
theorem dmaCompletionPosts : Obligations.DmaCompletionPosts := by
  refine ⟨fun s a n rest b more c hf ht hjob hd hok herr => ?_, fun s a n hjob => ?_⟩
  · rw [step_turn hf ht]
    refine congrArg Host.Outcome.next ?_
    cases hb : okDraw b with
    | true =>
      rw [hok hb, ← readRange_eq_map]
      exact dmaStep_of_okDraw (s := s.withEnv { s.env with turns := rest }) hjob hd hb
    | false =>
      rw [herr hb]
      exact dmaStep_of_not_okDraw (s := s.withEnv { s.env with turns := rest }) hjob hd hb
  · obtain ⟨k, hstop | ⟨t, ht, hdone⟩⟩ := transfer_ends (s := s) (by rw [hjob]; nofun)
    · exact ⟨k, .inl hstop⟩
    · exact ⟨k, .inr ⟨t, ht, hdone.job, hdone.free, hdone.posted⟩⟩

end Sys2Proof.Safety
end

section
/-! PROOFS. READ, RDID, WREADY and READA on a ready device (46_read_path.md R200 to R204, 41_status_poller.md R140, R141): a
query whose reply ends the request, and the start of an asynchronous read. -/

namespace Sys2Proof.Machine

/-! ### Queries -/

/-- A command that asks the device for bytes and changes nothing on it (40_sequencer.md R116 to R118). -/
inductive Wire.IsQuery : Wire → Prop
  | rdsr : IsQuery .rdsr
  | rdid : IsQuery .rdid
  | read {a : Addr} {n : Nat} (hn : 1 ≤ n) : IsQuery (.read a n)

variable {s : State} {w : Wire} {f : Frame} {x : Exit}

theorem Wire.IsQuery.onSuccess (hq : w.IsQuery) (d : Device) : d.onSuccess w = d := by cases hq <;> rfl

theorem Wire.IsQuery.ne_read_zero (hq : w.IsQuery) (a : Addr) : w ≠ .read a 0 := by
  rintro rfl; cases hq; omega

/-- A query sends no payload and receives a reply (R110). -/
theorem Wire.IsQuery.twoCalls (hq : w.IsQuery) (o : Config.Opcodes) : WireFrame.TwoCalls (w.frame o) := by
  cases hq with
  | rdsr | rdid => exact .inl ⟨rfl, nofun⟩
  | read hn => exact .inl ⟨rfl, Nat.ne_of_gt hn⟩

/-- A reply leaves the turns to come as they were. -/
theorem State.reply_turns (s : State) (w : Wire) : ∃ e, e.turns = s.env.turns ∧ (s.reply w).2 = s.withEnv e := by
  obtain ⟨e, he⟩ := s.reply_frame w
  obtain ⟨d, k, hdrawn⟩ := s.reply_drawn w
  rw [he, State.withEnv_env] at hdrawn
  exact ⟨e, by rw [hdrawn], he⟩

/-- The reply of `w` ends the request of the outermost frame `f` with `x`. -/
def Concludes (f : Frame) (w : Wire) (rx : List Byte) (x : Exit) : Prop :=
  ∀ t : State, t.ctl = .busy [f] → t.resume w rx = t.withCtl (.ending x)

theorem concludes_read (a n : Nat) (b : Addr) (m : Nat) (rx : List Byte) : Concludes (.read a n) (.read b m) rx (.ok rx 0) :=
  fun t hc => by rw [State.resume, hc]; rfl

theorem concludes_readId (rx : List Byte) : Concludes .readId .rdid rx (.ok [] (idOfReply rx)) :=
  fun t hc => by rw [State.resume, hc]; rfl

theorem concludes_poll {rx : List Byte} (hready : readyReply rx = true) (timeout t0 : Nat) (k : Kind) (ad : Nat) :
    Concludes (.waitReady .poll timeout t0 k ad) .rdsr rx (.ok [] 0) :=
  fun t hc => by rw [State.resume, hc]; exact if_pos hready

/-- A successful query that ends its request changes the control state, the trace and the draws to come, and releases
chip-select (R110, R112). -/
theorem State.xactOk_query (hq : w.IsQuery) (hc : s.ctl = .busy [f]) (hends : Concludes f w (s.reply w).1 x)
    (b : WireFrame) : ∃ e, e.turns = s.env.turns ∧ s.xactOk w b
      = (State.log { s with cs := false, env := e } (.xact w.kind b.cmd b.tx b.rxlen (some (s.reply w).1))).withCtl
          (.ending x) := by
  obtain ⟨e, hturns, he⟩ := s.reply_turns w
  refine ⟨e, hturns, ?_⟩
  simp only [State.xactOk, he, hq.onSuccess]
  exact hends _ hc

end Sys2Proof.Machine

namespace Sys2Proof.Safety

open Sys2Proof.Machine
open Sys2Proof.Config (Agent)
open Sys2Proof.Laws.OpField (op_assemble)

variable {s : State} {rest : List Agent} {b c : Byte} {more : List Byte} {f : Frame} {w : Wire} {x : Exit}

/-! ### The steps -/

/-- The response of an ended request is posted (60_exceptions.md R226). -/
theorem step_ending (hf : s.fault = none) (ht : s.env.turns = .engine :: rest) (hc : s.ctl = .ending x) :
    step s = .next ((s.withEnv { s.env with turns := rest }).post x) := by
  rw [step_turn hf ht]
  simp [State.turn, State.engineTurn, hc, Plan.outcome]

/-- A query whose reply ends the request, then the response. -/
theorem runs_query (hq : w.IsQuery) (h : BusFree s) (hwf : s.params.wf = true) (hc : s.ctl = .busy [f])
    (hsettle : ∀ t : State, t.ctl = .busy [f] → settle [f] t = t) (hw : s.nextWire f = some w)
    (hcheck : s.dev.check s.params.capacity w = none) (ht : s.env.turns = .engine :: .engine :: rest)
    (hd : s.env.draws = b :: c :: more) (hok : okDraw b = true ∧ okDraw c = true) {rx : List Byte}
    (hrx : ((s.withEnv { s.env with turns := .engine :: rest, draws := more }).reply w).1 = rx)
    (hends : Concludes f w rx x) :
    ∃ t, runs 2 s = .next t ∧ t.ctl = .idle ∧ t.dev = s.dev ∧ t.scratch = s.scratch
      ∧ t.resp = ⟨true, x.response s.committed⟩
      ∧ t.trace = s.trace ++ [w.event s.params.ops (some rx), .resp (x.response s.committed)] := by
  subst hrx
  obtain ⟨hb, hb'⟩ := hok
  have hquery := step_xactOk h hwf ht hc hw hq.ne_read_zero hsettle hcheck
    (transfer_two_ok (s := s.withEnv { s.env with turns := .engine :: rest }) (hq.twoCalls _) hd hb hb')
  obtain ⟨e, hturns, hx⟩ := State.xactOk_query (s := s.withEnv { s.env with turns := .engine :: rest, draws := more })
    hq hc hends (w.frame s.params.ops)
  rw [hx] at hquery
  exact ⟨_, (runs_succ_of_step hquery 1).trans ((runs_succ (runs_zero _)).trans (step_ending h.1 hturns rfl)), rfl, rfl,
    rfl, rfl, List.append_assoc _ _ _⟩

/-! ### Acceptance -/

theorem step_accepts_rdid (h : Ready s) (ht : s.env.turns = .engine :: rest)
    (hport : s.port = some (assemble opRdid 0 0 0 [])) :
    step s = .next (accepted (s.withEnv { s.env with turns := rest }) ⟨opRdid, 0, 0, 0, []⟩ .readId) :=
  step_accepts h ht hport (decodeRequest_rdid (op_assemble _ _ _ _ _))
    (readRequestsAccepted (s.withEnv { s.env with turns := rest }) 0 0 h).2.2 fun hin => by rw [hin]

theorem step_accepts_wready {timeout : Word} (h : Ready s) (ht : s.env.turns = .engine :: rest)
    (hport : s.port = some (assemble opWready 0 0 timeout [])) :
    step s = .next (accepted (s.withEnv { s.env with turns := rest }) ⟨opWready, 0, 0, timeout, []⟩
      (.waitReady .t0 timeout.toNat 0 .rdsr 0)) :=
  step_accepts h ht hport (decodeRequest_wready (op_assemble _ _ _ _ _))
    (eraseAndWaitRequestsAccepted (s.withEnv { s.env with turns := rest }) 0 timeout h).2.2 fun hin => by rw [hin]

/-! ### The requests -/

/-- A request whose accepted frame issues one query and ends with its reply, in three steps. -/
theorem request_query {r : Request}
    (hacc : step s = .next (accepted (s.withEnv { s.env with turns := .engine :: .engine :: rest }) r f)) (hq : w.IsQuery)
    (h : BusFree s) (hwf : s.params.wf = true) (hsettle : ∀ t : State, t.ctl = .busy [f] → settle [f] t = t)
    (hw : ∀ t : State, t.nextWire f = some w) (hcheck : s.dev.check s.params.capacity w = none)
    (hd : s.env.draws = b :: c :: more) (hok : okDraw b = true ∧ okDraw c = true) {rx : List Byte}
    (hrx : ∀ t : State, t.dev = s.dev → t.params = s.params → (t.reply w).1 = rx) (hends : Concludes f w rx x) :
    ∃ t, runs 3 s = .next t ∧ t.ctl = .idle ∧ t.dev = s.dev ∧ t.scratch = s.scratch ∧ t.resp = ⟨true, x.response 0⟩ := by
  obtain ⟨t, hrun, hidle, hdev, hscratch, hresp, -⟩ :=
    runs_query (s := accepted (s.withEnv { s.env with turns := .engine :: .engine :: rest }) r f) hq h hwf rfl hsettle
      (hw _) hcheck rfl hd hok (hrx _ rfl rfl) hends
  exact ⟨t, (runs_succ_of_step hacc 2).trans hrun, hidle, hdev, hscratch, hresp⟩

/-- An outermost wait on a ready device: the clock read at entry, one poll, and the response (41_status_poller.md R140,
R141). -/
theorem runs_wait {timeout t0 ad : Nat} {k : Kind} {v : Byte} (h : BusFree s) (hwf : s.params.wf = true)
    (hp : s.dev.pending = .none) (hc : s.ctl = .busy [.waitReady .t0 timeout t0 k ad])
    (ht : s.env.turns = .engine :: .engine :: .engine :: rest) (hd : s.env.draws = b :: c :: v :: more)
    (hok : okDraw b = true ∧ okDraw c = true) :
    ∃ t, runs 3 s = .next t ∧ t.ctl = .idle ∧ t.dev = s.dev ∧ t.scratch = s.scratch
      ∧ t.resp = ⟨true, Exit.response (.ok [] 0) s.committed⟩
      ∧ t.trace = s.trace ++ [.clk s.now, .xact .rdsr [s.params.ops.rdsr] [] 1 (some [statusByte s.dev.busy v]),
        .resp (Exit.response (.ok [] 0) s.committed)] := by
  let s₁ : State := { s with
    ctl := .busy [.waitReady .poll timeout s.now k ad]
    trace := s.trace ++ [.clk s.now]
    env := { s.env with turns := .engine :: .engine :: rest } }
  have hentry : step s = .next s₁ := (waitReadsTheClock s timeout t0 k ad [] _ h.1 ht).1 hc
  have hready : readyReply [statusByte s.dev.busy v] = true := by
    simp only [readyReply, busyBit, statusByte_bit0, Device.busy, hp, Bool.not_false]
  obtain ⟨t, hrun, hidle, hdev, hscratch, hresp, htrace⟩ := runs_query (s := s₁) .rdsr h hwf rfl (fun _ => settle_wait) rfl
    rfl rfl hd hok rfl (concludes_poll hready _ _ _ _)
  exact ⟨t, (runs_succ_of_step hentry 2).trans hrun, hidle, hdev, hscratch, hresp, htrace.trans (List.append_assoc _ _ _)⟩

/-- Settles O44: each request is accepted, its last action is a query, and the query's reply ends it. -/
theorem readAndWaitRequestsRun : Obligations.ReadAndWaitRequestsRun := by
  intro s a n timeout rest b1 b2 v more hwf h hi hp ht hd hok
  simp only [List.forall_mem_cons] at hok
  obtain ⟨hb1, hb2, -⟩ := hok
  have hfree : BusFree s := ⟨h.2.1, hi⟩
  refine ⟨fun hn hcap hport => ?_, fun hport => ?_, fun hport => ?_⟩
  · have hissues (t : State) : t.nextWire (.read a.toNat n.toNat) = some (.read a n.toNat) := by simp [State.nextWire]
    have hsettle (t : State) (hc : t.ctl = .busy [.read a.toNat n.toNat]) : settle [.read a.toNat n.toNat] t = t := by
      rw [settle, if_neg (Nat.ne_of_gt hn), ← hc]; rfl
    obtain ⟨t, hrun, hidle, hdev, hscratch, hresp⟩ := request_query (step_accepts_read h ht hcap hport) (.read hn) hfree hwf
      hsettle hissues (Device.check_read_none hp hcap) hd ⟨hb1, hb2⟩ (rx := s.dev.array.readRange a.toNat n.toNat)
      (fun t hdev _ => by rw [← hdev]; rfl) (concludes_read _ _ _ _ _)
    exact ⟨t, hrun, hidle, hdev, hscratch, by rw [hresp, ← readRange_eq_map]; rfl⟩
  · obtain ⟨t, hrun, hidle, hdev, hscratch, hresp⟩ := request_query (step_accepts_rdid h ht hport) .rdid hfree hwf
      (fun t hc => by rw [settle, ← hc]; rfl) (fun _ => rfl) (Device.check_rdid_none hp) hd ⟨hb1, hb2⟩
      (fun t _ hparams => by rw [State.reply, hparams]) (concludes_readId _)
    exact ⟨t, hrun, hidle, hdev, hscratch, by rw [hresp, idOfReply_bytes]; rfl⟩
  · obtain ⟨t, hrun, hidle, hdev, hscratch, hresp, htrace⟩ := runs_wait
      (s := accepted (s.withEnv { s.env with turns := [.engine, .engine, .engine] ++ rest }) ⟨opWready, 0, 0, timeout, []⟩
        (.waitReady .t0 timeout.toNat 0 .rdsr 0)) hfree hwf hp rfl rfl hd ⟨hb1, hb2⟩
    exact ⟨t, _, (runs_succ_of_step (step_accepts_wready h ht hport) 3).trans hrun, hidle, hdev, hscratch, hresp,
      htrace.trans (List.append_assoc _ _ _)⟩

/-- At `RA_CMD` on a ready device, a successful command phase hands the payload to the DMA agent and ends the request
(46_read_path.md R201). -/
theorem step_startAsync_ok {a : Addr} {n : Nat} (h : BusFree s) (ht : s.env.turns = .engine :: rest)
    (hc : s.ctl = .busy [.readAsync a.toNat n]) (hn : 1 ≤ n) (hp : s.dev.pending = .none)
    (hcap : a.toNat + n ≤ s.params.capacity) (hd : s.env.draws = b :: more) (hb : okDraw b = true) :
    step s = .next ((((s.withEnv { s.env with turns := rest, draws := more }).beginAsync a.toNat n).log
      (.astart a.toNat n true)).withCtl (.ending (.ok [] 0))) := by
  have hdraw := drawOk_of_okDraw (s := s.withEnv { s.env with turns := rest }) hd hb
  rw [step_startAsync h ht hc hn]
  simp only [State.startAsync, BitVec.ofNat_toNat, BitVec.setWidth_eq, State.withEnv_dev, State.withEnv_params,
    Device.check_read_none hp hcap, hdraw]
  rfl

/-- Settles O45: accepted, started and answered in three steps, the transfer's completion in the fourth. -/
theorem asyncReadRuns : Obligations.AsyncReadRuns := by
  intro s a n rest b1 b2 more hwf h hcmpl hi hp hn hcap hport ht hd hok
  simp only [List.forall_mem_cons] at hok
  obtain ⟨hb1, hb2, -⟩ := hok
  have haccept := step_accepts_reada h ht hcap hcmpl hport
  have hstart := step_startAsync_ok (s := accepted (s.withEnv { s.env with turns := [.engine, .engine, .dma] ++ rest })
    ⟨opReada, a, n, 0, []⟩ (.readAsync a.toNat n.toNat)) ⟨h.2.1, hi⟩ rfl rfl hn hp hcap hd hb1
  have hrun := (runs_succ_of_step haccept 2).trans ((runs_succ_of_step hstart 1).trans
    ((runs_succ (runs_zero _)).trans (step_ending h.2.1 rfl rfl)))
  have hdone := (runs_succ hrun).trans (dmaCompletionPosts.1 _ a.toNat n.toNat rest b2 more _ h.2.1 rfl rfl rfl
    (fun _ => rfl) (fun hb => absurd hb2 (by simp [hb])))
  exact ⟨⟨_, hrun, rfl, rfl, rfl, rfl, rfl, rfl, rfl, hcmpl, rfl⟩, _, hdone, rfl, rfl, rfl, rfl, rfl⟩

end Sys2Proof.Safety
end

section
/-! PROOFS. The precondition table (60_exceptions.md R223): the check each meaning makes at acceptance is its row of the table,
and the check alone decides between the pushed frame and the fault mark. -/

namespace Sys2Proof.Safety

open Sys2Proof.Machine

variable {s : State}

/-! ### The checks (R223) -/

theorem writePre_iff {p : Config.Params} {a : Addr} {n : Word} {d : List Byte} :
    writePre p a n d = true ↔ d.length = n.toNat ∧ a.toNat + n.toNat ≤ p.capacity := by
  simp [writePre, inCapacity]

theorem pprogPre_iff {p : Config.Params} {a : Addr} {n : Word} {d : List Byte} :
    pprogPre p a n d = true
      ↔ d.length = n.toNat ∧ n.toNat ≤ 256 ∧ a.toNat % 256 + n.toNat ≤ 256 ∧ a.toNat + n.toNat ≤ p.capacity := by
  simp only [pprogPre, Bool.and_eq_true, decide_eq_true_eq, writePre_iff, Config.pageSize]
  tauto

theorem serasePre_iff {p : Config.Params} {a : Addr} :
    serasePre p a = true ↔ a.toNat % 4096 = 0 ∧ a.toNat < p.capacity := by
  simp [serasePre, Config.sectorSize]

/-! ### Acceptance -/

/-- A request op's meaning is an acceptance (10_state.md R43) whose check is the op's row of the precondition table. -/
theorem exec_request_accepts {i : Instr} (hi : isRequest i = true) (s : State) :
    ∃ r ok f, exec i s = .next (s.accept r ok f) ∧ (ok = true ↔ MeetsPrecondition s.params i) := by
  cases i with
  | mwrite | wnochk => exact ⟨_, _, _, rfl, writePre_iff⟩
  | pprog => exact ⟨_, _, _, rfl, pprogPre_iff⟩
  | serase => exact ⟨_, _, _, rfl, serasePre_iff⟩
  | read | reada => exact ⟨_, _, _, rfl, decide_eq_true_iff⟩
  | cerase | wready | rdid => exact ⟨_, _, _, rfl, iff_of_true rfl trivial⟩
  | _ => cases hi

/-- A ready engine marks the fault at a request whose check fails, after the latching of R43 and before anything else. -/
theorem accept_faults_of_ready (h : Ready s) (hcmpl : s.cmpl.valid = false) (r : Request) (f : Frame) :
    s.accept r false f = (s.latch r).raise .contractViolation := by
  obtain ⟨hctl, hfault, hresp⟩ := h
  exact State.accept_faults ((s.canAccept_iff _).mpr ⟨hctl, hfault, hresp, fun _ => hcmpl⟩) f

/-- Settles O11: where the check holds the acceptance is `accepted`, where it fails the latching and the fault mark, whose
only event is the ACCEPT. -/
theorem preconditionViolationFaults : Obligations.PreconditionViolationFaults := by
  intro s t i hi h hcmpl ht
  obtain ⟨r, ok, f, hexec, hok⟩ := exec_request_accepts hi s
  cases hexec.symm.trans ht
  constructor
  · intro hpre
    rw [accept_of_ready h (hok.mpr hpre) f fun _ => hcmpl]
    exact ⟨h.2.1, f, rfl⟩
  · intro hpre
    rw [Bool.eq_false_iff.mpr fun hb => hpre (hok.mp hb), accept_faults_of_ready h hcmpl]
    obtain ⟨hctl, hfault, -⟩ := h
    exact ⟨by simp [State.raise_fault, hfault], by simpa using hctl, by simp, by simp, [.accept r], by simp, by simp⟩

end Sys2Proof.Safety
end

section
/-! PROOFS. What a step can do to the parameters, the clock and the form of the flash array (00_scope.md R9 to R12,
10_state.md R37, R38; log entry 3), said once, from every state; the weakly fair Clock (log entry 9). -/

namespace Sys2Proof.Safety

open Sys2Proof.Machine

variable {s t u : State}

/-- From `s` to `t` the parameters and the clock are as they were, and an array in canonical form is in that form still. -/
structure Steady (s t : State) : Prop where
  params : t.params = s.params
  now : t.now = s.now
  canonical : s.dev.array.wf = true → t.dev.array.wf = true

namespace Steady

theorem refl (s : State) : Steady s s := ⟨rfl, rfl, id⟩

theorem trans (h : Steady s t) (h' : Steady t u) : Steady s u :=
  ⟨h'.params.trans h.params, h'.now.trans h.now, h'.canonical ∘ h.canonical⟩

/-- Draws and turns taken before do not count. -/
theorem of_withEnv {e : Env} (h : Steady (s.withEnv e) t) : Steady s t := ⟨h.params, h.now, h.canonical⟩

theorem raise (s : State) (r : Fault) : Steady s (s.raise r) :=
  ⟨s.raise_params r, s.raise_now r, fun hm => by rwa [State.raise_dev]⟩

/-! ### The operations -/

theorem accept (s : State) (r : Request) (ok : Bool) (f : Frame) : Steady s (s.accept r ok f) := by
  obtain ⟨-, hx⟩ | ⟨-, -, hx⟩ | ⟨-, -, hx⟩ := s.accept_cases r ok f <;> rw [hx]
  · exact .refl s
  · exact ⟨rfl, rfl, id⟩
  · exact .trans (t := s.latch r) ⟨rfl, rfl, id⟩ (.raise _ _)

theorem acceptReserved (s : State) (r : Request) : Steady s (s.acceptReserved r) := by
  obtain ⟨-, hx⟩ | ⟨-, hx⟩ := s.acceptReserved_cases r <;> rw [hx]
  · exact .refl s
  · exact .trans (t := s.latch r) ⟨rfl, rfl, id⟩ (.raise _ _)

theorem settle (stack : List Frame) (s : State) : Steady s (settle stack s) := by
  obtain ⟨_, _, _, _, _, hs⟩ := settle_frame stack s
  rw [hs]; exact ⟨rfl, rfl, id⟩

theorem xactOk (s : State) (w : Wire) (f : WireFrame) : Steady s (s.xactOk w f) := by
  obtain ⟨_, _, _, _, hx⟩ := s.xactOk_frame w f
  rw [hx]; exact ⟨rfl, rfl, fun hm => by rwa [onSuccess_array]⟩

/-- What a failed program or erase writes into its range keeps the array's form (40_sequencer.md R123). -/
theorem xactErr (s : State) (w : Wire) (f : WireFrame) : Steady s (s.xactErr w f) := by
  obtain ⟨c, hc⟩ := s.xactErr_eq w f
  obtain ⟨e, d, hd, hleaves⟩ := onFailure_leaves { s with cs := false } w
  rw [hc, hd]
  refine ⟨rfl, rfl, fun hm => ?_⟩
  obtain ⟨ha, -⟩ | ⟨lo, n, bs, -, -, ha, -⟩ := hleaves
  · exact ha.symm ▸ hm
  · exact ha.symm ▸ Memory.writeRange_wf hm lo bs

theorem xact (s : State) (w : Wire) : Steady s (s.xact w) := by
  obtain ⟨-, hx⟩ | ⟨-, -, ⟨x, -, hx⟩ | ⟨-, e, hx | hx⟩⟩ := s.xact_cases w <;> rw [hx]
  · exact .refl s
  · exact ⟨rfl, rfl, id⟩
  · exact .of_withEnv (.xactOk _ _ _)
  · exact .of_withEnv (.xactErr _ _ _)

theorem exec {i : Instr} (h : exec i s = .next t) : Steady s t := by
  cases i with
  | wireWren | wireRdsr | wireRdid | wireRead | wirePp | wireSe | wireCe => cases h; exact .xact _ _
  | mwrite | wnochk | pprog | serase | cerase | wready | read | reada | rdid => cases h; exact .accept _ _ _ _

theorem startAsync (s : State) (a n : Nat) (below : List Frame) : Steady s (s.startAsync a n below) := by
  obtain ⟨x, -, hx⟩ | ⟨-, e, hx | hx⟩ := s.startAsync_cases a n below
  · rw [hx]; exact .raise s x
  · obtain ⟨c, hc⟩ := State.returnOk_frame (((s.withEnv e).beginAsync a n).log (.astart a n true)) below [] 0
    rw [hx, hc]; exact ⟨rfl, rfl, id⟩
  · obtain ⟨c, hc⟩ :=
      State.fail_frame (State.log { s.withEnv e with cs := false } (.astart a n false)) .transportError .read a
    rw [hx, hc]; exact ⟨rfl, rfl, id⟩

/-! ### The agents' turns -/

theorem engineAction (h : EngineAction s t) : Steady s t := by
  cases h with
  | stop => exact .refl s
  | post hf hc => exact ⟨rfl, rfl, id⟩
  | entry hf hc => exact ⟨rfl, rfl, id⟩
  | deadline hf hc => rw [readDeadline_eq hc]; exact ⟨rfl, rfl, id⟩
  | async hf hi hc => exact .startAsync _ _ _ _
  | wire hf hi hc hw hd ht => exact .exec ht

theorem engineTurn (h : s.engineTurn.outcome = .next t) : Steady s t := by
  cases engineMove_of_turn h with
  | wait => exact .refl s
  | request hc hd hexec => exact .exec hexec
  | reserved d hc => exact .acceptReserved _ _
  | post hc => exact ⟨rfl, rfl, id⟩
  | run hc hact => exact (Steady.settle _ s).trans (.engineAction hact)

theorem dmaStep (s : State) : Steady s s.dmaStep := by
  obtain ⟨-, hx⟩ | ⟨e, c, hx⟩ := s.dmaStep_cases <;> rw [hx]
  · exact .refl s
  · exact ⟨rfl, rfl, id⟩

theorem deviceStep (s : State) : Steady s s.deviceStep := by
  obtain ⟨e, m, hx, hm⟩ := s.deviceStep_frame
  rw [hx]; exact ⟨rfl, rfl, hm⟩

theorem hostMove (s : State) : Steady s s.hostMove := by
  obtain ⟨_, _, _, _, hx⟩ := s.hostMove_frame
  rw [hx]; exact ⟨rfl, rfl, id⟩

end Steady

/-- Every step is steady, or it is the Clock's (10_state.md R37). -/
theorem steady_or_tick (h : step s = .next t) :
    Steady s t ∨ (s.takeTurn.1 = .clock ∧ t = s.takeTurn.2.tickClock) := by
  rw [step_eq (fault_none_of_step h)] at h
  cases hg : s.takeTurn.1 with
  | engine => rw [hg] at h; exact .inl (.of_withEnv (.engineTurn h))
  | dma => rw [hg] at h; cases h; exact .inl (.of_withEnv (.dmaStep _))
  | device => rw [hg] at h; cases h; exact .inl (.of_withEnv (.deviceStep _))
  | clock => rw [hg] at h; cases h; exact .inr ⟨rfl, rfl⟩
  | host => rw [hg] at h; cases h; exact .inl (.of_withEnv (.hostMove _))

/-- Settles O58: every turn but the Clock's is steady, and the Clock's leaves the device alone. -/
theorem stepKeepsArrayCanonical : Obligations.StepKeepsArrayCanonical := by
  intro s t hm h
  obtain hsteady | ⟨-, rfl⟩ := steady_or_tick h
  · exact hsteady.canonical hm
  · exact hm

/-- Settles O60: a step's events are those of `step_logs`, and no turn writes the parameters. -/
theorem traceOnlyGrowsAndParametersStay : Obligations.TraceOnlyGrowsAndParametersStay := by
  intro s t h
  constructor
  · obtain hsteady | ⟨-, rfl⟩ := steady_or_tick h
    · exact hsteady.params
    · rfl
  · obtain htrace | ⟨e, -, htrace⟩ : Logs (fun _ => True) s t :=
      step_logs (fun _ _ => trivial) (engineTurn_logs (fun _ _ => trivial) fun _ _ _ _ _ _ _ _ _ _ _ => trivial) h
    · exact .inl htrace
    · exact .inr ⟨e, htrace⟩

/-! ### The clock (10_state.md R37) -/

/-- Time stands still in a step, or it is the Clock's turn and one millisecond passes. -/
theorem step_now (h : step s = .next t) : t.now = s.now ∨ (s.takeTurn.1 = .clock ∧ t.now = s.now + 1) := by
  obtain hsteady | ⟨hturn, rfl⟩ := steady_or_tick h
  · exact .inl hsteady.now
  · exact .inr ⟨hturn, rfl⟩

theorem step_of_clock_turn (hf : s.fault = none) (hg : s.takeTurn.1 = .clock) :
    step s = .next s.takeTurn.2.tickClock := by
  rw [step_eq hf, hg]; rfl

theorem now_le_of_runs {k : Nat} (h : runs k s = .next t) : s.now ≤ t.now := by
  induction k generalizing s with
  | zero => cases h; exact le_rfl
  | succ k ih =>
    rw [runs_step] at h
    cases hs : step s with
    | next u =>
      rw [hs] at h
      have hstep : s.now ≤ u.now := by have := step_now hs; omega
      exact hstep.trans (ih h)
    | fault r => rw [hs] at h; cases h
    | refused r => rw [hs] at h; cases h

/-- Every run stops or comes to a later time: it gives the Clock a turn. -/
theorem run_passes_time (s : State) : ∃ k, (∀ t, runs k s ≠ .next t) ∨ ∃ t, runs k s = .next t ∧ s.now < t.now := by
  obtain ⟨k, hstop | ⟨t, ht, hturn⟩⟩ := run_gives_turn s (a := .clock) (by decide)
  · exact ⟨k, .inl hstop⟩
  · refine ⟨k + 1, ?_⟩
    rw [runs_succ ht]
    cases hf : t.fault with
    | some r => exact .inl fun u hu => by simp [fault_none_of_step hu] at hf
    | none =>
      have hle := now_le_of_runs ht
      exact .inr ⟨_, step_of_clock_turn hf hturn, Nat.lt_succ_of_le hle⟩

/-- Every run stops or comes to a time past any bound. -/
theorem run_passes_bound (s : State) (bound : Nat) :
    ∃ k, (∀ t, runs k s ≠ .next t) ∨ ∃ t, runs k s = .next t ∧ bound < t.now := by
  induction bound with
  | zero =>
    obtain ⟨k, hstop | ⟨t, ht, hlt⟩⟩ := run_passes_time s
    · exact ⟨k, .inl hstop⟩
    · exact ⟨k, .inr ⟨t, ht, Nat.zero_lt_of_lt hlt⟩⟩
  | succ bound ih =>
    obtain ⟨k, hstop | ⟨t, ht, hbound⟩⟩ := ih
    · exact ⟨k, .inl hstop⟩
    · obtain ⟨j, hj⟩ := run_passes_time t
      refine ⟨k + j, ?_⟩
      rw [runs_add ht]
      exact hj.imp_right fun ⟨u, hu, hlt⟩ => ⟨u, hu, by omega⟩

/-- Settles O26: a listed turn of the Clock is one tick, every other turn is steady, and each run goes on past any bound. -/
theorem onlyTheClockAdvancesTime : Obligations.OnlyTheClockAdvancesTime := by
  refine ⟨fun s rest hf ht => ?_, fun s t h => ?_, run_passes_bound⟩
  · rw [step_turn hf ht]; rfl
  · obtain hnow | ⟨hturn, hnow⟩ := step_now h
    · exact ⟨hnow.ge, fun hne => absurd hnow hne⟩
    · exact ⟨by omega, fun _ => ⟨hturn, hnow⟩⟩

end Sys2Proof.Safety
end

section
/-! PROOFS. From a consistent state every step has a meaning (10_state.md R27, 20_memory.md R63, 30_encoding.md R88): no
instruction stops the machine, and the frame the engine builds is a command. -/

namespace Sys2Proof.Safety

open Sys2Proof.Machine

variable {s u : State} {f : Frame} {below : List Frame}

/-- Every instruction has a next state in every state. -/
theorem exec_next (i : Instr) (s : State) : ∃ t, exec i s = .next t := by cases i <;> exact ⟨_, rfl⟩

/-- A settled head's turn has a next state: held, it waits or reads the clock; else its frame is a command (R110, R125). -/
theorem act_next (ho : u.params.ops.distinct = true) (hr : ∀ a, f ≠ .read a 0) (hc : u.ctl = .busy (f :: below)) :
    ∃ t, (s.act u f below).outcome = .next t := by
  cases hi : s.inflight with
  | false =>
    obtain ⟨t, ht, -⟩ := act_goesOn ho hi hr hc
    exact ⟨t, ht⟩
  | true =>
    unfold State.act
    split
    · exact ⟨_, rfl⟩
    · exact ⟨_, rfl⟩
    · rw [if_pos hi]; exact ⟨s, rfl⟩
    · split
      · exact ⟨u, rfl⟩
      · rw [if_pos hi]; exact ⟨s, rfl⟩

/-- The engine's turn has a next state: the stack it runs settles at a legal action, so that its bytes decode. -/
theorem engineTurn_next (h : Consistent s) (hf : s.fault = none) : ∃ t, s.engineTurn.outcome = .next t := by
  unfold State.engineTurn
  split
  case h_1 =>
    split
    · exact ⟨s, rfl⟩
    · split
      · exact exec_next _ s
      · exact ⟨_, rfl⟩
  case h_2 => exact ⟨_, rfl⟩
  case h_3 stack hc =>
    obtain ⟨r, hl, hlegal, hdev⟩ := h.running hf hc
    have hset := settle_settled stack s hl (returns_of_legal hlegal hdev)
    rw [State.proceed, if_neg (by simp [hset.fault])]
    obtain ⟨x, hx⟩ | ⟨f, below, hu, -⟩ := hset.ctl
    · rw [hx]; exact ⟨_, rfl⟩
    · have hread : ∀ a, f ≠ .read a 0 := fun a ha => absurd (settle_read_pos hlegal hset (ha ▸ hu)) (Nat.lt_irrefl 0)
      rw [hu]
      exact act_next (params_wf hset.params).2.2.2 hread hu

/-- A consistent machine goes on, whoever has the turn, unless a fault is marked: then it stops with that (R33). -/
theorem step_goes_on_or_stops (h : Consistent s) :
    (∃ t, step s = .next t) ∨ ∃ x, s.fault = some x ∧ step s = .fault x := by
  cases hf : s.fault with
  | some x => exact .inr ⟨x, rfl, by simp [step, hf]⟩
  | none =>
    left
    rw [step_eq hf]
    cases s.takeTurn.1 with
    | engine => exact engineTurn_next (s := s.takeTurn.2) (withEnv_keeps h _) hf
    | dma | device | clock | host => exact ⟨_, rfl⟩

/-- A marked fault that is none of the engine's own is one of a host's wrong request (60_exceptions.md R224). -/
theorem host_fault_of_not_engineFault {r : Fault} (h : engineFault r = false) :
    r = .contractViolation ∨ r = .reservedOp ∨ r = .deviceBusyAccess := by
  cases r with
  | contractViolation => exact .inl rfl
  | reservedOp => exact .inr (.inl rfl)
  | deviceBusyAccess => exact .inr (.inr rfl)
  | noWriteEnable | deviceDefined | unwrittenScratch => cases h

/-- Settles O54: without a mark the machine goes on to a consistent state, with one it stops for that fault, and a consistent
state's mark is none of the engine's own. -/
theorem engineNeverFaultsByItself : Obligations.EngineNeverFaultsByItself := by
  intro s h
  have hmarked : ∀ t r, step s = .next t → t.fault = some r →
      r = .contractViolation ∨ r = .reservedOp ∨ r = .deviceBusyAccess := fun t r ht hr =>
    host_fault_of_not_engineFault ((stepKeepsConsistency s t h ht).fault r hr)
  obtain ⟨t, hnext⟩ | ⟨x, hf, hstop⟩ := step_goes_on_or_stops h
  · rw [hnext] at hmarked ⊢
    exact ⟨nofun, nofun, hmarked⟩
  · rw [hstop] at hmarked ⊢
    exact ⟨nofun, fun r hr => by cases hr; exact ⟨hf, h.fault x hf⟩, hmarked⟩

end Sys2Proof.Safety
end

section
/-! PROOFS. Single turns: a request that waits (10_state.md R43), an erase or a failed transaction that lands (40_sequencer.md
R122), the host's moves (R42), a fetched request (R43) and a posted response (60_exceptions.md R226); the words of the test
vectors, and reset (10_state.md R44, R45). -/

namespace Sys2Proof.Safety

open Sys2Proof.Machine

variable {s : State} {rest : List Config.Agent}

/-! ### A request that waits (R43) -/

theorem canAccept_of_not_ready (h : ¬Ready s) (op : Byte) : s.canAccept op = false :=
  Bool.eq_false_iff.mpr fun hcan =>
    have ⟨hctl, hfault, hresp, _⟩ := (s.canAccept_iff op).mp hcan
    h ⟨hctl, hfault, hresp⟩

theorem canAccept_reada_of_unconsumed (h : s.cmpl.valid = true) : s.canAccept opReada = false :=
  Bool.eq_false_iff.mpr fun hcan => by
    obtain ⟨-, -, -, hcmpl⟩ := (s.canAccept_iff opReada).mp hcan
    simp [hcmpl rfl] at h

/-- Settles O10: a request is its acceptance, and an acceptance that is not enabled changes nothing. -/
theorem requestsWaitUntilAcceptable : Obligations.RequestsWaitUntilAcceptable := by
  rintro s i hi (hready | ⟨⟨a, n, rfl⟩, hcmpl⟩)
  · obtain ⟨r, ok, f, hexec, -⟩ := exec_request_accepts hi s
    rw [hexec, State.accept_waits (canAccept_of_not_ready hready r.op)]
  · exact congrArg Host.Outcome.next (State.accept_waits (canAccept_reada_of_unconsumed hcmpl) _ _)

/-! ### The Device's turn (R122) -/

/-- What is left of a failed transaction lands as drawn bytes in its range (R123). -/
theorem deviceStep_havoc {lo hi : Nat} (hp : s.dev.pending = .havoc lo hi) :
    ∃ e bs, bs.length = hi - lo
      ∧ s.deviceStep = (s.withEnv e).withDev (s.dev.settled (s.dev.array.writeRange lo bs)) := by
  obtain ⟨e, he⟩ := s.drawBytes_env (hi - lo)
  exact ⟨e, _, s.length_drawBytes (hi - lo), by simp [State.deviceStep, hp, he]⟩

/-- Settles O23: the Device's turn erases every address of the flash, or writes drawn bytes into the range alone. -/
theorem chipEraseAndHavocLand : Obligations.ChipEraseAndHavocLand := by
  intro s rest hf ht hm
  have hstep : step s = .next (s.withEnv { s.env with turns := rest }).deviceStep := step_turn hf ht
  refine ⟨fun hp => ?_, fun lo hi hp hle => ?_⟩
  · have hdev := Erase.deviceStep_pending (s := s.withEnv { s.env with turns := rest }) (e := .chip) hp
    refine ⟨_, hstep.trans (congrArg _ hdev), rfl, rfl, rfl, fun x => ?_⟩
    have hread := Memory.read_erase hm 0 s.params.capacity x
    exact hread.trans (by simp)
  · obtain ⟨e, bs, hlen, hdev⟩ := deviceStep_havoc (s := s.withEnv { s.env with turns := rest }) hp
    refine ⟨_, hstep.trans (congrArg _ hdev), rfl, rfl, rfl, fun x hx => ?_⟩
    have hread := Memory.read_writeRange hm lo bs x
    rwa [if_neg (by omega)] at hread

/-! ### The host's turn (R42, 60_exceptions.md R242) -/

section hostMove

variable {ms : List HostMove}

theorem hostMove_issue {d : Descriptor} (h : s.host = .issue d :: ms) :
    s.hostMove = if s.port = none then { s with port := some d, host := ms } else s := by
  simp [State.hostMove, h]

theorem hostMove_takeResp (h : s.host = .takeResp :: ms) :
    s.hostMove = if s.resp.valid then { s with resp := ⟨false, s.resp.record⟩, host := ms } else s := by
  simp [State.hostMove, h]

theorem hostMove_takeCmpl (h : s.host = .takeCmpl :: ms) :
    s.hostMove = if s.cmpl.valid then { s with cmpl := ⟨false, s.cmpl.record⟩, host := ms } else s := by
  simp [State.hostMove, h]

end hostMove

/-- Settles O27: each move is taken where it is enabled and waits where it is not. -/
theorem hostMovesActOnThePortsOnly : Obligations.HostMovesActOnThePortsOnly := by
  intro s m ms rest hf ht hm
  have hstep : step s = .next (s.withEnv { s.env with turns := rest }).hostMove := step_turn hf ht
  have hnext : (s.withEnv { s.env with turns := rest }).host = m :: ms := hm
  cases m with
  | issue d =>
    rw [hostMove_issue hnext] at hstep
    exact ⟨fun hp => hstep.trans (congrArg _ (if_pos hp)), fun hp => hstep.trans (congrArg _ (if_neg hp))⟩
  | takeResp =>
    rw [hostMove_takeResp hnext] at hstep
    exact ⟨fun hv => hstep.trans (congrArg _ (if_pos hv)), fun hv => hstep.trans (congrArg _ (if_neg (by simp [hv])))⟩
  | takeCmpl =>
    rw [hostMove_takeCmpl hnext] at hstep
    exact ⟨fun hv => hstep.trans (congrArg _ (if_pos hv)), fun hv => hstep.trans (congrArg _ (if_neg (by simp [hv])))⟩

/-! ### The engine's turn at a request's two ends (R43, 60_exceptions.md R226) -/

/-- Settles O28: the engine's turn at the request port. -/
theorem stepRunsTheRequest : Obligations.StepRunsTheRequest :=
  fun _ _ _ _ hf ht hc hport hd => step_fetches hf ht hc hport hd

/-- Settles O41: the engine's turn after the end of a request posts `Exit.response`. -/
theorem endedRequestPostsItsResponse : Obligations.EndedRequestPostsItsResponse :=
  fun _ _ hf ht => ⟨fun _ _ _ hc => step_ending hf ht hc, fun _ _ hc => step_ending hf ht hc⟩

/-! ### Encodings and reset -/

/-- Settles O2: each word is decoded by computation. -/
theorem specWordsDecode : Obligations.SpecWordsDecode := by
  unfold Obligations.SpecWordsDecode
  decide

/-- The constraints of R9 to R11 on the parameters after reset. -/
theorem reset_params_wf : State.reset.params.wf = true := by decide

/-- Settles O52: after reset the engine is idle with an empty latch, the bus is quiet, the array is empty, the Scratch Buffer has
its cells, and no fault is marked (10_state.md R44, R45). -/
theorem resetIsConsistent : Obligations.ResetIsConsistent := by
  have hgrounded : Grounded State.reset :=
    { params := reset_params_wf
      bus := ⟨rfl, rfl, nofun⟩
      array := ⟨reset_array_wf, rfl⟩
      pending := trivial
      scratch := List.length_replicate }
  exact ⟨hgrounded.consistent rfl rfl, .of_not_atCommand fun _ _ _ hc => by cases hc⟩

end Sys2Proof.Safety
end
